-- ==== Sys2Proof/Word.lean ====
section
/-! DEFINITION. The words of the ES-340: bytes, 16-bit and 32-bit values, 40-bit tags, lane and level numbers. -/

namespace Sys2Proof

/-- One byte of the host link or of a lane pair. -/
abbrev Byte := BitVec 8

/-- A 16-bit value: a tool ID, a maker code, the generation, a CONFIGURE value. -/
abbrev Word16 := BitVec 16

/-- A 32-bit value: an object, or the serial of a tag. -/
abbrev Word32 := BitVec 32

/-- A node's 40-bit tag: an 8-bit class code followed by a 32-bit serial (00_scope.md, Tags). -/
abbrev Tag := BitVec 40

/-- A lane number, 0..3 (00_scope.md, Capacities). -/
abbrev LaneId := Fin 4

/-- An attention level that can be served, 0..2 (00_scope.md, Capacities). -/
abbrev LevelId := Fin 3

/-- One base-four digit of a tag, two bits (00_scope.md, Tag digits). -/
abbrev Digit := Fin 4

/-- A survey prefix: the leading digits of a tag, most significant first; its length in bits is twice
the number of digits (00_scope.md, Tag digits and prefixes). -/
abbrev Digits := List Digit

end Sys2Proof
end

