-- ==== Sys2Proof/Syntax.lean ====
section
/-! DEFINITION. The commands of the ES-340: one constructor per row of spec/opcode_table.json. -/

namespace Sys2Proof

/-- The two mate-sense inputs (R1). -/
inductive SensePin where
  | lead
  | seat
deriving DecidableEq, Repr

/-- The level of a sense input (R1). -/
inductive Contact where
  | opened
  | closed
deriving DecidableEq, Repr

/-- The commands and events, in the order of the table. A REQUEST row is the step at which the Request Unit
takes the request at the head of the request queue (R187), so its arguments (kind, token, payload) are those
of the queued frame and the row carries none; an EVENT row carries what the event brings from outside. -/
inductive Instr where
  /-- R1: a sense input is found at a new level, held for at least 50 µs. -/
  | senseEvent (pin : SensePin) (level : Contact)
  /-- R2: the debounce timer expires. -/
  | debounceExpiry
  /-- R3: the partial timer expires. -/
  | partialExpiry
  /-- R12: request 0x08. -/
  | plugEnable
  /-- R13: request 0x09. -/
  | plugDisable
  /-- R196: RESET_N has been low for 10 µs. -/
  | resetNAssert
  /-- R196: power-on, or VDD falls below its range; whether RESET_N is held low then (not, where nothing is said). -/
  | powerOn (resetLow : Bool := false)
  /-- R194: reset release; the levels of RATE1 and RATE0 (true is high). -/
  | resetRelease (rate1 rate0 : Bool)
  /-- R184: the bytes that bring a frame to its end (the whole frame, or what of it is still to come). -/
  | receiveFrame (bytes : List Byte)
  /-- R184: the gap timer expires inside a frame. -/
  | gapTimerExpiry
  /-- R189: TXD finishes a frame; the levels of RATE1 and RATE0, which a FULL reset samples (R182). -/
  | transmitFrameEnd (rate1 rate0 : Bool)
  /-- R187: the request taken has a KIND that is no request kind. -/
  | unknownKind
  /-- R191: request 0x01. -/
  | status
  /-- R195: request 0x02. -/
  | ident
  /-- R17, R192: request 0x03, parameter 0x01. -/
  | configureLaneEnableMask
  /-- R106, R192: request 0x03, parameter 0x02. -/
  | configureMissLimit
  /-- R99, R192: request 0x03, parameter 0x03. -/
  | configurePollGap
  /-- R63, R192: request 0x03, parameter 0x04. -/
  | configureRescanInterval
  /-- R145, R192: request 0x03, parameter 0x05. -/
  | configureAttentionTimeout
  /-- R151, R192: request 0x03, parameter 0x06. -/
  | configureRotation
  /-- R190, R192: request 0x03, parameter 0x07. -/
  | configureNoticeMask
  /-- R193: request 0x04, kind 0x01. -/
  | resetSoft
  /-- R193: request 0x04, kind 0x02. -/
  | resetFull
  /-- R38: request 0x10. -/
  | faults
  /-- R68: request 0x11. -/
  | rescan
  /-- R69: request 0x12. -/
  | laneRestart
  /-- R88: request 0x18. -/
  | lookup
  /-- R90: request 0x19. -/
  | find
  /-- R91: request 0x1A. -/
  | purge
  /-- R110: request 0x1B, mode AUTO. -/
  | overrideAuto
  /-- R108: request 0x1B, mode FORCED_PRESENT. -/
  | overrideForcedPresent
  /-- R109: request 0x1B, mode FORCED_ABSENT. -/
  | overrideForcedAbsent
  /-- R118 to R120: request 0x20. -/
  | readObjects
  /-- R118 to R120: request 0x21. -/
  | writeObject
  /-- R143: request 0x24. -/
  | attnDone
  /-- R146: request 0x25. -/
  | attnMask
  /-- R155: request 0x28. -/
  | manifestBegin
  /-- R156: request 0x29. -/
  | manifestEntry
  /-- R157: request 0x2A. -/
  | manifestEnd
  /-- R158: request 0x2B. -/
  | manifestErase
  /-- R159: request 0x2C. -/
  | manifestRead
  /-- R172: request 0x2D. -/
  | resolve
  /-- R174: request 0x30. -/
  | snapshot
  /-- R177: request 0x31. -/
  | snapshotPage
  /-- R178: request 0x32. -/
  | snapshotRelease
  /-- R19, R20: the lane's switch has held the current limit for 1 ms. -/
  | overcurrentTrip (lane : LaneId)
  /-- R23: the lane's settle timer expires. -/
  | settleTimerExpiry (lane : LaneId)
  /-- R25: the lane's restart timer expires. -/
  | restartTimerExpiry (lane : LaneId)
  /-- R62: the lane's rescan timer expires. -/
  | rescanTimerExpiry (lane : LaneId)
  /-- R99: the lane's poll gap timer expires. -/
  | pollGapTimerExpiry (lane : LaneId)
  /-- R133: the lane's rollcall gap timer expires. -/
  | rollcallGapTimerExpiry (lane : LaneId)
  /-- R16, R133: LATNn changes level; true is asserted (pulled low). -/
  | latnChange (lane : LaneId) (asserted : Bool)
  /-- R144: the deadline of the in-service record of a level falls due. -/
  | attentionDeadlineExpiry (lane : LaneId) (level : LevelId)
  /-- R127: the access timer expires. -/
  | accessTimerExpiry
  /-- R32: the last byte of the lane's telegram has been sent. -/
  | telegramSent (lane : LaneId)
  /-- R32: no carrier within 300 µs of the end of the telegram. -/
  | answerTimeout (lane : LaneId)
  /-- R32: carrier ends; whether contention was sensed in the window, and the bytes received. -/
  | answerEnd (lane : LaneId) (contention : Bool) (bytes : List Byte)
  /-- R32: carrier is still present 1 ms after the end of the telegram. -/
  | carrierLimitExpiry (lane : LaneId)
  /-- R35: the 30 slots end; bit k - 1 is set when carrier was sensed in slot k. -/
  | rollcallSlotsEnd (lane : LaneId) (hits : BitVec 30)
  /-- R32, R33: the pair has been quiet for 40 µs. -/
  | quietWaitEnd (lane : LaneId)
  /-- R32: the wait for quiet has lasted 1 ms. -/
  | quietWaitLimitExpiry (lane : LaneId)
  /-- R170: the Binding Resolver takes the oldest node-named report. -/
  | nodeNamedReport
  /-- R184: one byte taken on RXD. -/
  | byteReceived (byte : Byte)
  /-- R32: carrier appears on the lane pair. -/
  | carrierBegins (lane : LaneId)
deriving DecidableEq, Repr

end Sys2Proof
end

