-- ==== Sys2Proof/Config.lean ====
section
/-! DEFINITION. What is fixed for the part: the times and capacities the manual gives, and the free
values, which the manual leaves open (constants without a body, so nothing can be proved of their value). -/

namespace Sys2Proof.Config

/-- R2: the debounce time, in ms. -/
abbrev debounceMs : Nat := 20
/-- R3: the partial time, in ms. -/
abbrev partialMs : Nat := 500
/-- R23: the settle time, in ms. -/
abbrev settleMs : Nat := 50
/-- R25: the restart hold, in ms. -/
abbrev restartMs : Nat := 100
/-- R120: the access time limit, in ms. -/
abbrev accessMs : Nat := 250
/-- R184: the gap time inside a frame, in ms. -/
abbrev gapMs : Nat := 5
/-- R33, R47: attempts at a directed telegram, and at a SURVEY of 40 bits. -/
abbrev attempts : Nat := 3
/-- R114: a requestor whose passed-over count is this or more is due. -/
abbrev dueCount : Nat := 8
/-- R72: directory entries and handles. -/
abbrev maxEntries : Nat := 64
/-- R73: entries and addresses of one lane. -/
abbrev maxOnLane : Nat := 30
/-- R186: places of the request queue. -/
abbrev requestPlaces : Nat := 4
/-- R190: places of the notice queue. -/
abbrev noticePlaces : Nat := 16
/-- The digits of a whole tag: 40 bits (00_scope.md, Tag digits). -/
abbrev tagDigits : Nat := 20

/-- FREE VALUE. The two tool-ID bytes of a TOOL notice, of a STATUS reply and of a RESOLVE reply that say
the tool ID is absent: R197 gives a substitute for an absent field of ONE byte only. Applied to the state's
counter of draws. Log entry 9. -/
opaque absentToolId : Nat → Word16

/-- FREE VALUE. The two tool-ID bytes of an entry record whose descriptor is present and carries no tool ID
(section 10.14 gives 0 for an absent descriptor only). Applied to the counter of draws and the tag. Log
entry 9. -/
opaque absentRecordToolId : Nat → Tag → Word16

/-- FREE VALUE. The place, among the notices of an overcurrent trip, at which the Request Unit builds the
reply LANE_FAULT (R20, R128: the manual orders the notices, not the reply). Log entry 10. -/
opaque tripReplyPlace : Nat → Nat

/-- FREE VALUE. Whether, at a session close, the reply DETACHED is built before the TOOL notice: section
10.12 says that the two blocks act on the close independently. Log entry 10. -/
opaque closeReplyFirst : Nat → Bool

end Sys2Proof.Config
end

