-- ==== Sys2Proof/Machine/State.lean ====
section
/-! DEFINITION. The state of the ES-340, block by block as 00_scope.md lists them, and its value after reset. -/

namespace Sys2Proof.Machine

/-! ### Shapes -/

/-- Four like things, one per lane. -/
structure Four (α : Type) where
  a0 : α
  a1 : α
  a2 : α
  a3 : α
deriving DecidableEq, Repr

/-- Three like things, one per attention level. -/
structure Three (α : Type) where
  l0 : α
  l1 : α
  l2 : α
deriving DecidableEq, Repr

/-- A millisecond timer: stopped, or running with a deadline (the tick count from which it may expire). -/
abbrev Timer := Option Nat

/-! ### Names the manual gives -/

/-- R197: plug state. -/
inductive PlugState where
  | detached | mating | partialMate | attached
deriving DecidableEq, Repr

/-- Section 2.2: lane state. -/
inductive LaneState where
  | disabled | off | settling | enumerating | supervising | rescanning | faulted
deriving DecidableEq, Repr

/-- R37: lane fault cause. -/
inductive FaultCause where
  | none | noAnswer | duplicateTag | laneFull | directoryFull | overcurrent | strayAttention
deriving DecidableEq, Repr

/-- R77: presence. -/
inductive Presence where
  | present | suspect | lost
deriving DecidableEq, Repr

/-- R77: override. -/
inductive Override where
  | auto | forcedPresent | forcedAbsent
deriving DecidableEq, Repr

/-- R78: attention state. -/
inductive AttnState where
  | idle | pending | inService
deriving DecidableEq, Repr

/-- R76: object access of a binding. -/
inductive Access where
  | ro | rw
deriving DecidableEq, Repr

/-- R151: attention rotation. -/
inductive Rotation where
  | fixed | rotating
deriving DecidableEq, Repr

/-- R166: tool status. -/
inductive ToolStatus where
  | none | enumerating | conflict | unresolved | incomplete | ready
deriving DecidableEq, Repr

/-- Section 8.3: the Resolver's session phase. -/
inductive SessionPhase where
  | none | enumerating | resolved
deriving DecidableEq, Repr

/-- R185: link fault cause. -/
inductive LinkFault where
  | none | check | length | gap | overrun
deriving DecidableEq, Repr

/-- R182: the link rate. -/
inductive Baud where
  | b115200 | b460800 | b921600 | b2000000
deriving DecidableEq, Repr

/-- R193, R194: the cause a RESTARTED notice carries. -/
inductive RestartCause where
  | power | pin | full | soft
deriving DecidableEq, Repr

/-- R197: NODE event. -/
inductive NodeEvent where
  | named | rejoined | present | suspect | lost | fault | purged
deriving DecidableEq, Repr

/-- R153: ATTENTION_ENDED reason. -/
inductive EndReason where
  | expired | lost | isolated | laneFault
deriving DecidableEq, Repr

/-- Section 10.11: the status byte of a reply. -/
inductive Status where
  | ok | unknownKind | badArgument | notNow | noSuchHandle | noSuchRole | nodeLost | isolated | noDescriptor
  | outOfRange | denied | nodeRefused | noAnswer | timeout | detached | laneFault
  | notLoading | sequence | incomplete | duplicateRole | noSlot | latchedAlready | notLatched | notInService
deriving DecidableEq, Repr

/-! ### Node Directory -/

/-- R75: what a node reports in answer to DESCRIBE. -/
structure Descriptor where
  maker : Word16
  revision : Byte
  objectCount : Nat
  attnCapable : Bool
  label : List Byte
  toolId : Option Word16
deriving DecidableEq, Repr

/-- R76: the copy of a manifest binding that an entry holds; a level of none is off. -/
structure Binding where
  index : Nat
  role : List Byte
  level : Option LevelId
  access : Access
  required : Bool
deriving DecidableEq, Repr

/-- Section 4.1: one entry of the Node Directory. -/
structure Entry where
  handle : Nat
  lane : LaneId
  addr : Nat
  tag : Tag
  identity : Bool
  presence : Presence
  miss : Nat
  override : Override
  nodeFault : Bool
  descriptor : Option Descriptor
  binding : Option Binding
  attention : AttnState
  masked : Bool
  discarded : Nat
deriving DecidableEq, Repr

/-- R82: the handle, lane, lane address and tag that an update from a lane telegram carries. -/
structure Target where
  handle : Nat
  lane : LaneId
  addr : Nat
  tag : Tag
deriving DecidableEq, Repr

/-- The Node Directory: entries in ascending handle order (R72) and the generation (R81). -/
structure Directory where
  entries : List Entry
  generation : Word16
deriving DecidableEq, Repr

/-! ### Lane Controller -/

/-- R37: the lane fault record. -/
structure FaultRecord where
  cause : FaultCause
  addr : Option Nat
  tag : Option Tag
deriving DecidableEq, Repr

/-- R198: the ten telegrams. DESCRIBE also says whether the addressed node's class is 0x01, which R32's form
test needs. -/
inductive Telegram where
  | forget
  | survey (p : Digits)
  | assign (tag : Tag) (addr : Nat)
  | describe (addr : Nat) (identity : Bool)
  | ping (addr : Nat)
  | read (addr obj : Nat)
  | write (addr obj : Nat) (value : Word32)
  | rollcall
  | heed (addr : Nat)
  | clear (addr : Nat)
deriving DecidableEq, Repr

/-- R198: a node's answer, read from its bytes. -/
inductive Answer where
  | ack
  | tag (t : Tag)
  | descriptor (d : Descriptor)
  | status (nodeFault : Bool)
  | value (v : Word32)
  | cause (code : Byte) (data : List Byte)
deriving DecidableEq, Repr

/-- R32 to R35: how one attempt at a telegram ended. -/
inductive AttemptResult where
  | noAnswer
  | invalid
  | refused
  | valid (a : Answer)
  | silent
  | clean (t : Tag)
  | collided
  | sent
  | hits (h : BitVec 30)
deriving DecidableEq, Repr

/-- R33 to R35: the outcome of a telegram, as it is delivered to the requestor. (LANE_FAULT, R36, is delivered
by the trip and the restart themselves.) -/
inductive TelegramOutcome where
  | answered (a : Answer)
  | refused
  | noAnswer
  | silent
  | clean (t : Tag)
  | collided
  | sent
  | hits (h : BitVec 30)
deriving DecidableEq, Repr

/-- R32, R35: where the Telegram Engine stands with the attempt under way. -/
inductive EnginePhase where
  | sending
  | window
  | receiving
  | slots
  | quiet (r : AttemptResult)
deriving DecidableEq, Repr

/-- Section 2.7: the telegram under way, the attempt (1..3) and its phase. -/
structure Underway where
  telegram : Telegram
  attempt : Nat
  phase : EnginePhase
deriving DecidableEq, Repr

/-- R41: the telegram the Survey Engine requests, with the entry a DESCRIBE or a recall PING is for (R82). -/
inductive SurveyWork where
  | forget
  | survey (p : Digits)
  | assign (tag : Tag) (addr : Nat)
  | describe (t : Target)
  | recall (t : Target)
deriving DecidableEq, Repr

/-- Section 6.1: the four requestors, in priority order. -/
inductive Requestor where
  | attention | access | survey | poll
deriving DecidableEq, Repr

/-- Section 6.1: the grant, and what it is for; an ACCESS grant is for one telegram or a BLOCK run. -/
inductive Grant where
  | attention
  | access (block : Bool)
  | survey (w : SurveyWork)
  | poll (t : Target)
deriving DecidableEq, Repr

/-- Section 6.1: the standing requests; ATTENTION does not choose its telegram when it requests (R132). -/
structure Standing where
  attention : Bool
  access : Option Bool
  survey : Option SurveyWork
  poll : Option Target
deriving DecidableEq, Repr

/-- R114: the passed-over counts. -/
structure Passed where
  attention : Nat
  access : Nat
  survey : Nat
  poll : Nat
deriving DecidableEq, Repr

/-- Section 6.1: the Lane Arbiter. -/
structure Arbiter where
  grant : Option Grant
  standing : Standing
  passed : Passed
deriving DecidableEq, Repr

/-- Section 3.1: the kind of pass in progress. -/
inductive PassKind where
  | initial | rescan
deriving DecidableEq, Repr

/-- Section 3.1: the part of the pass in progress. -/
inductive PassStep where
  | forget | recall | describe | walk
deriving DecidableEq, Repr

/-- R43, R47: the current prefix of a walk and its attempt number. -/
structure Current where
  digits : Digits
  attempt : Nat
deriving DecidableEq, Repr

/-- R50: the kind of a naming step. -/
inductive NamingKind where
  | new | rejoin | reclaim
deriving DecidableEq, Repr

/-- R51, R54: the stage of a naming step. -/
inductive NamingStage where
  | assign | describe
deriving DecidableEq, Repr

/-- Section 3.1: the naming of one singled-out node. -/
structure Naming where
  tag : Tag
  kind : NamingKind
  handle : Nat
  addr : Nat
  stage : NamingStage
deriving DecidableEq, Repr

/-- Section 3.1: the Survey Engine (its rescan timer is with the lane timers). The survey stack's top is the
head of the list. -/
structure Survey where
  pass : Option PassKind
  step : Option PassStep
  stack : List Digits
  current : Option Current
  naming : Option Naming
  position : Option Nat
deriving DecidableEq, Repr

/-- Section 5.1: the Presence Poller's phase. -/
inductive PollPhase where
  | inactive | round | gap
deriving DecidableEq, Repr

/-- Section 5.1: the Presence Poller (its poll gap timer is with the lane timers). -/
structure Poller where
  phase : PollPhase
  roundSet : List Nat
  position : Option Nat
  ping : Option Target
deriving DecidableEq, Repr

/-- Section 7.1: an in-service record. -/
structure InService where
  handle : Nat
  deadline : Timer
deriving DecidableEq, Repr

/-- R137: an item of the clear list; a stray has no handle and tag. -/
structure ClearItem where
  addr : Nat
  owner : Option (Nat × Tag)
deriving DecidableEq, Repr

/-- R139: the heed in flight. -/
structure Heed where
  target : Target
  level : LevelId
deriving DecidableEq, Repr

/-- Section 7.1: the Attention Service. The pending set is not stored: it is the set of the lane's entries whose
attention state is PENDING. Its rollcall gap timer is with the lane timers. -/
structure Attention where
  slots : Three (Option InService)
  lastServed : Three (Option Nat)
  clearList : List ClearItem
  heed : Option Heed
deriving DecidableEq, Repr

/-- R120: the kind of a run, with the value of a WRITE. -/
inductive RunKind where
  | read
  | write (value : Word32)
deriving DecidableEq, Repr

/-- R120: a run of the Object Access Engine; the completed count is the length of a READ's list of values.
`abandoned` marks a run whose reply TIMEOUT has been sent while its telegram is still under way (R127). -/
structure Run where
  kind : RunKind
  block : Bool
  target : Target
  first : Nat
  count : Nat
  completed : Nat
  values : List Word32
  abandoned : Bool
deriving DecidableEq, Repr

/-- One Lane Controller with its sub-units, parameters, timers and its place in the lane-enable mask. -/
structure Lane where
  state : LaneState
  enabled : Bool
  power : Bool
  pollGapMs : Nat
  rescanSeconds : Nat
  rotation : Rotation
  duplicateSeen : Bool
  fault : FaultRecord
  latn : Bool
  settleTimer : Timer
  restartTimer : Timer
  rescanTimer : Timer
  pollGapTimer : Timer
  rollcallGapTimer : Timer
  engine : Option Underway
  arbiter : Arbiter
  survey : Survey
  poller : Poller
  attention : Attention
  run : Option Run
deriving DecidableEq, Repr

/-! ### Mate Monitor -/

/-- Section 1.1: the Mate Monitor. -/
structure Mate where
  lead : Contact
  seat : Contact
  plug : PlugState
  enabled : Bool
  debounce : Timer
  partialTimer : Timer
  session : Bool
deriving DecidableEq, Repr

/-! ### Manifest Store and Binding Resolver -/

/-- Section 8.1: one binding of a manifest; a lane of none is ANY, a level of none is off. Its index is its
position. -/
structure ManifestBinding where
  role : List Byte
  lane : Option LaneId
  cls : Byte
  serial : Option Word32
  required : Bool
  level : Option LevelId
  access : Access
deriving DecidableEq, Repr

/-- Section 8.1: a committed manifest; its binding count is the length of the list. -/
structure Manifest where
  toolId : Word16
  bindings : List ManifestBinding
deriving DecidableEq, Repr

/-- Section 8.1: the load in progress; the expected index is the number of bindings received so far. -/
structure Load where
  slot : Fin 8
  toolId : Word16
  count : Nat
  received : List ManifestBinding
deriving DecidableEq, Repr

/-- Section 8.1: the Manifest Store. -/
structure Store where
  slots : Vector (Option Manifest) 8
  load : Option Load
deriving DecidableEq, Repr

/-- R167: the counts. -/
structure Counts where
  bound : Nat
  requiredMissing : Nat
  optionalMissing : Nat
  extras : Nat
deriving DecidableEq, Repr

/-- R61, R170: a node-named report on its way to the Resolver: the handle, the entry's tag, and the session phase in which it
was made. -/
structure Report where
  handle : Nat
  tag : Tag
  phase : SessionPhase
deriving DecidableEq, Repr

/-- Section 8.3: the Binding Resolver, with the node-named reports it has not taken yet, oldest first. -/
structure Resolver where
  phase : SessionPhase
  finished : Four Bool
  applied : Option (Fin 8)
  toolId : Option Word16
  conflict : Bool
  status : ToolStatus
  counts : Counts
  reports : List Report
deriving DecidableEq, Repr

/-! ### Snapshot Buffer -/

/-- Section 9.1: a latched snapshot: its generation, the entries as they stood, one page-read mark per page, and
the draw that fixes the free bytes of its records. -/
structure Snapshot where
  generation : Word16
  copy : List Entry
  marks : List Bool
  draw : Nat
deriving DecidableEq, Repr

/-! ### Link Unit and Request Unit -/

/-- Section 10.7: the seven notices. TOOL carries the draw that fixes its free bytes when it names no tool ID. -/
inductive Notice where
  | restarted (cause : RestartCause)
  | plug (state : PlugState)
  | tool (status : ToolStatus) (toolId : Option Word16) (slot : Option (Fin 8)) (counts : Counts) (draw : Nat)
  | node (handle : Nat) (event : NodeEvent)
  | attention (handle : Nat) (level : LevelId) (cause : Byte) (data : List Byte)
  | attentionEnded (handle : Nat) (reason : EndReason)
  | lane (lane : LaneId) (state : LaneState) (cause : Option FaultCause)
deriving DecidableEq, Repr

/-- R186: a request of the queue. -/
structure Request where
  kind : Byte
  token : Byte
  payload : List Byte
deriving DecidableEq, Repr

/-- R183: a reply; `kind` is the byte sent. -/
structure Reply where
  kind : Byte
  token : Byte
  status : Status
  payload : List Byte
deriving DecidableEq, Repr

/-- R189: a reply waiting for TXD, and how many notices recorded ahead of it remain. -/
structure WaitingReply where
  reply : Reply
  ahead : Nat
deriving DecidableEq, Repr

/-- R189: the frame that TXD carries. -/
inductive Outgoing where
  | notice (n : Notice)
  | reply (r : Reply)
deriving DecidableEq, Repr

/-- R184: the receiver, hunting or inside a frame, with the bytes received after START. -/
inductive Receiver where
  | hunting
  | inFrame (got : List Byte)
deriving DecidableEq, Repr

/-- R190: the notice mask; true is sent. -/
structure NoticeMask where
  plug : Bool
  tool : Bool
  node : Bool
  attention : Bool
  attentionEnded : Bool
  lane : Bool
deriving DecidableEq, Repr

/-- The Link Unit. -/
structure Link where
  rate : Baud
  receiver : Receiver
  gapTimer : Timer
  requests : List Request
  notices : List Notice
  mask : NoticeMask
  noticesLost : Bool
  fault : LinkFault
  reply : Option WaitingReply
  tx : Option Outgoing
deriving DecidableEq, Repr

/-- R193: the two kinds of RESET. -/
inductive ResetKind where
  | soft | full
deriving DecidableEq, Repr

/-- The Request Unit: nothing in process; in its access wait (R117), with the request's kind and token and the
lane of the access; or with a reply built and not yet sent in full, and the reset that follows it (R193). -/
inductive RequestUnit where
  | free
  | accessWait (kind token : Byte) (lane : LaneId)
  | replying (after : Option ResetKind)
deriving DecidableEq, Repr

/-! ### The whole part -/

/-- The state of the ES-340. `hold` is the cause of a cold reset that still lasts (R194); `now` counts the ticks
of the Timebase; `draws` counts the free values drawn so far (the model's own); `pending` holds the commands
that wait, first in, first out. -/
structure State where
  link : Link
  unit : RequestUnit
  accessTimer : Timer
  mate : Mate
  lanes : Four Lane
  dir : Directory
  store : Store
  resolver : Resolver
  snap : Option Snapshot
  missLimit : Nat
  attnTimeout : Nat
  hold : Option RestartCause
  now : Nat
  draws : Nat
  pending : List Instr
deriving DecidableEq, Repr

/-- No command of the ES-340 stops the part: the manual gives every row of the table an effect, so the type of
faults has no constructor. -/
inductive Fault where
deriving DecidableEq, Repr

/-- What a step can refuse. -/
inductive Refusal where
  /-- Raised by exec alone, for a command that has no meaning yet (none is left). Safe: the model stops. -/
  | notModelled (mnemonic : String)
deriving DecidableEq, Repr

/-! ### Cold values and reset -/

/-- R37: an empty lane fault record. -/
def FaultRecord.empty : FaultRecord := { cause := .none, addr := none, tag := none }

/-- R130: the arbiter with no grant, no request and all counts 0. -/
def Arbiter.cold : Arbiter :=
  { grant := none, standing := { attention := false, access := none, survey := none, poll := none },
    passed := { attention := 0, access := 0, survey := 0, poll := 0 } }

/-- R71: the Survey Engine with no pass. -/
def Survey.cold : Survey :=
  { pass := none, step := none, stack := [], current := none, naming := none, position := none }

/-- R112: the Presence Poller INACTIVE. -/
def Poller.cold : Poller := { phase := .inactive, roundSet := [], position := none, ping := none }

/-- R152: the Attention Service with nothing in it. -/
def Attention.cold : Attention :=
  { slots := { l0 := none, l1 := none, l2 := none }, lastServed := { l0 := none, l1 := none, l2 := none },
    clearList := [], heed := none }

/-- R39: a lane after a cold or FULL reset. -/
def Lane.cold : Lane :=
  { state := .off, enabled := true, power := false, pollGapMs := 10, rescanSeconds := 5, rotation := .fixed,
    duplicateSeen := false, fault := FaultRecord.empty, latn := false,
    settleTimer := none, restartTimer := none, rescanTimer := none, pollGapTimer := none, rollcallGapTimer := none,
    engine := none, arbiter := Arbiter.cold, survey := Survey.cold, poller := Poller.cold,
    attention := Attention.cold, run := none }

/-- R167: all counts 0. -/
def Counts.zero : Counts := { bound := 0, requiredMissing := 0, optionalMissing := 0, extras := 0 }

/-- R173: the Resolver with no session. -/
def Resolver.cold : Resolver :=
  { phase := .none, finished := { a0 := false, a1 := false, a2 := false, a3 := false }, applied := none,
    toolId := none, conflict := false, status := .none, counts := Counts.zero, reports := [] }

/-- R190: every kind sent. -/
def NoticeMask.all : NoticeMask :=
  { plug := true, tool := true, node := true, attention := true, attentionEnded := true, lane := true }

/-- R194: the Link Unit's cold state, but for the rate, which is sampled from the pins. -/
def Link.cold (rate : Baud) : Link :=
  { rate := rate, receiver := .hunting, gapTimer := none, requests := [], notices := [], mask := NoticeMask.all,
    noticesLost := false, fault := .none, reply := none, tx := none }

/-- R14: the Mate Monitor's cold state; the two sense levels are the pins'. -/
def Mate.cold (lead seat : Contact) : Mate :=
  { lead := lead, seat := seat, plug := .detached, enabled := false, debounce := none, partialTimer := none,
    session := false }

/-- Every block at its cold values (the reset tables of the chapters), with both sense inputs open and the rate
of two low RATE pins (log entry 2). -/
def State.coldValues : State :=
  { link := Link.cold .b115200, unit := .free, accessTimer := none, mate := Mate.cold .opened .opened,
    lanes := { a0 := Lane.cold, a1 := Lane.cold, a2 := Lane.cold, a3 := Lane.cold },
    dir := { entries := [], generation := 0 },
    store := { slots := Vector.replicate 8 none, load := none },
    resolver := Resolver.cold, snap := none, missLimit := 3, attnTimeout := 10, hold := none, now := 0, draws := 0,
    pending := [] }

/-- The part right after power-on reset has been released (R194): every block at its cold values and
RESTARTED(POWER) on TXD, with both sense contacts open and both RATE pins low (log entry 2). -/
def State.reset : State :=
  { State.coldValues with link := { Link.cold .b115200 with tx := some (.notice (.restarted .power)) } }

end Sys2Proof.Machine
end

