-- ==== Sys2Proof/Machine/Flags.lean ====
section
/-! DEFINITION. The one-bit flags of the layouts of section 10.14, and the enumeration codes of R197. -/

namespace Sys2Proof.Machine

/-- A number as a byte. -/
def byteOf (n : Nat) : Byte := BitVec.ofNat 8 n

/-- R197: a yes/no field is 1 for yes and 0 for no. -/
def yesNo (b : Bool) : Byte := if b then 1 else 0

/-- The value of bits, bit 0 first. -/
def bitsValue : List Bool → Nat
  | [] => 0
  | b :: bs => (if b then 1 else 0) + 2 * bitsValue bs

/-- A byte made of its bits, bit 0 first; the bits not given are 0. -/
def flagsByte (bits : List Bool) : Byte := byteOf (bitsValue bits)

/-- R197: an optional field of one byte is 0xFF when absent. -/
def optionalByte : Option Nat → Byte
  | some n => byteOf n
  | none => 0xFF

/-- R197: plug state. -/
def PlugState.code : PlugState → Byte
  | .detached => 0
  | .mating => 1
  | .partialMate => 2
  | .attached => 3

/-- R197: lane state. -/
def LaneState.code : LaneState → Byte
  | .disabled => 0
  | .off => 1
  | .settling => 2
  | .enumerating => 3
  | .supervising => 4
  | .rescanning => 5
  | .faulted => 6

/-- R197: tool status. -/
def ToolStatus.code : ToolStatus → Byte
  | .none => 0
  | .enumerating => 1
  | .conflict => 2
  | .unresolved => 3
  | .incomplete => 4
  | .ready => 5

/-- R197: lane fault cause. -/
def FaultCause.code : FaultCause → Nat
  | .none => 0
  | .noAnswer => 1
  | .duplicateTag => 2
  | .laneFull => 3
  | .directoryFull => 4
  | .overcurrent => 5
  | .strayAttention => 6

/-- R197: link fault cause. -/
def LinkFault.code : LinkFault → Byte
  | .none => 0
  | .check => 1
  | .length => 2
  | .gap => 3
  | .overrun => 4

/-- R197: presence. -/
def Presence.code : Presence → Nat
  | .present => 0
  | .suspect => 1
  | .lost => 2

/-- R197: override. -/
def Override.code : Override → Nat
  | .auto => 0
  | .forcedPresent => 1
  | .forcedAbsent => 2

/-- R197: attention state. -/
def AttnState.code : AttnState → Nat
  | .idle => 0
  | .pending => 1
  | .inService => 2

/-- R197: attention level; off is 3. -/
def levelCode : Option LevelId → Nat
  | some v => v.val
  | none => 3

/-- R197: NODE event. -/
def NodeEvent.code : NodeEvent → Byte
  | .named => 0
  | .rejoined => 1
  | .present => 2
  | .suspect => 3
  | .lost => 4
  | .fault => 5
  | .purged => 6

/-- R197: ATTENTION_ENDED reason. -/
def EndReason.code : EndReason → Byte
  | .expired => 0
  | .lost => 1
  | .isolated => 2
  | .laneFault => 3

/-- R197: RESTARTED cause. -/
def RestartCause.code : RestartCause → Byte
  | .power => 0
  | .pin => 1
  | .full => 2
  | .soft => 3

/-- R197: access. -/
def Access.code : Access → Nat
  | .ro => 0
  | .rw => 1

/-- Section 10.11: the status codes. -/
def Status.code : Status → Byte
  | .ok => 0x00
  | .unknownKind => 0x01
  | .badArgument => 0x02
  | .notNow => 0x03
  | .noSuchHandle => 0x04
  | .noSuchRole => 0x05
  | .nodeLost => 0x06
  | .isolated => 0x07
  | .noDescriptor => 0x08
  | .outOfRange => 0x09
  | .denied => 0x0A
  | .nodeRefused => 0x0B
  | .noAnswer => 0x0C
  | .timeout => 0x0D
  | .detached => 0x0E
  | .laneFault => 0x0F
  | .notLoading => 0x10
  | .sequence => 0x11
  | .incomplete => 0x12
  | .duplicateRole => 0x13
  | .noSlot => 0x14
  | .latchedAlready => 0x15
  | .notLatched => 0x16
  | .notInService => 0x17

/-- R182: the rate that the pins RATE1 and RATE0 choose. -/
def rateOf (rate1 rate0 : Bool) : Baud :=
  match rate1, rate0 with
  | false, false => .b115200
  | false, true => .b460800
  | true, false => .b921600
  | true, true => .b2000000

/-- R37: the lane fault summary of one record. -/
def FaultRecord.flagged (f : FaultRecord) : Bool := decide (f.cause ≠ .none)

/-- R153: whether an entry counts in the attention summary. -/
def Entry.attending (e : Entry) : Bool := decide (e.attention ≠ .idle)

/-- Section 10.14, byte 8 of the entry record. -/
def Entry.flags8 (e : Entry) : Byte :=
  flagsByte
    [e.identity, e.descriptor.isSome, e.binding.isSome,
     (e.descriptor.bind (·.toolId)).isSome, e.nodeFault, e.masked,
     (e.descriptor.map (·.attnCapable)).getD false, (e.binding.map (·.required)).getD false]

/-- Section 10.14, byte 9 of the entry record. -/
def Entry.flags9 (e : Entry) : Byte :=
  byteOf (e.presence.code + 4 * e.override.code + 16 * e.attention.code
    + 64 * ((e.binding.map (·.access.code)).getD 0))

/-- R190: whether the mask lets a notice pass; RESTARTED is never suppressed. -/
def NoticeMask.passes (m : NoticeMask) : Notice → Bool
  | .restarted _ => true
  | .plug _ => m.plug
  | .tool _ _ _ _ _ => m.tool
  | .node _ _ => m.node
  | .attention _ _ _ _ => m.attention
  | .attentionEnded _ _ => m.attentionEnded
  | .lane _ _ _ => m.lane

end Sys2Proof.Machine
end

