-- ==== Sys2Proof/Machine/Operands.lean ====
section
/-! DEFINITION. The byte forms of sections 10.2, 10.11 and 10.14: checks, characters on a line, host frames, replies,
notices, the entry and binding records, lane telegrams and answers, and the payload lengths of requests. -/

namespace Sys2Proof.Machine

/-! ### Bytes and words: high byte first (R197) -/

def be16 (w : Word16) : List Byte := [w.extractLsb' 8 8, w.extractLsb' 0 8]
def be32 (w : Word32) : List Byte :=
  [w.extractLsb' 24 8, w.extractLsb' 16 8, w.extractLsb' 8 8, w.extractLsb' 0 8]
def be40 (w : Tag) : List Byte :=
  [w.extractLsb' 32 8, w.extractLsb' 24 8, w.extractLsb' 16 8, w.extractLsb' 8 8, w.extractLsb' 0 8]
def word16 (hi lo : Byte) : Word16 := hi ++ lo
def word32 (a b c d : Byte) : Word32 := (a ++ b) ++ (c ++ d)
/-- A tag from its class code and serial (00_scope.md, Tags). -/
def mkTag (cls : Byte) (serial : Word32) : Tag := cls ++ serial
def Tag.cls (t : Tag) : Byte := t.extractLsb' 32 8
def Tag.serial (t : Tag) : Word32 := t.extractLsb' 0 32
/-- R52: the identity class. -/
def Tag.isIdentity (t : Tag) : Bool := decide (Tag.cls t = 0x01)
/-- Byte i of a payload; 0 beyond its end (every use follows a length test). -/
def at' (p : List Byte) (i : Nat) : Byte := p.getD i 0

/-! ### CRC-16 (R183) and CRC-8 (R198) -/

def crc16Shift (c : Word16) : Word16 := if c.msb then (c <<< 1) ^^^ 0x1021 else c <<< 1
def crc16Byte (c : Word16) (b : Byte) : Word16 :=
  (List.range 8).foldl (fun x _ => crc16Shift x) (c ^^^ (b.zeroExtend 16 <<< 8))
/-- R183: polynomial 0x1021, initial value 0xFFFF, most significant bit first, no final inversion. -/
def crc16 (bs : List Byte) : Word16 := bs.foldl crc16Byte 0xFFFF

def crc8Shift (c : Byte) : Byte := if c.msb then (c <<< 1) ^^^ 0x2F else c <<< 1
def crc8Byte (c : Byte) (b : Byte) : Byte := (List.range 8).foldl (fun x _ => crc8Shift x) (c ^^^ b)
/-- R198: polynomial 0x2F, initial value 0xFF, most significant bit first, no final inversion. -/
def crc8 (bs : List Byte) : Byte := bs.foldl crc8Byte 0xFF

/-! ### Characters on a line (R182, R198) -/

/-- What a line carries for one bit time of a character. -/
inductive LineBit where
  | start
  | data (value : Bool)
  | stop
deriving DecidableEq, Repr

/-- R182, R198: one byte on RXD, TXD or a lane pair: a start bit, 8 data bits least significant first, no parity bit, and
one stop bit. -/
def character (b : Byte) : List LineBit :=
  .start :: ((List.range 8).map (fun i => .data (b.getLsbD i)) ++ [.stop])

/-- R182: bytes sent back to back, with no gap between their characters. -/
def characters (bytes : List Byte) : List LineBit := (bytes.map character).flatten

/-- R182: the byte that a receiver takes from the 8 data bits of a character, least significant first, whatever it has
found in place of the stop bit. -/
def sampledByte (data : List Bool) (_stopFound : Bool) : Byte := flagsByte data

/-! ### Tag digits (00_scope.md) -/

/-- The digits of a number, most significant first. -/
def natDigits : Nat → Nat → Digits
  | 0, _ => []
  | k + 1, n => natDigits k (n / 4) ++ [Fin.ofNat 4 n]

/-- The 20 base-four digits of a tag, most significant first. -/
def tagDigits (t : Tag) : Digits := natDigits Config.tagDigits t.toNat
/-- The tag that 20 digits spell. -/
def digitsTag (p : Digits) : Tag := BitVec.ofNat 40 (p.foldl (fun a d => 4 * a + d.val) 0)
/-- Whether a tag begins with a prefix. -/
def tagBegins (p : Digits) (t : Tag) : Bool := p.isPrefixOf (tagDigits t)
/-- R46: the children of a prefix, p·0 first. -/
def children (p : Digits) : List Digits := [p ++ [0], p ++ [1], p ++ [2], p ++ [3]]
/-- R198: a prefix packed two bits per digit, first digit highest, unused low bits 0. -/
def packDigits : Digits → List Byte
  | [] => []
  | [a] => [byteOf (64 * a.val)]
  | [a, b] => [byteOf (64 * a.val + 16 * b.val)]
  | [a, b, c] => [byteOf (64 * a.val + 16 * b.val + 4 * c.val)]
  | a :: b :: c :: d :: rest => byteOf (64 * a.val + 16 * b.val + 4 * c.val + d.val) :: packDigits rest

/-! ### Lane telegrams (R198) -/

/-- The kind code of a telegram. -/
def Telegram.kindCode : Telegram → Byte
  | .forget => 0x1
  | .survey _ => 0x2
  | .assign _ _ => 0x3
  | .describe _ _ => 0x4
  | .ping _ => 0x5
  | .read _ _ => 0x6
  | .write _ _ _ => 0x7
  | .rollcall => 0x8
  | .heed _ => 0x9
  | .clear _ => 0xA

/-- The address byte: the lane address, for SURVEY the prefix length in bits, and 0 for FORGET, ROLLCALL and
ASSIGN. -/
def Telegram.addressByte : Telegram → Byte
  | .forget => 0
  | .survey p => byteOf (2 * p.length)
  | .assign _ _ => 0
  | .describe a _ => byteOf a
  | .ping a => byteOf a
  | .read a _ => byteOf a
  | .write a _ _ => byteOf a
  | .rollcall => 0
  | .heed a => byteOf a
  | .clear a => byteOf a

/-- The payload bytes, 0..6 of them. -/
def Telegram.payload : Telegram → List Byte
  | .survey p => packDigits p
  | .assign t a => be40 t ++ [byteOf a]
  | .read _ o => [byteOf o]
  | .write _ o v => byteOf o :: be32 v
  | .forget => []
  | .describe _ _ => []
  | .ping _ => []
  | .rollcall => []
  | .heed _ => []
  | .clear _ => []

/-- The bytes of a telegram on the pair: sync, kind, address, payload, CRC-8. -/
def Telegram.bytes (t : Telegram) : List Byte :=
  let body := t.kindCode :: t.addressByte :: t.payload
  0xB4 :: body ++ [crc8 body]

/-- R198: a telegram on the pair, bit by bit. -/
def Telegram.bits (t : Telegram) : List LineBit := characters t.bytes

/-- R33: the telegrams that get up to three attempts. -/
def Telegram.directed : Telegram → Bool
  | .assign _ _ => true
  | .describe _ _ => true
  | .ping _ => true
  | .read _ _ => true
  | .write _ _ _ => true
  | .heed _ => true
  | .clear _ => true
  | .forget => false
  | .survey _ => false
  | .rollcall => false

/-! ### Answers (R32, R34, R198) -/

/-- The contents of a DESCRIPTOR answer: maker, revision, object count 1..255, flags (bits 2 to 7 are 0), tool ID
when flag bit 1 is set, label length 0..12, label. -/
def readDescriptor (c : List Byte) : Option Descriptor :=
  let flags := at' c 4
  let tool := flags.getLsbD 1
  let rest := if tool then c.drop 7 else c.drop 5
  match rest with
  | [] => none
  | n :: label =>
    if 5 ≤ c.length ∧ flags.toNat < 4 ∧ 1 ≤ (at' c 3).toNat ∧ n.toNat ≤ 12 ∧ label.length = n.toNat then
      some { maker := word16 (at' c 0) (at' c 1), revision := at' c 2, objectCount := (at' c 3).toNat,
             attnCapable := flags.getLsbD 0, label := label,
             toolId := if tool then some (word16 (at' c 5) (at' c 6)) else none }
    else none

/-- R32: the answer's form must fit the telegram. -/
def judgeForm (t : Telegram) (code : Byte) (c : List Byte) : AttemptResult :=
  match t with
  | .assign _ a => if code = 0x61 ∧ c.length = 1 ∧ at' c 0 = byteOf a then .valid .ack else .invalid
  | .describe _ identity =>
    if code = 0x64 then
      match readDescriptor c with
      | some d => if d.toolId.isSome = identity then .valid (.descriptor d) else .invalid
      | none => .invalid
    else .invalid
  | .ping _ =>
    if code = 0x65 ∧ c.length = 1 ∧ (at' c 0).toNat ≤ 1 then .valid (.status (decide (at' c 0 = 1))) else .invalid
  | .read _ _ =>
    if code = 0x66 ∧ c.length = 4 then .valid (.value (word32 (at' c 0) (at' c 1) (at' c 2) (at' c 3)))
    else if code = 0x62 ∧ c.length = 0 then .refused
    else .invalid
  | .write _ _ _ =>
    if code = 0x61 ∧ c.length = 0 then .valid .ack
    else if code = 0x62 ∧ c.length = 0 then .refused
    else .invalid
  | .heed _ =>
    if code = 0x67 ∧ 2 ≤ c.length ∧ (at' c 1).toNat ≤ 4 ∧ c.length = 2 + (at' c 1).toNat then
      .valid (.cause (at' c 0) (c.drop 2))
    else .invalid
  | .clear _ => if code = 0x61 ∧ c.length = 0 then .valid .ack else .invalid
  | .forget => .invalid
  | .survey _ => .invalid
  | .rollcall => .invalid

/-- R32 and R34: an answer ends with the CRC-8 over its other bytes. -/
def answerCheck (bytes : List Byte) : Bool :=
  match bytes.getLast? with
  | some last => decide (crc8 bytes.dropLast = last)
  | none => false

/-- R32 for a directed telegram, R34 for SURVEY: what the window that has closed gave. -/
def judgeAnswer (t : Telegram) (contention : Bool) (bytes : List Byte) : AttemptResult :=
  let code := at' bytes 0
  let contents := bytes.dropLast.drop 1
  match t with
  | .survey p =>
    if !contention && answerCheck bytes && decide (code = 0x63 ∧ contents.length = 5) then
      let tag := mkTag (at' contents 0) (word32 (at' contents 1) (at' contents 2) (at' contents 3) (at' contents 4))
      if tagBegins p tag then .clean tag else .collided
    else .collided
  | _ => if !contention && answerCheck bytes then judgeForm t code contents else .invalid

/-! ### Records (section 10.14) -/

/-- R89 and section 10.14: the entry record. -/
def Entry.record (draw : Nat) (e : Entry) : List Byte :=
  let d := e.descriptor
  let b := e.binding
  let tool : Word16 :=
    match d with
    | none => 0
    | some x => x.toolId.getD (Config.absentRecordToolId draw e.tag)
  let role := (b.map (·.role)).getD []
  let label := (d.map (·.label)).getD []
  [byteOf e.handle, byteOf e.lane.val, byteOf e.addr] ++ be40 e.tag ++ [e.flags8, e.flags9, byteOf e.miss, byteOf e.discarded]
    ++ be16 ((d.map (·.maker)).getD 0) ++ [(d.map (·.revision)).getD 0, byteOf ((d.map (·.objectCount)).getD 0)]
    ++ be16 tool
    ++ [byteOf ((b.map (·.index)).getD 0), byteOf ((b.map (fun x => levelCode x.level)).getD 0)]
    ++ (byteOf role.length :: role) ++ (byteOf label.length :: label)

/-- R154: a printable character. -/
def printable (c : Byte) : Bool := decide (0x20 ≤ c.toNat) && decide (c.toNat ≤ 0x7E)
/-- A role name: 1..12 printable characters. -/
def roleOk (r : List Byte) : Bool := decide (1 ≤ r.length) && decide (r.length ≤ 12) && r.all printable

/-- Section 10.14: the binding record. -/
def ManifestBinding.record (index : Nat) (b : ManifestBinding) : List Byte :=
  [byteOf index, optionalByte (b.lane.map (·.val)), b.cls,
   flagsByte [b.serial.isSome, b.required, decide (b.access = .rw)], byteOf (levelCode b.level)]
    ++ be32 (b.serial.getD 0) ++ (byteOf b.role.length :: b.role)

/-- A lane byte of a binding: 0..3, or 0xFF for ANY. -/
def readLaneByte (b : Byte) : Option (Option LaneId) :=
  if h : b.toNat < 4 then some (some ⟨b.toNat, h⟩) else if b = 0xFF then some none else none

/-- A level byte of a binding: 0..2, or 3 for off. -/
def readLevelByte (b : Byte) : Option (Option LevelId) :=
  if h : b.toNat < 3 then some (some ⟨b.toNat, h⟩) else if b = 3 then some none else none

/-- R156, third check: the binding that a MANIFEST_ENTRY payload carries, if every field is in its range. -/
def readBinding (p : List Byte) : Option ManifestBinding :=
  let flags := at' p 3
  let serial := word32 (at' p 5) (at' p 6) (at' p 7) (at' p 8)
  let role := p.drop 10
  match readLaneByte (at' p 1), readLevelByte (at' p 4) with
  | some lane, some level =>
    if roleOk role ∧ at' p 2 ≠ 0x01 ∧ flags.toNat < 8 ∧ (flags.getLsbD 0 ∨ serial = 0) then
      some { role := role, lane := lane, cls := at' p 2, serial := if flags.getLsbD 0 then some serial else none,
             required := flags.getLsbD 1, level := level, access := if flags.getLsbD 2 then .rw else .ro }
    else none
  | _, _ => none

/-- The five bytes of a page header and its records (R176). -/
def Snapshot.page (sn : Snapshot) (k : Nat) : List Byte :=
  let recs := (sn.copy.drop (4 * k)).take 4
  [byteOf k, byteOf sn.marks.length] ++ be16 sn.generation ++ [byteOf recs.length]
    ++ (recs.map (Entry.record sn.draw)).flatten

/-! ### Notices and replies (R183, section 10.11) -/

/-- The bytes of the four counts. -/
def Counts.bytes (c : Counts) : List Byte :=
  [byteOf c.bound, byteOf c.requiredMissing, byteOf c.optionalMissing, byteOf c.extras]

/-- Tool ID present, and the tool ID; the bytes of an absent one are free (log entry 9). -/
def toolIdBytes (t : Option Word16) (draw : Nat) : List Byte :=
  yesNo t.isSome :: be16 (t.getD (Config.absentToolId draw))

/-- The kind byte of a notice. -/
def Notice.code : Notice → Byte
  | .restarted _ => 0xC0
  | .plug _ => 0xC1
  | .tool _ _ _ _ _ => 0xC2
  | .node _ _ => 0xC3
  | .attention _ _ _ _ => 0xC4
  | .attentionEnded _ _ => 0xC5
  | .lane _ _ _ => 0xC6

/-- Section 10.11: the payload of a notice. -/
def Notice.payload : Notice → List Byte
  | .restarted c => [c.code]
  | .plug p => [p.code]
  | .tool st tid slot counts draw =>
    [st.code, optionalByte (slot.map (·.val))] ++ toolIdBytes tid draw ++ counts.bytes
  | .node h ev => [byteOf h, ev.code]
  | .attention h v cause data => [byteOf h, byteOf v.val, cause, byteOf data.length] ++ data
  | .attentionEnded h r => [byteOf h, r.code]
  | .lane l st cause => [byteOf l.val, st.code, optionalByte (cause.map FaultCause.code)]

/-- R183: START, LEN, the bytes from KIND through PAYLOAD, and CHECK. -/
def frameBytes (body : List Byte) : List Byte :=
  let checked := byteOf body.length :: body
  0xE7 :: checked ++ be16 (crc16 checked)

/-- The bytes of the frame that TXD carries. -/
def Outgoing.bytes : Outgoing → List Byte
  | .notice n => frameBytes (n.code :: 0 :: n.payload)
  | .reply r => frameBytes (r.kind :: r.token :: r.status.code :: r.payload)

/-- R182: the frame on TXD, bit by bit. -/
def Outgoing.bits (f : Outgoing) : List LineBit := characters f.bytes

/-! ### Requests (section 10.11) -/

/-- The kinds of section 10.11. -/
def requestKinds : List Byte :=
  [0x01, 0x02, 0x03, 0x04, 0x08, 0x09, 0x10, 0x11, 0x12, 0x18, 0x19, 0x1A, 0x1B, 0x20, 0x21, 0x24, 0x25, 0x28, 0x29,
   0x2A, 0x2B, 0x2C, 0x2D, 0x30, 0x31, 0x32]

/-- R187, step 2: whether a payload length is allowed for a kind (the table of section 10.11). -/
def lengthAllowed (kind : Byte) (p : List Byte) : Bool :=
  match kind.toNat with
  | 0x01 => decide (p.length = 1)
  | 0x02 => decide (p.length = 0)
  | 0x03 => decide (p.length = 4)
  | 0x04 => decide (p.length = 1)
  | 0x08 => decide (p.length = 0)
  | 0x09 => decide (p.length = 0)
  | 0x10 => decide (p.length = 2)
  | 0x11 => decide (p.length = 1)
  | 0x12 => decide (p.length = 1)
  | 0x18 => decide (p.length = 1)
  | 0x19 => decide (1 ≤ p.length) && decide (p.length ≤ 12)
  | 0x1A => decide (p.length = 1)
  | 0x1B => decide (p.length = 2)
  | 0x20 => decide (p.length = 4)
  | 0x21 => decide (p.length = 6)
  | 0x24 => decide (p.length = 1)
  | 0x25 => decide (p.length = 2)
  | 0x28 => decide (p.length = 4)
  | 0x29 => decide (10 ≤ p.length) && decide (p.length = 10 + (at' p 9).toNat)
  | 0x2A => decide (p.length = 0)
  | 0x2B => decide (p.length = 1)
  | 0x2C => decide (p.length = 2)
  | 0x2D => decide (p.length = 0)
  | 0x30 => decide (p.length = 0)
  | 0x31 => decide (p.length = 1)
  | 0x32 => decide (p.length = 0)
  | _ => false

/-- A lane number carried in a byte. -/
def laneOf (b : Byte) : Option LaneId := if h : b.toNat < 4 then some ⟨b.toNat, h⟩ else none

/-- A slot number carried in a byte. -/
def slotOf (b : Byte) : Option (Fin 8) := if h : b.toNat < 8 then some ⟨b.toNat, h⟩ else none

end Sys2Proof.Machine
end

