-- ==== Sys2Proof/Machine/Ops.lean ====
section
/-! DEFINITION. The named operations over the state: lanes, timers, posting notices and sending replies (R189,
R190), one update of the Node Directory (R81, R82), the cold state. -/

namespace Sys2Proof.Machine

/-! ### Four lanes, three levels -/

def Four.get {α : Type} (f : Four α) (i : LaneId) : α :=
  match i with
  | 0 => f.a0
  | 1 => f.a1
  | 2 => f.a2
  | 3 => f.a3

def Four.set {α : Type} (f : Four α) (i : LaneId) (x : α) : Four α :=
  match i with
  | 0 => { f with a0 := x }
  | 1 => { f with a1 := x }
  | 2 => { f with a2 := x }
  | 3 => { f with a3 := x }

def Four.map {α β : Type} (f : Four α) (g : α → β) : Four β :=
  { a0 := g f.a0, a1 := g f.a1, a2 := g f.a2, a3 := g f.a3 }

def Three.get {α : Type} (f : Three α) (v : LevelId) : α :=
  match v with
  | 0 => f.l0
  | 1 => f.l1
  | 2 => f.l2

def Three.set {α : Type} (f : Three α) (v : LevelId) (x : α) : Three α :=
  match v with
  | 0 => { f with l0 := x }
  | 1 => { f with l1 := x }
  | 2 => { f with l2 := x }

/-- The four lanes in order. -/
def allLanes : List LaneId := [0, 1, 2, 3]

/-- The three levels in order. -/
def allLevels : List LevelId := [0, 1, 2]

def State.lane (s : State) (l : LaneId) : Lane := s.lanes.get l

def State.setLane (s : State) (l : LaneId) (x : Lane) : State := { s with lanes := s.lanes.set l x }

def State.modLane (s : State) (l : LaneId) (f : Lane → Lane) : State := s.setLane l (f (s.lane l))

/-- A timer started now: its deadline is `ms` ticks away. -/
def State.timer (s : State) (ms : Nat) : Timer := some (s.now + ms)

/-! ### TXD, replies and notices (R189, R190) -/

/-- R189: with TXD free, the Link Unit begins the next frame: the head notice if one recorded ahead of the
waiting reply remains or no reply waits, else the reply. -/
def Link.begin (k : Link) : Link :=
  match k.tx with
  | some _ => k
  | none =>
    match k.reply, k.notices with
    | none, [] => k
    | none, n :: rest => { k with notices := rest, tx := some (.notice n) }
    | some w, [] => { k with reply := none, tx := some (.reply w.reply) }
    | some w, n :: rest =>
      if w.ahead = 0 then { k with reply := none, tx := some (.reply w.reply) }
      else { k with notices := rest, reply := some { w with ahead := w.ahead - 1 }, tx := some (.notice n) }

/-- R190: a posted notice meets the mask, then joins the queue, or is dropped from a full one. -/
def Link.post (k : Link) (n : Notice) : Link :=
  if k.mask.passes n then
    if k.notices.length < Config.noticePlaces then Link.begin { k with notices := k.notices ++ [n] }
    else { k with noticesLost := true }
  else k

/-- R189: a reply is built: with it stands the number of notices then in the queue. -/
def Link.send (k : Link) (r : Reply) : Link :=
  Link.begin { k with reply := some { reply := r, ahead := k.notices.length } }

/-- The reply that waits or is being sent. -/
def Link.currentReply (k : Link) : Option Reply :=
  match k.reply with
  | some w => some w.reply
  | none =>
    match k.tx with
    | some (.reply r) => some r
    | _ => none

/-- Post one notice. -/
def State.post (s : State) (n : Notice) : State := { s with link := s.link.post n }

/-- Post notices in order. -/
def State.postAll (s : State) (ns : List Notice) : State := ns.foldl State.post s

/-- R187, R193: build the reply to a request; the Request Unit takes no other until it has been sent, and a
RESET's effect follows it. -/
def State.replyThen (s : State) (r : Reply) (after : Option ResetKind) : State :=
  { s with unit := .replying after, link := s.link.send r }

/-- The reply to request `q`: its kind plus 0x80 and its token (R183). -/
def Request.replyWith (q : Request) (status : Status) (payload : List Byte) : Reply :=
  { kind := q.kind + 0x80, token := q.token, status := status, payload := payload }

/-- Answer a request. -/
def State.answer (s : State) (q : Request) (status : Status) (payload : List Byte) : State :=
  s.replyThen (q.replyWith status payload) none

/-- Answer OK. -/
def State.ok (s : State) (q : Request) (payload : List Byte) : State := s.answer q .ok payload

/-- Refuse a request: a reply of another status carries no payload (R188). -/
def State.refuse (s : State) (q : Request) (status : Status) : State := s.answer q status []

/-- R117, R127, R187: the Request Unit may take a request: it has none in process, and no telegram of an
abandoned access is under way. -/
def State.canTake (s : State) : Bool :=
  decide (s.unit = .free) && allLanes.all (fun l => (s.lane l).run.isNone)

/-- R187: take the request at the head of the queue, if this command's row is the one that takes it. The
payload length is tested first (step 2), then the row's rule decides. -/
def State.take (s : State) (mine : Request → Bool) (serve : Request → State → State) : State :=
  if s.canTake then
    match s.link.requests with
    | [] => s
    | q :: rest =>
      if mine q then
        let t := { s with link := { s.link with requests := rest } }
        if lengthAllowed q.kind q.payload then serve q t else t.refuse q .badArgument
      else s
  else s

/-- A request of kind `k`. -/
def ofKind (k : Byte) (q : Request) : Bool := decide (q.kind = k)

/-- A request of kind `k` whose byte `i` is `c`, or whose byte `i` selects none of the rows that share the kind
(or that is too short to hold it): such a request is refused alike whichever of those rows takes it (log
entry 6). -/
def selects (k : Byte) (i : Nat) (rows : List Byte) (c : Byte) (q : Request) : Bool :=
  decide (q.kind = k) &&
    (decide (i < q.payload.length ∧ at' q.payload i = c) || !(decide (i < q.payload.length) && rows.contains (at' q.payload i)))

/-! ### The Node Directory (R72 to R84) -/

/-- R82: an entry is the one an update names. -/
def Entry.isTarget (e : Entry) (t : Target) : Bool :=
  decide (e.handle = t.handle) && decide (e.lane = t.lane) && decide (e.addr = t.addr) && decide (e.tag = t.tag)

/-- R82: what an update from a telegram to this entry carries. -/
def Entry.target (e : Entry) : Target := { handle := e.handle, lane := e.lane, addr := e.addr, tag := e.tag }

def State.entry? (s : State) (h : Nat) : Option Entry := s.dir.entries.find? (fun e => decide (e.handle = h))
def State.target? (s : State) (t : Target) : Option Entry := s.dir.entries.find? (fun e => e.isTarget t)
def State.byTag? (s : State) (t : Tag) : Option Entry := s.dir.entries.find? (fun e => decide (e.tag = t))
def State.onLaneAt? (s : State) (l : LaneId) (a : Nat) : Option Entry :=
  s.dir.entries.find? (fun e => decide (e.lane = l) && decide (e.addr = a))
/-- The entries of a lane, in ascending handle order. -/
def State.onLane (s : State) (l : LaneId) : List Entry := s.dir.entries.filter (fun e => decide (e.lane = l))

/-- R81: whether a change of one entry counts: its presence, its binding or its override differs. -/
def Entry.counted (old new : Entry) : Bool :=
  decide (old.presence ≠ new.presence) || decide (old.binding ≠ new.binding) || decide (old.override ≠ new.override)

/-- R81: the generation advances; from 65535 it goes to 0. -/
def Directory.advance (d : Directory) (n : Nat) : Directory :=
  { d with generation := d.generation + BitVec.ofNat 16 n }

/-- R81, R82: one update to one entry, named by its handle. -/
def State.update (s : State) (old new : Entry) : State :=
  let es := s.dir.entries.map (fun e => if e.handle = old.handle then new else e)
  { s with dir := ({ s.dir with entries := es } : Directory).advance (if old.counted new then 1 else 0) }

/-- R72: the entries stay in ascending handle order. -/
def insertEntry (e : Entry) : List Entry → List Entry
  | [] => [e]
  | x :: xs => if e.handle < x.handle then e :: x :: xs else x :: insertEntry e xs

/-- R52, R81: create an entry. -/
def State.create (s : State) (e : Entry) : State :=
  { s with dir := ({ s.dir with entries := insertEntry e s.dir.entries } : Directory).advance 1 }

/-- R91, R81: remove an entry. -/
def State.remove (s : State) (h : Nat) : State :=
  let es := s.dir.entries.filter (fun e => decide (e.handle ≠ h))
  { s with dir := ({ s.dir with entries := es } : Directory).advance 1 }

/-- R94: the directory is emptied; the generation advances by one if it held an entry. -/
def Directory.emptied (d : Directory) : Directory :=
  if d.entries.isEmpty then d else ({ d with entries := [] } : Directory).advance 1

/-- R51: whether a naming step of a lane other than `l` holds the entry with this handle. -/
def State.heldElsewhere (s : State) (l : LaneId) (h : Nat) : Bool :=
  allLanes.any (fun m => decide (m ≠ l) &&
    match (s.lane m).survey.naming with
    | some n => decide (n.kind ≠ .new) && decide (n.handle = h)
    | none => false)

/-- R51, R91: whether a naming step of any lane holds the entry with this handle. -/
def State.held (s : State) (h : Nat) : Bool :=
  allLanes.any (fun m =>
    match (s.lane m).survey.naming with
    | some n => decide (n.kind ≠ .new) && decide (n.handle = h)
    | none => false)

/-- R51: the handles reserved by NEW decisions whose ASSIGN has not been answered yet. -/
def State.reserved (s : State) : List Nat :=
  allLanes.filterMap (fun m =>
    match (s.lane m).survey.naming with
    | some n => if n.kind = .new ∧ n.stage = .assign then some n.handle else none
    | none => none)

/-- R79: the lowest free handle. -/
def State.freeHandle (s : State) : Option Nat :=
  (List.range' 1 Config.maxEntries).find? (fun h => (s.entry? h).isNone && !(s.reserved.contains h))

/-- R80: the lowest free address on a lane (its own naming step has none reserved when it decides). -/
def State.freeAddr (s : State) (l : LaneId) : Option Nat :=
  (List.range' 1 Config.maxOnLane).find? (fun a => (s.onLaneAt? l a).isNone)

/-! ### Lane notices and the fault record (R28, R37) -/

/-- R28: a LANE notice carries the lane state as it stands. -/
def State.postLane (s : State) (l : LaneId) (cause : Option FaultCause) : State :=
  s.post (.lane l (s.lane l).state cause)

/-- R37, R28: write the lane fault record whole and post the LANE notice of that write. -/
def State.writeFault (s : State) (l : LaneId) (r : FaultRecord) : State :=
  (s.modLane l (fun n => { n with fault := r })).postLane l (some r.cause)

/-! ### Ends of attention (R84, R147 to R149) -/

/-- Empty the slot that holds a handle. -/
def Attention.release (a : Attention) (h : Nat) : Attention :=
  let drop := fun (r : Option InService) =>
    match r with
    | some x => if x.handle = h then none else some x
    | none => none
  { a with slots := { l0 := drop a.slots.l0, l1 := drop a.slots.l1, l2 := drop a.slots.l2 } }

/-- R147, R148, R149: the attention of an entry that has become IDLE, `e` being the entry as it stood: a PENDING
one ends without a notice, an IN_SERVICE one empties its slot and posts ATTENTION_ENDED. -/
def State.endAttention (s : State) (e : Entry) (why : EndReason) : State :=
  if e.attention = .inService then
    (s.modLane e.lane (fun n => { n with attention := n.attention.release e.handle })).post (.attentionEnded e.handle why)
  else s

/-- R137: an item joins the clear list unless one for the same address is there. -/
def Attention.addClear (a : Attention) (i : ClearItem) : Attention :=
  if a.clearList.any (fun x => decide (x.addr = i.addr)) then a else { a with clearList := a.clearList ++ [i] }

/-- R137: add the CLEAR of an entry to the clear list of its lane. -/
def State.addClear (s : State) (e : Entry) : State :=
  s.modLane e.lane (fun n =>
    { n with attention := n.attention.addClear { addr := e.addr, owner := some (e.handle, e.tag) } })

/-! ### The cold state (R194 and the reset tables) -/

/-- Every block at its cold values. The sense levels are those of the pins, the Timebase runs on, and what is
the model's own (draws, pending) is kept. -/
def State.cold (s : State) (hold : Option RestartCause) (rate : Baud) : State :=
  { State.coldValues with
    mate := Mate.cold s.mate.lead s.mate.seat, link := Link.cold rate, hold := hold, now := s.now, draws := s.draws,
    pending := s.pending }

end Sys2Proof.Machine
end

