-- ==== Sys2Proof/Machine/Arbiter.lean ====
section
/-! DEFINITION. The Lane Arbiter (R113 to R116), with what a grant sets going: the Attention Service's choice of a
telegram (R132, R133, R138, R139) and the Object Access Engine's check before a telegram (R123, R125). -/

namespace Sys2Proof.Machine

/-- R33 to R35: the Telegram Engine begins a telegram. -/
def State.startTelegram (s : State) (l : LaneId) (t : Telegram) : State :=
  s.modLane l (fun n => { n with engine := some { telegram := t, attempt := 1, phase := .sending } })

/-- R116: the grant ends. -/
def State.releaseGrant (s : State) (l : LaneId) : State :=
  s.modLane l (fun n => { n with arbiter := { n.arbiter with grant := none } })

/-! ### The end of an access (R125) -/

/-- R125: every reply that ends a run carries the handle, the first object, the completed count and, for a READ,
the values read. -/
def Run.payload (r : Run) : List Byte :=
  [byteOf r.target.handle, byteOf r.first, byteOf r.completed] ++ (r.values.map be32).flatten

/-- R125: the run of a lane, the access that the Request Unit waits on, ends with a status: the access timer is
stopped and the reply is built. -/
def State.endAccess (s : State) (l : LaneId) (status : Status) : State :=
  match s.unit, (s.lane l).run with
  | .accessWait kind token m, some r =>
    if m = l then
      let t := s.modLane l (fun n => { n with run := none })
      ({ t with accessTimer := none } : State).replyThen
        { kind := kind + 0x80, token := token, status := status, payload := r.payload } none
    else s
  | _, _ => s

/-- R123: the run's entry still matches and is not LOST. -/
def State.runStands (s : State) (r : Run) : Bool :=
  match s.target? r.target with
  | some e => decide (e.presence ≠ .lost)
  | none => false

/-- R121, R122: the telegram of the run's next object. -/
def Run.telegram (r : Run) : Telegram :=
  match r.kind with
  | .read => .read r.target.addr (r.first + r.completed)
  | .write v => .write r.target.addr r.first v

/-! ### The Attention Service's work (R131 to R133, R138, R139) -/

/-- R131: the lane states in which the service, the poller and object access are active. -/
def LaneState.serving (x : LaneState) : Bool := decide (x = .supervising) || decide (x = .rescanning)

/-- Section 7.1: the pending set of a lane. -/
def State.pendingOn (s : State) (l : LaneId) : List Entry :=
  (s.onLane l).filter (fun e => decide (e.attention = .pending))

/-- R138: the level of an entry, from its binding as it stands. -/
def Entry.level (e : Entry) : Option LevelId := e.binding.bind (·.level)

/-- R138: the highest level of the pending set. -/
def State.highestPending (s : State) (l : LaneId) : Option LevelId :=
  [2, 1, 0].find? (fun v => (s.pendingOn l).any (fun e => decide (e.level = some v)))

/-- R138: the level the service condition holds for: the highest pending one, if it is above the level of every
occupied slot. -/
def State.serviceLevel (s : State) (l : LaneId) : Option LevelId :=
  match s.highestPending l with
  | some v =>
    if allLevels.all (fun w => ((s.lane l).attention.slots.get w).isNone || decide (w < v)) then some v else none
  | none => none

/-- R133: a ROLLCALL is due. -/
def Lane.rollcallDue (n : Lane) : Bool := n.latn && n.state.serving && n.rollcallGapTimer.isNone

/-- R132: the service has work. -/
def State.hasAttentionWork (s : State) (l : LaneId) : Bool :=
  !(s.lane l).attention.clearList.isEmpty || (s.serviceLevel l).isSome || (s.lane l).rollcallDue

/-- R139: the pending entry chosen at a level, FIXED or ROTATING. -/
def State.chooseHeed (s : State) (l : LaneId) (v : LevelId) : Option Entry :=
  let cands := (s.pendingOn l).filter (fun e => decide (e.level = some v))
  match (s.lane l).rotation, (s.lane l).attention.lastServed.get v with
  | .rotating, some h =>
    match cands.find? (fun e => decide (h < e.handle)) with
    | some e => some e
    | none => cands.head?
  | .rotating, none => cands.head?
  | .fixed, _ => cands.head?

/-- R132: the telegram chosen when the ATTENTION grant arrives, with the heed in flight if it is a HEED. -/
def State.chooseAttention (s : State) (l : LaneId) : Option (Telegram × Option Heed) :=
  match (s.lane l).attention.clearList with
  | i :: _ => some (.clear i.addr, none)
  | [] =>
    match s.serviceLevel l with
    | some v =>
      match s.chooseHeed l v with
      | some e => some (.heed e.addr, some { target := e.target, level := v })
      | none => none
    | none => if (s.lane l).rollcallDue then some (.rollcall, none) else none

/-- R132: while it is active, has work and has no request standing and no grant held, the service requests. -/
def State.requestAttention (s : State) (l : LaneId) : State :=
  let n := s.lane l
  if n.state.serving && !n.arbiter.standing.attention && decide (n.arbiter.grant ≠ some .attention)
      && s.hasAttentionWork l then
    s.modLane l (fun n => { n with arbiter := { n.arbiter with standing := { n.arbiter.standing with attention := true } } })
  else s

/-! ### The grant decision (R114) -/

/-- The requestors with a standing request, in priority order. -/
def Standing.list (q : Standing) : List Requestor :=
  (if q.attention then [.attention] else []) ++ (if q.access.isSome then [.access] else [])
    ++ (if q.survey.isSome then [.survey] else []) ++ (if q.poll.isSome then [.poll] else [])

/-- The passed-over count of a requestor. -/
def Passed.of (p : Passed) : Requestor → Nat
  | .attention => p.attention
  | .access => p.access
  | .survey => p.survey
  | .poll => p.poll

/-- R114: of the standing requestors, the due one of highest priority; if none is due, the one of highest
priority. -/
def Arbiter.pick (a : Arbiter) : Option Requestor :=
  match a.standing.list.find? (fun r => decide (Config.dueCount ≤ a.passed.of r)) with
  | some r => some r
  | none => a.standing.list.head?

/-- R114: the granted requestor's count returns to 0, every other standing one's rises by one, the others keep
theirs. -/
def Arbiter.count (a : Arbiter) (chosen : Requestor) : Passed :=
  let next := fun (r : Requestor) =>
    if r = chosen then 0 else if a.standing.list.contains r then a.passed.of r + 1 else a.passed.of r
  { attention := next .attention, access := next .access, survey := next .survey, poll := next .poll }

/-- The grant for a standing request, and the standing requests without it. -/
def Standing.serve (q : Standing) : Requestor → Option (Grant × Standing)
  | .attention => if q.attention then some (.attention, { q with attention := false }) else none
  | .access => q.access.map (fun b => (.access b, { q with access := none }))
  | .survey => q.survey.map (fun w => (.survey w, { q with survey := none }))
  | .poll => q.poll.map (fun t => (.poll t, { q with poll := none }))

/-- R114: one grant decision, if the wire is free and a request stands. -/
def Arbiter.grantNext (a : Arbiter) : Option (Grant × Arbiter) :=
  match a.grant with
  | some _ => none
  | none =>
    match a.pick with
    | none => none
    | some r =>
      match a.standing.serve r with
      | none => none
      | some (g, q) => some (g, { grant := some g, standing := q, passed := a.count r })

/-- The telegram of a Survey Engine request (section 6.1). -/
def SurveyWork.telegram : SurveyWork → Telegram
  | .forget => .forget
  | .survey p => .survey p
  | .assign t a => .assign t a
  | .describe t => .describe t.addr (Tag.isIdentity t.tag)
  | .recall t => .ping t.addr

/-- The number of decisions that can follow each other in one step: a grant that is released without a telegram
(R123, R132) frees the wire, and four requestors can stand. -/
def arbiterRounds : Nat := 6

/-- R113, R114, R132: the lane's Attention Service requests if it has work; then, while the wire is free and a
request stands, one is granted and its telegram starts, or the grant is released without one. -/
def arbitrateRounds : Nat → LaneId → State → State
  | 0, _, s => s
  | k + 1, l, s =>
    let s1 := s.requestAttention l
    match (s1.lane l).arbiter.grantNext with
    | none => s1
    | some (g, a) =>
      let s2 := s1.modLane l (fun n => { n with arbiter := a })
      match g with
      | .survey w => s2.startTelegram l w.telegram
      | .poll t => s2.startTelegram l (.ping t.addr)
      | .access _ =>
        match (s2.lane l).run with
        | some r =>
          if s2.runStands r then s2.startTelegram l r.telegram
          else arbitrateRounds k l ((s2.endAccess l .nodeLost).releaseGrant l)
        | none => arbitrateRounds k l (s2.releaseGrant l)
      | .attention =>
        match s2.chooseAttention l with
        | some (t, h) =>
          (s2.modLane l (fun n => { n with attention := { n.attention with heed := h } })).startTelegram l t
        | none => arbitrateRounds k l (s2.releaseGrant l)

/-- The arbiter of one lane acts. -/
def State.arbitrate (s : State) (l : LaneId) : State := arbitrateRounds arbiterRounds l s

/-- The arbiters of all lanes act, each on its own lane. -/
def State.arbitrateAll (s : State) : State := allLanes.foldl State.arbitrate s

end Sys2Proof.Machine
end

