-- ==== Sys2Proof/Machine/Resolver.lean ====
section
/-! DEFINITION. The Binding Resolver (R161 to R173): manifest choice, full and incremental resolution, tool status,
counts and TOOL notices; and RESOLVE and NODE_NAMED_REPORT. -/

namespace Sys2Proof.Machine

/-! ### Tool status and counts (R166 to R168) -/

/-- The manifest applied, as the last resolution read it: a commit to the applied slot and its erase both run a
resolution (R157, R158), so the slot's contents are those (log entry 20). -/
def State.appliedManifest (s : State) : Option Manifest := s.resolver.applied.bind (fun i => s.store.slots[i])

/-- A binding of the applied manifest that no entry holds, or that a LOST entry holds (R166, R167). -/
def State.missing (s : State) (index : Nat) : Bool :=
  !(s.dir.entries.any (fun e => decide ((e.binding.map (·.index)) = some index) && decide (e.presence ≠ .lost)))

/-- R167: the indices of the required (or the optional) bindings of the applied manifest that are missing. -/
def State.missingCount (s : State) (required : Bool) : Nat :=
  match s.appliedManifest with
  | some m => (m.bindings.zipIdx.filter (fun x => decide (x.1.required = required) && s.missing x.2)).length
  | none => 0

/-- R167: the counts after the initial resolution. -/
def State.computeCounts (s : State) : Counts :=
  if s.resolver.phase = .resolved then
    { bound := (s.dir.entries.filter (fun e => e.binding.isSome)).length,
      requiredMissing := s.missingCount true, optionalMissing := s.missingCount false,
      extras := (s.dir.entries.filter (fun e => !e.identity && e.binding.isNone)).length }
  else Counts.zero

/-- R166: the tool status, the first condition that holds. -/
def State.computeStatus (s : State) : ToolStatus :=
  if !s.mate.session then .none
  else if s.resolver.phase = .enumerating then .enumerating
  else if s.resolver.conflict || allLanes.any (fun l => (s.lane l).duplicateSeen) then .conflict
  else if s.resolver.applied.isNone then .unresolved
  else if s.missingCount true ≠ 0 then .incomplete
  else .ready

/-- R168: what a TOOL notice is decided by. -/
def Resolver.shown (r : Resolver) : ToolStatus × Option (Fin 8) × Option Word16 := (r.status, r.applied, r.toolId)

/-- The TOOL notice of the Resolver's present values (R168). -/
def State.toolNotice (s : State) : Notice :=
  .tool s.resolver.status s.resolver.toolId s.resolver.applied s.resolver.counts s.draws

/-- R166 to R168: recompute the status and the counts; if the status, the applied slot or the session tool ID
differs from `before`, one TOOL notice is due. -/
def State.refresh (s : State) (before : ToolStatus × Option (Fin 8) × Option Word16) : State × List Notice :=
  let t := { s with resolver := { s.resolver with status := s.computeStatus, counts := s.computeCounts } }
  if t.resolver.shown ≠ before then ({ t with draws := t.draws + 1 }, [t.toolNotice]) else (t, [])

/-- R168: recompute and post the TOOL notice that is due. -/
def State.recomputeFrom (s : State) (before : ToolStatus × Option (Fin 8) × Option Word16) : State :=
  (s.refresh before).1.postAll (s.refresh before).2

/-- R171: recompute after a report, in the phase RESOLVED; in the other phases a report is absorbed (R163). -/
def State.recompute (s : State) : State :=
  if s.resolver.phase = .resolved then s.recomputeFrom s.resolver.shown else s

/-- R168, R171: recompute now and keep the TOOL notice that is due for the end of the event (log entry 16). -/
def State.recomputeLater (s : State) (due : List Notice) : State × List Notice :=
  if s.resolver.phase = .resolved then ((s.refresh s.resolver.shown).1, due ++ (s.refresh s.resolver.shown).2) else (s, due)

/-- R167, R168: a TOOL notice with the values that the Resolver now holds. -/
def Notice.showing (r : Resolver) : Notice → Notice
  | .tool _ _ _ _ draw => .tool r.status r.toolId r.applied r.counts draw
  | n => n

/-- R168: of the TOOL notices of one event, the last carries the state after the whole event, its counts with it; one before it
keeps what its own recomputation gave (log entry 16). -/
def Resolver.lastShows (r : Resolver) : List Notice → List Notice
  | [] => []
  | [n] => [n.showing r]
  | n :: m :: ns => n :: r.lastShows (m :: ns)

/-! ### The choice of the manifest (R164) -/

/-- The slot that holds a tool ID; slots hold distinct ones (R154). -/
def Store.slotOf (st : Store) (t : Word16) : Option (Fin 8) :=
  (List.finRange 8).find? (fun i => decide ((st.slots[i]).map (·.toolId) = some t))

/-- R164: the chosen slot, the identity conflict and the session tool ID. -/
def State.chooseManifest (s : State) : Option (Fin 8) × Bool × Option Word16 :=
  match s.dir.entries.filter (·.identity) with
  | [] => (s.store.slotOf 0, false, none)
  | [e] =>
    match e.descriptor.bind (·.toolId) with
    | some t =>
      match s.store.slotOf t with
      | some i => (some i, false, some t)
      | none => (s.store.slotOf 0, false, some t)
    | none => (s.store.slotOf 0, false, none)
  | _ :: _ :: _ => (none, true, none)

/-! ### Full resolution (R165) -/

/-- The lane of a binding matches a lane, or is ANY. -/
def ManifestBinding.laneFits (b : ManifestBinding) (l : LaneId) : Bool :=
  match b.lane with
  | some m => decide (m = l)
  | none => true

/-- Section 8.3: the copy of a binding that an entry receives (R76). -/
def ManifestBinding.copyAt (b : ManifestBinding) (index : Nat) : Binding :=
  { index := index, role := b.role, level := b.level, access := b.access, required := b.required }

/-- Whether an entry may take a binding that carries a serial (Pass A), by class, serial and lane. -/
def ManifestBinding.fitsSerial (b : ManifestBinding) (e : Entry) : Bool :=
  decide (b.serial = some (Tag.serial e.tag)) && decide (b.cls = Tag.cls e.tag) && b.laneFits e.lane

/-- Whether an entry may take a binding without a serial (Pass B), by class and lane. -/
def ManifestBinding.fitsClass (b : ManifestBinding) (e : Entry) : Bool :=
  b.serial.isNone && decide (b.cls = Tag.cls e.tag) && b.laneFits e.lane

/-- The entries that a resolution may still bind, given those bound so far (handle and index). -/
def unboundIn (es : List Entry) (done : List (Nat × Nat)) : List Entry :=
  es.filter (fun e => !e.identity && !(done.any (fun x => decide (x.1 = e.handle))))

/-- R165, Pass A: one binding with a serial. -/
def passA (es : List Entry) (done : List (Nat × Nat)) (b : ManifestBinding × Nat) : List (Nat × Nat) :=
  match (unboundIn es done).find? (fun e => b.1.fitsSerial e) with
  | some e => done ++ [(e.handle, b.2)]
  | none => done

/-- R165, Pass B: one binding without a serial; PRESENT and SUSPECT entries come before LOST ones, and the lowest
handle first. -/
def passB (es : List Entry) (done : List (Nat × Nat)) (b : ManifestBinding × Nat) : List (Nat × Nat) :=
  let cands := (unboundIn es done).filter (fun e => b.1.fitsClass e)
  match cands.find? (fun e => decide (e.presence ≠ .lost)) with
  | some e => done ++ [(e.handle, b.2)]
  | none =>
    match cands.head? with
    | some e => done ++ [(e.handle, b.2)]
    | none => done

/-- R165: which entry (by handle) fills which binding (by index). -/
def assignBindings (es : List Entry) (m : Option Manifest) : List (Nat × Nat) :=
  match m with
  | none => []
  | some m => m.bindings.zipIdx.foldl (passB es) (m.bindings.zipIdx.foldl (passA es) [])

/-- R165, step 5: the binding an entry receives. -/
def newBinding (m : Option Manifest) (done : List (Nat × Nat)) (e : Entry) : Option Binding :=
  match done.find? (fun x => decide (x.1 = e.handle)) with
  | some x => (m.bind (fun m => m.bindings[x.2]?)).map (fun b => b.copyAt x.2)
  | none => none

/-- R150: an entry is given a binding; a PENDING one that loses its level becomes IDLE. -/
def Entry.bindTo (e : Entry) (b : Option Binding) : Entry :=
  { e with binding := b,
           attention := if e.attention = .pending ∧ (b.bind (·.level)).isNone then .idle else e.attention }

/-- R150: whether giving an entry this binding drops its pending attention, which adds a CLEAR. -/
def Entry.dropsPending (e : Entry) (b : Option Binding) : Bool :=
  decide (e.attention = .pending) && (b.bind (·.level)).isNone

/-- R86, R150: the bindings of all entries in one update; the generation advances by the number of entries whose
binding differs, and the CLEARs join the clear lists in ascending order of handle. -/
def State.writeBindings (s : State) (f : Entry → Option Binding) : State :=
  let es := s.dir.entries
  let n := (es.filter (fun e => decide (e.binding ≠ f e))).length
  let t := { s with dir := ({ s.dir with entries := es.map (fun e => e.bindTo (f e)) } : Directory).advance n }
  (es.filter (fun e => e.dropsPending (f e))).foldl State.addClear t

/-- R164, R165: the manifest is chosen and the bindings are written. -/
def State.rebind (s : State) : State :=
  let c := s.chooseManifest
  let t := { s with resolver := { s.resolver with applied := c.1, conflict := c.2.1, toolId := c.2.2 } }
  let m := t.appliedManifest
  let done := assignBindings t.dir.entries m
  t.writeBindings (newBinding m done)

/-- R165: a full resolution, with its TOOL notice; CLEARs it has added may now be requested (R132). -/
def State.fullResolution (s : State) : State :=
  (s.rebind.recomputeFrom s.resolver.shown).arbitrateAll

/-- R162: the initial resolution. -/
def State.initialResolution (s : State) : State :=
  let t := { s with resolver := { s.resolver with phase := .resolved } }
  (t.rebind.recomputeFrom s.resolver.shown).arbitrateAll

/-- R162: every enabled lane has reported finishing its initial enumeration. -/
def State.allFinished (s : State) : Bool :=
  allLanes.all (fun l => !(s.lane l).enabled || s.resolver.finished.get l)

/-- R20, R24, R162: a lane reports, the first time in the session, that it has finished its initial enumeration. -/
def State.reportFinished (s : State) (l : LaneId) : State :=
  if s.resolver.finished.get l then s
  else
    let t := { s with resolver := { s.resolver with finished := s.resolver.finished.set l true } }
    if t.resolver.phase = .enumerating && t.allFinished then t.initialResolution else t

/-- R169: a report that starts a full resolution once the phase is RESOLVED, and is absorbed before (R163). -/
def State.resolveIfResolved (s : State) : State :=
  if s.resolver.phase = .resolved then s.fullResolution else s

/-! ### Incremental resolution (R170) -/

/-- R170: the bindings of the applied manifest that no entry holds, with their indices. -/
def State.unfilled (s : State) : List (ManifestBinding × Nat) :=
  match s.appliedManifest with
  | some m => m.bindings.zipIdx.filter (fun b =>
      !(s.dir.entries.any (fun e => decide ((e.binding.map (·.index)) = some b.2))))
  | none => []

/-- R170: the binding that a new entry takes: Pass A, then Pass B. -/
def State.incrementalChoice (s : State) (e : Entry) : Option (ManifestBinding × Nat) :=
  match s.unfilled.find? (fun b => b.1.fitsSerial e) with
  | some b => some b
  | none => s.unfilled.find? (fun b => b.1.fitsClass e)

/-- R170: the incremental resolution of a report. -/
def State.incremental (s : State) (r : Report) : State :=
  match s.entry? r.handle with
  | some e =>
    if e.tag = r.tag ∧ e.binding.isNone then
      match s.incrementalChoice e with
      | some b => (s.update e (e.bindTo (some (b.1.copyAt b.2)))).recompute
      | none => s.recompute
    else s.recompute
  | none => s.recompute

/-- R61, R163, R169, R170: the Resolver takes a node-named report; one that was made before the initial resolution is absorbed,
even if it is taken after it. -/
def State.takeReport (s : State) (r : Report) : State :=
  if r.phase = .resolved ∧ s.resolver.phase = .resolved then
    if Tag.isIdentity r.tag then s.fullResolution else s.incremental r
  else s

/-- NODE_NAMED_REPORT (R170): the oldest report is taken; with none the state stays. -/
def execNodeNamedReport (s : State) : Host.Outcome State Fault Refusal :=
  .next (match s.resolver.reports with
    | [] => s
    | r :: rest => ({ s with resolver := { s.resolver with reports := rest } } : State).takeReport r)

/-! ### RESOLVE (R172) -/

/-- R172: the payload of the OK reply, which draws the free bytes of an absent tool ID. -/
def State.resolvePayload (s : State) : List Byte :=
  [s.resolver.status.code, optionalByte (s.resolver.applied.map (·.val))] ++ toolIdBytes s.resolver.toolId s.draws
    ++ s.resolver.counts.bytes ++ be16 s.dir.generation

/-- R172: refused NOT_NOW unless the phase is RESOLVED; else a full resolution, then the reply. -/
def serveResolve (q : Request) (s : State) : State :=
  if s.mate.session ∧ s.resolver.phase = .resolved then
    let t := s.fullResolution
    ({ t with draws := t.draws + 1 } : State).ok q t.resolvePayload
  else s.refuse q .notNow

/-- RESOLVE (R172). -/
def execResolve (s : State) : Host.Outcome State Fault Refusal := .next (s.take (ofKind 0x2D) serveResolve)

end Sys2Proof.Machine
end

