-- ==== Sys2Proof/Machine/Presence.lean ====
section
/-! DEFINITION. Presence Supervision: evidence and misses (R100 to R105), the Presence Poller (R96 to R99),
OVERRIDE (R107 to R111), lane loss (R87). -/

namespace Sys2Proof.Machine

/-! ### Evidence (R100 to R103) -/

/-- R101: evidence is applied only under AUTO, to an entry that is PRESENT or SUSPECT. -/
def Entry.judged (e : Entry) : Bool := decide (e.override = .auto) && decide (e.presence ≠ .lost)

/-- R85, R171: the presence change of one update is reported to the Resolver. -/
def State.reportPresence (s : State) (old new : Entry) : State :=
  if old.presence ≠ new.presence then s.recompute else s

/-- R102: the node-fault flag takes the value of a status answer. -/
def Entry.withFault (e : Entry) (f : Option Bool) : Entry := { e with nodeFault := f.getD e.nodeFault }

/-- R102: NODE(FAULT) when the flag changes from no to yes. -/
def State.postFault (s : State) (old new : Entry) : State :=
  if !old.nodeFault && new.nodeFault then s.post (.node new.handle .fault) else s

/-- R100: an entry that answered. -/
def Entry.answered (e : Entry) (f : Option Bool) : Entry := ({ e with presence := .present, miss := 0 } : Entry).withFault f

/-- R100, R102, R103: the node at a target answered; `f` is the fault indication of a status answer. -/
def State.applyAnswer (s : State) (t : Target) (f : Option Bool) : State :=
  match s.target? t with
  | some e =>
    if e.judged then
      let e' := e.answered f
      let s1 := s.update e e'
      let s2 := if e.presence ≠ .present then s1.post (.node e.handle .present) else s1
      (s2.postFault e e').reportPresence e e'
    else s
  | none => s

/-- R101: an entry after one miss, for a miss limit. -/
def Entry.missed (e : Entry) (limit : Nat) : Entry :=
  if e.miss + 1 < limit then { e with presence := .suspect, miss := e.miss + 1 }
  else { e with presence := .lost, miss := limit, attention := .idle }

/-- R85, R97, R98: an entry that becomes LOST or forced, or that moves to another lane, leaves the poll round of its lane:
its address is struck off the round set, so that the entry, or another one that is given the address, is pinged from the next
round on (log entry 26). -/
def State.leaveRound (s : State) (e : Entry) : State :=
  s.modLane e.lane (fun n =>
    { n with poller := { n.poller with roundSet := n.poller.roundSet.filter (fun a => decide (a ≠ e.addr)) } })

/-- R101, R103, R105: the node at a target gave no answer: one miss, with its notices and, on reaching LOST, the
end of its attention and of its part in the poll round. -/
def State.applyMiss (s : State) (t : Target) : State :=
  match s.target? t with
  | some e =>
    if e.judged then
      let e' := e.missed s.missLimit
      let s1 := s.update e e'
      let s2 :=
        if e'.presence = .lost then ((s1.leaveRound e).post (.node e.handle .lost)).endAttention e .lost
        else if e.presence = .present then s1.post (.node e.handle .suspect)
        else s1
      s2.reportPresence e e'
    else s
  | none => s

/-! ### Lane loss (R87, R149) -/

/-- R87: an entry of a lane that has failed or restarts. -/
def Entry.laneLost (e : Entry) (limit : Nat) : Entry :=
  { e with presence := .lost, miss := limit, attention := .idle }

/-- R87, R84, R85: one lane-loss update; the TOOL notice that follows from it is kept for the end of the event. -/
def loseEntry (x : State × List Notice) (e : Entry) : State × List Notice :=
  ((x.1.update e (e.laneLost x.1.missLimit)).endAttention e .laneFault).recomputeLater x.2

/-- R87: the entries of a lane that are not LOST, in ascending order of handle. -/
def State.toLose (s : State) (l : LaneId) : List Entry := (s.onLane l).filter (fun e => decide (e.presence ≠ .lost))

/-! ### The Presence Poller (R96 to R99) -/

/-- R98: an address passes the tests at the moment of the choice. -/
def State.pollable (s : State) (l : LaneId) (a : Nat) : Option Target :=
  match s.onLaneAt? l a with
  | some e => if e.judged then some e.target else none
  | none => none

/-- R98: the address above the poll position (any, when it is absent). -/
def above (pos : Option Nat) (a : Nat) : Bool :=
  match pos with
  | some p => decide (p < a)
  | none => true

/-- R98: the next entry of the round, by its tests at the moment of the choice, from a round set off which the addresses of
entries that left the round are struck (R85, log entry 26). -/
def State.nextPing (s : State) (l : LaneId) : Option Target :=
  let p := (s.lane l).poller
  ((List.range' 1 Config.maxOnLane).filter (fun a => p.roundSet.contains a && above p.position a)).findSome? (s.pollable l)

/-- R98: the Poller requests its next PING, or the round ends and the poll gap timer starts. -/
def State.pollNext (s : State) (l : LaneId) : State :=
  match s.nextPing l with
  | some t =>
    s.modLane l (fun n =>
      { n with poller := { n.poller with position := some t.addr, ping := some t },
               arbiter := { n.arbiter with standing := { n.arbiter.standing with poll := some t } } })
  | none =>
    s.modLane l (fun n =>
      { n with poller := { n.poller with phase := .gap, roundSet := [], ping := none },
               pollGapTimer := s.timer n.pollGapMs })

/-- R97: the addresses that a round covers. -/
def State.roundSet (s : State) (l : LaneId) : List Nat :=
  (List.range' 1 Config.maxOnLane).filter (fun a => (s.pollable l a).isSome)

/-- R97: a round begins. -/
def State.pollRound (s : State) (l : LaneId) : State :=
  (s.modLane l (fun n =>
    { n with poller := { phase := .round, roundSet := s.roundSet l, position := none, ping := none },
             pollGapTimer := none })).pollNext l

/-- R99 to R101: the outcome of a PING of the Poller; then the next PING is requested or the round ends. -/
def State.pollOutcome (s : State) (l : LaneId) (t : Target) (o : TelegramOutcome) : State :=
  let s1 :=
    match o with
    | .answered (.status f) => s.applyAnswer t (some f)
    | .noAnswer => s.applyMiss t
    | _ => s
  (s1.modLane l (fun n => { n with poller := { n.poller with ping := none } })).pollNext l

/-- POLL_GAP_TIMER_EXPIRY (R99): a running timer stops and a new round begins. -/
def execPollGapTimerExpiry (l : LaneId) (s : State) : Host.Outcome State Fault Refusal :=
  .next (if (s.lane l).pollGapTimer.isSome then (s.pollRound l).arbitrate l else s)

/-! ### OVERRIDE (R107 to R111) -/

/-- The rows of OVERRIDE share kind 0x1B; the mode is byte 1 (R197). -/
def overrideRow (c : Byte) : Request → Bool := selects 0x1B 1 [0, 1, 2] c

/-- R107: the OK reply: handle, override, presence, miss count and generation as they stand. -/
def State.overrideReply (s : State) (q : Request) (h : Nat) : State :=
  match s.entry? h with
  | some e =>
    s.ok q ([byteOf h, byteOf e.override.code, byteOf e.presence.code, byteOf e.miss] ++ be16 s.dir.generation)
  | none => s.refuse q .noSuchHandle

/-- R107: the checks every OVERRIDE makes, and the mode's own effect when it differs from the one held. The mode is tested
before the handle, so a mode outside the three is answered BAD_ARGUMENT also while no session is open (log entry 29). -/
def serveOverride (mode : Override) (effect : Entry → State → State) (q : Request) (s : State) : State :=
  if at' q.payload 1 ≠ byteOf mode.code then s.refuse q .badArgument
  else
    match s.entry? (at' q.payload 0).toNat with
    | none => s.refuse q .noSuchHandle
    | some e => (if e.override = mode then s else effect e s).overrideReply q e.handle

/-- R110: AUTO keeps the presence and the miss count. -/
def overrideToAuto (e : Entry) (s : State) : State := s.update e { e with override := .auto }

/-- R108: FORCED_PRESENT sets PRESENT and miss count 0, with NODE(PRESENT) if the entry was not PRESENT; the entry leaves the
poll round. -/
def overrideToPresent (e : Entry) (s : State) : State :=
  let e' := { e with override := .forcedPresent, presence := .present, miss := 0 }
  let s1 := (s.update e e').leaveRound e
  (if e.presence ≠ .present then s1.post (.node e.handle .present) else s1).reportPresence e e'

/-- R109: FORCED_ABSENT ends the entry's attention and its part in the poll round; an emptied slot may let the next one be
served. -/
def overrideToAbsent (e : Entry) (s : State) : State :=
  (((s.update e { e with override := .forcedAbsent, attention := .idle }).leaveRound e).endAttention e .isolated).arbitrate e.lane

/-- OVERRIDE with AUTO (R110). -/
def execOverrideAuto (s : State) : Host.Outcome State Fault Refusal :=
  .next (s.take (overrideRow 0) (serveOverride .auto overrideToAuto))

/-- OVERRIDE with FORCED_PRESENT (R108). -/
def execOverrideForcedPresent (s : State) : Host.Outcome State Fault Refusal :=
  .next (s.take (overrideRow 1) (serveOverride .forcedPresent overrideToPresent))

/-- OVERRIDE with FORCED_ABSENT (R109). -/
def execOverrideForcedAbsent (s : State) : Host.Outcome State Fault Refusal :=
  .next (s.take (overrideRow 2) (serveOverride .forcedAbsent overrideToAbsent))

end Sys2Proof.Machine
end

