-- ==== Sys2Proof/Machine/Attention.lean ====
section
/-! DEFINITION. The Attention Service (R131 to R153): outcomes of ROLLCALL, CLEAR and HEED, deadlines, ATTN_DONE,
ATTN_MASK, LATNn and the rollcall gap timer. -/

namespace Sys2Proof.Machine

/-! ### ROLLCALL (R135, R136) -/

/-- R135, row 4: the conditions under which a hit of an entry is discarded. -/
def Entry.hitDiscarded (e : Entry) : Bool :=
  decide (e.presence = .lost) || decide (e.override = .forcedAbsent) || e.masked || e.level.isNone
    || !((e.descriptor.map (·.attnCapable)).getD false)

/-- R135: a stray hit writes the fault record and is cleared without a handle. -/
def State.strayHit (s : State) (l : LaneId) (k : Nat) : State :=
  (s.writeFault l { cause := .strayAttention, addr := some k, tag := none }).modLane l
    (fun n => { n with attention := n.attention.addClear { addr := k, owner := none } })

/-- R136: a discarded hit is counted, up to 255, and cleared. -/
def State.discardHit (s : State) (e : Entry) : State :=
  (s.update e { e with discarded := min 255 (e.discarded + 1) }).addClear e

/-- R135: one hit slot, the first condition that holds. -/
def State.classifyHit (s : State) (l : LaneId) (k : Nat) : State :=
  match s.onLaneAt? l k with
  | none => s.strayHit l k
  | some e =>
    match e.attention with
    | .inService => s
    | .pending => s
    | .idle => if e.hitDiscarded then s.discardHit e else s.update e { e with attention := .pending }

/-- R35: the hit slots, in ascending order. -/
def hitSlots (h : BitVec 30) : List Nat := (List.range' 1 30).filter (fun k => h.getLsbD (k - 1))

/-- R133, R135: the outcome of a ROLLCALL; then the rollcall gap timer starts. -/
def State.rollcallOutcome (s : State) (l : LaneId) (h : BitVec 30) : State :=
  let t := (hitSlots h).foldl (fun t k => t.classifyHit l k) s
  t.modLane l (fun n => { n with rollcallGapTimer := s.timer n.pollGapMs })

/-! ### Evidence of a directed telegram (R103) -/

/-- R103: an answer (REFUSED among them) or no answer is evidence on the entry at a target. -/
def State.evidence (s : State) (t : Target) (o : TelegramOutcome) : State :=
  match o with
  | .answered _ => s.applyAnswer t none
  | .refused => s.applyAnswer t none
  | .noAnswer => s.applyMiss t
  | _ => s

/-! ### CLEAR (R137) -/

/-- R137: the entry that a clear item was added for. -/
def ClearItem.target (i : ClearItem) (l : LaneId) : Option Target :=
  i.owner.map (fun o => { handle := o.1, lane := l, addr := i.addr, tag := o.2 })

/-- R137: the oldest item leaves the list when the outcome of its CLEAR has been acted on. -/
def State.clearOutcome (s : State) (l : LaneId) (o : TelegramOutcome) : State :=
  match (s.lane l).attention.clearList with
  | [] => s
  | i :: _ =>
    let s1 :=
      match i.target l with
      | some t => s.evidence t o
      | none => s
    s1.modLane l (fun n => { n with attention := { n.attention with clearList := n.attention.clearList.drop 1 } })

/-! ### HEED (R140, R141) -/

/-- R140, R141: the entry of the heed in flight, if it still matches and is still PENDING. -/
def State.heeded? (s : State) (h : Heed) : Option Entry :=
  match s.target? h.target with
  | some e => if e.attention = .pending then some e else none
  | none => none

/-- R145: the deadline of an attention that enters service now; absent when the timeout is 0. -/
def State.attnDeadline (s : State) : Timer := if s.attnTimeout = 0 then none else s.timer (1000 * s.attnTimeout)

/-- R139, R140: the last served handle of a level. -/
def Attention.served (a : Attention) (v : LevelId) (h : Nat) : Attention :=
  { a with lastServed := a.lastServed.set v (some h) }

/-- R140: HEED answered with a cause other than 0x00. -/
def State.heedCause (s : State) (l : LaneId) (h : Heed) (cause : Byte) (data : List Byte) : State :=
  let s1 := s.applyAnswer h.target none
  match s1.heeded? h with
  | some e =>
    let s2 := s1.update e { e with attention := .inService }
    let s3 := s2.modLane l (fun n =>
      { n with attention :=
          { n.attention.served h.level e.handle with
            slots := n.attention.slots.set h.level (some { handle := e.handle, deadline := s1.attnDeadline }) } })
    s3.post (.attention e.handle h.level cause data)
  | none => s1

/-- R141: HEED answered with cause 0x00: the node holds no condition. -/
def State.heedNothing (s : State) (l : LaneId) (h : Heed) : State :=
  let s1 := s.applyAnswer h.target none
  match s1.heeded? h with
  | some e =>
    (s1.update e { e with attention := .idle }).modLane l (fun n => { n with attention := n.attention.served h.level e.handle })
  | none => s1

/-- R141: HEED with NO_ANSWER: IDLE first, then the miss. -/
def State.heedSilent (s : State) (h : Heed) : State :=
  let s1 :=
    match s.heeded? h with
    | some e => s.update e { e with attention := .idle }
    | none => s
  s1.applyMiss h.target

/-- R140, R141: the outcome of a HEED; the heed in flight becomes absent. -/
def State.heedOutcome (s : State) (l : LaneId) (o : TelegramOutcome) : State :=
  match (s.lane l).attention.heed with
  | none => s
  | some h =>
    let s1 :=
      match o with
      | .answered (.cause c data) => if c = 0 then s.heedNothing l h else s.heedCause l h c data
      | .noAnswer => s.heedSilent h
      | _ => s
    s1.modLane l (fun n => { n with attention := { n.attention with heed := none } })

/-- The outcome of a telegram of the Attention Service. -/
def State.attentionOutcome (s : State) (l : LaneId) (t : Telegram) (o : TelegramOutcome) : State :=
  match t, o with
  | .rollcall, .hits h => s.rollcallOutcome l h
  | .clear _, o => s.clearOutcome l o
  | .heed _, o => s.heedOutcome l o
  | _, _ => s

/-! ### The attention line and the gap timer (R16, R133) -/

/-- LATN_CHANGE (R16, R133): the level is taken (the line reads not asserted while the lane's power is off), and
the service examines whether a ROLLCALL is due. -/
def execLatnChange (l : LaneId) (asserted : Bool) (s : State) : Host.Outcome State Fault Refusal :=
  .next ((s.modLane l (fun n => { n with latn := asserted && n.power })).arbitrate l)

/-- ROLLCALL_GAP_TIMER_EXPIRY (R133): the timer stops, which permits the next ROLLCALL. -/
def execRollcallGapTimerExpiry (l : LaneId) (s : State) : Host.Outcome State Fault Refusal :=
  .next (if (s.lane l).rollcallGapTimer.isSome then
      (s.modLane l (fun n => { n with rollcallGapTimer := none })).arbitrate l
    else s)

/-! ### Ends by the deadline and by the host (R143, R144, R146) -/

/-- The level whose slot holds a handle. -/
def Attention.slotOf (a : Attention) (h : Nat) : Option LevelId :=
  allLevels.find? (fun v => decide ((a.slots.get v).map (·.handle) = some h))

/-- R143, R144: an in-service entry becomes IDLE, its slot is emptied and a CLEAR is added. -/
def State.finishAttention (s : State) (e : Entry) : State :=
  ((s.update e { e with attention := .idle }).modLane e.lane (fun n =>
    { n with attention := n.attention.release e.handle })).addClear e

/-- R144: the record of a slot expires. -/
def State.expireSlot (s : State) (l : LaneId) (r : InService) : State :=
  match s.entry? r.handle with
  | some e => ((s.finishAttention e).post (.attentionEnded e.handle .expired)).arbitrate l
  | none => s

/-- ATTENTION_DEADLINE_EXPIRY (R144): a record that is held and has a deadline expires. -/
def execAttentionDeadlineExpiry (l : LaneId) (v : LevelId) (s : State) : Host.Outcome State Fault Refusal :=
  .next (match (s.lane l).attention.slots.get v with
    | some r => if r.deadline.isSome then s.expireSlot l r else s
    | none => s)

/-- R143: ATTN_DONE. -/
def serveAttnDone (q : Request) (s : State) : State :=
  match s.entry? (at' q.payload 0).toNat with
  | none => s.refuse q .noSuchHandle
  | some e =>
    if e.attention = .inService then
      match (s.lane e.lane).attention.slotOf e.handle with
      | some v => ((s.finishAttention e).arbitrate e.lane).ok q [byteOf e.handle, byteOf v.val]
      | none => s.refuse q .notInService
    else s.refuse q .notInService

/-- ATTN_DONE (R143). -/
def execAttnDone (s : State) : Host.Outcome State Fault Refusal := .next (s.take (ofKind 0x24) serveAttnDone)

/-- R146: an entry with its mask set; masking drops a pending attention. -/
def Entry.maskTo (e : Entry) (on : Bool) : Entry :=
  { e with masked := on, attention := if on ∧ e.attention = .pending then .idle else e.attention }

/-- R146: ATTN_MASK. The setting is 1 for on and 0 for off, and a setting above 1 is refused (log entry 27). The setting is
tested before the handle, so such a setting is answered BAD_ARGUMENT also while no session is open (log entry 29). -/
def serveAttnMask (q : Request) (s : State) : State :=
  if 1 < (at' q.payload 1).toNat then s.refuse q .badArgument
  else
    match s.entry? (at' q.payload 0).toNat with
    | none => s.refuse q .noSuchHandle
    | some e =>
      let on := decide (at' q.payload 1 = 1)
      let e' := e.maskTo on
      let s1 := s.update e e'
      let s2 := if on && decide (e.attention = .pending) then s1.addClear e else s1
      (s2.arbitrate e.lane).ok q [byteOf e.handle, yesNo on, byteOf e'.attention.code]

/-- ATTN_MASK (R146). -/
def execAttnMask (s : State) : Host.Outcome State Fault Refusal := .next (s.take (ofKind 0x25) serveAttnMask)

end Sys2Proof.Machine
end

