-- ==== Sys2Proof/Machine/Access.lean ====
section
/-! DEFINITION. Object access (R117 to R129): READ_OBJECTS, WRITE_OBJECT, the outcomes of a run's telegrams and the
access timer. -/

namespace Sys2Proof.Machine

/-! ### The checks of form and of the directory (R118, R119) -/

/-- R118: the count of READ_OBJECTS is 1..16 and its mode is SINGLE (0) or BLOCK (1). -/
def readFormOk (p : List Byte) : Bool :=
  decide (1 ≤ (at' p 2).toNat) && decide ((at' p 2).toNat ≤ 16) && decide ((at' p 3).toNat ≤ 1)

/-- R119: check 7 of WRITE_OBJECT: the entry holds a binding whose access is RW. -/
def Entry.writable (e : Entry) : Bool := decide ((e.binding.map (·.access)) = some .rw)

/-- R119: the checks, in the order of its table. -/
def State.accessCheck (s : State) (handle first count : Nat) (write : Bool) : Except Status Entry :=
  match s.entry? handle with
  | none => .error .noSuchHandle
  | some e =>
    if !(s.lane e.lane).state.serving then .error .notNow
    else if e.override = .forcedAbsent then .error .isolated
    else if e.presence = .lost then .error .nodeLost
    else
      match e.descriptor with
      | none => .error .noDescriptor
      | some d =>
        if d.objectCount < first + count then .error .outOfRange
        else if write && !e.writable then .error .denied
        else .ok e

/-! ### The start of a run (R120 to R122) -/

/-- R121, R122: the Object Access Engine requests the lane, for one telegram or for a BLOCK run. -/
def State.requestAccess (s : State) (l : LaneId) (block : Bool) : State :=
  s.modLane l (fun n =>
    { n with arbiter := { n.arbiter with standing := { n.arbiter.standing with access := some block } } })

/-- R120: a run as it starts. -/
def Entry.runOf (e : Entry) (kind : RunKind) (block : Bool) (first count : Nat) : Run :=
  { kind := kind, block := block, target := e.target, first := first, count := count, completed := 0, values := [],
    abandoned := false }

/-- R120: the access starts: the access wait, the access timer, the run and its request; the arbiter may grant it
at once (R114). -/
def State.startAccess (s : State) (q : Request) (e : Entry) (r : Run) : State :=
  let t := (s.modLane e.lane (fun n => { n with run := some r })).requestAccess e.lane r.block
  ({ t with unit := .accessWait q.kind q.token e.lane, accessTimer := s.timer Config.accessMs } : State).arbitrate e.lane

/-- R118 to R120: READ_OBJECTS carries handle, first object, count and mode. -/
def serveReadObjects (q : Request) (s : State) : State :=
  let first := (at' q.payload 1).toNat
  let count := (at' q.payload 2).toNat
  if readFormOk q.payload then
    match s.accessCheck (at' q.payload 0).toNat first count false with
    | .error st => s.refuse q st
    | .ok e => s.startAccess q e (e.runOf .read (decide (at' q.payload 3 = 1)) first count)
  else s.refuse q .badArgument

/-- READ_OBJECTS (R118 to R120). -/
def execReadObjects (s : State) : Host.Outcome State Fault Refusal := .next (s.take (ofKind 0x20) serveReadObjects)

/-- R118 to R120: WRITE_OBJECT carries handle, object number and value; it is one telegram. -/
def serveWriteObject (q : Request) (s : State) : State :=
  let first := (at' q.payload 1).toNat
  let value := word32 (at' q.payload 2) (at' q.payload 3) (at' q.payload 4) (at' q.payload 5)
  match s.accessCheck (at' q.payload 0).toNat first 1 true with
  | .error st => s.refuse q st
  | .ok e => s.startAccess q e (e.runOf (.write value) false first 1)

/-- WRITE_OBJECT (R118 to R120). -/
def execWriteObject (s : State) : Host.Outcome State Fault Refusal := .next (s.take (ofKind 0x21) serveWriteObject)

/-! ### Outcomes (R124, R127) -/

/-- R124: the run after an ANSWERED telegram. -/
def Run.advance (r : Run) (a : Answer) : Run :=
  match r.kind, a with
  | .read, .value v => { r with completed := r.completed + 1, values := r.values ++ [v] }
  | .write _, .ack => { r with completed := 1 }
  | _, _ => r

/-- R121, R122, R123: a run whose telegram was ANSWERED ends with OK at its last object; else a SINGLE run requests
the next grant, and a BLOCK run checks its entry and sends the next telegram under the grant it holds. -/
def State.continueRun (s : State) (l : LaneId) (r : Run) : State :=
  let t := s.modLane l (fun n => { n with run := some r })
  if r.count ≤ r.completed then t.endAccess l .ok
  else if !r.block then t.requestAccess l false
  else if t.runStands r then t.startTelegram l r.telegram
  else t.endAccess l .nodeLost

/-- R103, R124, R127: the outcome of a run's telegram is evidence first; then an abandoned run is over, and another
one goes on or ends. -/
def State.accessOutcome (s : State) (l : LaneId) (o : TelegramOutcome) : State :=
  match (s.lane l).run with
  | none => s
  | some r =>
    let t := s.evidence r.target o
    if r.abandoned then t.modLane l (fun n => { n with run := none })
    else
      match o with
      | .answered a => t.continueRun l (r.advance a)
      | .refused => t.endAccess l .nodeRefused
      | .noAnswer => t.endAccess l .noAnswer
      | _ => t

/-! ### Replies that end a run from outside it (R127 to R129) -/

/-- R125: the reply that ends the run the Request Unit waits on, with the lane of the access. -/
def State.accessReply? (s : State) (status : Status) : Option (LaneId × Reply) :=
  match s.unit with
  | .accessWait kind token l =>
    match (s.lane l).run with
    | some r => some (l, { kind := kind + 0x80, token := token, status := status, payload := r.payload })
    | none => none
  | .free => none
  | .replying _ => none

/-- R125: the access timer stops and the reply is built. -/
def State.sendAccessReply (s : State) (r : Reply) : State := ({ s with accessTimer := none } : State).replyThen r none

/-- R127: the lane holds a grant for the run with a telegram under way. -/
def Lane.accessUnderWay (n : Lane) : Bool :=
  n.engine.isSome &&
    match n.arbiter.grant with
    | some (.access _) => true
    | _ => false

/-- R127, R113: the run is abandoned. A telegram under way completes, and its grant with it; else a standing request
is withdrawn with its count set to 0, or the grant is released. -/
def Lane.abandonRun (n : Lane) : Lane :=
  if n.accessUnderWay then { n with run := n.run.map (fun r => { r with abandoned := true }) }
  else
    { n with
      run := none
      arbiter :=
        { grant := match n.arbiter.grant with
            | some (.access _) => none
            | g => g
          standing := { n.arbiter.standing with access := none }
          passed := if n.arbiter.standing.access.isSome then { n.arbiter.passed with access := 0 } else n.arbiter.passed } }

/-- ACCESS_TIMER_EXPIRY (R127): a running timer in the access wait ends the access with TIMEOUT. -/
def execAccessTimerExpiry (s : State) : Host.Outcome State Fault Refusal :=
  .next (if s.accessTimer.isSome then
      match s.accessReply? .timeout with
      | some (l, r) => ((s.modLane l Lane.abandonRun).sendAccessReply r).arbitrate l
      | none => s
    else s)

end Sys2Proof.Machine
end

