-- ==== Sys2Proof/Machine/Survey.lean ====
section
/-! DEFINITION. The Survey Engine (R41 to R68): the walk, the naming step, the rescan pass, RESCAN and the settle and
rescan timers. -/

namespace Sys2Proof.Machine

/-- Change the Survey Engine of a lane. -/
def State.modSurvey (s : State) (l : LaneId) (f : Survey → Survey) : State :=
  s.modLane l (fun n => { n with survey := f n.survey })

/-- R41: the Survey Engine requests the grant for one telegram. -/
def State.requestSurvey (s : State) (l : LaneId) (w : SurveyWork) : State :=
  s.modLane l (fun n => { n with arbiter := { n.arbiter with standing := { n.arbiter.standing with survey := some w } } })

/-! ### The ends of a pass (R24, R67) -/

/-- R62: the rescan timer as it starts on entry to SUPERVISING. -/
def State.rescanDeadline (s : State) (l : LaneId) : Timer :=
  if (s.lane l).rescanSeconds = 0 then none else s.timer (1000 * (s.lane l).rescanSeconds)

/-- R67: the lane returns to SUPERVISING, without a notice. -/
def State.endRescanPass (s : State) (l : LaneId) : State :=
  s.modLane l (fun n => { n with survey := Survey.cold, state := .supervising, rescanTimer := s.rescanDeadline l })

/-- R24, R96, R131, R162: the lane enters SUPERVISING from ENUMERATING. -/
def State.endInitialPass (s : State) (l : LaneId) : State :=
  let t := s.modLane l (fun n =>
    { n with survey := Survey.cold, state := .supervising, rescanTimer := s.rescanDeadline l,
             attention := Attention.cold, rollcallGapTimer := none })
  ((t.postLane l none).pollRound l).reportFinished l

/-- R44, R67: the walk has ended. -/
def State.endPass (s : State) (l : LaneId) : State :=
  match (s.lane l).survey.pass with
  | some .initial => s.endInitialPass l
  | some .rescan => s.endRescanPass l
  | none => s

/-! ### The steps of a pass (R43, R65, R66) -/

/-- R43: the top prefix becomes the current one and its SURVEY is requested; with an empty stack the pass ends. -/
def State.walkNext (s : State) (l : LaneId) : State :=
  match (s.lane l).survey.stack with
  | [] => s.endPass l
  | p :: rest =>
    (s.modSurvey l (fun v => { v with stack := rest, current := some { digits := p, attempt := 1 } })).requestSurvey l (.survey p)

/-- R44, R66: the empty prefix is pushed and the walk begins. -/
def State.beginWalk (s : State) (l : LaneId) : State :=
  (s.modSurvey l (fun v => { v with step := some .walk, position := none, stack := [] :: v.stack })).walkNext l

/-- R65, R66: the entry of the lane with the lowest address above the step position that passes a test. -/
def State.nextOnLane (s : State) (l : LaneId) (test : Entry → Bool) : Option Entry :=
  ((List.range' 1 Config.maxOnLane).filter (above (s.lane l).survey.position)).findSome?
    (fun a => (s.onLaneAt? l a).filter test)

/-- R66: an entry to describe. -/
def Entry.describable (e : Entry) : Bool := e.descriptor.isNone && decide (e.presence ≠ .lost)

/-- R66: the next DESCRIBE is requested, or the walk begins. -/
def State.describeNext (s : State) (l : LaneId) : State :=
  match s.nextOnLane l Entry.describable with
  | some e => (s.modSurvey l (fun v => { v with position := some e.addr })).requestSurvey l (.describe e.target)
  | none => s.beginWalk l

/-- R65: an entry to recall. -/
def Entry.recallable (e : Entry) : Bool := decide (e.presence = .lost) && decide (e.override ≠ .forcedAbsent)

/-- R65: the next recall PING is requested, or the DESCRIBE step begins. -/
def State.recallNext (s : State) (l : LaneId) : State :=
  match s.nextOnLane l Entry.recallable with
  | some e => (s.modSurvey l (fun v => { v with position := some e.addr })).requestSurvey l (.recall e.target)
  | none => (s.modSurvey l (fun v => { v with step := some .describe, position := none })).describeNext l

/-- R41: the engine goes on with its step. -/
def State.surveyNext (s : State) (l : LaneId) : State :=
  match (s.lane l).survey.step with
  | some .recall => s.recallNext l
  | some .describe => s.describeNext l
  | some .walk => s.walkNext l
  | some .forget => s
  | none => s

/-! ### SILENT and COLLIDED (R45 to R48) -/

/-- R45: the current prefix is dropped. -/
def State.dropCurrent (s : State) (l : LaneId) : State := s.modSurvey l (fun v => { v with current := none })

/-- R46: the four children are pushed, p·0 on top. -/
def State.splitPrefix (s : State) (l : LaneId) (p : Digits) : State :=
  s.modSurvey l (fun v => { v with stack := children p ++ v.stack, current := none })

/-- R48: three COLLIDED attempts at 40 bits. -/
def State.duplicateFound (s : State) (l : LaneId) (p : Digits) : State :=
  let known := (s.lane l).duplicateSeen
  let t := (s.writeFault l { cause := .duplicateTag, addr := none, tag := some (digitsTag p) }).modLane l
    (fun n => { n with duplicateSeen := true })
  (if known then t else t.recompute).dropCurrent l

/-- R46 to R48: a COLLIDED outcome. -/
def State.surveyCollided (s : State) (l : LaneId) (p : Digits) : State :=
  match (s.lane l).survey.current with
  | none => s
  | some c =>
    if p.length < Config.tagDigits then (s.splitPrefix l p).surveyNext l
    else if c.attempt < Config.attempts then
      (s.modSurvey l (fun v => { v with current := some { c with attempt := c.attempt + 1 } })).requestSurvey l (.survey p)
    else (s.duplicateFound l p).surveyNext l

/-! ### The naming decision (R50, R51, R58, R59) -/

/-- R50: the four decisions. -/
inductive Decision where
  | rejoin (e : Entry)
  | reclaim (e : Entry)
  | duplicate
  | new
deriving DecidableEq, Repr

/-- R50: a naming step of another lane holds a NEW reservation for a tag. -/
def State.newElsewhere (s : State) (l : LaneId) (t : Tag) : Bool :=
  allLanes.any (fun m => decide (m ≠ l) &&
    match (s.lane m).survey.naming with
    | some n => decide (n.kind = .new) && decide (n.stage = .assign) && decide (n.tag = t)
    | none => false)

/-- R50: the decision on a tag that a lane presents. -/
def State.decideNaming (s : State) (l : LaneId) (t : Tag) : Decision :=
  match s.byTag? t with
  | some e =>
    if s.heldElsewhere l e.handle then .duplicate
    else if e.presence = .lost then .reclaim e
    else if e.lane = l then .rejoin e
    else .duplicate
  | none => if s.newElsewhere l t then .duplicate else .new

/-- R51: the naming step starts, with its reservation or hold, and requests ASSIGN. -/
def State.startNaming (s : State) (l : LaneId) (t : Tag) (kind : NamingKind) (handle addr : Nat) : State :=
  (s.modSurvey l (fun v =>
    { v with naming := some { tag := t, kind := kind, handle := handle, addr := addr, stage := .assign } })).requestSurvey l
      (.assign t addr)

/-- R58, R59: a naming that is refused writes its fault, and the engine goes on. -/
def State.refuseNaming (s : State) (l : LaneId) (t : Tag) (c : FaultCause) : State :=
  (s.writeFault l { cause := c, addr := none, tag := some t }).surveyNext l

/-- R59: a lane holds 30 entries. -/
def State.laneIsFull (s : State) (l : LaneId) : Bool := decide (Config.maxOnLane ≤ (s.onLane l).length)

/-- R59: the directory holds 64 entries, counting the handles reserved by naming steps. -/
def State.directoryIsFull (s : State) : Bool := decide (Config.maxEntries ≤ s.dir.entries.length + s.reserved.length)

/-- R51, R59: a NEW decision. -/
def State.nameNew (s : State) (l : LaneId) (t : Tag) : State :=
  if s.laneIsFull l then s.refuseNaming l t .laneFull
  else if s.directoryIsFull then s.refuseNaming l t .directoryFull
  else
    match s.freeAddr l, s.freeHandle with
    | some a, some h => s.startNaming l t .new h a
    | none, _ => s.refuseNaming l t .laneFull
    | some _, none => s.refuseNaming l t .directoryFull

/-- R56, R57: a RECLAIM decision, on the entry's own lane or from another lane. -/
def State.nameReclaim (s : State) (l : LaneId) (t : Tag) (e : Entry) : State :=
  if e.lane = l then s.startNaming l t .reclaim e.handle e.addr
  else if s.laneIsFull l then s.refuseNaming l t .laneFull
  else
    match s.freeAddr l with
    | some a => s.startNaming l t .reclaim e.handle a
    | none => s.refuseNaming l t .laneFull

/-- R49, R50: a CLEAN outcome: the naming decision. -/
def State.surveyClean (s : State) (l : LaneId) (t : Tag) : State :=
  let s1 := s.dropCurrent l
  match s1.decideNaming l t with
  | .rejoin e => s1.startNaming l t .rejoin e.handle e.addr
  | .reclaim e => s1.nameReclaim l t e
  | .duplicate => s1.refuseNaming l t .duplicateTag
  | .new => s1.nameNew l t

/-! ### ASSIGN (R52 to R57) -/

/-- R51: the naming step ends, and its reservations and holds with it. -/
def State.endNaming (s : State) (l : LaneId) : State := s.modSurvey l (fun v => { v with naming := none })

/-- R52: the entry that a NEW step creates. -/
def newEntry (l : LaneId) (n : Naming) : Entry :=
  { handle := n.handle, lane := l, addr := n.addr, tag := n.tag, identity := Tag.isIdentity n.tag, presence := .present,
    miss := 0, override := .auto, nodeFault := false, descriptor := none, binding := none, attention := .idle,
    masked := false, discarded := 0 }

/-- R61: the node-named report of an entry goes to the Resolver, with the phase in which it is made. -/
def State.report (s : State) (handle : Nat) (tag : Tag) : State :=
  { s with resolver := { s.resolver with
      reports := s.resolver.reports ++ [{ handle := handle, tag := tag, phase := s.resolver.phase }] } }

/-- R52, R54, R61: ASSIGN of a NEW step is ANSWERED: the entry is created and its DESCRIBE is requested. -/
def State.assignedNew (s : State) (l : LaneId) (n : Naming) : State :=
  let e := newEntry l n
  let t := (s.create e).modSurvey l (fun v => { v with naming := some { n with stage := .describe } })
  ((t.post (.node n.handle .named)).report n.handle n.tag).requestSurvey l (.describe e.target)

/-- R55, R148: the update of a rejoin. -/
def Entry.rejoined (e : Entry) : Entry := { e with presence := .present, miss := 0, attention := .idle }

/-- R56, R57: the update of a reclaim by a lane at an address. A move to another lane ends an attention that the
entry has been given since the decision (log entry 11). -/
def Entry.reclaimed (e : Entry) (l : LaneId) (a : Nat) : Entry :=
  { e with presence := .present, miss := 0, lane := l, addr := a, attention := if e.lane = l then e.attention else .idle }

/-- R55 to R57: the update of a rejoin or reclaim; an entry that moves to another lane leaves the poll round of its old one. -/
def State.comeBackTo (s : State) (e new : Entry) : State :=
  (if new.lane = e.lane then s else s.leaveRound e).update e new

/-- R55 to R57: the ASSIGN of a rejoin or reclaim is ANSWERED: the update, NODE(REJOINED), the end of an attention,
and the report to the Resolver; an emptied slot may let its lane serve the next attention. -/
def State.comeBack (s : State) (e new : Entry) : State :=
  let t := (s.comeBackTo e new).post (.node e.handle .rejoined)
  let u := if new.attention = e.attention then t else (t.endAttention e .lost).arbitrate e.lane
  u.reportPresence e new

/-- R55 to R57: the held entry, by handle and tag (R82). -/
def State.heldEntry? (s : State) (n : Naming) : Option Entry := (s.entry? n.handle).filter (fun e => decide (e.tag = n.tag))

/-- R52, R55 to R57: ASSIGN is ANSWERED. -/
def State.assigned (s : State) (l : LaneId) (n : Naming) : State :=
  match n.kind with
  | .new => s.assignedNew l n
  | .rejoin =>
    let t := match s.heldEntry? n with
      | some e => s.comeBack e e.rejoined
      | none => s
    (t.endNaming l).surveyNext l
  | .reclaim =>
    let t := match s.heldEntry? n with
      | some e => s.comeBack e (e.reclaimed l n.addr)
      | none => s
    (t.endNaming l).surveyNext l

/-- R53, R55 to R57: ASSIGN got NO_ANSWER. -/
def State.assignSilent (s : State) (l : LaneId) (n : Naming) : State :=
  ((s.writeFault l { cause := .noAnswer, addr := some n.addr, tag := some n.tag }).endNaming l).surveyNext l

/-! ### DESCRIBE and recall (R54, R65, R66) -/

/-- R54, R66: a descriptor arrives, and an identity entry's is reported to the Resolver (R61, R169). -/
def State.storeDescriptor (s : State) (t : Target) (d : Descriptor) : State :=
  match s.target? t with
  | some e =>
    let s1 := s.update e { e with descriptor := some d }
    if e.identity then s1.resolveIfResolved else s1
  | none => s

/-- R54, R66: the outcome of a DESCRIBE; a naming step then ends, and the engine goes on. -/
def State.describeOutcome (s : State) (l : LaneId) (t : Target) (o : TelegramOutcome) : State :=
  let s1 :=
    match o with
    | .answered (.descriptor d) => s.storeDescriptor t d
    | .noAnswer => s.writeFault l { cause := .noAnswer, addr := some t.addr, tag := some t.tag }
    | _ => s
  (s1.endNaming l).surveyNext l

/-- R65, R102: an answered recall PING of an entry that is still LOST. -/
def State.recallAnswered (s : State) (t : Target) (f : Bool) : State :=
  match s.target? t with
  | some e =>
    if e.presence = .lost then
      let e' := e.answered (some f)
      ((((s.update e e').post (.node e.handle .rejoined)).postFault e e')).reportPresence e e'
    else s
  | none => s

/-- R65: the outcome of a recall PING. -/
def State.recallOutcome (s : State) (l : LaneId) (t : Target) (o : TelegramOutcome) : State :=
  let s1 :=
    match o with
    | .answered (.status f) => s.recallAnswered t f
    | _ => s
  s1.surveyNext l

/-- R41: the outcome of a telegram goes to the work it was sent for. -/
def State.surveyOutcome (s : State) (l : LaneId) (w : SurveyWork) (o : TelegramOutcome) : State :=
  match w with
  | .forget => s.beginWalk l
  | .survey p =>
    match o with
    | .silent => (s.dropCurrent l).surveyNext l
    | .collided => s.surveyCollided l p
    | .clean t => s.surveyClean l t
    | _ => s
  | .assign _ _ =>
    match (s.lane l).survey.naming with
    | some n =>
      match o with
      | .answered _ => s.assigned l n
      | .noAnswer => s.assignSilent l n
      | _ => s
    | none => s
  | .describe t => s.describeOutcome l t o
  | .recall t => s.recallOutcome l t o

/-! ### Passes begin (R23, R44, R62, R64, R68) -/

/-- R23, R44: the lane enters ENUMERATING and its initial pass begins with FORGET. -/
def State.beginInitialPass (s : State) (l : LaneId) : State :=
  (s.modLane l (fun n =>
    { n with settleTimer := none, state := .enumerating,
             survey := { Survey.cold with pass := some .initial, step := some .forget } })).requestSurvey l .forget

/-- SETTLE_TIMER_EXPIRY (R23, R44). -/
def execSettleTimerExpiry (l : LaneId) (s : State) : Host.Outcome State Fault Refusal :=
  .next (if (s.lane l).settleTimer.isSome then (s.beginInitialPass l).arbitrate l else s)

/-- R27, R64: the lane enters RESCANNING and a rescan pass begins with its RECALL step. -/
def State.beginRescan (s : State) (l : LaneId) : State :=
  (s.modLane l (fun n =>
    { n with rescanTimer := none, state := .rescanning,
             survey := { Survey.cold with pass := some .rescan, step := some .recall } })).recallNext l

/-- RESCAN_TIMER_EXPIRY (R62, R64). -/
def execRescanTimerExpiry (l : LaneId) (s : State) : Host.Outcome State Fault Refusal :=
  .next (if (s.lane l).rescanTimer.isSome then (s.beginRescan l).arbitrate l else s)

/-- The OK reply of RESCAN and LANE_RESTART: the lane and its state. -/
def State.laneReply (s : State) (q : Request) (l : LaneId) : State := s.ok q [byteOf l.val, (s.lane l).state.code]

/-- R68: RESCAN, according to the lane state. -/
def serveRescan (q : Request) (s : State) : State :=
  match laneOf (at' q.payload 0) with
  | none => s.refuse q .badArgument
  | some l =>
    match (s.lane l).state with
    | .supervising => ((s.beginRescan l).arbitrate l).laneReply q l
    | .rescanning => s.laneReply q l
    | .disabled => s.refuse q .notNow
    | .off => s.refuse q .notNow
    | .settling => s.refuse q .notNow
    | .enumerating => s.refuse q .notNow
    | .faulted => s.refuse q .notNow

/-- RESCAN (R68). -/
def execRescan (s : State) : Host.Outcome State Fault Refusal := .next (s.take (ofKind 0x11) serveRescan)

end Sys2Proof.Machine
end

