-- ==== Sys2Proof/Machine/Lanes.lean ====
section
/-! DEFINITION. The lane power switch, lane loss, lane restart and the lane fault record (R16 to R28, R37, R38, R69,
R87, R128, R149). -/

namespace Sys2Proof.Machine

/-- R18, R20, R25, R26, R36: all of a lane's work ends: power off, the telegram under way ended, the arbiter, the
survey, the poller, the attention service, the run and every lane timer at rest. The fault record, the parameters,
the mask place and the duplicate-seen flag stay. -/
def Lane.quench (n : Lane) (st : LaneState) : Lane :=
  { n with
    state := st, power := false, latn := false, settleTimer := none, restartTimer := none, rescanTimer := none,
    pollGapTimer := none, rollcallGapTimer := none, engine := none, arbiter := Arbiter.cold, survey := Survey.cold,
    poller := Poller.cold, attention := Attention.cold, run := none }

/-- R87: the lane-loss updates of a lane, in ascending order of handle, as acts on the state and on the TOOL notices
that are due at the end of the event (R168). -/
def State.lossActs (s : State) (l : LaneId) : List (State × List Notice → State × List Notice) :=
  (s.toLose l).map (fun e x => loseEntry x e)

/-- R168: the TOOL notices that are due are posted, the last of them with the state after the whole event. -/
def postDue (x : State × List Notice) : State × List Notice := (x.1.postAll (x.1.resolver.lastShows x.2), [])

/-! ### The overcurrent trip (R19, R20) -/

/-- R20: the lane after a trip: FAULTED, with OVERCURRENT recorded. -/
def Lane.tripped (n : Lane) : Lane :=
  { n.quench .faulted with fault := { cause := .overcurrent, addr := none, tag := none } }

/-- R20, R128, R149: what a trip posts and updates, in order; `s` is the state at the trip. -/
def State.tripActs (s : State) (l : LaneId) : List (State × List Notice → State × List Notice) :=
  (fun x => (x.1.postLane l (some .overcurrent), x.2)) :: (s.lossActs l ++ [postDue])

/-- R128: the reply LANE_FAULT is due when the access that the Request Unit waits on is on this lane. -/
def State.tripReply? (s : State) (l : LaneId) : Option Reply :=
  match s.accessReply? .laneFault with
  | some (m, r) => if m = l then some r else none
  | none => none

/-- R128: the reply is built among the acts of the trip, at a place the manual leaves open (log entry 10). -/
def State.tripSequence (s : State) (l : LaneId) : List (State × List Notice → State × List Notice) :=
  match s.tripReply? l with
  | some r =>
    let k := Config.tripReplyPlace s.draws
    (s.tripActs l).take k ++ (fun x => (x.1.sendAccessReply r, x.2)) :: (s.tripActs l).drop k
  | none => s.tripActs l

/-- R20: the trip of a lane. The report that its initial enumeration is finished, and the initial resolution with it, comes
after the lane losses and their notices (log entry 28). -/
def State.trip (s : State) (l : LaneId) : State :=
  let t := s.modLane l Lane.tripped
  let u := { t with draws := t.draws + 1 }
  ((s.tripSequence l).foldl (fun x f => f x) (u, [])).1.reportFinished l

/-- OVERCURRENT_TRIP (R19, R20): the switch trips only while the lane's power is on. -/
def execOvercurrentTrip (l : LaneId) (s : State) : Host.Outcome State Fault Refusal :=
  .next (if (s.lane l).power then s.trip l else s)

/-! ### The lane restart (R25, R69) -/

/-- R25: the lane in its restart hold, at a moment `now`. -/
def Lane.restarted (n : Lane) (deadline : Timer) : Lane :=
  { n.quench .settling with duplicateSeen := false, restartTimer := deadline }

/-- R69: the restart: LANE(SETTLING), the recomputation for a cleared duplicate-seen flag (R171), the lane losses,
and the TOOL notices at the end of the event. -/
def State.restartLane (s : State) (l : LaneId) : State :=
  let t := (s.modLane l (fun n => n.restarted (s.timer Config.restartMs))).postLane l none
  let x := if (s.lane l).duplicateSeen then t.recomputeLater [] else (t, [])
  (postDue ((s.lossActs l).foldl (fun x f => f x) x)).1

/-- R69: LANE_RESTART, according to the lane state. -/
def serveLaneRestart (q : Request) (s : State) : State :=
  match laneOf (at' q.payload 0) with
  | none => s.refuse q .badArgument
  | some l =>
    match (s.lane l).state with
    | .off => s.refuse q .notNow
    | .disabled => s.refuse q .notNow
    | .settling => (s.restartLane l).laneReply q l
    | .enumerating => (s.restartLane l).laneReply q l
    | .supervising => (s.restartLane l).laneReply q l
    | .rescanning => (s.restartLane l).laneReply q l
    | .faulted => (s.restartLane l).laneReply q l

/-- LANE_RESTART (R25, R69). -/
def execLaneRestart (s : State) : Host.Outcome State Fault Refusal := .next (s.take (ofKind 0x12) serveLaneRestart)

/-- R22, R25: power comes on and the settle timer starts. -/
def Lane.powerUp (n : Lane) (deadline : Timer) : Lane :=
  { n with state := .settling, power := true, restartTimer := none, settleTimer := deadline }

/-- RESTART_TIMER_EXPIRY (R25): the end of the restart hold. -/
def execRestartTimerExpiry (l : LaneId) (s : State) : Host.Outcome State Fault Refusal :=
  .next (if (s.lane l).restartTimer.isSome then s.modLane l (fun n => n.powerUp (s.timer Config.settleMs)) else s)

/-! ### FAULTS (R38) -/

/-- R38, section 10.11: the reply payload of FAULTS. -/
def FaultRecord.payload (f : FaultRecord) (l : LaneId) : List Byte :=
  [byteOf l.val, byteOf f.cause.code, optionalByte f.addr, yesNo f.tag.isSome] ++ be40 (f.tag.getD 0)

/-- R38: FAULTS carries a lane number and a clear flag, which is 0 or 1 (R197, log entry 24). -/
def serveFaults (q : Request) (s : State) : State :=
  match laneOf (at' q.payload 0) with
  | none => s.refuse q .badArgument
  | some l =>
    if 1 < (at' q.payload 1).toNat then s.refuse q .badArgument
    else
      let payload := (s.lane l).fault.payload l
      let t := if at' q.payload 1 = 1 then s.modLane l (fun n => { n with fault := FaultRecord.empty }) else s
      t.ok q payload

/-- FAULTS (R38). -/
def execFaults (s : State) : Host.Outcome State Fault Refusal := .next (s.take (ofKind 0x10) serveFaults)

end Sys2Proof.Machine
end

