-- ==== Sys2Proof/Machine/Mate.lean ====
section
/-! DEFINITION. The Mate Monitor (R1 to R15): the plug state, the session, PLUG_ENABLE and PLUG_DISABLE. -/

namespace Sys2Proof.Machine

/-! ### The session (R10, R11) -/

/-- R22: a lane at session open. -/
def Lane.opened (n : Lane) (deadline : Timer) : Lane := if n.state = .off then n.powerUp deadline else n

/-- R161: the Resolver at session open, before its status is computed. -/
def Resolver.opened : Resolver := { Resolver.cold with phase := .enumerating }

/-- R10, R22, R161, R162: a session opens; with no lane enabled the initial resolution runs at once. -/
def State.openSession (s : State) : State :=
  if s.mate.session then s
  else
    let t := { s with
      mate := { s.mate with session := true }
      lanes := s.lanes.map (fun n => n.opened (s.timer Config.settleMs))
      resolver := Resolver.opened }
    let u := t.recomputeFrom s.resolver.shown
    if u.allFinished then u.initialResolution else u

/-- R26: a lane at session close. -/
def Lane.closed (n : Lane) : Lane :=
  if n.state = .disabled then n else { n.quench .off with duplicateSeen := false }

/-- R11, R26, R94, R173: what the close does to the session, the lanes, the directory and the Resolver. -/
def State.closeBlocks (s : State) : State :=
  { s with
    mate := { s.mate with session := false }
    lanes := s.lanes.map Lane.closed
    dir := s.dir.emptied
    resolver := Resolver.cold }

/-- R173: TOOL(NONE), when the close changes what the Resolver shows. -/
def State.closeTool (s : State) (before : ToolStatus × Option (Fin 8) × Option Word16) : State := s.recomputeFrom before

/-- R129: the access that the Request Unit waits on is answered DETACHED. -/
def State.closeReply (s : State) (r : Option (LaneId × Reply)) : State :=
  match r with
  | some x => s.sendAccessReply x.2
  | none => s

/-- R11: a session closes, with TOOL(NONE) and the reply DETACHED in an order the manual leaves open (section
10.12, log entry 10). -/
def State.closeSession (s : State) : State :=
  if s.mate.session then
    let r := s.accessReply? .detached
    if r.isSome && Config.closeReplyFirst s.draws then (s.closeBlocks.closeReply r).closeTool s.resolver.shown
    else (s.closeBlocks.closeTool s.resolver.shown).closeReply r
  else s

/-- R15, R173: the close that a SOFT reset makes posts no TOOL notice. -/
def State.closeSoft (s : State) : State :=
  if s.mate.session then s.closeBlocks.closeReply (s.accessReply? .detached) else s

/-! ### The plug state (R4 to R8) -/

/-- R4: a new plug state is announced; the same state is no change. -/
def State.setPlug (s : State) (p : PlugState) : State :=
  if s.mate.plug = p then s else ({ s with mate := { s.mate with plug := p } } : State).post (.plug p)

/-- R2, R3: both timers. -/
def State.plugTimers (s : State) (debounce partialTimer : Timer) : State :=
  { s with mate := { s.mate with debounce := debounce, partialTimer := partialTimer } }

/-- R1: the level taken from a sense input. -/
def Mate.record (m : Mate) (pin : SensePin) (level : Contact) : Mate :=
  match pin with
  | .lead => { m with lead := level }
  | .seat => { m with seat := level }

/-- R1: the level last taken. -/
def Mate.level (m : Mate) (pin : SensePin) : Contact :=
  match pin with
  | .lead => m.lead
  | .seat => m.seat

/-- R5 to R8: one sense event. -/
def State.sense (s : State) (pin : SensePin) (level : Contact) : State :=
  let t := { s with mate := s.mate.record pin level }
  match s.mate.plug with
  | .detached =>
    match level with
    | .closed => (t.plugTimers (s.timer Config.debounceMs) (s.timer Config.partialMs)).setPlug .mating
    | .opened => t
  | .mating => t.plugTimers (s.timer Config.debounceMs) t.mate.partialTimer
  | .partialMate => t.plugTimers (s.timer Config.debounceMs) t.mate.partialTimer
  | .attached =>
    match level with
    | .opened => ((t.plugTimers none none).setPlug .detached).closeSession
    | .closed => t

/-- SENSE_EVENT (R1): a change of level is one sense event (log entry 8: the same level again is none); while a
cold reset lasts, the Mate Monitor is held and the pin's level is all that changes. -/
def execSenseEvent (pin : SensePin) (level : Contact) (s : State) : Host.Outcome State Fault Refusal :=
  .next (if s.mate.level pin = level then s
    else if s.hold.isSome then { s with mate := s.mate.record pin level }
    else s.sense pin level)

/-- R6, R7: the debounce timer expires. -/
def State.settlePlug (s : State) : State :=
  match s.mate.lead, s.mate.seat with
  | .closed, .closed =>
    let t := (s.plugTimers none none).setPlug .attached
    if t.mate.enabled then t.openSession else t
  | .opened, .opened => (s.plugTimers none none).setPlug .detached
  | .closed, .opened => s.plugTimers none s.mate.partialTimer
  | .opened, .closed => s.plugTimers none s.mate.partialTimer

/-- DEBOUNCE_EXPIRY (R2, R6, R7): the timer runs only in MATING and PARTIAL. -/
def execDebounceExpiry (s : State) : Host.Outcome State Fault Refusal :=
  .next (if s.mate.debounce.isSome then s.settlePlug else s)

/-- PARTIAL_EXPIRY (R3, R6): the timer runs only in MATING; the debounce timer keeps its state. -/
def execPartialExpiry (s : State) : Host.Outcome State Fault Refusal :=
  .next (if s.mate.partialTimer.isSome then (s.plugTimers s.mate.debounce none).setPlug .partialMate else s)

/-! ### Requests (R12, R13) -/

/-- Section 1.5: the reply carries the plug state and the session. -/
def State.mateReply (s : State) (q : Request) : State := s.ok q [s.mate.plug.code, yesNo s.mate.session]

/-- R9: the plug enable. -/
def State.setEnable (s : State) (on : Bool) : State := { s with mate := { s.mate with enabled := on } }

/-- R12: PLUG_ENABLE. -/
def servePlugEnable (q : Request) (s : State) : State :=
  let t := s.setEnable true
  (if t.mate.plug = .attached then t.openSession else t).mateReply q

/-- PLUG_ENABLE (R12). -/
def execPlugEnable (s : State) : Host.Outcome State Fault Refusal := .next (s.take (ofKind 0x08) servePlugEnable)

/-- R13: PLUG_DISABLE. -/
def servePlugDisable (q : Request) (s : State) : State := ((s.setEnable false).closeSession).mateReply q

/-- PLUG_DISABLE (R13). -/
def execPlugDisable (s : State) : Host.Outcome State Fault Refusal := .next (s.take (ofKind 0x09) servePlugDisable)

/-! ### The re-evaluation of the senses (R14, R15) -/

/-- R14: one sense found closed is taken as a closing sense event. -/
def State.reevaluateOne (s : State) (pin : SensePin) : State :=
  match s.mate.level pin with
  | .closed => s.sense pin .closed
  | .opened => s

/-- R14, R15: both senses are read after a reset. -/
def State.reevaluate (s : State) : State := (s.reevaluateOne .lead).reevaluateOne .seat

end Sys2Proof.Machine
end

