-- ==== Sys2Proof/Machine/Engine.lean ====
section
/-! DEFINITION. The Telegram Engine (R32 to R36): the phases of an attempt, the attempts of a directed telegram, and the
delivery of an outcome to the holder of the grant, which acts on it (R41, R99, R113, R116). -/

namespace Sys2Proof.Machine

/-- R32: the attempt under way moves to another phase. -/
def State.setPhase (s : State) (l : LaneId) (u : Underway) (p : EnginePhase) : State :=
  s.modLane l (fun n => { n with engine := some { u with phase := p } })

/-- R32, R35: what follows the last byte of a telegram. -/
def Telegram.phaseAfterSend : Telegram → EnginePhase
  | .forget => .quiet .sent
  | .rollcall => .slots
  | .survey _ => .window
  | .assign _ _ => .window
  | .describe _ _ => .window
  | .ping _ => .window
  | .read _ _ => .window
  | .write _ _ _ => .window
  | .heed _ => .window
  | .clear _ => .window

/-- TELEGRAM_SENT (R32, R35). -/
def execTelegramSent (l : LaneId) (s : State) : Host.Outcome State Fault Refusal :=
  .next (match (s.lane l).engine with
    | some u => if u.phase = .sending then s.setPhase l u u.telegram.phaseAfterSend else s
    | none => s)

/-- R32, R34: a window in which no carrier began. -/
def Telegram.noCarrier : Telegram → AttemptResult
  | .survey _ => .silent
  | .forget => .noAnswer
  | .rollcall => .noAnswer
  | .assign _ _ => .noAnswer
  | .describe _ _ => .noAnswer
  | .ping _ => .noAnswer
  | .read _ _ => .noAnswer
  | .write _ _ _ => .noAnswer
  | .heed _ => .noAnswer
  | .clear _ => .noAnswer

/-- ANSWER_TIMEOUT (R32, R34): no carrier began within 300 µs. -/
def execAnswerTimeout (l : LaneId) (s : State) : Host.Outcome State Fault Refusal :=
  .next (match (s.lane l).engine with
    | some u => if u.phase = .window then s.setPhase l u (.quiet u.telegram.noCarrier) else s
    | none => s)

/-- CARRIER_BEGINS (R32): carrier in the window starts the reception of an answer; at any other time it has no
effect (R35). -/
def execCarrierBegins (l : LaneId) (s : State) : Host.Outcome State Fault Refusal :=
  .next (match (s.lane l).engine with
    | some u => if u.phase = .window then s.setPhase l u .receiving else s
    | none => s)

/-- ANSWER_END (R32, R34): the answer has been received to its end and is judged. -/
def execAnswerEnd (l : LaneId) (contention : Bool) (bytes : List Byte) (s : State) : Host.Outcome State Fault Refusal :=
  .next (match (s.lane l).engine with
    | some u => if u.phase = .receiving then s.setPhase l u (.quiet (judgeAnswer u.telegram contention bytes)) else s
    | none => s)

/-- R32: carrier that is still present after 1 ms. -/
def Telegram.overrun : Telegram → AttemptResult
  | .survey _ => .collided
  | .forget => .invalid
  | .rollcall => .invalid
  | .assign _ _ => .invalid
  | .describe _ _ => .invalid
  | .ping _ => .invalid
  | .read _ _ => .invalid
  | .write _ _ _ => .invalid
  | .heed _ => .invalid
  | .clear _ => .invalid

/-- CARRIER_LIMIT_EXPIRY (R32): 1 ms after the end of the telegram. -/
def execCarrierLimitExpiry (l : LaneId) (s : State) : Host.Outcome State Fault Refusal :=
  .next (match (s.lane l).engine with
    | some u => if u.phase = .receiving then s.setPhase l u (.quiet u.telegram.overrun) else s
    | none => s)

/-- ROLLCALL_SLOTS_END (R35): the last slot has ended. -/
def execRollcallSlotsEnd (l : LaneId) (hits : BitVec 30) (s : State) : Host.Outcome State Fault Refusal :=
  .next (match (s.lane l).engine with
    | some u => if u.phase = .slots then s.setPhase l u (.quiet (.hits hits)) else s
    | none => s)

/-! ### The end of the quiet wait (R33) -/

/-- R33 to R35: the outcome that an attempt's result gives when no attempt follows it. -/
def AttemptResult.outcome : AttemptResult → TelegramOutcome
  | .noAnswer => .noAnswer
  | .invalid => .noAnswer
  | .refused => .refused
  | .valid a => .answered a
  | .silent => .silent
  | .clean t => .clean t
  | .collided => .collided
  | .sent => .sent
  | .hits h => .hits h

/-- R33: another attempt follows: a directed telegram without a valid answer, on attempt 1 or 2. -/
def Underway.again (u : Underway) (r : AttemptResult) : Bool :=
  u.telegram.directed && (decide (r = .noAnswer) || decide (r = .invalid)) && decide (u.attempt < Config.attempts)

/-- R33, R41, R99, R113: the outcome is delivered to the requestor that holds the grant, which acts on it. -/
def State.deliver (s : State) (l : LaneId) (t : Telegram) (o : TelegramOutcome) : State :=
  match (s.lane l).arbiter.grant with
  | some .attention => s.attentionOutcome l t o
  | some (.access _) => s.accessOutcome l o
  | some (.survey w) => s.surveyOutcome l w o
  | some (.poll p) => s.pollOutcome l p o
  | none => s

/-- R116: the grant ends when its last outcome has been acted on; a BLOCK run that has sent its next telegram keeps
it. -/
def State.endGrant (s : State) (l : LaneId) : State :=
  if (s.lane l).engine.isNone then (s.releaseGrant l).arbitrate l else s

/-- R32, R33: the pair is quiet, or is taken as quiet: the next attempt is sent, or the outcome is delivered and
acted on, the grant ends and the next decision is made. -/
def State.quietDone (s : State) (l : LaneId) (u : Underway) (r : AttemptResult) : State :=
  if u.again r then
    s.modLane l (fun n => { n with engine := some { telegram := u.telegram, attempt := u.attempt + 1, phase := .sending } })
  else
    ((s.modLane l (fun n => { n with engine := none })).deliver l u.telegram r.outcome).endGrant l

/-- R32: the lane's engine is in its wait for quiet. -/
def State.quietWait (s : State) (l : LaneId) : State :=
  match (s.lane l).engine with
  | some u =>
    match u.phase with
    | .quiet r => s.quietDone l u r
    | .sending => s
    | .window => s
    | .receiving => s
    | .slots => s
  | none => s

/-- QUIET_WAIT_END (R32, R33): quiet for 40 µs. -/
def execQuietWaitEnd (l : LaneId) (s : State) : Host.Outcome State Fault Refusal := .next (s.quietWait l)

/-- QUIET_WAIT_LIMIT_EXPIRY (R32): after 1 ms the engine goes on as if the pair had been quiet. -/
def execQuietWaitLimitExpiry (l : LaneId) (s : State) : Host.Outcome State Fault Refusal := .next (s.quietWait l)

end Sys2Proof.Machine
end

