-- ==== Sys2Proof/Machine/Directory.lean ====
section
/-! DEFINITION. Requests to the Node Directory: LOOKUP (R88, R89), FIND (R90) and PURGE (R91). -/

namespace Sys2Proof.Machine

/-- R88: LOOKUP replies with the generation and the entry record; the record draws its free bytes. -/
def serveLookup (q : Request) (s : State) : State :=
  match s.entry? (at' q.payload 0).toNat with
  | none => s.refuse q .noSuchHandle
  | some e => ({ s with draws := s.draws + 1 } : State).ok q (be16 s.dir.generation ++ e.record s.draws)

/-- LOOKUP (R88). -/
def execLookup (s : State) : Host.Outcome State Fault Refusal := .next (s.take (ofKind 0x18) serveLookup)

/-- R90: the entry whose binding holds a role name. -/
def State.byRole? (s : State) (role : List Byte) : Option (Entry × Binding) :=
  s.dir.entries.findSome? (fun e =>
    match e.binding with
    | some b => if b.role = role then some (e, b) else none
    | none => none)

/-- R90: FIND carries a role name of 1..12 printable characters. The characters are tested first, so a name with another one is
answered BAD_ARGUMENT also while no session is open (log entry 29). -/
def serveFind (q : Request) (s : State) : State :=
  if roleOk q.payload then
    match s.byRole? q.payload with
    | some x => s.ok q [byteOf x.1.handle, byteOf x.1.presence.code, byteOf x.2.index]
    | none => s.refuse q .noSuchRole
  else s.refuse q .badArgument

/-- FIND (R90). -/
def execFind (s : State) : Host.Outcome State Fault Refusal := .next (s.take (ofKind 0x19) serveFind)

/-- R91, R163, R169, R171: the Resolver follows a removal: a full resolution for a bound entry, else a
recomputation; before the initial resolution it absorbs the report. -/
def State.afterRemoval (s : State) (e : Entry) : State :=
  if e.binding.isSome then s.resolveIfResolved else s.recompute

/-- R91: PURGE removes a LOST entry that no naming step holds. The reply carries "the generation after the removal": where the
removal of a bound entry runs a full resolution, that is the one after the resolution too (log entry 25). -/
def servePurge (q : Request) (s : State) : State :=
  match s.entry? (at' q.payload 0).toNat with
  | none => s.refuse q .noSuchHandle
  | some e =>
    if e.presence ≠ .lost then s.refuse q .notNow
    else if s.held e.handle then s.refuse q .notNow
    else
      let t := ((s.remove e.handle).post (.node e.handle .purged)).afterRemoval e
      t.ok q (byteOf e.handle :: be16 t.dir.generation)

/-- PURGE (R91). -/
def execPurge (s : State) : Host.Outcome State Fault Refusal := .next (s.take (ofKind 0x1A) servePurge)

end Sys2Proof.Machine
end

