-- ==== Sys2Proof/Machine/Snapshots.lean ====
section
/-! DEFINITION. The Snapshot Buffer: SNAPSHOT (R174, R175), SNAPSHOT_PAGE (R176, R177) and SNAPSHOT_RELEASE (R178). -/

namespace Sys2Proof.Machine

/-- R175: the page count: the entry count divided by 4, rounded up. -/
def pageCount (entries : Nat) : Nat := (entries + 3) / 4

/-- R175: the latch: the generation, the entries in ascending handle order, and every mark unread; the free bytes of
the records are drawn now. -/
def State.latch (s : State) : Snapshot :=
  { generation := s.dir.generation, copy := s.dir.entries,
    marks := List.replicate (pageCount s.dir.entries.length) false, draw := s.draws }

/-- R174: SNAPSHOT. -/
def serveSnapshot (q : Request) (s : State) : State :=
  match s.snap with
  | some sn => s.answer q .latchedAlready (be16 sn.generation ++ [byteOf sn.copy.length])
  | none =>
    if s.dir.entries.isEmpty then s.ok q (be16 s.dir.generation ++ [0, 0])
    else
      ({ s with snap := some s.latch, draws := s.draws + 1 } : State).ok q
        (be16 s.dir.generation ++ [byteOf s.dir.entries.length, byteOf (pageCount s.dir.entries.length)])

/-- SNAPSHOT (R174, R175). -/
def execSnapshot (s : State) : Host.Outcome State Fault Refusal := .next (s.take (ofKind 0x30) serveSnapshot)

/-- R177: the snapshot after page k has been returned: its mark is read, and with every mark read it is released. -/
def Snapshot.afterPage (sn : Snapshot) (k : Nat) : Option Snapshot :=
  let marks := sn.marks.set k true
  if marks.all id then none else some { sn with marks := marks }

/-- R177: SNAPSHOT_PAGE. -/
def serveSnapshotPage (q : Request) (s : State) : State :=
  match s.snap with
  | none => s.refuse q .notLatched
  | some sn =>
    let k := (at' q.payload 0).toNat
    if k < sn.marks.length then ({ s with snap := sn.afterPage k } : State).ok q (sn.page k)
    else s.refuse q .badArgument

/-- SNAPSHOT_PAGE (R176, R177). -/
def execSnapshotPage (s : State) : Host.Outcome State Fault Refusal := .next (s.take (ofKind 0x31) serveSnapshotPage)

/-- R178: SNAPSHOT_RELEASE. -/
def serveSnapshotRelease (q : Request) (s : State) : State :=
  match s.snap with
  | none => s.refuse q .notLatched
  | some sn => ({ s with snap := none } : State).ok q (be16 sn.generation)

/-- SNAPSHOT_RELEASE (R178). -/
def execSnapshotRelease (s : State) : Host.Outcome State Fault Refusal :=
  .next (s.take (ofKind 0x32) serveSnapshotRelease)

end Sys2Proof.Machine
end

