-- ==== Sys2Proof/Machine/Manifests.lean ====
section
/-! DEFINITION. The Manifest Store (R154 to R159): the load sequence, MANIFEST_ERASE and MANIFEST_READ. -/

namespace Sys2Proof.Machine

/-- R154, R155: a slot other than the target holds a tool ID. -/
def Store.holdsElsewhere (st : Store) (slot : Fin 8) (t : Word16) : Bool :=
  (List.finRange 8).any (fun i => decide (i ≠ slot) && decide ((st.slots[i]).map (·.toolId) = some t))

/-- R155: MANIFEST_BEGIN carries slot, tool ID and binding count. -/
def serveManifestBegin (q : Request) (s : State) : State :=
  let t := word16 (at' q.payload 1) (at' q.payload 2)
  let count := (at' q.payload 3).toNat
  match slotOf (at' q.payload 0) with
  | none => s.refuse q .badArgument
  | some i =>
    if 1 ≤ count ∧ count ≤ 24 then
      if s.store.holdsElsewhere i t then s.refuse q .noSlot
      else
        let load : Load := { slot := i, toolId := t, count := count, received := [] }
        ({ s with store := { s.store with load := some load } } : State).ok q (byteOf i.val :: (be16 t ++ [byteOf count]))
    else s.refuse q .badArgument

/-- MANIFEST_BEGIN (R155). -/
def execManifestBegin (s : State) : Host.Outcome State Fault Refusal := .next (s.take (ofKind 0x28) serveManifestBegin)

/-- R156: MANIFEST_ENTRY, with its checks in the order of the table. -/
def serveManifestEntry (q : Request) (s : State) : State :=
  match s.store.load with
  | none => s.refuse q .notLoading
  | some d =>
    if (at' q.payload 0).toNat = d.received.length ∧ d.received.length < d.count then
      match readBinding q.payload with
      | none => s.refuse q .badArgument
      | some b =>
        let load : Load := { d with received := d.received ++ [b] }
        ({ s with store := { s.store with load := some load } } : State).ok q [byteOf load.received.length]
    else s.refuse q .sequence

/-- MANIFEST_ENTRY (R156). -/
def execManifestEntry (s : State) : Host.Outcome State Fault Refusal := .next (s.take (ofKind 0x29) serveManifestEntry)

/-- R157: two bindings of a load carry equal role names. -/
def Load.repeats (d : Load) : Bool := !decide ((d.received.map (·.role)).Nodup)

/-- R157: the commit replaces the target slot whole, and the load ends. -/
def Store.commit (st : Store) (d : Load) : Store :=
  { slots := st.slots.set d.slot (some { toolId := d.toolId, bindings := d.received }), load := none }

/-- R157: the commit starts a full resolution. -/
def State.commitResolves (s : State) (d : Load) : Bool :=
  decide (s.resolver.phase = .resolved) &&
    (decide (s.resolver.toolId = some d.toolId) || decide (d.toolId = 0) || decide (s.resolver.applied = some d.slot))

/-- R157: MANIFEST_END. -/
def serveManifestEnd (q : Request) (s : State) : State :=
  match s.store.load with
  | none => s.refuse q .notLoading
  | some d =>
    if d.received.length < d.count then s.refuse q .incomplete
    else if d.repeats then ({ s with store := { s.store with load := none } } : State).refuse q .duplicateRole
    else
      let t := { s with store := s.store.commit d }
      (if s.commitResolves d then t.fullResolution else t).ok q (byteOf d.slot.val :: be16 d.toolId)

/-- MANIFEST_END (R157). -/
def execManifestEnd (s : State) : Host.Outcome State Fault Refusal := .next (s.take (ofKind 0x2A) serveManifestEnd)

/-- R158: MANIFEST_ERASE. -/
def serveManifestErase (q : Request) (s : State) : State :=
  match slotOf (at' q.payload 0) with
  | none => s.refuse q .badArgument
  | some i =>
    let t := { s with store := { s.store with slots := s.store.slots.set i none } }
    (if s.resolver.phase = .resolved ∧ s.resolver.applied = some i then t.fullResolution else t).ok q [byteOf i.val]

/-- MANIFEST_ERASE (R158). -/
def execManifestErase (s : State) : Host.Outcome State Fault Refusal := .next (s.take (ofKind 0x2B) serveManifestErase)

/-- R159: MANIFEST_READ carries a slot and a binding index. -/
def serveManifestRead (q : Request) (s : State) : State :=
  let k := (at' q.payload 1).toNat
  match slotOf (at' q.payload 0) with
  | none => s.refuse q .badArgument
  | some i =>
    if 23 < k then s.refuse q .badArgument
    else
      match s.store.slots[i] with
      | none => s.refuse q .outOfRange
      | some m =>
        match m.bindings[k]? with
        | none => s.refuse q .outOfRange
        | some b => s.ok q (be16 m.toolId ++ (byteOf m.bindings.length :: b.record k))

/-- MANIFEST_READ (R159). -/
def execManifestRead (s : State) : Host.Outcome State Fault Refusal := .next (s.take (ofKind 0x2C) serveManifestRead)

end Sys2Proof.Machine
end

