-- ==== Sys2Proof/Machine/Requests.lean ====
section
/-! DEFINITION. The requests of the link chapter: UNKNOWN_KIND (R187), STATUS (R191), IDENT (R195), CONFIGURE (R192
and the owners' rules) and RESET (R193). -/

namespace Sys2Proof.Machine

/-! ### UNKNOWN_KIND (R187) -/

/-- R187, step 1: the reply UNKNOWN_KIND carries KIND 0x80, the token and the kind received. -/
def Request.unknownReply (q : Request) : Reply :=
  { kind := 0x80, token := q.token, status := .unknownKind, payload := [q.kind] }

/-- UNKNOWN_KIND (R187): the request at the head of the queue has a KIND that is no request kind. -/
def execUnknownKind (s : State) : Host.Outcome State Fault Refusal :=
  .next (if s.canTake then
      match s.link.requests with
      | [] => s
      | q :: rest =>
        if requestKinds.contains q.kind then s
        else ({ s with link := { s.link with requests := rest } } : State).replyThen q.unknownReply none
    else s)

/-! ### STATUS and IDENT (R191, R195) -/

/-- R191, section 10.14, byte 18: the summary bits. -/
def State.summary (s : State) : Byte :=
  flagsByte
    [s.snap.isSome, allLanes.any (fun l => (s.lane l).fault.flagged), s.dir.entries.any (·.attending), s.link.noticesLost]

/-- R191, section 10.14: the 20 bytes of the STATUS reply. -/
def State.statusPayload (s : State) : List Byte :=
  [s.mate.plug.code, yesNo s.mate.enabled, s.resolver.status.code, optionalByte (s.resolver.applied.map (·.val))]
    ++ toolIdBytes s.resolver.toolId s.draws ++ allLanes.map (fun l => (s.lane l).state.code)
    ++ (byteOf s.dir.entries.length :: be16 s.dir.generation) ++ s.resolver.counts.bytes
    ++ [s.summary, s.link.fault.code]

/-- R191: the clear flag clears NOTICES_LOST and the link fault record. -/
def Link.clearFaults (k : Link) : Link := { k with noticesLost := false, fault := .none }

/-- R191: STATUS; the reply draws the free bytes of an absent tool ID. -/
def serveStatus (q : Request) (s : State) : State :=
  if 1 < (at' q.payload 0).toNat then s.refuse q .badArgument
  else
    let t := if at' q.payload 0 = 1 then { s with link := s.link.clearFaults } else s
    ({ t with draws := t.draws + 1 } : State).ok q s.statusPayload

/-- STATUS (R191). -/
def execStatus (s : State) : Host.Outcome State Fault Refusal := .next (s.take (ofKind 0x01) serveStatus)

/-- R195: family, part, revision and capacities. -/
def identPayload : List Byte := [0x51, 0x03, 0x40, 0x02, 4, 64, 8, 24]

/-- R195: IDENT. -/
def serveIdent (q : Request) (s : State) : State := s.ok q identPayload

/-- IDENT (R195). -/
def execIdent (s : State) : Host.Outcome State Fault Refusal := .next (s.take (ofKind 0x02) serveIdent)

/-! ### CONFIGURE (R192) -/

/-- The rows of CONFIGURE share kind 0x03; the parameter code is byte 0. -/
def configureRow (c : Byte) : Request → Bool := selects 0x03 0 [1, 2, 3, 4, 5, 6, 7] c

/-- The 16-bit value of CONFIGURE. -/
def Request.value (q : Request) : Nat := (word16 (at' q.payload 2) (at' q.payload 3)).toNat

/-- R192: the OK reply: the parameter code, the selector and the value now in force. -/
def State.configured (s : State) (q : Request) : State := s.ok q (q.payload.take 4)

/-- R192: a parameter code that is not the row's own is unknown. -/
def configureWith (c : Byte) (serve : Request → State → State) (q : Request) (s : State) : State :=
  if at' q.payload 0 = c then serve q s else s.refuse q .badArgument

/-- A parameter of the whole part: its selector is 0. -/
def wholePart (ok : Nat → Bool) (store : Nat → State → State) (q : Request) (s : State) : State :=
  if at' q.payload 1 = 0 ∧ ok q.value then (store q.value s).configured q else s.refuse q .badArgument

/-- A parameter of one lane: its selector names the lane. -/
def perLane (ok : Nat → Bool) (store : LaneId → Nat → State → State) (q : Request) (s : State) : State :=
  match laneOf (at' q.payload 1) with
  | none => s.refuse q .badArgument
  | some l => if ok q.value then (store l q.value s).configured q else s.refuse q .badArgument

/-- R17, R106: refused NOT_NOW while the plug is enabled, after the tests of form (log entry 14). -/
def whileDisabled (ok : Nat → Bool) (store : Nat → State → State) (q : Request) (s : State) : State :=
  if at' q.payload 1 = 0 ∧ ok q.value then
    if s.mate.enabled then s.refuse q .notNow else (store q.value s).configured q
  else s.refuse q .badArgument

/-- A value range. -/
def inRange (lo hi v : Nat) : Bool := decide (lo ≤ v) && decide (v ≤ hi)

/-- R17: a lane takes its mask place: OFF and DISABLED follow it. -/
def Lane.enableTo (n : Lane) (on : Bool) : Lane :=
  if n.enabled = on then n
  else
    { n with
      enabled := on
      state := match on, n.state with
        | false, .off => .disabled
        | true, .disabled => .off
        | _, st => st }

/-- R17, R192: lane n is enabled by the bit of weight 2 to the power n. -/
def storeMask (v : Nat) (s : State) : State :=
  { s with lanes := { a0 := s.lanes.a0.enableTo (v.testBit 0), a1 := s.lanes.a1.enableTo (v.testBit 1),
                      a2 := s.lanes.a2.enableTo (v.testBit 2), a3 := s.lanes.a3.enableTo (v.testBit 3) } }

/-- CONFIGURE of the lane-enable mask (R17, R192). -/
def execConfigureLaneEnableMask (s : State) : Host.Outcome State Fault Refusal :=
  .next (s.take (configureRow 1) (configureWith 1 (whileDisabled (inRange 0 15) storeMask)))

/-- R106: the miss limit. -/
def storeMissLimit (v : Nat) (s : State) : State := { s with missLimit := v }

/-- CONFIGURE of the miss limit (R106, R192). -/
def execConfigureMissLimit (s : State) : Host.Outcome State Fault Refusal :=
  .next (s.take (configureRow 2) (configureWith 2 (whileDisabled (inRange 1 15) storeMissLimit)))

/-- R99, R134: the poll gap; running timers keep their deadlines. -/
def storePollGap (l : LaneId) (v : Nat) (s : State) : State := s.modLane l (fun n => { n with pollGapMs := v })

/-- CONFIGURE of a poll gap (R99, R134, R192). -/
def execConfigurePollGap (s : State) : Host.Outcome State Fault Refusal :=
  .next (s.take (configureRow 3) (configureWith 3 (perLane (inRange 1 255) storePollGap)))

/-- R63: the rescan interval; in SUPERVISING the timer restarts from now, or stops at 0. -/
def storeRescanInterval (l : LaneId) (v : Nat) (s : State) : State :=
  let t := s.modLane l (fun n => { n with rescanSeconds := v })
  if (s.lane l).state = .supervising then t.modLane l (fun n => { n with rescanTimer := t.rescanDeadline l }) else t

/-- CONFIGURE of a rescan interval (R63, R192). -/
def execConfigureRescanInterval (s : State) : Host.Outcome State Fault Refusal :=
  .next (s.take (configureRow 4) (configureWith 4 (perLane (inRange 0 255) storeRescanInterval)))

/-- R145: the attention timeout; attentions in service keep their deadlines. -/
def storeAttnTimeout (v : Nat) (s : State) : State := { s with attnTimeout := v }

/-- CONFIGURE of the attention timeout (R145, R192). -/
def execConfigureAttentionTimeout (s : State) : Host.Outcome State Fault Refusal :=
  .next (s.take (configureRow 5) (configureWith 5 (wholePart (inRange 0 255) storeAttnTimeout)))

/-- R151: the rotation, FIXED (0) or ROTATING (1). -/
def storeRotation (l : LaneId) (v : Nat) (s : State) : State :=
  s.modLane l (fun n => { n with rotation := if v = 0 then .fixed else .rotating })

/-- CONFIGURE of a rotation (R151, R192). -/
def execConfigureRotation (s : State) : Host.Outcome State Fault Refusal :=
  .next (s.take (configureRow 6) (configureWith 6 (perLane (inRange 0 1) storeRotation)))

/-- R190: the place of the notice mask that a notice code names. -/
def NoticeMask.setKind (m : NoticeMask) (code : Byte) (on : Bool) : Option NoticeMask :=
  if code = 0xC1 then some { m with plug := on }
  else if code = 0xC2 then some { m with tool := on }
  else if code = 0xC3 then some { m with node := on }
  else if code = 0xC4 then some { m with attention := on }
  else if code = 0xC5 then some { m with attentionEnded := on }
  else if code = 0xC6 then some { m with lane := on }
  else none

/-- R190, R192: the selector names a notice kind; 0 is suppressed and 1 is sent. -/
def serveNoticeMask (q : Request) (s : State) : State :=
  match s.link.mask.setKind (at' q.payload 1) (decide (q.value = 1)) with
  | none => s.refuse q .badArgument
  | some m =>
    if inRange 0 1 q.value then ({ s with link := { s.link with mask := m } } : State).configured q
    else s.refuse q .badArgument

/-- CONFIGURE of the notice mask (R190, R192). -/
def execConfigureNoticeMask (s : State) : Host.Outcome State Fault Refusal :=
  .next (s.take (configureRow 7) (configureWith 7 serveNoticeMask))

/-! ### RESET (R193) -/

/-- The rows of RESET share kind 0x04; the kind of reset is byte 0. -/
def resetRow (c : Byte) : Request → Bool := selects 0x04 0 [1, 2] c

/-- R193: RESET is answered OK with its kind, and the reset follows the reply; any other kind is refused. -/
def serveReset (c : Byte) (kind : ResetKind) (q : Request) (s : State) : State :=
  if at' q.payload 0 = c then s.replyThen (q.replyWith .ok [c]) (some kind) else s.refuse q .badArgument

/-- RESET with SOFT (R193). -/
def execResetSoft (s : State) : Host.Outcome State Fault Refusal := .next (s.take (resetRow 1) (serveReset 1 .soft))

/-- RESET with FULL (R193). -/
def execResetFull (s : State) : Host.Outcome State Fault Refusal := .next (s.take (resetRow 2) (serveReset 2 .full))

end Sys2Proof.Machine
end

