-- ==== Sys2Proof/Machine/LinkUnit.lean ====
section
/-! DEFINITION. The Link Unit: the receiver (R184 to R186), the transmitter and the resets that follow a reply (R189,
R193), and the cold reset (R194, R196). -/

namespace Sys2Proof.Machine

/-! ### The receiver (R184, R185, R186) -/

/-- R184, R185: the frame is discarded: the receiver hunts again and the record takes the cause. -/
def Link.discard (k : Link) (f : LinkFault) : Link := { k with receiver := .hunting, gapTimer := none, fault := f }

/-- R184, R186: the frame ends well: the receiver hunts again and the request joins the tail of the queue. -/
def Link.accept (k : Link) (q : Request) : Link :=
  { k with receiver := .hunting, gapTimer := none, requests := k.requests ++ [q] }

/-- R183, R184: the judgement of a whole frame, given as LEN, LEN bytes and CHECK. -/
def Link.judge (k : Link) (got : List Byte) : Link :=
  let n := (at' got 0).toNat
  let checked := got.take (n + 1)
  if word16 (at' got (n + 1)) (at' got (n + 2)) = crc16 checked then
    if k.requests.length < Config.requestPlaces then
      k.accept { kind := at' got 1, token := at' got 2, payload := checked.drop 3 }
    else k.discard .overrun
  else k.discard .check

/-- R184: inside a frame after the bytes `got`, the last of which has just arrived; `deadline` is the gap timer
started at that byte. -/
def Link.inside (k : Link) (got : List Byte) (deadline : Timer) : Link :=
  let n := (at' got 0).toNat
  if n < 2 ∨ 250 < n then k.discard .length
  else if got.length = n + 3 then k.judge got
  else { k with receiver := .inFrame got, gapTimer := deadline }

/-- R184: one byte. -/
def Link.byte (k : Link) (b : Byte) (deadline : Timer) : Link :=
  match k.receiver with
  | .hunting => if b = 0xE7 then { k with receiver := .inFrame [], gapTimer := deadline } else k
  | .inFrame got => k.inside (got ++ [b]) deadline

/-- R184, R194: the bytes received; the receiver ignores RXD while a cold reset lasts. -/
def State.receive (s : State) (bytes : List Byte) : State :=
  if s.hold.isSome then s
  else { s with link := bytes.foldl (fun k b => k.byte b (s.timer Config.gapMs)) s.link }

/-- BYTE_RECEIVED (R184): one byte; the byte that ends a frame is judged with it (log entry 18). -/
def execByteReceived (b : Byte) (s : State) : Host.Outcome State Fault Refusal := .next (s.receive [b])

/-- RECEIVE_FRAME (R184): the bytes of a frame, or what of it is still to come. -/
def execReceiveFrame (bytes : List Byte) (s : State) : Host.Outcome State Fault Refusal := .next (s.receive bytes)

/-- GAP_TIMER_EXPIRY (R184): a running gap timer discards the frame with the link fault GAP. -/
def execGapTimerExpiry (s : State) : Host.Outcome State Fault Refusal :=
  .next (if s.link.gapTimer.isSome then { s with link := s.link.discard .gap } else s)

/-! ### Resets (R14, R15, R193, R194, R196) -/

/-- R14, R194: the cold state, RESTARTED with its cause, and the reading of the senses. -/
def State.restart (s : State) (cause : RestartCause) (rate : Baud) : State :=
  ((s.cold none rate).post (.restarted cause)).reevaluate

/-- R15, R40: what a SOFT reset leaves of the blocks, the session being closed. -/
def State.softValues (s : State) : State :=
  { s with
    mate := { s.mate with plug := .detached, debounce := none, partialTimer := none }
    lanes := s.lanes.map (fun n => { n with fault := FaultRecord.empty })
    store := { s.store with load := none }
    snap := none }

/-- R193: a SOFT reset takes effect: the session closes, then RESTARTED(SOFT) is posted and the senses are read. TXD is idle
then, so the notice at the head of the queue begins as RESTARTED(SOFT) is posted, and PLUG(MATING) finds its place free (log
entry 5). -/
def State.softReset (s : State) : State := ((s.closeSoft.softValues).post (.restarted .soft)).reevaluate

/-- R189: TXD is free and the Link Unit begins the next frame. -/
def State.nextFrame (s : State) : State := { s with link := s.link.begin }

/-- R187, R193: the last CHECK byte of a reply has been sent: the Request Unit is free, and a reset takes effect; TXD chooses
its next frame when a SOFT reset has posted RESTARTED(SOFT), not before (log entry 5). -/
def State.replySent (s : State) (rate1 rate0 : Bool) : State :=
  match s.unit with
  | .replying (some .full) => s.restart .full (rateOf rate1 rate0)
  | .replying (some .soft) => ({ s with unit := .free } : State).softReset.nextFrame
  | .replying none => ({ s with unit := .free } : State).nextFrame
  | .free => s.nextFrame
  | .accessWait _ _ _ => s.nextFrame

/-- TRANSMIT_FRAME_END (R189): TXD finishes its frame. -/
def execTransmitFrameEnd (rate1 rate0 : Bool) (s : State) : Host.Outcome State Fault Refusal :=
  .next (match s.link.tx with
    | none => s
    | some (.notice _) => ({ s with link := { s.link with tx := none } } : State).nextFrame
    | some (.reply _) => ({ s with link := { s.link with tx := none } } : State).replySent rate1 rate0)

/-- RESET_N_ASSERT (R196): a cold reset begins and lasts until the pin rises; the cause will be PIN. -/
def execResetNAssert (s : State) : Host.Outcome State Fault Refusal := .next (s.cold (some .pin) s.link.rate)

/-- POWER_ON (R196): a cold reset begins anew; the cause will be POWER, or PIN when RESET_N is held low then, or is asserted
while the hold lasts (log entry 7). -/
def execPowerOn (s : State) (resetLow : Bool := false) : Host.Outcome State Fault Refusal :=
  .next (s.cold (some (if resetLow then .pin else .power)) s.link.rate)

/-- RESET_RELEASE (R194): the cold reset ends: the RATE pins are sampled, RESTARTED is posted and the senses are
read. -/
def execResetRelease (rate1 rate0 : Bool) (s : State) : Host.Outcome State Fault Refusal :=
  .next (match s.hold with
    | some cause => s.restart cause (rateOf rate1 rate0)
    | none => s)

end Sys2Proof.Machine
end

