-- ==== Sys2Proof/Machine/Node.lean ====
section
/-! DEFINITION. The node's side of the lane (R29 to R31, R198), as a function of its own: the nodes are outside State (log
entry 21). It says which answers the bytes of a lane telegram can bring; no command of the part calls it. -/

namespace Sys2Proof.Machine

/-! ### A node (R29, R31) -/

/-- R30, R31: an attention condition: the cause and the data bytes that HEED reports. -/
structure Condition where
  cause : Byte
  data : List Byte
deriving DecidableEq, Repr

/-- Section 2.6: a node: its tag, its lane address (0 is UNNAMED), its objects, the fields of its descriptor, its own fault
indication and its attention condition. Only a node of class 0x01 reports its `toolId`. -/
structure Node where
  tag : Tag
  addr : Nat
  objects : List Word32
  maker : Word16
  revision : Byte
  attnCapable : Bool
  label : List Byte
  toolId : Word16
  fault : Bool
  condition : Option Condition
deriving DecidableEq, Repr

/-- R29: the node is NAMED. -/
def Node.named (n : Node) : Bool := decide (n.addr ≠ 0)

/-- R30: the descriptor that the node reports: the count is that of its objects, and a tool ID goes with class 0x01 alone. -/
def Node.descriptor (n : Node) : Descriptor :=
  { maker := n.maker, revision := n.revision, objectCount := n.objects.length, attnCapable := n.attnCapable, label := n.label,
    toolId := if Tag.isIdentity n.tag then some n.toolId else none }

/-- R30: a condition reports 0..4 data bytes. -/
def Condition.fits (c : Condition) : Bool := decide (c.data.length ≤ 4)

/-- Section 2.6, R30, R31: what holds of every node: 1..255 objects, a label of 0..12 printable characters, an address of
at most 30, and a condition only while NAMED, with 0..4 data bytes. -/
def Node.fits (n : Node) : Bool :=
  decide (1 ≤ n.objects.length) && decide (n.objects.length ≤ 255) && decide (n.label.length ≤ 12) && n.label.all printable
    && decide (n.addr ≤ Config.maxOnLane) && (n.condition.isNone || n.named) && n.condition.all Condition.fits

/-- R29: a restart inside the node, power-up, or the loss of its supply: UNNAMED, without a condition. -/
def Node.restart (n : Node) : Node := { n with addr := 0, condition := none }

/-- R31: a NAMED node raises a condition; it holds at most one, and an UNNAMED node raises none. -/
def Node.raise (n : Node) (c : Condition) : Node :=
  if n.named && n.condition.isNone && c.fits then { n with condition := some c } else n

/-- R31: the node pulls LATNn low. -/
def Node.pullsLatn (n : Node) : Bool := n.condition.isSome

/-! ### Answers (R30, R198) -/

/-- R30: what a node puts on the pair: nothing, an answer, or a pulse in a rollcall slot. -/
inductive NodeReply where
  | silent
  | answer (bytes : List Byte)
  | pulse (slot : Nat)
deriving DecidableEq, Repr

/-- R198: an answer: its code, its contents and the CRC-8 over both. -/
def answerBytes (code : Byte) (contents : List Byte) : List Byte :=
  let body := code :: contents
  body ++ [crc8 body]

/-- R198: the contents of a DESCRIPTOR answer. -/
def Descriptor.contents (d : Descriptor) : List Byte :=
  be16 d.maker ++ [d.revision, byteOf d.objectCount, flagsByte [d.attnCapable, d.toolId.isSome]]
    ++ (match d.toolId with
        | some t => be16 t
        | none => [])
    ++ (byteOf d.label.length :: d.label)

/-- R30: the node is the one a directed telegram addresses. -/
def Node.addressed (n : Node) (a : Nat) : Bool := n.named && decide (n.addr = a)

/-- R30: READ at the node; it refuses an object it does not have, or declines. -/
def Node.readAt (n : Node) (obj : Nat) (declines : Bool) : NodeReply :=
  match n.objects[obj]? with
  | some v => if declines then .answer (answerBytes 0x62 []) else .answer (answerBytes 0x66 (be32 v))
  | none => .answer (answerBytes 0x62 [])

/-- R30: WRITE at the node; a refused WRITE changes no object. -/
def Node.writeAt (n : Node) (obj : Nat) (v : Word32) (declines : Bool) : Node × NodeReply :=
  if obj < n.objects.length ∧ declines = false then
    ({ n with objects := n.objects.set obj v }, .answer (answerBytes 0x61 []))
  else (n, .answer (answerBytes 0x62 []))

/-- R30: HEED at the node: its cause and data, or cause 0x00 without a condition. -/
def Node.heed (n : Node) : NodeReply :=
  match n.condition with
  | some c => .answer (answerBytes 0x67 (c.cause :: byteOf c.data.length :: c.data))
  | none => .answer (answerBytes 0x67 [0, 0])

/-- R30: a telegram reaches a node; `declines` is the node's own refusal of a READ or WRITE. -/
def Node.receive (n : Node) (t : Telegram) (declines : Bool) : Node × NodeReply :=
  match t with
  | .forget => (n.restart, .silent)
  | .survey p =>
    (n, if !n.named && tagBegins p n.tag then .answer (answerBytes 0x63 (be40 n.tag)) else .silent)
  | .assign tag a =>
    if tag = n.tag then ({ n with addr := a }, .answer (answerBytes 0x61 [byteOf a])) else (n, .silent)
  | .describe a _ => (n, if n.addressed a then .answer (answerBytes 0x64 n.descriptor.contents) else .silent)
  | .ping a => (n, if n.addressed a then .answer (answerBytes 0x65 [yesNo n.fault]) else .silent)
  | .read a obj => (n, if n.addressed a then n.readAt obj declines else .silent)
  | .write a obj v => if n.addressed a then n.writeAt obj v declines else (n, .silent)
  | .rollcall => (n, if n.pullsLatn then .pulse n.addr else .silent)
  | .heed a => (n, if n.addressed a then n.heed else .silent)
  | .clear a =>
    if n.addressed a then ({ n with condition := none }, .answer (answerBytes 0x61 [])) else (n, .silent)

/-! ### The bytes of a telegram (R30, R198) -/

/-- R198: the four digits packed in one byte, first digit highest. -/
def byteDigits (b : Byte) : Digits :=
  [Fin.ofNat 4 (b.toNat / 64), Fin.ofNat 4 (b.toNat / 16), Fin.ofNat 4 (b.toNat / 4), Fin.ofNat 4 b.toNat]

/-- R198: a SURVEY prefix of so many bits. -/
def readPrefix (bits : Nat) (p : List Byte) : Option Digits :=
  if bits ≤ 40 ∧ bits % 2 = 0 ∧ p.length = (bits + 7) / 8 then some ((p.flatMap byteDigits).take (bits / 2)) else none

/-- R30, R198: the telegram that a kind, an address byte and a payload spell; none for any other bytes. Of DESCRIBE a node
reads its address, so what the engine knows of the node's class is left at no. -/
def spellTelegram (kind addr : Byte) (p : List Byte) : Option Telegram :=
  match kind.toNat, p with
  | 0x1, [] => some .forget
  | 0x2, p => (readPrefix addr.toNat p).map .survey
  | 0x3, [t0, t1, t2, t3, t4, a] =>
    if 1 ≤ a.toNat ∧ a.toNat ≤ Config.maxOnLane then some (.assign (mkTag t0 (word32 t1 t2 t3 t4)) a.toNat) else none
  | 0x4, [] => some (.describe addr.toNat false)
  | 0x5, [] => some (.ping addr.toNat)
  | 0x6, [o] => some (.read addr.toNat o.toNat)
  | 0x7, [o, v0, v1, v2, v3] => some (.write addr.toNat o.toNat (word32 v0 v1 v2 v3))
  | 0x8, [] => some .rollcall
  | 0x9, [] => some (.heed addr.toNat)
  | 0xA, [] => some (.clear addr.toNat)
  | _, _ => none

/-- R30, R198: the telegram that a node reads from the bytes on the pair: none without the sync byte, and none when the last
byte is not the CRC-8 over those between. -/
def readTelegram (bytes : List Byte) : Option Telegram :=
  match bytes with
  | sync :: kind :: addr :: rest =>
    if sync = 0xB4 ∧ rest.getLast? = some (crc8 (kind :: addr :: rest.dropLast)) then spellTelegram kind addr rest.dropLast
    else none
  | _ => none

/-- R30: the bytes of a telegram reach a node, which ignores any that fails its CRC-8. -/
def Node.hear (n : Node) (bytes : List Byte) (declines : Bool) : Node × NodeReply :=
  match readTelegram bytes with
  | some t => n.receive t declines
  | none => (n, .silent)

end Sys2Proof.Machine
end

