-- ==== Sys2Proof/Machine/Dispatch.lean ====
section
/-! DEFINITION. One arm per command of spec/opcode_table.json, each one call of its meaning. -/

namespace Sys2Proof.Machine

def exec (i : Instr) (s : State) : Host.Outcome State Fault Refusal :=
  match i with
  | .senseEvent pin level => Sys2Proof.Machine.execSenseEvent pin level s
  | .debounceExpiry => Sys2Proof.Machine.execDebounceExpiry s
  | .partialExpiry => Sys2Proof.Machine.execPartialExpiry s
  | .plugEnable => Sys2Proof.Machine.execPlugEnable s
  | .plugDisable => Sys2Proof.Machine.execPlugDisable s
  | .resetNAssert => Sys2Proof.Machine.execResetNAssert s
  | .powerOn resetLow => Sys2Proof.Machine.execPowerOn s resetLow
  | .resetRelease rate1 rate0 => Sys2Proof.Machine.execResetRelease rate1 rate0 s
  | .receiveFrame bytes => Sys2Proof.Machine.execReceiveFrame bytes s
  | .gapTimerExpiry => Sys2Proof.Machine.execGapTimerExpiry s
  | .transmitFrameEnd rate1 rate0 => Sys2Proof.Machine.execTransmitFrameEnd rate1 rate0 s
  | .unknownKind => Sys2Proof.Machine.execUnknownKind s
  | .status => Sys2Proof.Machine.execStatus s
  | .ident => Sys2Proof.Machine.execIdent s
  | .configureLaneEnableMask => Sys2Proof.Machine.execConfigureLaneEnableMask s
  | .configureMissLimit => Sys2Proof.Machine.execConfigureMissLimit s
  | .configurePollGap => Sys2Proof.Machine.execConfigurePollGap s
  | .configureRescanInterval => Sys2Proof.Machine.execConfigureRescanInterval s
  | .configureAttentionTimeout => Sys2Proof.Machine.execConfigureAttentionTimeout s
  | .configureRotation => Sys2Proof.Machine.execConfigureRotation s
  | .configureNoticeMask => Sys2Proof.Machine.execConfigureNoticeMask s
  | .resetSoft => Sys2Proof.Machine.execResetSoft s
  | .resetFull => Sys2Proof.Machine.execResetFull s
  | .faults => Sys2Proof.Machine.execFaults s
  | .rescan => Sys2Proof.Machine.execRescan s
  | .laneRestart => Sys2Proof.Machine.execLaneRestart s
  | .lookup => Sys2Proof.Machine.execLookup s
  | .find => Sys2Proof.Machine.execFind s
  | .purge => Sys2Proof.Machine.execPurge s
  | .overrideAuto => Sys2Proof.Machine.execOverrideAuto s
  | .overrideForcedPresent => Sys2Proof.Machine.execOverrideForcedPresent s
  | .overrideForcedAbsent => Sys2Proof.Machine.execOverrideForcedAbsent s
  | .readObjects => Sys2Proof.Machine.execReadObjects s
  | .writeObject => Sys2Proof.Machine.execWriteObject s
  | .attnDone => Sys2Proof.Machine.execAttnDone s
  | .attnMask => Sys2Proof.Machine.execAttnMask s
  | .manifestBegin => Sys2Proof.Machine.execManifestBegin s
  | .manifestEntry => Sys2Proof.Machine.execManifestEntry s
  | .manifestEnd => Sys2Proof.Machine.execManifestEnd s
  | .manifestErase => Sys2Proof.Machine.execManifestErase s
  | .manifestRead => Sys2Proof.Machine.execManifestRead s
  | .resolve => Sys2Proof.Machine.execResolve s
  | .snapshot => Sys2Proof.Machine.execSnapshot s
  | .snapshotPage => Sys2Proof.Machine.execSnapshotPage s
  | .snapshotRelease => Sys2Proof.Machine.execSnapshotRelease s
  | .overcurrentTrip lane => Sys2Proof.Machine.execOvercurrentTrip lane s
  | .settleTimerExpiry lane => Sys2Proof.Machine.execSettleTimerExpiry lane s
  | .restartTimerExpiry lane => Sys2Proof.Machine.execRestartTimerExpiry lane s
  | .rescanTimerExpiry lane => Sys2Proof.Machine.execRescanTimerExpiry lane s
  | .pollGapTimerExpiry lane => Sys2Proof.Machine.execPollGapTimerExpiry lane s
  | .rollcallGapTimerExpiry lane => Sys2Proof.Machine.execRollcallGapTimerExpiry lane s
  | .latnChange lane asserted => Sys2Proof.Machine.execLatnChange lane asserted s
  | .attentionDeadlineExpiry lane level => Sys2Proof.Machine.execAttentionDeadlineExpiry lane level s
  | .accessTimerExpiry => Sys2Proof.Machine.execAccessTimerExpiry s
  | .telegramSent lane => Sys2Proof.Machine.execTelegramSent lane s
  | .answerTimeout lane => Sys2Proof.Machine.execAnswerTimeout lane s
  | .answerEnd lane contention bytes => Sys2Proof.Machine.execAnswerEnd lane contention bytes s
  | .carrierLimitExpiry lane => Sys2Proof.Machine.execCarrierLimitExpiry lane s
  | .rollcallSlotsEnd lane hits => Sys2Proof.Machine.execRollcallSlotsEnd lane hits s
  | .quietWaitEnd lane => Sys2Proof.Machine.execQuietWaitEnd lane s
  | .quietWaitLimitExpiry lane => Sys2Proof.Machine.execQuietWaitLimitExpiry lane s
  | .nodeNamedReport => Sys2Proof.Machine.execNodeNamedReport s
  | .byteReceived byte => Sys2Proof.Machine.execByteReceived byte s
  | .carrierBegins lane => Sys2Proof.Machine.execCarrierBegins lane s

end Sys2Proof.Machine
end

