-- ==== Sys2Proof/Safety.lean ====
section
/-! DEFINITION. What the statements speak of: the head of the request queue, the properties that every step keeps
(queue bounds, the power law, the walk, the directory, its bounds, the in-service tables, the passed-over counts), when a command
is out of its turn, what a resolution and an outcome make of the part, and when a timer's expiry is timely. -/

namespace Sys2Proof.Machine

/-! ### Requests (R187) -/

/-- R187: the Request Unit can take a request, and `q` is at the head of the queue. -/
def State.queued (s : State) (q : Request) (rest : List Request) : Prop := s.canTake = true ∧ s.link.requests = q :: rest

/-- R186: the state with the head request gone from the queue. -/
def State.took (s : State) (rest : List Request) : State := { s with link := { s.link with requests := rest } }

/-- The rows of requests, with the kind that each takes and, where rows share a kind, the place in the payload of the code that
selects one of them, and its code. -/
def requestRows : List (Instr × Byte × Option (Nat × Byte)) :=
  [(.status, 0x01, none), (.ident, 0x02, none), (.configureLaneEnableMask, 0x03, some (0, 1)),
    (.configureMissLimit, 0x03, some (0, 2)), (.configurePollGap, 0x03, some (0, 3)),
    (.configureRescanInterval, 0x03, some (0, 4)), (.configureAttentionTimeout, 0x03, some (0, 5)),
    (.configureRotation, 0x03, some (0, 6)), (.configureNoticeMask, 0x03, some (0, 7)), (.resetSoft, 0x04, some (0, 1)),
    (.resetFull, 0x04, some (0, 2)), (.plugEnable, 0x08, none), (.plugDisable, 0x09, none), (.faults, 0x10, none),
    (.rescan, 0x11, none), (.laneRestart, 0x12, none), (.lookup, 0x18, none), (.find, 0x19, none), (.purge, 0x1A, none),
    (.overrideAuto, 0x1B, some (1, 0)), (.overrideForcedPresent, 0x1B, some (1, 1)), (.overrideForcedAbsent, 0x1B, some (1, 2)),
    (.readObjects, 0x20, none), (.writeObject, 0x21, none), (.attnDone, 0x24, none), (.attnMask, 0x25, none),
    (.manifestBegin, 0x28, none), (.manifestEntry, 0x29, none), (.manifestEnd, 0x2A, none), (.manifestErase, 0x2B, none),
    (.manifestRead, 0x2C, none), (.resolve, 0x2D, none), (.snapshot, 0x30, none), (.snapshotPage, 0x31, none),
    (.snapshotRelease, 0x32, none)]

/-- R187: a request row cannot take the request at the head of the queue: the Request Unit takes none, the queue is empty, or
the head request is of another kind or selects another row of its kind. -/
def Instr.cannotTake (c : Instr) (s : State) : Prop :=
  ∃ k code, (c, k, code) ∈ requestRows ∧
    (s.canTake = false ∨ s.link.requests = [] ∨ ∃ q rest, s.link.requests = q :: rest ∧
      (q.kind ≠ k ∨ ∃ i b x, code = some (i, b) ∧ q.payload[i]? = some x ∧ x ≠ b ∧ ∃ d, (d, k, some (i, x)) ∈ requestRows))

/-- A command that comes out of its turn (log entry 1): the row of a request that it cannot take, the expiry of a timer that is
stopped, an event of a telegram in a phase that does not wait for it, a trip without power, or the end of a frame, a hold or a
report where there is none. -/
def Instr.outOfTurn (c : Instr) (s : State) : Prop :=
  Instr.cannotTake c s ∨
    match c with
    | .unknownKind => s.canTake = false ∨ s.link.requests = [] ∨ ∃ q rest, s.link.requests = q :: rest ∧ q.kind ∈ requestKinds
    | .debounceExpiry => s.mate.debounce = none
    | .partialExpiry => s.mate.partialTimer = none
    | .gapTimerExpiry => s.link.gapTimer = none
    | .accessTimerExpiry => s.accessTimer = none
    | .settleTimerExpiry l => (s.lane l).settleTimer = none
    | .restartTimerExpiry l => (s.lane l).restartTimer = none
    | .rescanTimerExpiry l => (s.lane l).rescanTimer = none
    | .pollGapTimerExpiry l => (s.lane l).pollGapTimer = none
    | .rollcallGapTimerExpiry l => (s.lane l).rollcallGapTimer = none
    | .attentionDeadlineExpiry l v => ∀ r, (s.lane l).attention.slots.get v = some r → r.deadline = none
    | .telegramSent l => ∀ u, (s.lane l).engine = some u → u.phase ≠ .sending
    | .answerTimeout l => ∀ u, (s.lane l).engine = some u → u.phase ≠ .window
    | .carrierBegins l => ∀ u, (s.lane l).engine = some u → u.phase ≠ .window
    | .answerEnd l _ _ => ∀ u, (s.lane l).engine = some u → u.phase ≠ .receiving
    | .carrierLimitExpiry l => ∀ u, (s.lane l).engine = some u → u.phase ≠ .receiving
    | .rollcallSlotsEnd l _ => ∀ u, (s.lane l).engine = some u → u.phase ≠ .slots
    | .quietWaitEnd l => ∀ u r, (s.lane l).engine = some u → u.phase ≠ .quiet r
    | .quietWaitLimitExpiry l => ∀ u r, (s.lane l).engine = some u → u.phase ≠ .quiet r
    | .overcurrentTrip l => (s.lane l).power = false
    | .transmitFrameEnd _ _ => s.link.tx = none
    | .resetRelease _ _ => s.hold = none
    | .nodeNamedReport => s.resolver.reports = []
    | _ => False

/-- R156, third check: the fields of a MANIFEST_ENTRY payload are in their ranges: the role name (1..12 printable
characters), the lane (0..3 or 0xFF for ANY), the class code, the level (0..2 or 3 for off), the bits 3 to 7 of byte 3
(its bit 2, the access, is RO or RW), and the serial bytes of an absent serial. -/
abbrev bindingFits (p : List Byte) : Prop :=
  1 ≤ (p.drop 10).length ∧ (p.drop 10).length ≤ 12 ∧ (∀ c ∈ p.drop 10, 0x20 ≤ c.toNat ∧ c.toNat ≤ 0x7E)
    ∧ ((at' p 1).toNat ≤ 3 ∨ at' p 1 = 0xFF) ∧ at' p 2 ≠ 0x01 ∧ (at' p 4).toNat ≤ 3 ∧ (at' p 3).toNat < 8
    ∧ ((at' p 3).getLsbD 0 = false → word32 (at' p 5) (at' p 6) (at' p 7) (at' p 8) = 0)

/-! ### Frames: what a command that acts elsewhere leaves alone -/

/-- The manifests, the snapshot, the parameters of the whole part, the hold of a cold reset, the Timebase, the queue of
commands, and the Link Unit's rate, receiver, request queue, mask and fault record. -/
def State.keepsRest (s t : State) : Prop :=
  t.store = s.store ∧ t.snap = s.snap ∧ t.missLimit = s.missLimit ∧ t.attnTimeout = s.attnTimeout ∧ t.hold = s.hold
    ∧ t.now = s.now ∧ t.pending = s.pending ∧ t.link.rate = s.link.rate ∧ t.link.receiver = s.link.receiver
    ∧ t.link.gapTimer = s.link.gapTimer ∧ t.link.requests = s.link.requests ∧ t.link.mask = s.link.mask
    ∧ t.link.fault = s.link.fault

/-- The parameters and the mask place of a lane. -/
def Lane.keepsParameters (n m : Lane) : Prop :=
  m.enabled = n.enabled ∧ m.pollGapMs = n.pollGapMs ∧ m.rescanSeconds = n.rescanSeconds ∧ m.rotation = n.rotation

/-- A lane's parameters, power, line, fault record and duplicate-seen flag. -/
def Lane.keepsStanding (n m : Lane) : Prop :=
  n.keepsParameters m ∧ m.power = n.power ∧ m.latn = n.latn ∧ m.fault = n.fault ∧ m.duplicateSeen = n.duplicateSeen

/-- The requestor that a grant is for. -/
def Grant.requestor : Grant → Requestor
  | .attention => .attention
  | .access _ => .access
  | .survey _ => .survey
  | .poll _ => .poll

/-! ### Queue bounds (R186) -/

/-- R186: the request queue holds at most 4 requests and the notice queue at most 16 notices. -/
def State.queuesFit (s : State) : Prop :=
  s.link.requests.length ≤ Config.requestPlaces ∧ s.link.notices.length ≤ Config.noticePlaces

/-! ### The power law (R8, R10, R18) -/

/-- R18: the lane states in which power may be on. -/
def LaneState.powered : LaneState → Bool
  | .settling => true
  | .enumerating => true
  | .supervising => true
  | .rescanning => true
  | .disabled => false
  | .off => false
  | .faulted => false

/-- Section 2.2: the lane states that need an open session. -/
def LaneState.working : LaneState → Bool
  | .settling => true
  | .enumerating => true
  | .supervising => true
  | .rescanning => true
  | .faulted => true
  | .disabled => false
  | .off => false

/-- A lane obeys the power law, given whether a session is open: power only in a powered state; a working state only
in a session on an enabled lane; DISABLED exactly when the mask says so; and each timer or pass that can change the
state only in the state it belongs to, the settle and the restart timer never together. -/
def Lane.powerOk (session : Bool) (n : Lane) : Bool :=
  (!n.power || n.state.powered) && (!n.state.working || (session && n.enabled))
    && decide ((n.state = .disabled) ↔ (n.enabled = false))
    && (!n.settleTimer.isSome || decide (n.state = .settling))
    && (!n.restartTimer.isSome || (decide (n.state = .settling) && n.settleTimer.isNone))
    && (!n.rescanTimer.isSome || decide (n.state = .supervising))
    && (!n.survey.pass.isSome || decide (n.state = .enumerating) || decide (n.state = .rescanning))

/-- R8, R10: a session is open exactly while the plug is ATTACHED and enabled; in ATTACHED both timers are stopped. -/
def Mate.sessionOk (m : Mate) : Bool :=
  decide (m.session = (decide (m.plug = .attached) && m.enabled))
    && (decide (m.plug ≠ .attached) || (m.debounce.isNone && m.partialTimer.isNone))

/-- The power law of the whole part. -/
def State.powerLaw (s : State) : Prop :=
  s.mate.sessionOk = true ∧ ∀ l, (s.lane l).powerOk s.mate.session = true

/-! ### The walk (R41, R42) -/

/-- R42: lengths of stacked prefixes from the top: from 1 to 20 digits, none longer than one above it, at most three
of one length. -/
def stackOk (stack : List Digits) : Prop :=
  (∀ p ∈ stack, 1 ≤ p.length ∧ p.length ≤ Config.tagDigits)
    ∧ stack.Pairwise (fun p q => q.length ≤ p.length)
    ∧ ∀ k, (stack.filter (fun p => decide (p.length = k))).length ≤ 3

/-- The current prefix is at most 20 digits, and no stacked one is longer. -/
def currentOk (v : Survey) : Prop :=
  ∀ c, v.current = some c → c.digits.length ≤ Config.tagDigits ∧ ∀ p ∈ v.stack, p.length ≤ c.digits.length

/-- A survey request fits the engine's state: a SURVEY carries the current prefix of a walk, FORGET comes before any
prefix is stacked, and ASSIGN comes in the ASSIGN stage of a naming step. -/
def workOk (v : Survey) (w : SurveyWork) : Prop :=
  (∀ p, w = .survey p → v.current.map (·.digits) = some p ∧ v.step = some .walk) ∧ (w = .forget → v.stack = [])
    ∧ (∀ t a, w = .assign t a → v.naming.map (·.stage) = some .assign)

/-- The survey work that a lane's grant is for. -/
def Grant.surveyWork? : Option Grant → Option SurveyWork
  | some (.survey w) => some w
  | some .attention => none
  | some (.access _) => none
  | some (.poll _) => none
  | none => none

/-- R41: the lane states in which the engine runs a pass. -/
def LaneState.surveying : LaneState → Bool
  | .enumerating => true
  | .rescanning => true
  | .settling => false
  | .supervising => false
  | .disabled => false
  | .off => false
  | .faulted => false

/-- R41, R42: a lane's walk is in order. -/
def Lane.surveyOk (n : Lane) : Prop :=
  stackOk n.survey.stack ∧ currentOk n.survey
    ∧ (n.survey.step ≠ some .walk → n.survey.stack = [])
    ∧ (∀ w, n.arbiter.standing.survey = some w → workOk n.survey w)
    ∧ (∀ w, Grant.surveyWork? n.arbiter.grant = some w → workOk n.survey w ∧ n.arbiter.standing.survey = none)
    ∧ (n.state.surveying = false →
        n.survey = Survey.cold ∧ n.arbiter.standing.survey = none ∧ Grant.surveyWork? n.arbiter.grant = none)
    ∧ (n.settleTimer.isSome → n.state = .settling) ∧ (n.rescanTimer.isSome → n.state = .supervising)
    ∧ (n.restartTimer.isSome → n.state = .settling ∧ n.settleTimer = none)

/-- R41, R42: every lane's walk is in order. -/
def State.surveyOk (s : State) : Prop := ∀ l, (s.lane l).surveyOk

/-! ### The directory (R72, R79) -/

/-- R51: the NEW reservation that a lane's naming step holds. -/
def Lane.reservation (n : Lane) : Option Naming :=
  n.survey.naming.filter (fun x => decide (x.kind = .new) && decide (x.stage = .assign))

/-- R72, R79: handles lie in 1..64 and ascend, so they are distinct; no two entries carry the same tag; a reserved
handle or tag is held by no entry and by no other reservation. -/
def State.directoryOk (s : State) : Prop :=
  s.dir.entries.Pairwise (fun a b => a.handle < b.handle) ∧ s.dir.entries.Pairwise (fun a b => a.tag ≠ b.tag)
    ∧ (∀ e ∈ s.dir.entries, 1 ≤ e.handle ∧ e.handle ≤ Config.maxEntries)
    ∧ (∀ l n, (s.lane l).reservation = some n → 1 ≤ n.handle ∧ n.handle ≤ Config.maxEntries
        ∧ (∀ e ∈ s.dir.entries, e.handle ≠ n.handle ∧ e.tag ≠ n.tag))
    ∧ (∀ l m n k, l ≠ m → (s.lane l).reservation = some n → (s.lane m).reservation = some k →
        n.handle ≠ k.handle ∧ n.tag ≠ k.tag)

/-! ### The bounds of the directory (R73, R80, R94, R101) -/

/-- R77, R101: the miss count is at most the miss limit, at it exactly while the entry is LOST, and 0 exactly while it is
PRESENT. -/
def Entry.missOk (e : Entry) (limit : Nat) : Prop :=
  e.miss ≤ limit ∧ (e.presence = .lost ↔ e.miss = limit) ∧ (e.presence = .present ↔ e.miss = 0)

/-- R73, R80, R94, R101, R106: the miss limit is in its range and no miss count is beyond it; without a session the directory
is empty; addresses lie in 1..30 and differ on one lane; and the address of a naming step is held by no entry of its lane
but the one that the step brings back. -/
def State.boundsOk (s : State) : Prop :=
  1 ≤ s.missLimit ∧ s.missLimit ≤ 15 ∧ (s.mate.session = false → s.dir.entries = [])
    ∧ (∀ e ∈ s.dir.entries, e.missOk s.missLimit ∧ 1 ≤ e.addr ∧ e.addr ≤ 30)
    ∧ s.dir.entries.Pairwise (fun a b => a.lane = b.lane → a.addr ≠ b.addr)
    ∧ ∀ l n, (s.lane l).survey.naming = some n → n.stage = .assign → 1 ≤ n.addr ∧ n.addr ≤ 30
        ∧ ∀ e ∈ s.dir.entries, e.lane = l → e.addr = n.addr → n.kind ≠ .new ∧ e.handle = n.handle

/-! ### The in-service tables (R131, R142) -/

/-- R142: the slot of a level of a lane holds an in-service record. -/
def State.slot (s : State) (l : LaneId) (v : LevelId) (r : InService) : Prop := (s.lane l).attention.slots.get v = some r

/-- R84, R109, R131, R139, R142: an in-service table holds the handles of the lane's entries IN_SERVICE, each in one slot; a
LOST or isolated entry is IDLE; only a lane whose Attention Service is active has an entry that is not IDLE, a slot, a heed in
flight or the service's request or grant; the level of a heed in flight has an empty slot; and an initial pass runs in
ENUMERATING alone (R23). -/
def State.serviceOk (s : State) : Prop :=
  (∀ l v r, s.slot l v r → ∃ e ∈ s.dir.entries, e.handle = r.handle ∧ e.lane = l ∧ e.attention = .inService)
    ∧ (∀ e ∈ s.dir.entries, e.attention = .inService → ∃ v r, s.slot e.lane v r ∧ r.handle = e.handle)
    ∧ (∀ l v w r q, s.slot l v r → s.slot l w q → r.handle = q.handle → v = w)
    ∧ (∀ e ∈ s.dir.entries, e.presence = .lost ∨ e.override = .forcedAbsent → e.attention = .idle)
    ∧ (∀ e ∈ s.dir.entries, e.attention ≠ .idle → (s.lane e.lane).state.serving = true)
    ∧ (∀ l, (s.lane l).state.serving = false → (∀ v r, ¬ s.slot l v r) ∧ (s.lane l).attention.heed = none
        ∧ (s.lane l).arbiter.standing.attention = false ∧ (s.lane l).arbiter.grant ≠ some .attention)
    ∧ (∀ l h, (s.lane l).attention.heed = some h → h.target.lane = l ∧ ∀ r, ¬ s.slot l h.level r)
    ∧ ∀ l, (s.lane l).survey.pass = some .initial → (s.lane l).state = .enumerating

/-! ### The passed-over counts (R115) -/

/-- R113, R115: a requestor without a standing request has count 0, and a count is at most 8 and the number of the requestors of
higher priority whose own count, with 8, stays below it: those that were granted since it became due. -/
def Arbiter.countsOk (a : Arbiter) : Prop :=
  (∀ r, r ∉ a.standing.list → a.passed.of r = 0) ∧ a.passed.attention ≤ 8
    ∧ a.passed.access ≤ 8 + (if a.passed.attention + 8 < a.passed.access then 1 else 0)
    ∧ a.passed.survey ≤ 8 + (if a.passed.attention + 8 < a.passed.survey then 1 else 0)
        + (if a.passed.access + 8 < a.passed.survey then 1 else 0)
    ∧ a.passed.poll ≤ 8 + (if a.passed.attention + 8 < a.passed.poll then 1 else 0)
        + (if a.passed.access + 8 < a.passed.poll then 1 else 0) + (if a.passed.survey + 8 < a.passed.poll then 1 else 0)

/-- R115: the counts of every lane are in order. -/
def State.countsOk (s : State) : Prop := ∀ l, (s.lane l).arbiter.countsOk

/-! ### Answers (R32, R198) -/

/-- R32, R198: the code and the contents of an answer to a telegram that has the form it asks for, and what it says: the table
of R198, with R32's bounds. -/
def Telegram.answerForm (t : Telegram) (x : Answer) (body : List Byte) : Prop :=
  match t, x with
  | .assign _ a, .ack => body = [0x61, byteOf a]
  | .describe _ identity, .descriptor d =>
    1 ≤ d.objectCount ∧ d.objectCount ≤ 255 ∧ d.label.length ≤ 12 ∧ d.toolId.isSome = identity
      ∧ body = 0x64 :: (be16 d.maker ++ [d.revision, byteOf d.objectCount,
          (if d.attnCapable then 1 else 0) + (if d.toolId.isSome then 2 else 0)]
          ++ (match d.toolId with
              | some x => be16 x
              | none => [])
          ++ (byteOf d.label.length :: d.label))
  | .ping _, .status f => body = [0x65, if f then 1 else 0]
  | .read _ _, .value v => body = 0x66 :: be32 v
  | .write _ _ _, .ack => body = [0x61]
  | .heed _, .cause c data => data.length ≤ 4 ∧ body = 0x67 :: c :: byteOf data.length :: data
  | .clear _, .ack => body = [0x61]
  | _, _ => False

/-- R32: the telegrams that a node may answer with REFUSED. -/
def Telegram.refusable (t : Telegram) : Prop := (∃ a o, t = .read a o) ∨ ∃ a o v, t = .write a o v

/-! ### What a resolution decides (R164 to R168) -/

/-- R164: slot `a` is the one that holds a tool ID, or is absent because no slot holds it. -/
def Store.holdsAt (st : Store) (x : Word16) (a : Option (Fin 8)) : Prop :=
  (∀ i, a = some i → (st.slots[i]).map (·.toolId) = some x)
    ∧ (a = none → ∀ i : Fin 8, (st.slots[i]).map (·.toolId) ≠ some x)

/-- R164: the applied slot, the identity conflict and the session tool ID that the identity entries give. -/
def State.choosesIn (s : State) (r : Resolver) : Prop :=
  (s.dir.entries.filter (·.identity) = [] → r.toolId = none ∧ r.conflict = false ∧ s.store.holdsAt 0 r.applied)
    ∧ (∀ e, s.dir.entries.filter (·.identity) = [e] → r.toolId = e.descriptor.bind (·.toolId) ∧ r.conflict = false
        ∧ ((∃ x, r.toolId = some x ∧ r.applied ≠ none ∧ s.store.holdsAt x r.applied)
          ∨ (∀ x, r.toolId = some x → s.store.holdsAt x none) ∧ s.store.holdsAt 0 r.applied))
    ∧ (2 ≤ (s.dir.entries.filter (·.identity)).length → r.toolId = none ∧ r.conflict = true ∧ r.applied = none)

/-- R165, R170: an entry may hold a binding: it is no identity entry, its class is the binding's, its lane is the binding's or
that is ANY, and its serial is the binding's where the binding carries one. -/
def ManifestBinding.mayBind (b : ManifestBinding) (e : Entry) : Prop :=
  e.identity = false ∧ b.cls = Tag.cls e.tag ∧ (b.lane = none ∨ b.lane = some e.lane)
    ∧ (b.serial = none ∨ b.serial = some (Tag.serial e.tag))

/-- R165, Pass B: PRESENT and SUSPECT entries come before LOST ones, and a lower handle before a higher one. -/
def Entry.before (e f : Entry) : Prop :=
  e.presence ≠ .lost ∧ f.presence = .lost ∨ (e.presence = .lost ↔ f.presence = .lost) ∧ e.handle < f.handle

/-- R165: the entries hold the bindings of a manifest that the two passes give. An entry holds only what it may hold, and
whole; no binding is held twice; Pass A: an entry that a binding with a serial fits holds the first such binding; Pass B: for
a binding without a serial and an entry it fits, the entry holds a binding of Pass A, that binding or an earlier one, or an
entry that comes before it holds that binding. -/
def passesGive (m : Manifest) (es : List Entry) : Prop :=
  (∀ e ∈ es, ∀ b, e.binding = some b → ∃ x, m.bindings[b.index]? = some x ∧ x.mayBind e
      ∧ b = { index := b.index, role := x.role, level := x.level, access := x.access, required := x.required })
    ∧ (∀ e ∈ es, ∀ f ∈ es, ∀ b c, e.binding = some b → f.binding = some c → b.index = c.index → e = f)
    ∧ (∀ e ∈ es, ∀ k x, m.bindings[k]? = some x → x.serial ≠ none → x.mayBind e →
        ∃ b y, e.binding = some b ∧ b.index ≤ k ∧ m.bindings[b.index]? = some y ∧ y.serial ≠ none)
    ∧ (∀ f ∈ es, ∀ k x, m.bindings[k]? = some x → x.serial = none → x.mayBind f →
        (∃ b y, f.binding = some b ∧ m.bindings[b.index]? = some y ∧ (b.index ≤ k ∨ y.serial ≠ none))
        ∨ ∃ e ∈ es, e.before f ∧ ∃ b, e.binding = some b ∧ b.index = k)

/-- R166, R167: the bindings of the applied manifest, those of its slot (log entry 20). -/
def State.appliedBindings (s : State) : List ManifestBinding :=
  match s.resolver.applied with
  | some i =>
    match s.store.slots[i] with
    | some m => m.bindings
    | none => []
  | none => []

/-- R166: some entry that is not LOST holds the binding with this index. -/
def State.fills (s : State) (k : Nat) : Bool :=
  s.dir.entries.any (fun e => decide (e.presence ≠ .lost) && e.binding.any (fun b => decide (b.index = k)))

/-- R166, R167: the required, or the optional, bindings that are missing, with their indices. -/
def State.missingOf (s : State) (required : Bool) : List (ManifestBinding × Nat) :=
  s.appliedBindings.zipIdx.filter (fun x => decide (x.1.required = required) && !s.fills x.2)

/-- R166, R167: the tool status is the first whose condition holds, and the counts are those of the directory. -/
def State.statusHolds (s : State) : Prop :=
  (s.mate.session = false → s.resolver.status = .none)
    ∧ (s.mate.session = true →
        (s.resolver.phase = .enumerating → s.resolver.status = .enumerating)
        ∧ (s.resolver.phase ≠ .enumerating →
          (s.resolver.conflict = true ∨ (∃ l, (s.lane l).duplicateSeen = true) → s.resolver.status = .conflict)
          ∧ (s.resolver.conflict = false → (∀ l, (s.lane l).duplicateSeen = false) →
              (s.resolver.applied = none → s.resolver.status = .unresolved)
              ∧ (s.resolver.applied ≠ none → s.missingOf true ≠ [] → s.resolver.status = .incomplete)
              ∧ (s.resolver.applied ≠ none → s.missingOf true = [] → s.resolver.status = .ready))))
    ∧ (s.resolver.phase ≠ .resolved →
        s.resolver.counts = { bound := 0, requiredMissing := 0, optionalMissing := 0, extras := 0 })
    ∧ (s.resolver.phase = .resolved → s.resolver.counts = {
        bound := (s.dir.entries.filter (fun e => e.binding.isSome)).length
        requiredMissing := (s.missingOf true).length, optionalMissing := (s.missingOf false).length
        extras := (s.dir.entries.filter (fun e => !e.identity && e.binding.isNone)).length })

/-- R168: after a recomputation that takes the Resolver from `old` to `new`, the Link Unit is posted one TOOL notice with the
new values when the status, the applied slot or the session tool ID has changed, and nothing otherwise. The bytes of a tool
ID that is absent are free (log entry 9). -/
def Link.told (k : Link) (old new : Resolver) (after : Link) : Prop :=
  (new.status = old.status ∧ new.applied = old.applied ∧ new.toolId = old.toolId → after = k)
    ∧ (new.status ≠ old.status ∨ new.applied ≠ old.applied ∨ new.toolId ≠ old.toolId →
        ∃ draw, after = k.post (.tool new.status new.toolId new.applied new.counts draw))

/-- R168: the TOOL notices of an event that has taken the Resolver from `old` to `new`, its applied slot and session tool ID being
unchanged: one for each change of the status, and the last one carries the status and the four counts as they stand after the whole
event; with no change of the status, none. -/
def toolsTell (old new : Resolver) (tools : List Notice) : Prop :=
  ∃ xs : List (ToolStatus × Counts × Nat), tools = xs.map (fun x => .tool x.1 new.toolId new.applied x.2.1 x.2.2)
    ∧ (old.status :: xs.map (·.1)).IsChain (fun a b => a ≠ b) ∧ (old.status :: xs.map (·.1)).getLast? = some new.status
    ∧ ∀ x, xs.getLast? = some x → x.2.1 = new.counts

/-- R161: the Resolver as a session begins: ENUMERATING, every lane's mark clear, nothing applied, all counts 0. -/
def Resolver.begun : Resolver :=
  { phase := .enumerating, finished := { a0 := false, a1 := false, a2 := false, a3 := false }, applied := none, toolId := none,
    conflict := false, status := .enumerating
    counts := { bound := 0, requiredMissing := 0, optionalMissing := 0, extras := 0 }, reports := [] }

/-- R150, R165: an entry after a resolution: its binding is a new one, and a PENDING attention without a level is dropped. -/
def Entry.boundAnew (e f : Entry) : Prop :=
  f = { e with
    binding := f.binding
    attention := if e.attention = .pending ∧ f.binding.bind (·.level) = none then .idle else e.attention }

/-- R86, R150, R162, R164 to R167: a full resolution takes `s` to `t`, but for the Link Unit and what the lanes then send: the
manifest is chosen, the entries hold what the passes give, the generation rises by the number of entries whose binding differs,
a dropped attention leaves a CLEAR, and the status and counts are computed. -/
def State.resolvesTo (s t : State) : Prop :=
  s.choosesIn t.resolver ∧ t.resolver.phase = .resolved ∧ t.resolver.reports = s.resolver.reports
    ∧ List.Forall₂ Entry.boundAnew s.dir.entries t.dir.entries
    ∧ t.dir.generation = s.dir.generation
        + BitVec.ofNat 16 ((s.dir.entries.zip t.dir.entries).filter (fun x => decide (x.1.binding ≠ x.2.binding))).length
    ∧ (t.resolver.applied = none → ∀ e ∈ t.dir.entries, e.binding = none)
    ∧ (∀ i m, s.directoryOk → t.resolver.applied = some i → s.store.slots[i] = some m → passesGive m t.dir.entries)
    ∧ (∀ x ∈ s.dir.entries.zip t.dir.entries, x.1.attention ≠ x.2.attention →
        ∃ i ∈ (t.lane x.1.lane).attention.clearList, i.addr = x.1.addr)
    ∧ t.statusHolds

/-- R170: binding `k` of the applied manifest is `x`, and no entry holds it. -/
def State.unheld (s : State) (k : Nat) (x : ManifestBinding) : Prop :=
  s.appliedBindings[k]? = some x ∧ ∀ e ∈ s.dir.entries, ∀ b, e.binding = some b → b.index ≠ k

/-- R170: the binding that a new entry takes: the first unheld one with a serial that it may hold; where there is none, the
first unheld one without a serial. -/
def State.takesBinding (s : State) (e : Entry) (k : Nat) (x : ManifestBinding) : Prop :=
  s.unheld k x ∧ x.mayBind e
    ∧ ((x.serial ≠ none ∧ ∀ j y, s.unheld j y → y.mayBind e → y.serial ≠ none → k ≤ j)
      ∨ (x.serial = none ∧ ∀ j y, s.unheld j y → y.mayBind e → y.serial = none ∧ k ≤ j))

/-! ### What follows an outcome (R41, R97, R113, R116) -/

/-- The work of a lane: the engine, the arbiter, the run and the heed in flight; all else is as before. -/
def Lane.sameButWork (n m : Lane) : Prop :=
  m = { n with engine := m.engine, arbiter := m.arbiter, run := m.run
               attention := { n.attention with heed := m.attention.heed } }

/-- The work of a lane, its slots and its clear list; all else is as before. -/
def Lane.sameButService (n m : Lane) : Prop :=
  m = { n with
    engine := m.engine, arbiter := m.arbiter, run := m.run
    attention := { m.attention with lastServed := n.attention.lastServed } }

/-- R85: the lane without an address in its poll round. -/
def Lane.offRound (n : Lane) (a : Nat) : Lane :=
  { n with poller := { n.poller with roundSet := n.poller.roundSet.filter (fun x => decide (x ≠ a)) } }

/-- No access of this lane can be ended by its arbiter: no run, or the Request Unit waits on none here. -/
def State.noAccess (s : State) (l : LaneId) : Prop :=
  (s.lane l).run = none ∨ ∀ kind token, s.unit ≠ .accessWait kind token l

/-- The Resolver but for its status and counts. -/
def Resolver.sameChoice (r t : Resolver) : Prop :=
  t.phase = r.phase ∧ t.finished = r.finished ∧ t.applied = r.applied ∧ t.toolId = r.toolId ∧ t.conflict = r.conflict
    ∧ t.reports = r.reports

/-- R41, R114: the Survey Engine's request stands, or it has been granted and its telegram is being sent. -/
def Lane.surveys (n : Lane) (w : SurveyWork) : Prop :=
  n.arbiter.standing.survey = some w
    ∨ n.arbiter.grant = some (.survey w) ∧ n.engine = some { telegram := w.telegram, attempt := 1, phase := .sending }

/-- R98, R114: the Poller's request stands, or it has been granted and its PING is being sent. -/
def Lane.polls (n : Lane) (p : Target) : Prop :=
  n.arbiter.standing.poll = some p
    ∨ n.arbiter.grant = some (.poll p) ∧ n.engine = some { telegram := .ping p.addr, attempt := 1, phase := .sending }

/-- R114, R116: `t` is `s` after the grant of lane `l`, if one ends, has ended and its arbiter has made its next decision: only the lane's work
differs, no request of the Survey Engine or the Poller is lost, and, where no access waits on the lane, the Link Unit and the
Request Unit are as they were. -/
def State.grantEnds (l : LaneId) (s t : State) : Prop :=
  s.keepsRest t ∧ t.mate = s.mate ∧ t.dir = s.dir ∧ t.resolver = s.resolver ∧ (∀ m, m ≠ l → t.lane m = s.lane m)
    ∧ (s.lane l).sameButWork (t.lane l)
    ∧ (∀ w, (s.lane l).arbiter.standing.survey = some w → (t.lane l).surveys w)
    ∧ (∀ p, (s.lane l).arbiter.standing.poll = some p → (t.lane l).polls p)
    ∧ (s.noAccess l → t.link = s.link ∧ t.unit = s.unit ∧ t.accessTimer = s.accessTimer ∧ (t.lane l).run = (s.lane l).run)

/-- A resolution takes `s` to `t`, with its TOOL notice, and changes nothing else but what the lanes then send. -/
def State.resolvedInto (s t : State) : Prop :=
  s.resolvesTo t ∧ t.mate = s.mate ∧ s.keepsRest t ∧ (∀ m, (s.lane m).sameButService (t.lane m))
    ∧ ((∀ m, s.noAccess m) → t.unit = s.unit ∧ s.link.told s.resolver t.resolver t.link)

/-- R20, R24, R162: lane `l` reports that it has finished its initial enumeration; the first report of the last enabled lane
runs the initial resolution. -/
def State.marksFinished (s : State) (l : LaneId) (t : State) : Prop :=
  ∃ u : State, u = { s with resolver := { s.resolver with finished := s.resolver.finished.set l true } }
    ∧ (s.resolver.finished.get l = true ∨ s.resolver.phase ≠ .enumerating
        ∨ (∃ m, (s.lane m).enabled = true ∧ u.resolver.finished.get m = false) → t = u)
    ∧ (s.resolver.finished.get l = false → s.resolver.phase = .enumerating →
        (∀ m, (s.lane m).enabled = true → u.resolver.finished.get m = true) → u.resolvedInto t)

/-- R97, R98: the lane, at `n`, as a poll round of lane `l` begins in `s`: with the first PING requested, or, with no address
in the round set, with the poll gap running. -/
def State.beginsRound (s : State) (l : LaneId) (n : Lane) : Prop :=
  (s.roundSet l = [] → n.poller = { phase := .gap, roundSet := [], position := none, ping := none }
      ∧ n.pollGapTimer = some (s.now + n.pollGapMs))
    ∧ ∀ a rest, s.roundSet l = a :: rest → n.poller.phase = .round ∧ n.poller.roundSet = a :: rest
        ∧ n.poller.position = some a ∧ n.pollGapTimer = none
        ∧ ∃ e, s.onLaneAt? l a = some e ∧ e.override = .auto ∧ e.presence ≠ .lost ∧ n.poller.ping = some e.target
          ∧ n.polls e.target

/-- R24, R62, R96, R131, R162: the initial pass of lane `l` ends: SUPERVISING with its LANE notice, the rescan timer, the
Attention Service at rest, a poll round, and the report that the lane has finished. -/
def State.beginsSupervision (s : State) (l : LaneId) (t : State) : Prop :=
  ∃ u : State, u.marksFinished l t
    ∧ u = { s with lanes := u.lanes, link := s.link.post (.lane l .supervising none) } ∧ (∀ m, m ≠ l → u.lane m = s.lane m)
    ∧ u.lane l = { s.lane l with
        survey := Survey.cold, state := .supervising, attention := Attention.cold, rollcallGapTimer := none
        rescanTimer := if (s.lane l).rescanSeconds = 0 then none else some (s.now + 1000 * (s.lane l).rescanSeconds)
        poller := (u.lane l).poller, pollGapTimer := (u.lane l).pollGapTimer, arbiter := { (s.lane l).arbiter with
          standing := { (s.lane l).arbiter.standing with poll := (u.lane l).arbiter.standing.poll } } }
    ∧ s.beginsRound l (u.lane l)

/-- R41: the Survey Engine of lane `l` moves on and requests one telegram. -/
def State.asks (s : State) (l : LaneId) (f : Survey → Survey) (w : SurveyWork) : State :=
  s.modLane l (fun n =>
    { n with survey := f n.survey, arbiter := { n.arbiter with standing := { n.arbiter.standing with survey := some w } } })

/-- R43, R44, R67: the walk goes on with the top prefix, or the pass ends on an empty stack. -/
def State.walksOn (s : State) (l : LaneId) (t : State) : Prop :=
  (∀ top rest, (s.lane l).survey.stack = top :: rest →
      t = s.asks l (fun v => { v with stack := rest, current := some { digits := top, attempt := 1 } }) (.survey top))
    ∧ ((s.lane l).survey.stack = [] →
        ((s.lane l).survey.pass = some .rescan → t = s.modLane l (fun n => { n with
            survey := Survey.cold, state := .supervising
            rescanTimer := if n.rescanSeconds = 0 then none else some (s.now + 1000 * n.rescanSeconds) }))
        ∧ ((s.lane l).survey.pass = some .initial → s.beginsSupervision l t))

/-- R65, R66: the entry of lane `l` with the lowest address above the step's position that passes a test. -/
def State.nextIs (s : State) (l : LaneId) (test : Entry → Prop) (e : Entry) : Prop :=
  s.onLaneAt? l e.addr = some e ∧ test e ∧ 1 ≤ e.addr ∧ e.addr ≤ 30 ∧ (∀ p, (s.lane l).survey.position = some p → p < e.addr)
    ∧ ∀ b f, 1 ≤ b → b < e.addr → (∀ p, (s.lane l).survey.position = some p → p < b) → s.onLaneAt? l b = some f → ¬ test f

/-- R66: the DESCRIBE step goes on with the next entry that has no descriptor and is not LOST; with none left the walk begins
at the empty prefix (R44). -/
def State.describesOn (s : State) (l : LaneId) (t : State) : Prop :=
  (∀ e, s.nextIs l (fun e => e.descriptor = none ∧ e.presence ≠ .lost) e →
      t = s.asks l (fun v => { v with position := some e.addr }) (.describe e.target))
    ∧ ((∀ e, ¬ s.nextIs l (fun e => e.descriptor = none ∧ e.presence ≠ .lost) e) →
        t = s.asks l (fun v => { v with step := some .walk, position := none, current := some { digits := [], attempt := 1 } })
          (.survey []))

/-- R65: the recall step goes on with the next LOST entry that is not FORCED_ABSENT; with none left the DESCRIBE step begins. -/
def State.recallsOn (s : State) (l : LaneId) (t : State) : Prop :=
  (∀ e, s.nextIs l (fun e => e.presence = .lost ∧ e.override ≠ .forcedAbsent) e →
      t = s.asks l (fun v => { v with position := some e.addr }) (.recall e.target))
    ∧ ((∀ e, ¬ s.nextIs l (fun e => e.presence = .lost ∧ e.override ≠ .forcedAbsent) e) →
        State.describesOn (s.modLane l (fun n => { n with survey := { n.survey with step := some .describe, position := none } }))
          l t)

/-- R41, R44, R65, R66: the Survey Engine goes on with the step it is in. -/
def State.goesOn (s : State) (l : LaneId) (t : State) : Prop :=
  ((s.lane l).survey.step = some .walk → s.walksOn l t) ∧ ((s.lane l).survey.step = some .describe → s.describesOn l t)
    ∧ ((s.lane l).survey.step = some .recall → s.recallsOn l t)

/-! ### The run of an access (R121 to R124) -/

/-- R121, R124: the run after a valid answer to the telegram of its object. -/
def Run.after (r : Run) (a : Answer) (t : Run) : Prop :=
  (∀ v, r.kind = .read → a = .value v → t = { r with completed := r.completed + 1, values := r.values ++ [v] })
    ∧ (∀ x, r.kind = .write x → a = .ack → t = { r with completed := 1 })

/-- R121, R122: the telegram that asks for the next object of a run. -/
def Run.asksFor (r : Run) (t : Telegram) : Prop :=
  (r.kind = .read → t = .read r.target.addr (r.first + r.completed)) ∧ ∀ x, r.kind = .write x → t = .write r.target.addr r.first x

/-- R114, R121, R122: the access request of a run stands, or it has been granted and the telegram of the run's next object is being
sent. -/
def Lane.accesses (n : Lane) (b : Bool) (r : Run) : Prop :=
  n.arbiter.standing.access = some b
    ∨ n.arbiter.grant = some (.access b) ∧ ∃ m, r.asksFor m ∧ n.engine = some { telegram := m, attempt := 1, phase := .sending }

/-- R123: the entry of a run is there as the run names it, and is not LOST. -/
def State.holdsRun (s : State) (r : Run) : Prop := ∃ e, s.target? r.target = some e ∧ e.presence ≠ .lost

/-! ### What the next grant sends (R123, R132, R133, R138, R139) -/

/-- Section 7.1, R138: an entry of the pending set of a lane, at a level. -/
def State.pendsAt (s : State) (l : LaneId) (v : LevelId) (e : Entry) : Prop :=
  e ∈ s.dir.entries ∧ e.lane = l ∧ e.attention = .pending ∧ e.binding.bind (·.level) = some v

/-- R138: the service condition holds, and `v` is the highest pending level. -/
def State.servesLevel (s : State) (l : LaneId) (v : LevelId) : Prop :=
  (∃ e, s.pendsAt l v e) ∧ (∀ w e, s.pendsAt l w e → w ≤ v) ∧ ∀ w r, s.slot l w r → w < v

/-- R139: the pending entry that is heeded at a level: under FIXED, or with no last served handle, the one with the lowest handle;
under ROTATING the one with the first handle after the last served one, in cyclic order. -/
def State.heedsNext (s : State) (l : LaneId) (v : LevelId) (e : Entry) : Prop :=
  s.pendsAt l v e
    ∧ ((s.lane l).rotation = .fixed ∨ (s.lane l).attention.lastServed.get v = none →
        ∀ f, s.pendsAt l v f → e.handle ≤ f.handle)
    ∧ ∀ h, (s.lane l).rotation = .rotating → (s.lane l).attention.lastServed.get v = some h →
        (h < e.handle ∧ ∀ f, s.pendsAt l v f → h < f.handle → e.handle ≤ f.handle)
        ∨ ∀ f, s.pendsAt l v f → f.handle ≤ h ∧ e.handle ≤ f.handle

/-- R133: a ROLLCALL is due. -/
def Lane.rollcalls (n : Lane) : Prop :=
  n.latn = true ∧ (n.state = .supervising ∨ n.state = .rescanning) ∧ n.rollcallGapTimer = none

/-- R132: the telegram that the Attention Service of a lane sends, and its heed in flight: CLEAR to the oldest item of the clear
list; without one, HEED to the entry of R139 while the service condition holds; else a ROLLCALL that is due. -/
def State.attentionSends (s : State) (l : LaneId) (m : Telegram) (h : Option Heed) : Prop :=
  (∃ i rest, (s.lane l).attention.clearList = i :: rest ∧ m = .clear i.addr ∧ h = none)
    ∨ (s.lane l).attention.clearList = [] ∧
      ((∃ v e, s.servesLevel l v ∧ s.heedsNext l v e ∧ m = .heed e.addr ∧ h = some { target := e.target, level := v })
        ∨ (∀ v, ¬ s.servesLevel l v) ∧ (s.lane l).rollcalls ∧ m = .rollcall ∧ h = none)

/-- R132: once the arbiter of lane `l` has acted, an ATTENTION grant has sent the telegram that the service chooses, and a service
with work has the grant or a request that stands. -/
def State.attentionMet (s : State) (l : LaneId) (t : State) : Prop :=
  s.directoryOk →
    ((t.lane l).arbiter.grant = some .attention → ∃ m h, s.attentionSends l m h ∧ (t.lane l).attention.heed = h
        ∧ (t.lane l).engine = some { telegram := m, attempt := 1, phase := .sending })
    ∧ ((s.lane l).state = .supervising ∨ (s.lane l).state = .rescanning → (∃ m h, s.attentionSends l m h) →
        (t.lane l).arbiter.grant = some .attention ∨ (t.lane l).arbiter.standing.attention = true)

/-- R114: the access of a lane is what its arbiter grants next: the Attention Service has no work, and no requestor is due. -/
def State.accessFirst (s : State) (l : LaneId) : Prop :=
  (s.lane l).arbiter.standing.attention = false ∧ (s.lane l).attention.clearList = [] ∧ (∀ v, ¬ s.servesLevel l v)
    ∧ ¬ (s.lane l).rollcalls ∧ ∀ x, (s.lane l).arbiter.passed.of x < 8

/-- R123: once the arbiter of lane `l` has acted, a request of the access that the Request Unit waits on stands behind another
grant; or it has been granted: then the run's next telegram is sent if the run's entry is there and not LOST, and no telegram
otherwise, but the reply NODE_LOST is built and the run ends. -/
def State.accessMet (s : State) (l : LaneId) (t : State) : Prop :=
  ∀ (b : Bool) (r : Run) (kind token : Byte), (s.lane l).arbiter.standing.access = some b → s.unit = .accessWait kind token l →
    (s.lane l).run = some r →
      ((t.lane l).arbiter.standing.access = some b → (t.lane l).run = some r ∧ t.unit = s.unit ∧ t.accessTimer = s.accessTimer
        ∧ t.link = s.link ∧ ∃ g, (t.lane l).arbiter.grant = some g ∧ g.requestor ≠ .access)
      ∧ ((t.lane l).arbiter.standing.access ≠ some b →
        (s.holdsRun r → (t.lane l).run = some r ∧ t.unit = s.unit ∧ t.accessTimer = s.accessTimer ∧ t.link = s.link
          ∧ (t.lane l).arbiter.grant = some (.access b)
          ∧ ∃ m, r.asksFor m ∧ (t.lane l).engine = some { telegram := m, attempt := 1, phase := .sending })
        ∧ (¬ s.holdsRun r → (t.lane l).run = none ∧ t.unit = .replying none ∧ t.accessTimer = none
          ∧ (∀ x, (t.lane l).arbiter.grant ≠ some (.access x))
          ∧ t.link = s.link.send { kind := kind + 0x80, token := token, status := .nodeLost, payload := r.payload }))
      ∧ (s.accessFirst l → (t.lane l).arbiter.standing.access ≠ some b)

/-- R33, R116: the outcome that ends a telegram of lane `l` has taken the part to `d`; the grant ends, and, where the outcome has
sent no telegram itself, the next grant sends what it is for. -/
def State.outcomeGives (s : State) (c : Instr) (l : LaneId) (d : State) : Prop :=
  ∃ t, exec c s = .next t ∧ d.grantEnds l t ∧ ((d.lane l).engine = none → d.accessMet l t ∧ d.attentionMet l t)

/-- R32, R33: lane `l` waits for quiet after an attempt with result `r` of a telegram that was sent under grant `g`; `c` is
either end of that wait. -/
def State.endsWith (s : State) (c : Instr) (l : LaneId) (u : Underway) (g : Grant) (r : AttemptResult) : Prop :=
  (c = .quietWaitEnd l ∨ c = .quietWaitLimitExpiry l) ∧ (s.lane l).engine = some u ∧ u.phase = .quiet r
    ∧ (s.lane l).arbiter.grant = some g

/-- R85, R168, R171: after an update the Link Unit is `k`; where the entry's presence has changed in a resolved session, the
Resolver computes the status, with a TOOL notice for a change. -/
def State.statusTold (s : State) (changed : Prop) (k : Link) (t : State) : Prop :=
  (¬ changed ∨ s.resolver.phase ≠ .resolved → t.link = k ∧ t.resolver = s.resolver)
    ∧ (changed → s.resolver.phase = .resolved →
        t.statusHolds ∧ k.told s.resolver t.resolver t.link ∧ s.resolver.sameChoice t.resolver)

/-- R100, R102, R103: an answer of the node at a target is evidence, with fault indication `f` if it is a status answer: under
AUTO an entry that is not LOST becomes PRESENT with miss count 0, with its NODE notices; for any other nothing changes. -/
def State.takesAnswer (s : State) (p : Target) (f : Option Bool) (t : State) : Prop :=
  s.keepsRest t ∧ t.mate = s.mate ∧ t.lanes = s.lanes ∧ t.unit = s.unit ∧ t.accessTimer = s.accessTimer
    ∧ (∀ e, s.target? p = some e → e.override = .auto → e.presence ≠ .lost →
        t.dir = (s.update e { e with presence := .present, miss := 0, nodeFault := f.getD e.nodeFault }).dir
        ∧ s.statusTold (e.presence ≠ .present)
          (((if e.presence ≠ .present then [Notice.node e.handle .present] else [])
            ++ (if e.nodeFault = false ∧ f = some true then [Notice.node e.handle .fault] else [])).foldl Link.post s.link) t)
    ∧ ((∀ e, s.target? p = some e → e.override ≠ .auto ∨ e.presence = .lost) → t = s)

/-- R85, R101, R103, R105: no answer from the node at a target is one miss: under AUTO an entry that is not LOST becomes SUSPECT,
or LOST at the miss limit with its attention and its part in the poll round ended, with its notices; for any other nothing
changes. -/
def State.takesMiss (s : State) (p : Target) (t : State) : Prop :=
  s.keepsRest t ∧ t.mate = s.mate ∧ t.unit = s.unit ∧ t.accessTimer = s.accessTimer
    ∧ (∀ e, s.target? p = some e → e.override = .auto → e.presence ≠ .lost →
        (e.miss + 1 < s.missLimit → t.lanes = s.lanes
          ∧ t.dir = (s.update e { e with presence := .suspect, miss := e.miss + 1 }).dir
          ∧ s.statusTold (e.presence = .present)
            ((if e.presence = .present then [Notice.node e.handle .suspect] else []).foldl Link.post s.link) t)
        ∧ (s.missLimit ≤ e.miss + 1 →
          t.dir = (s.update e { e with presence := .lost, miss := s.missLimit, attention := .idle }).dir
          ∧ (∀ m, m ≠ e.lane → t.lane m = s.lane m)
          ∧ t.lane e.lane = (if e.attention = .inService then
              { (s.lane e.lane).offRound e.addr with attention := (s.lane e.lane).attention.release e.handle }
            else (s.lane e.lane).offRound e.addr)
          ∧ s.statusTold True
            ((Notice.node e.handle .lost
              :: if e.attention = .inService then [.attentionEnded e.handle .lost] else []).foldl Link.post s.link) t))
    ∧ ((∀ e, s.target? p = some e → e.override ≠ .auto ∨ e.presence = .lost) → t = s)

/-- R103: the outcome of a directed telegram that is not a PING is evidence on its target. -/
def State.takesEvidence (s : State) (p : Target) (r : AttemptResult) (t : State) : Prop :=
  ((∃ a, r = .valid a) ∨ r = .refused → s.takesAnswer p none t) ∧ (r = .noAnswer ∨ r = .invalid → s.takesMiss p t)

/-- R64, R65: a rescan pass of lane `l` begins with its recall step, and the arbiter acts. -/
def State.rescans (s : State) (l : LaneId) (t : State) : Prop :=
  ∃ d, State.recallsOn (s.modLane l (fun n => { n with
      rescanTimer := none, state := .rescanning
      survey := { pass := some .rescan, step := some .recall, stack := [], current := none, naming := none, position := none } }))
        l d
    ∧ d.grantEnds l t

/-- R37, R28: the fault record of a lane is written whole, with its LANE notice. -/
def State.faults (s : State) (l : LaneId) (r : FaultRecord) : State :=
  { s.modLane l (fun n => { n with fault := r }) with link := s.link.post (.lane l (s.lane l).state (some r.cause)) }

/-- R54, R61, R66, R169: a descriptor is stored with the entry at its target, if that still matches; the descriptor of an
identity entry runs a full resolution in a resolved session. -/
def State.takesDescriptor (s : State) (p : Target) (d : Descriptor) (t : State) : Prop :=
  (s.target? p = none → t = s)
    ∧ ∀ e, s.target? p = some e →
      (e.identity = false ∨ s.resolver.phase ≠ .resolved → t = s.update e { e with descriptor := some d })
      ∧ (e.identity = true → s.resolver.phase = .resolved →
          (s.update e { e with descriptor := some d }).resolvedInto t)

/-- R55 to R57, R148: an entry comes back as `new`: the update, NODE(REJOINED), the end of an attention that it drops, and the
report to the Resolver. One that moves to another lane leaves the poll round of its old one (R85). -/
def State.comesBack (s : State) (e new : Entry) (t : State) : Prop :=
  s.keepsRest t ∧ t.mate = s.mate ∧ t.dir = (s.update e new).dir ∧ (∀ m, m ≠ e.lane → t.lane m = s.lane m)
    ∧ (if new.lane = e.lane then s.lane e.lane else (s.lane e.lane).offRound e.addr).sameButService (t.lane e.lane)
    ∧ (e.attention = .inService → new.attention = .idle →
        ∀ v r, (t.lane e.lane).attention.slots.get v = some r → r.handle ≠ e.handle)
    ∧ (s.noAccess e.lane → t.unit = s.unit ∧ s.statusTold (e.presence ≠ new.presence)
        ((Notice.node e.handle .rejoined
          :: if e.attention = .inService ∧ new.attention = .idle then [.attentionEnded e.handle .lost] else []).foldl
            Link.post s.link) t)

/-- R51: the naming step of lane `l` starts, with its reservation or hold, and requests ASSIGN. -/
def State.startsNaming (s : State) (l : LaneId) (t : Tag) (k : NamingKind) (h a : Nat) : State :=
  s.asks l (fun v => { v with naming := some { tag := t, kind := k, handle := h, addr := a, stage := .assign } }) (.assign t a)

/-- R80: the lowest address 1..30 at which a lane has no entry. -/
def State.lowestAddr (s : State) (l : LaneId) (a : Nat) : Prop :=
  1 ≤ a ∧ a ≤ 30 ∧ s.onLaneAt? l a = none ∧ ∀ b, 1 ≤ b → b < a → s.onLaneAt? l b ≠ none

/-- R79: the lowest handle 1..64 that no entry has and no naming step has reserved. -/
def State.lowestHandle (s : State) (h : Nat) : Prop :=
  1 ≤ h ∧ h ≤ 64 ∧ s.entry? h = none ∧ h ∉ s.reserved ∧ ∀ k, 1 ≤ k → k < h → s.entry? k ≠ none ∨ k ∈ s.reserved

/-- R135, R136, R137: what one hit slot of a ROLLCALL makes of the part: stray, ignored, discarded or newly PENDING. -/
def State.takesHit (s : State) (l : LaneId) (k : Nat) (t : State) : Prop :=
  (s.onLaneAt? l k = none → t = (s.faults l { cause := .strayAttention, addr := some k, tag := none }).modLane l
      (fun n => { n with attention := n.attention.addClear { addr := k, owner := none } }))
    ∧ ∀ e, s.onLaneAt? l k = some e →
      (e.attention ≠ .idle → t = s)
      ∧ (e.attention = .idle →
          e.presence = .lost ∨ e.override = .forcedAbsent ∨ e.masked = true ∨ e.binding.bind (·.level) = none
            ∨ (e.descriptor.map (·.attnCapable)).getD false = false →
          t = (s.update e { e with discarded := min 255 (e.discarded + 1) }).modLane e.lane (fun n =>
            { n with attention := n.attention.addClear { addr := e.addr, owner := some (e.handle, e.tag) } }))
      ∧ (e.attention = .idle → e.presence ≠ .lost → e.override ≠ .forcedAbsent → e.masked = false →
          e.binding.bind (·.level) ≠ none → (e.descriptor.map (·.attnCapable)).getD false = true →
          t = s.update e { e with attention := .pending })

/-- R98: the entry that a poll round pings next: the one at the lowest address of the round set above the poll position that
is AUTO and not LOST at the moment of the choice. -/
def State.pingIs (s : State) (l : LaneId) (e : Entry) : Prop :=
  s.onLaneAt? l e.addr = some e ∧ e.override = .auto ∧ e.presence ≠ .lost ∧ 1 ≤ e.addr ∧ e.addr ≤ 30
    ∧ e.addr ∈ (s.lane l).poller.roundSet ∧ (∀ p, (s.lane l).poller.position = some p → p < e.addr)
    ∧ ∀ b f, 1 ≤ b → b < e.addr → b ∈ (s.lane l).poller.roundSet → (∀ p, (s.lane l).poller.position = some p → p < b) →
        s.onLaneAt? l b = some f → f.override ≠ .auto ∨ f.presence = .lost

/-- R98, R99: after a PING the round goes on with the next entry, or ends and the poll gap timer starts. -/
def State.pollsOn (s : State) (l : LaneId) (t : State) : Prop :=
  (∀ e, s.pingIs l e → t = s.modLane l (fun n => { n with
      poller := { n.poller with position := some e.addr, ping := some e.target }
      arbiter := { n.arbiter with standing := { n.arbiter.standing with poll := some e.target } } }))
    ∧ ((∀ e, ¬ s.pingIs l e) → t = s.modLane l (fun n => { n with
        poller := { n.poller with phase := .gap, roundSet := [], ping := none }, pollGapTimer := some (s.now + n.pollGapMs) }))

/-- R65, R102: an answered recall PING brings an entry back that is still LOST, with NODE(REJOINED), and NODE(FAULT) when the
node-fault flag changes to yes; for any other nothing changes. -/
def State.takesRecall (s : State) (p : Target) (f : Bool) (t : State) : Prop :=
  s.keepsRest t ∧ t.mate = s.mate ∧ t.lanes = s.lanes ∧ t.unit = s.unit ∧ t.accessTimer = s.accessTimer
    ∧ (∀ e, s.target? p = some e → e.presence = .lost →
        t.dir = (s.update e { e with presence := .present, miss := 0, nodeFault := f }).dir
        ∧ s.statusTold True ((Notice.node e.handle .rejoined
            :: if e.nodeFault = false ∧ f = true then [.node e.handle .fault] else []).foldl Link.post s.link) t)
    ∧ ((∀ e, s.target? p = some e → e.presence ≠ .lost) → t = s)

/-- R33: the lane's Telegram Engine has ended its telegram and is free. -/
def State.engineFree (s : State) (l : LaneId) : State := s.modLane l (fun n => { n with engine := none })

/-- The Survey Engine of a lane without its current prefix (R45, R46, R49). -/
def State.prefixGone (s : State) (l : LaneId) : State :=
  s.modLane l (fun n => { n with survey := { n.survey with current := none } })

/-- The Survey Engine of a lane without its naming step (R51). -/
def State.namingGone (s : State) (l : LaneId) : State :=
  s.modLane l (fun n => { n with survey := { n.survey with naming := none } })

/-- R26, R71, R96, R130, R131, R152: a lane at the close of a session: OFF, without power and with all its work at rest; LATNn
reads not asserted without power (R16); a DISABLED lane stays as it is. -/
def Lane.closesTo (n m : Lane) : Prop :=
  (n.state = .disabled → m = n)
    ∧ (n.state ≠ .disabled → m = { n with
        state := .off, power := false, latn := false, duplicateSeen := false
        settleTimer := none, restartTimer := none, rescanTimer := none, pollGapTimer := none, rollcallGapTimer := none
        engine := none, arbiter := Arbiter.cold, survey := Survey.cold, poller := Poller.cold
        attention := Attention.cold, run := none })

/-- R87, R149: the entries of a lane that a lane loss makes LOST, in the order of the directory. -/
def State.losers (s : State) (l : LaneId) : List Entry := s.dir.entries.filter (fun e => decide (e.lane = l ∧ e.presence ≠ .lost))

/-- R149: the notices that a lane loss posts for the attentions it ends. -/
def State.lossNotices (s : State) (l : LaneId) : List Notice :=
  ((s.losers l).filter (fun e => decide (e.attention = .inService))).map (fun e => .attentionEnded e.handle .laneFault)

/-- R140, R145: the entry of a heed enters service at the heed's level, with the deadline that the timeout gives, and ATTENTION
is posted; the heed in flight is gone. -/
def State.entersService (s : State) (l : LaneId) (h : Heed) (e : Entry) (cause : Byte) (data : List Byte) : State :=
  { (s.update e { e with attention := .inService }).modLane l (fun n => { n with
      attention := { n.attention with
        heed := none
        lastServed := n.attention.lastServed.set h.level (some e.handle)
        slots := n.attention.slots.set h.level (some {
          handle := e.handle, deadline := if s.attnTimeout = 0 then none else some (s.now + 1000 * s.attnTimeout) }) } }) with
    link := s.link.post (.attention e.handle h.level cause data) }

/-- R141: the entry of a heed that finds no condition becomes IDLE; the heed in flight is gone. -/
def State.heedsNothing (s : State) (l : LaneId) (h : Heed) (e : Entry) : State :=
  (s.update e { e with attention := .idle }).modLane l (fun n => { n with
    attention := { n.attention with heed := none, lastServed := n.attention.lastServed.set h.level (some e.handle) } })

/-- The lane without its heed in flight. -/
def State.heedGone (s : State) (l : LaneId) : State :=
  s.modLane l (fun n => { n with attention := { n.attention with heed := none } })

/-- R140, R141: the entry of a heed still matches and is still PENDING. -/
def State.heeds (s : State) (h : Heed) (e : Entry) : Prop := s.target? h.target = some e ∧ e.attention = .pending

/-! ### Cold values (the reset tables) -/

/-- The reset tables of the chapters: the blocks at their cold values, but for the Link Unit and the Mate Monitor. -/
def State.blocksCold (s : State) : Prop :=
  s.unit = .free ∧ s.accessTimer = none ∧ (∀ l, s.lane l = Lane.cold) ∧ s.dir.entries = [] ∧ s.dir.generation = 0
    ∧ (∀ i : Fin 8, s.store.slots[i] = none) ∧ s.store.load = none ∧ s.resolver = Resolver.cold ∧ s.snap = none
    ∧ s.missLimit = 3 ∧ s.attnTimeout = 10

/-- R194: the Link Unit's queues, mask, flag and record after a cold or FULL reset. -/
def Link.isCold (k : Link) : Prop :=
  k.receiver = .hunting ∧ k.gapTimer = none ∧ k.requests = [] ∧ k.mask = NoticeMask.all ∧ k.noticesLost = false
    ∧ k.fault = .none ∧ k.reply = none

/-- R14: the plug after the senses have been read at a moment `now`: MATING with both timers if a sense is closed. -/
def Mate.sensesRead (m : Mate) (now : Nat) : Prop :=
  m.session = false ∧
    (m.lead = .opened ∧ m.seat = .opened → m.plug = .detached ∧ m.debounce = none ∧ m.partialTimer = none)
    ∧ (m.lead = .closed ∨ m.seat = .closed →
        m.plug = .mating ∧ m.debounce = some (now + 20) ∧ m.partialTimer = some (now + 500))

/-! ### Timeliness (the tolerance of the Timebase, section 1.2) -/

/-- A running timer may expire now: its deadline has come, and at most 1 ms has gone by since. -/
def dueAt (now : Nat) : Timer → Bool
  | some d => decide (d ≤ now) && decide (now ≤ d + 1)
  | none => false

/-- Whether a timer's expiry command comes when the manual says it comes. exec does not ask this: a command is the
event itself (log entry 3). -/
def Instr.timely (c : Instr) (s : State) : Bool :=
  match c with
  | .debounceExpiry => dueAt s.now s.mate.debounce
  | .partialExpiry => dueAt s.now s.mate.partialTimer
  | .gapTimerExpiry => dueAt s.now s.link.gapTimer
  | .accessTimerExpiry => dueAt s.now s.accessTimer
  | .settleTimerExpiry l => dueAt s.now (s.lane l).settleTimer
  | .restartTimerExpiry l => dueAt s.now (s.lane l).restartTimer
  | .rescanTimerExpiry l => dueAt s.now (s.lane l).rescanTimer
  | .pollGapTimerExpiry l => dueAt s.now (s.lane l).pollGapTimer
  | .rollcallGapTimerExpiry l => dueAt s.now (s.lane l).rollcallGapTimer
  | .attentionDeadlineExpiry l v => dueAt s.now (((s.lane l).attention.slots.get v).bind (·.deadline))
  | _ => true

end Sys2Proof.Machine
end

