-- ==== Sys2Proof/Certificates/Slice0/Obligations.lean ====
section
/-! DEFINITION. The statements for the provers. -/

open Sys2Proof Sys2Proof.Machine

/-! ### The step and the queue of commands -/

/-- A step takes the command at the front of the queue and runs it on the queue's rest. -/
def Obligations.StepRunsQueueHead : Prop :=
  ∀ (c : Instr) (s : State), step { s with pending := c :: s.pending } = exec c s

/-- The model's choice (log entry 3): on an empty queue the Timebase ticks once and nothing else changes. -/
def Obligations.EmptyQueueTicks : Prop :=
  ∀ s : State, s.pending = [] → step s = .next { s with now := s.now + 1 }

/-- No command stops the part: each answers a next state. A command that comes out of its turn (the row of a request that it
cannot take, the expiry of a timer that is stopped, an event of a telegram in another phase, a trip without power, and the others
of Instr.outOfTurn) leaves the state as it is: the model's choice (log entry 1). -/
def Obligations.EveryCommandAnswersNext : Prop :=
  ∀ (c : Instr) (s : State), (∃ t, exec c s = .next t) ∧ (Instr.outOfTurn c s → exec c s = .next s)

/-! ### Properties that every step keeps -/

/-- The properties that every step keeps hold after reset. -/
def Obligations.ResetMeetsInvariants : Prop :=
  State.reset.queuesFit ∧ State.reset.powerLaw ∧ State.reset.surveyOk ∧ State.reset.directoryOk
    ∧ State.reset.boundsOk ∧ State.reset.serviceOk ∧ State.reset.countsOk

/-- R186: the request queue holds at most 4 requests and the notice queue at most 16 notices. -/
def Obligations.StepKeepsQueueBounds : Prop :=
  ∀ s t : State, s.queuesFit → step s = .next t → t.queuesFit

/-- R8, R18: the power law is kept, and under it a lane's power is on only while the plug is ATTACHED and enabled, the
lane is enabled, and the lane is in SETTLING, ENUMERATING, SUPERVISING or RESCANNING. -/
def Obligations.StepKeepsPowerLaw : Prop :=
  ∀ s t : State, s.powerLaw → step s = .next t →
    t.powerLaw ∧ (t.mate.session = true ↔ t.mate.plug = .attached ∧ t.mate.enabled = true) ∧
      ∀ l, (t.lane l).power = true →
        t.mate.plug = .attached ∧ t.mate.enabled = true ∧ (t.lane l).enabled = true ∧
          ((t.lane l).state = .settling ∨ (t.lane l).state = .enumerating ∨ (t.lane l).state = .supervising ∨
            (t.lane l).state = .rescanning)

/-- R41, R42: the walk stays in order: no lane's survey stack holds more than 61 prefixes, and every prefix it holds is
at most 20 digits (40 bits) long. -/
def Obligations.StepKeepsSurveyBounds : Prop :=
  ∀ s t : State, s.surveyOk → step s = .next t →
    t.surveyOk ∧ ∀ l, (t.lane l).survey.stack.length ≤ 61 ∧ ∀ p ∈ (t.lane l).survey.stack, p.length ≤ 20

/-- R72, R79: distinct handles in 1..64, in ascending order, distinct tags, and at most 64 entries. R73, R80, R101: addresses in
1..30, distinct on each lane, at most 30 entries on a lane, and no miss count beyond the miss limit. R142: each record of an
in-service table is that of an entry IN_SERVICE on the lane, and each such entry has one; a LOST or isolated entry is IDLE. -/
def Obligations.StepKeepsDirectoryOrder : Prop :=
  (∀ s t : State, s.surveyOk → s.directoryOk → step s = .next t → t.directoryOk ∧ t.dir.entries.length ≤ 64)
  ∧ ∀ s t : State, s.surveyOk → s.powerLaw → s.directoryOk → s.boundsOk → s.serviceOk → step s = .next t →
      t.boundsOk ∧ t.serviceOk ∧ ∀ l, (t.onLane l).length ≤ 30

/-! ### Reset -/

/-- The values that the chapters give for a cold reset, after power-on. That RESTARTED(POWER) is on TXD already and that both
senses are open, so that the plug is DETACHED, are the model's choices (log entries 4 and 2). -/
def Obligations.ResetLeavesColdValues : Prop :=
  State.reset.blocksCold ∧ State.reset.link.isCold ∧ State.reset.link.notices = []
    ∧ State.reset.link.tx = some (.notice (.restarted .power))
    ∧ State.reset.mate.plug = .detached ∧ State.reset.mate.enabled = false ∧ State.reset.mate.session = false
    ∧ State.reset.mate.debounce = none ∧ State.reset.mate.partialTimer = none
    ∧ ∀ l, (State.reset.lane l).state = .off ∧ (State.reset.lane l).power = false ∧ (State.reset.lane l).enabled = true
        ∧ (State.reset.lane l).pollGapMs = 10 ∧ (State.reset.lane l).rescanSeconds = 5
        ∧ (State.reset.lane l).rotation = .fixed ∧ (State.reset.lane l).duplicateSeen = false
        ∧ (State.reset.lane l).fault = { cause := .none, addr := none, tag := none }
        ∧ (State.reset.lane l).settleTimer = none ∧ (State.reset.lane l).restartTimer = none
        ∧ (State.reset.lane l).rescanTimer = none ∧ (State.reset.lane l).pollGapTimer = none
        ∧ (State.reset.lane l).rollcallGapTimer = none ∧ (State.reset.lane l).survey.stack = []
        ∧ (State.reset.lane l).arbiter.passed = { attention := 0, access := 0, survey := 0, poll := 0 }

/-- R194, R196: RESET_N and power-on hold every block at its cold values; the cause is PIN for RESET_N, and for a power-on POWER,
or PIN while RESET_N is held low (that its level comes with the command is the model's choice, log entry 7). That the sense
levels, the tick count and the queue of commands are kept is the model's choice (log entry 22). -/
def Obligations.ColdResetHoldsPart : Prop :=
  ∀ (s : State) (resetLow : Bool), ∃ t u, exec .resetNAssert s = .next t ∧ exec (.powerOn resetLow) s = .next u
    ∧ t.blocksCold ∧ t.link.isCold ∧ t.link.notices = [] ∧ t.link.tx = none ∧ t.hold = some .pin
    ∧ t.mate.plug = .detached ∧ t.mate.enabled = false ∧ t.mate.session = false
    ∧ t.mate.debounce = none ∧ t.mate.partialTimer = none ∧ u.mate.debounce = none ∧ u.mate.partialTimer = none
    ∧ u.blocksCold ∧ u.link.isCold ∧ u.link.notices = [] ∧ u.link.tx = none
    ∧ u.mate.plug = .detached ∧ u.mate.enabled = false ∧ u.mate.session = false
    ∧ (resetLow = true → u.hold = some .pin) ∧ (resetLow = false → u.hold = some .power)
    ∧ t.mate.lead = s.mate.lead ∧ t.mate.seat = s.mate.seat ∧ u.mate.lead = s.mate.lead ∧ u.mate.seat = s.mate.seat
    ∧ t.now = s.now ∧ t.pending = s.pending ∧ u.now = s.now ∧ u.pending = s.pending

/-- R14, R182, R194: at reset release the RATE pins choose the rate, RESTARTED with its cause goes out first, and the
senses are read. That RESTARTED is on TXD in the step of the release and that the recorded sense levels are kept are the
model's choices (log entries 4 and 22). -/
def Obligations.ReleaseRestartsPart : Prop :=
  (rateOf false false = .b115200 ∧ rateOf false true = .b460800 ∧ rateOf true false = .b921600 ∧ rateOf true true = .b2000000)
    ∧ ∀ (s : State) (cause : RestartCause) (rate1 rate0 : Bool), s.hold = some cause →
      ∃ t, exec (.resetRelease rate1 rate0) s = .next t ∧ t.hold = none ∧ t.blocksCold ∧ t.link.isCold
        ∧ t.link.rate = rateOf rate1 rate0 ∧ t.link.tx = some (.notice (.restarted cause)) ∧ t.mate.enabled = false
        ∧ t.mate.lead = s.mate.lead ∧ t.mate.seat = s.mate.seat ∧ t.mate.sensesRead s.now
        ∧ (s.mate.lead = .opened ∧ s.mate.seat = .opened → t.link.notices = [])
        ∧ (s.mate.lead = .closed ∨ s.mate.seat = .closed → t.link.notices = [.plug .mating])

/-! ### The Link Unit -/

/-- R183, R184, R186: a whole frame with a good LEN is discarded with CHECK when its CRC-16 does not match, queued at
the tail when fewer than 4 requests stand, and discarded with OVERRUN otherwise; nothing else changes. -/
def Obligations.FramesAreJudged : Prop :=
  ∀ (s : State) (body : List Byte) (c1 c2 : Byte), s.hold = none → s.link.receiver = .hunting →
    2 ≤ body.length → body.length ≤ 250 →
      exec (.receiveFrame (0xE7 :: byteOf body.length :: (body ++ [c1, c2]))) s = .next { s with
        link :=
          if word16 c1 c2 ≠ crc16 (byteOf body.length :: body) then
            { s.link with receiver := .hunting, gapTimer := none, fault := .check }
          else if s.link.requests.length < 4 then
            { s.link with
              receiver := .hunting, gapTimer := none
              requests := s.link.requests ++ [{ kind := at' body 0, token := at' body 1, payload := body.drop 2 }] }
          else { s.link with receiver := .hunting, gapTimer := none, fault := .overrun } }

/-- R183, R184, R186, R194: the receiver byte by byte, the byte that ends a frame (judged as at the end of a RECEIVE_FRAME, log
entry 18), the gap timer's expiry, and deafness during a cold reset. -/
def Obligations.ReceiverTakesBytes : Prop :=
  ∀ (s : State) (b : Byte) (got : List Byte),
    (s.hold ≠ none → exec (.byteReceived b) s = .next s)
    ∧ (s.hold = none → s.link.receiver = .hunting → b ≠ 0xE7 → exec (.byteReceived b) s = .next s)
    ∧ (s.hold = none → s.link.receiver = .hunting → b = 0xE7 →
        exec (.byteReceived b) s = .next { s with link := { s.link with receiver := .inFrame [], gapTimer := some (s.now + 5) } })
    ∧ (s.hold = none → s.link.receiver = .inFrame [] → b.toNat < 2 ∨ 250 < b.toNat →
        exec (.byteReceived b) s
          = .next { s with link := { s.link with receiver := .hunting, gapTimer := none, fault := .length } })
    ∧ (s.hold = none → s.link.receiver = .inFrame [] → 2 ≤ b.toNat → b.toNat ≤ 250 →
        exec (.byteReceived b) s = .next { s with link := { s.link with receiver := .inFrame [b], gapTimer := some (s.now + 5) } })
    ∧ (s.hold = none → s.link.receiver = .inFrame got → got ≠ [] → 2 ≤ (at' got 0).toNat → (at' got 0).toNat ≤ 250 →
        got.length + 1 < (at' got 0).toNat + 3 →
        exec (.byteReceived b) s
          = .next { s with link := { s.link with receiver := .inFrame (got ++ [b]), gapTimer := some (s.now + 5) } })
    ∧ (∀ (body : List Byte) (c1 : Byte), s.hold = none → 2 ≤ body.length → body.length ≤ 250 →
        s.link.receiver = .inFrame (byteOf body.length :: (body ++ [c1])) →
        exec (.byteReceived b) s = .next { s with
          link :=
            if word16 c1 b ≠ crc16 (byteOf body.length :: body) then
              { s.link with receiver := .hunting, gapTimer := none, fault := .check }
            else if s.link.requests.length < 4 then
              { s.link with
                receiver := .hunting, gapTimer := none
                requests := s.link.requests ++ [{ kind := at' body 0, token := at' body 1, payload := body.drop 2 }] }
            else { s.link with receiver := .hunting, gapTimer := none, fault := .overrun } })
    ∧ (s.link.gapTimer ≠ none →
        exec .gapTimerExpiry s
          = .next { s with link := { s.link with receiver := .hunting, gapTimer := none, fault := .gap } })

/-- R187, R189: at a frame boundary the Link Unit sends the head notice while one recorded ahead of the reply remains
or no reply waits, and the reply otherwise; a reply that has been sent frees the Request Unit. -/
def Obligations.TransmitterChoosesNextFrame : Prop :=
  ∀ (s : State) (f : Outgoing) (rate1 rate0 : Bool), s.link.tx = some f →
    ((∃ n, f = .notice n) ∨ (∃ r, f = .reply r) ∧ s.unit = .replying none) →
      ∃ t, exec (.transmitFrameEnd rate1 rate0) s = .next t
        ∧ t = { s with unit := t.unit, link := t.link }
        ∧ ((∃ n, f = .notice n) → t.unit = s.unit) ∧ ((∃ r, f = .reply r) → t.unit = .free)
        ∧ (s.link.reply = none → s.link.notices = [] → t.link = { s.link with tx := none })
        ∧ (∀ n ns, s.link.reply = none → s.link.notices = n :: ns →
            t.link = { s.link with notices := ns, tx := some (.notice n) })
        ∧ (∀ w, s.link.reply = some w → s.link.notices = [] ∨ w.ahead = 0 →
            t.link = { s.link with reply := none, tx := some (.reply w.reply) })
        ∧ (∀ w n ns, s.link.reply = some w → s.link.notices = n :: ns → w.ahead ≠ 0 →
            t.link = { s.link with
              notices := ns, tx := some (.notice n), reply := some { w with ahead := w.ahead - 1 } })

/-- R15, R40, R178, R193: a SOFT reset takes effect when its reply has been sent: the session is closed, the fault
records are NONE, the snapshot and the load are gone, the senses are read; the request queue, mask, parameters and
manifests are kept. RESTARTED(SOFT) joins the tail of the notice queue, with PLUG(MATING) after it when a sense is closed and
the mask sends PLUG, or is dropped with NOTICES_LOST from a full queue, and the head notice goes out: that TXD chooses it as
RESTARTED(SOFT) is posted, before PLUG(MATING), and in the same step, are the model's choices (log entries 5 and 4). A session that
was open closes as R26, R71, R96, R130, R131 and R152 say for each lane and R94 and R95 for the directory, whose generation rises
by one if it held an entry. -/
def Obligations.SoftResetTakesEffect : Prop :=
  ∀ (s : State) (r : Reply) (rate1 rate0 : Bool), s.link.tx = some (.reply r) → s.unit = .replying (some .soft) →
    ∃ t, exec (.transmitFrameEnd rate1 rate0) s = .next t ∧ t.unit = .free
      ∧ t.mate.enabled = s.mate.enabled ∧ t.mate.lead = s.mate.lead ∧ t.mate.seat = s.mate.seat
      ∧ t.mate.sensesRead s.now ∧ t.snap = none ∧ t.store = { s.store with load := none }
      ∧ t.missLimit = s.missLimit ∧ t.attnTimeout = s.attnTimeout
      ∧ t.link.requests = s.link.requests ∧ t.link.mask = s.link.mask ∧ t.link.rate = s.link.rate
      ∧ t.link.receiver = s.link.receiver ∧ t.link.gapTimer = s.link.gapTimer ∧ t.link.fault = s.link.fault
      ∧ t.hold = s.hold ∧ t.now = s.now ∧ t.pending = s.pending
      ∧ (∀ l, (t.lane l).fault = { cause := .none, addr := none, tag := none } ∧ (s.lane l).keepsParameters (t.lane l))
      ∧ (s.mate.session = false → t.dir = s.dir ∧ t.resolver = s.resolver
          ∧ ∀ l, t.lane l = { s.lane l with fault := { cause := .none, addr := none, tag := none } })
      ∧ (s.mate.session = true → t.dir.entries = [] ∧ t.resolver = Resolver.cold
          ∧ t.dir.generation = s.dir.generation + (if s.dir.entries = [] then 0 else 1)
          ∧ ∀ l, ((s.lane l).state ≠ .disabled → (t.lane l).state = .off ∧ (t.lane l).power = false)
            ∧ (s.lane l).closesTo { t.lane l with fault := (s.lane l).fault })
      ∧ (s.link.notices = [] → s.link.reply = none → t.link.tx = some (.notice (.restarted .soft))
          ∧ t.link.noticesLost = s.link.noticesLost ∧ t.link.notices =
            if (s.mate.lead = .closed ∨ s.mate.seat = .closed) ∧ s.link.mask.plug = true then [.plug .mating] else [])
      ∧ (∀ n ns, s.link.notices = n :: ns → s.link.reply = none → t.link.tx = some (.notice n)
          ∧ (ns.length < 15 → t.link.noticesLost = s.link.noticesLost ∧ t.link.notices = ns ++ [.restarted .soft] ++
              if (s.mate.lead = .closed ∨ s.mate.seat = .closed) ∧ s.link.mask.plug = true then [.plug .mating] else [])
          ∧ (15 ≤ ns.length → t.link.noticesLost = true ∧ t.link.notices = ns))

/-- R14, R193, R194: a FULL reset takes effect when its reply has been sent, with the effects of a cold reset and
RESTARTED(FULL), and the senses are read, with PLUG(MATING) when one is closed. That RESTARTED is on TXD in the same step and
that the recorded sense levels are kept are the model's choices (log entries 4 and 22). -/
def Obligations.FullResetTakesEffect : Prop :=
  ∀ (s : State) (r : Reply) (rate1 rate0 : Bool), s.link.tx = some (.reply r) → s.unit = .replying (some .full) →
    ∃ t, exec (.transmitFrameEnd rate1 rate0) s = .next t ∧ t.blocksCold ∧ t.link.isCold ∧ t.hold = none
      ∧ t.link.rate = rateOf rate1 rate0 ∧ t.link.tx = some (.notice (.restarted .full)) ∧ t.mate.enabled = false
      ∧ t.mate.lead = s.mate.lead ∧ t.mate.seat = s.mate.seat ∧ t.mate.sensesRead s.now
      ∧ (s.mate.lead = .opened ∧ s.mate.seat = .opened → t.link.notices = [])
      ∧ (s.mate.lead = .closed ∨ s.mate.seat = .closed → t.link.notices = [.plug .mating])

/-- R183, R189, R190: a reply that is built stands with the number of notices ahead of it, or goes out at once; the Request
Unit holds its request until then; nothing else changes. A notice that is posted meets the mask, which never suppresses
RESTARTED; one that passes joins the tail of the queue while fewer than 16 stand, and is dropped with NOTICES_LOST otherwise.
That an idle TXD begins a frame at once is the model's choice (log entry 4). -/
def Obligations.ReplyIsBuilt : Prop :=
  (∀ (s : State) (q : Request) (st : Status) (p : List Byte),
    s.answer q st p = { s with unit := .replying none, link := (s.answer q st p).link }
    ∧ (s.answer q st p).link.currentReply = some { kind := q.kind + 0x80, token := q.token, status := st, payload := p }
    ∧ (∀ f, s.link.tx = some f → (s.answer q st p).link = { s.link with
        reply := some { reply := q.replyWith st p, ahead := s.link.notices.length } })
    ∧ (s.link.tx = none → s.link.notices = [] → (s.answer q st p).link = { s.link with
        reply := none, tx := some (.reply (q.replyWith st p)) }))
  ∧ (∀ (k : Link) (n : Notice),
      (k.mask.passes n = false → k.post n = k)
      ∧ (k.mask.passes n = true → 16 ≤ k.notices.length → k.post n = { k with noticesLost := true })
      ∧ (∀ f, k.mask.passes n = true → k.notices.length < 16 → k.tx = some f → k.post n = { k with notices := k.notices ++ [n] })
      ∧ (k.mask.passes n = true → k.tx = none → k.reply = none →
          (k.notices = [] → k.post n = { k with tx := some (.notice n) })
          ∧ ∀ x xs, k.notices = x :: xs → xs.length < 15 → k.post n = { k with notices := xs ++ [n], tx := some (.notice x) }))
  ∧ ∀ m : NoticeMask,
      (∀ c, m.passes (.restarted c) = true) ∧ (∀ p, m.passes (.plug p) = m.plug)
      ∧ (∀ st i sl c d, m.passes (.tool st i sl c d) = m.tool) ∧ (∀ h e, m.passes (.node h e) = m.node)
      ∧ (∀ h v c d, m.passes (.attention h v c d) = m.attention) ∧ (∀ h r, m.passes (.attentionEnded h r) = m.attentionEnded)
      ∧ ∀ l st c, m.passes (.lane l st c) = m.lane

/-! ### Requests of the link chapter -/

/-- R187, R188, R192: a KIND that is no request kind is answered UNKNOWN_KIND with KIND 0x80, the token and the kind received;
a payload of the wrong length is refused BAD_ARGUMENT, and so is a CONFIGURE with an unknown parameter code; neither changes
anything else. Of the rows that share a kind, the one whose code the payload carries takes it, and any of them where the
payload carries the code of none (log entry 6). That a bad mode of OVERRIDE is BAD_ARGUMENT also while no session is open is the
model's choice (log entry 29). -/
def Obligations.UnfitRequestsAreRefused : Prop :=
  ∀ (s : State) (q : Request) (rest : List Request), s.queued q rest →
    (q.kind ∉ requestKinds → exec .unknownKind s = .next ((s.took rest).replyThen
      { kind := 0x80, token := q.token, status := .unknownKind, payload := [q.kind] } none))
    ∧ (∀ (c : Instr) (k : Byte), q.kind = k → lengthAllowed k q.payload = false →
      (c, k) ∈ [(Instr.status, 0x01), (.ident, 0x02), (.plugEnable, 0x08), (.plugDisable, 0x09), (.faults, 0x10),
        (.rescan, 0x11), (.laneRestart, 0x12), (.lookup, 0x18), (.find, 0x19), (.purge, 0x1A), (.readObjects, 0x20),
        (.writeObject, 0x21), (.attnDone, 0x24), (.attnMask, 0x25), (.manifestBegin, 0x28), (.manifestEntry, 0x29),
        (.manifestEnd, 0x2A), (.manifestErase, 0x2B), (.manifestRead, 0x2C), (.resolve, 0x2D), (.snapshot, 0x30),
        (.snapshotPage, 0x31), (.snapshotRelease, (0x32 : Byte))] →
      exec c s = .next ((s.took rest).refuse q .badArgument))
    ∧ (∀ (c : Instr) (k : Byte), q.kind = 0x03 →
      (c, k) ∈ [(Instr.configureLaneEnableMask, 1), (.configureMissLimit, 2), (.configurePollGap, 3),
        (.configureRescanInterval, 4), (.configureAttentionTimeout, 5), (.configureRotation, 6), (.configureNoticeMask, (7 : Byte))] →
      (q.payload.head? = some k ∧ q.payload.length ≠ 4) ∨ (∀ x, q.payload.head? = some x → x = 0 ∨ 7 < x.toNat) →
      exec c s = .next ((s.took rest).refuse q .badArgument))
    ∧ (∀ (c : Instr) (k : Byte), q.kind = 0x04 → (c, k) ∈ [(Instr.resetSoft, 1), (.resetFull, (2 : Byte))] →
      (q.payload.head? = some k ∧ q.payload.length ≠ 1) ∨ (∀ x, q.payload.head? = some x → x ≠ 1 ∧ x ≠ 2) →
      exec c s = .next ((s.took rest).refuse q .badArgument))
    ∧ (∀ (c : Instr) (k : Byte), q.kind = 0x1B →
      (c, k) ∈ [(Instr.overrideAuto, 0), (.overrideForcedPresent, 1), (.overrideForcedAbsent, (2 : Byte))] →
      (q.payload[1]? = some k ∧ q.payload.length ≠ 2) ∨ (∀ x, q.payload[1]? = some x → 2 < x.toNat) →
      exec c s = .next ((s.took rest).refuse q .badArgument))

/-- R191: STATUS reports the 20 bytes of section 10.14; with the clear flag NOTICES_LOST and the link fault record are
cleared; any other flag value is refused. The tool ID bytes of an absent session tool ID are a free value that the reply draws
(log entry 9). -/
def Obligations.StatusReports : Prop :=
  ∀ (s : State) (q : Request) (rest : List Request) (c : Byte), s.queued q rest → q.kind = 0x01 → q.payload = [c] →
    (c = 0 ∨ c = 1 → exec .status s = .next (State.ok
      { s.took rest with
        draws := s.draws + 1
        link := if c = 1 then { s.link with requests := rest, noticesLost := false, fault := .none }
          else { s.link with requests := rest } } q
      ([s.mate.plug.code, yesNo s.mate.enabled, s.resolver.status.code,
        (match s.resolver.applied with
          | some i => byteOf i.val
          | none => 0xFF),
        yesNo s.resolver.toolId.isSome]
        ++ be16 (s.resolver.toolId.getD (Config.absentToolId s.draws))
        ++ [(s.lane 0).state.code, (s.lane 1).state.code, (s.lane 2).state.code, (s.lane 3).state.code,
            byteOf s.dir.entries.length]
        ++ be16 s.dir.generation
        ++ [byteOf s.resolver.counts.bound, byteOf s.resolver.counts.requiredMissing,
            byteOf s.resolver.counts.optionalMissing, byteOf s.resolver.counts.extras,
            flagsByte [s.snap.isSome, allLanes.any (fun l => (s.lane l).fault.flagged),
              s.dir.entries.any (·.attending), s.link.noticesLost],
            s.link.fault.code])))
    ∧ (c ≠ 0 → c ≠ 1 → exec .status s = .next ((s.took rest).refuse q .badArgument))

/-- R195: IDENT reports the part and its capacities in every state, and changes nothing. -/
def Obligations.IdentReportsPart : Prop :=
  ∀ (s : State) (q : Request) (rest : List Request), s.queued q rest → q.kind = 0x02 →
    (q.payload = [] → exec .ident s = .next ((s.took rest).ok q ([0x51] ++ be16 0x0340 ++ [0x02, 4, 64, 8, 24])))
    ∧ (q.payload ≠ [] → exec .ident s = .next ((s.took rest).refuse q .badArgument))

/-- R17, R106, R192: the lane-enable mask and the miss limit are stored while the plug is disabled and refused NOT_NOW
while it is enabled (even where the value is the one held, the model's choice, log entry 14); a wrong selector or value is
refused BAD_ARGUMENT; a changed mask place moves its lane between OFF and DISABLED. -/
def Obligations.ConfigureNeedsDisabledPlug : Prop :=
  ∀ (s : State) (q : Request) (rest : List Request) (sel hi lo : Byte), s.queued q rest → q.kind = 0x03 →
    (q.payload = [1, sel, hi, lo] →
      (sel = 0 → (word16 hi lo).toNat ≤ 15 → s.mate.enabled = false →
        (∃ t : State, exec .configureLaneEnableMask s = .next (t.ok q q.payload)
          ∧ t = { s.took rest with lanes := t.lanes }
          ∧ ∀ l, ((s.lane l).enabled = (word16 hi lo).toNat.testBit l.val → t.lane l = s.lane l)
            ∧ ((s.lane l).enabled ≠ (word16 hi lo).toNat.testBit l.val →
                (t.lane l).enabled = (word16 hi lo).toNat.testBit l.val
                ∧ ((s.lane l).enabled = true → (s.lane l).state = .off → (t.lane l).state = .disabled)
                ∧ ((s.lane l).enabled = false → (s.lane l).state = .disabled → (t.lane l).state = .off)
                ∧ t.lane l = { s.lane l with enabled := (t.lane l).enabled, state := (t.lane l).state })))
      ∧ (sel = 0 → (word16 hi lo).toNat ≤ 15 → s.mate.enabled = true →
          exec .configureLaneEnableMask s = .next ((s.took rest).refuse q .notNow))
      ∧ (sel ≠ 0 ∨ 15 < (word16 hi lo).toNat →
          exec .configureLaneEnableMask s = .next ((s.took rest).refuse q .badArgument)))
    ∧ (q.payload = [2, sel, hi, lo] →
      (sel = 0 → 1 ≤ (word16 hi lo).toNat → (word16 hi lo).toNat ≤ 15 → s.mate.enabled = false →
        exec .configureMissLimit s = .next (State.ok { s.took rest with missLimit := (word16 hi lo).toNat } q q.payload))
      ∧ (sel = 0 → 1 ≤ (word16 hi lo).toNat → (word16 hi lo).toNat ≤ 15 → s.mate.enabled = true →
          exec .configureMissLimit s = .next ((s.took rest).refuse q .notNow))
      ∧ (sel ≠ 0 ∨ (word16 hi lo).toNat = 0 ∨ 15 < (word16 hi lo).toNat →
          exec .configureMissLimit s = .next ((s.took rest).refuse q .badArgument)))

/-- R63, R99, R134, R151, R192: the poll gap, the rescan interval and the rotation of a lane are stored at any time;
running gap timers keep their deadlines; in SUPERVISING the rescan timer restarts from now, or stops at 0; a selector
above 3 or a value out of range is refused BAD_ARGUMENT. -/
def Obligations.ConfigureStoresLaneParameter : Prop :=
  ∀ (s : State) (q : Request) (rest : List Request) (l : LaneId) (sel hi lo : Byte), s.queued q rest → q.kind = 0x03 →
    (q.payload = [3, byteOf l.val, hi, lo] → 1 ≤ (word16 hi lo).toNat → (word16 hi lo).toNat ≤ 255 →
      exec .configurePollGap s = .next
        (((s.took rest).setLane l { s.lane l with pollGapMs := (word16 hi lo).toNat }).ok q q.payload))
    ∧ (q.payload = [3, sel, hi, lo] → 3 < sel.toNat ∨ (word16 hi lo).toNat = 0 ∨ 255 < (word16 hi lo).toNat →
        exec .configurePollGap s = .next ((s.took rest).refuse q .badArgument))
    ∧ (q.payload = [4, byteOf l.val, hi, lo] → (word16 hi lo).toNat ≤ 255 →
        exec .configureRescanInterval s = .next
          (((s.took rest).setLane l { s.lane l with
              rescanSeconds := (word16 hi lo).toNat
              rescanTimer :=
                if (s.lane l).state = .supervising then
                  (if (word16 hi lo).toNat = 0 then none else some (s.now + 1000 * (word16 hi lo).toNat))
                else (s.lane l).rescanTimer }).ok q q.payload))
    ∧ (q.payload = [4, sel, hi, lo] → 3 < sel.toNat ∨ 255 < (word16 hi lo).toNat →
        exec .configureRescanInterval s = .next ((s.took rest).refuse q .badArgument))
    ∧ (q.payload = [6, byteOf l.val, hi, lo] → (word16 hi lo).toNat = 0 ∨ (word16 hi lo).toNat = 1 →
        exec .configureRotation s = .next
          (((s.took rest).setLane l { s.lane l with
              rotation := if (word16 hi lo).toNat = 0 then .fixed else .rotating }).ok q q.payload))
    ∧ (q.payload = [6, sel, hi, lo] → 3 < sel.toNat ∨ 1 < (word16 hi lo).toNat →
        exec .configureRotation s = .next ((s.took rest).refuse q .badArgument))

/-- R145, R190, R192: the attention timeout is stored at any time and changes no deadline; the notice mask takes 0
(suppressed) or 1 (sent) for the notice code in the selector. -/
def Obligations.ConfigureTimeoutAndNoticeMask : Prop :=
  ∀ (s : State) (q : Request) (rest : List Request) (sel hi lo : Byte), s.queued q rest → q.kind = 0x03 →
    (q.payload = [5, sel, hi, lo] →
      (sel = 0 → (word16 hi lo).toNat ≤ 255 →
        exec .configureAttentionTimeout s
          = .next (State.ok { s.took rest with attnTimeout := (word16 hi lo).toNat } q q.payload))
      ∧ (sel ≠ 0 ∨ 255 < (word16 hi lo).toNat →
          exec .configureAttentionTimeout s = .next ((s.took rest).refuse q .badArgument)))
    ∧ (q.payload = [7, sel, hi, lo] →
      ((word16 hi lo).toNat ≤ 1 → 0xC1 ≤ sel.toNat → sel.toNat ≤ 0xC6 →
        ∃ m, exec .configureNoticeMask s
            = .next (State.ok { s.took rest with link := { s.link with requests := rest, mask := m } } q q.payload)
          ∧ m.plug = (if sel = 0xC1 then decide ((word16 hi lo).toNat = 1) else s.link.mask.plug)
          ∧ m.tool = (if sel = 0xC2 then decide ((word16 hi lo).toNat = 1) else s.link.mask.tool)
          ∧ m.node = (if sel = 0xC3 then decide ((word16 hi lo).toNat = 1) else s.link.mask.node)
          ∧ m.attention = (if sel = 0xC4 then decide ((word16 hi lo).toNat = 1) else s.link.mask.attention)
          ∧ m.attentionEnded = (if sel = 0xC5 then decide ((word16 hi lo).toNat = 1) else s.link.mask.attentionEnded)
          ∧ m.lane = (if sel = 0xC6 then decide ((word16 hi lo).toNat = 1) else s.link.mask.lane))
      ∧ (1 < (word16 hi lo).toNat ∨ sel.toNat < 0xC1 ∨ 0xC6 < sel.toNat →
          exec .configureNoticeMask s = .next ((s.took rest).refuse q .badArgument)))

/-- R193: RESET is answered OK with its kind and takes effect after the reply; another kind is refused, by either row (the
model's choice, log entry 6). -/
def Obligations.ResetIsAnsweredFirst : Prop :=
  ∀ (s : State) (q : Request) (rest : List Request) (k : Byte), s.queued q rest → q.kind = 0x04 → q.payload = [k] →
    (k = 1 → exec .resetSoft s = .next ((s.took rest).replyThen (q.replyWith .ok [1]) (some .soft)))
    ∧ (k = 2 → exec .resetFull s = .next ((s.took rest).replyThen (q.replyWith .ok [2]) (some .full)))
    ∧ (k ≠ 1 → k ≠ 2 → exec .resetSoft s = .next ((s.took rest).refuse q .badArgument)
        ∧ exec .resetFull s = .next ((s.took rest).refuse q .badArgument))

/-! ### The lanes -/

/-- R37, R38: FAULTS replies with the record as it stands and, with the clear flag, empties it without a notice. That
a flag above 1 is refused is the model's reading of R197 (log entry 24). -/
def Obligations.FaultsReadsAndClears : Prop :=
  ∀ (s : State) (q : Request) (rest : List Request) (l : LaneId) (n c : Byte), s.queued q rest → q.kind = 0x10 →
    (q.payload = [byteOf l.val, c] → c = 0 ∨ c = 1 →
      exec .faults s = .next ((if c = 1 then
            (s.took rest).setLane l { s.lane l with fault := { cause := .none, addr := none, tag := none } }
          else s.took rest).ok q
        ([byteOf l.val, byteOf (s.lane l).fault.cause.code,
          (match (s.lane l).fault.addr with
            | some a => byteOf a
            | none => 0xFF),
          yesNo (s.lane l).fault.tag.isSome] ++ be40 ((s.lane l).fault.tag.getD 0))))
    ∧ (q.payload = [n, c] → 3 < n.toNat ∨ 1 < c.toNat → exec .faults s = .next ((s.took rest).refuse q .badArgument))

/-- R62, R64, R65, R68: RESCAN and the rescan timer's expiry take a SUPERVISING lane to RESCANNING with a rescan pass, which asks
for its first recall PING, or, with no entry to recall, goes on to its DESCRIBE step and its walk; a RESCANNING lane goes on; every
other state is answered NOT_NOW, and a lane above 3 BAD_ARGUMENT. -/
def Obligations.RescanStartsPass : Prop :=
  (∀ (s : State) (q : Request) (rest : List Request) (l : LaneId) (n : Byte), s.queued q rest → q.kind = 0x11 →
    (q.payload = [byteOf l.val] → (s.lane l).state = .supervising →
      ∃ t, exec .rescan s = .next t ∧ t.unit = .replying none
        ∧ t.link.currentReply = some (q.replyWith .ok [byteOf l.val, 5])
        ∧ (t.lane l).state = .rescanning ∧ (t.lane l).rescanTimer = none ∧ (t.lane l).survey.pass = some .rescan
        ∧ (s.lane l).keepsStanding (t.lane l) ∧ (s.took rest).keepsRest t
        ∧ t.dir = s.dir ∧ t.mate = s.mate ∧ t.resolver = s.resolver ∧ (∀ m, m ≠ l → t.lane m = s.lane m)
        ∧ ∃ u : State, (s.took rest).rescans l u ∧ t = u.ok q [byteOf l.val, 5])
    ∧ (q.payload = [byteOf l.val] → (s.lane l).state = .rescanning →
        exec .rescan s = .next ((s.took rest).ok q [byteOf l.val, 5]))
    ∧ (q.payload = [byteOf l.val] → (s.lane l).state ≠ .supervising → (s.lane l).state ≠ .rescanning →
        exec .rescan s = .next ((s.took rest).refuse q .notNow))
    ∧ (q.payload = [n] → 3 < n.toNat → exec .rescan s = .next ((s.took rest).refuse q .badArgument)))
  ∧ (∀ (s : State) (l : LaneId) (d : Nat), (s.lane l).rescanTimer = some d →
      ∃ t, exec (.rescanTimerExpiry l) s = .next t
        ∧ (t.lane l).state = .rescanning ∧ (t.lane l).rescanTimer = none ∧ (t.lane l).survey.pass = some .rescan
        ∧ (s.lane l).keepsStanding (t.lane l) ∧ s.keepsRest t
        ∧ t.dir = s.dir ∧ t.mate = s.mate ∧ t.resolver = s.resolver ∧ (∀ m, m ≠ l → t.lane m = s.lane m) ∧ s.rescans l t)

/-- R25, R69, R84, R87, R149, R168, R171: LANE_RESTART puts the lane in its restart hold with power off and its work ended, makes
its entries LOST, keeps record and parameters, and replies OK with SETTLING; before the reply it posts LANE(SETTLING), then
ATTENTION_ENDED(LANE_FAULT) for each attention it ends, then the TOOL notices, one for each change of the status, the last with the
status and the counts after the whole event (that they stand after all of those is the model's reading, log entry 16); the
generation counts the entries lost, and the status is computed. OFF and DISABLED are answered NOT_NOW. -/
def Obligations.LaneRestartHoldsLane : Prop :=
  ∀ (s : State) (q : Request) (rest : List Request) (l : LaneId) (n : Byte), s.queued q rest → q.kind = 0x12 →
    (q.payload = [byteOf l.val] → (s.lane l).state ≠ .off → (s.lane l).state ≠ .disabled →
      ∃ t, exec .laneRestart s = .next t ∧ t.unit = .replying none
        ∧ t.link.currentReply = some (q.replyWith .ok [byteOf l.val, 2])
        ∧ (t.lane l).state = .settling ∧ (t.lane l).power = false ∧ (t.lane l).duplicateSeen = false
        ∧ (t.lane l).restartTimer = some (s.now + 100) ∧ (t.lane l).settleTimer = none ∧ (t.lane l).rescanTimer = none
        ∧ (t.lane l).pollGapTimer = none ∧ (t.lane l).rollcallGapTimer = none ∧ (t.lane l).engine = none
        ∧ (t.lane l).survey = Survey.cold ∧ (t.lane l).arbiter = Arbiter.cold ∧ (t.lane l).poller = Poller.cold
        ∧ (t.lane l).attention = Attention.cold ∧ (t.lane l).run = none ∧ (t.lane l).latn = false
        ∧ (t.lane l).fault = (s.lane l).fault ∧ (s.lane l).keepsParameters (t.lane l)
        ∧ (∀ m, m ≠ l → t.lane m = s.lane m)
        ∧ (∀ e ∈ t.dir.entries, e.lane = l → e.presence = .lost)
        ∧ (s.directoryOk → ∀ e ∈ s.dir.entries, e.lane ≠ l ∨ e.presence = .lost → e ∈ t.dir.entries)
        ∧ (s.directoryOk → ∀ e ∈ s.dir.entries, e.lane = l → e.presence ≠ .lost →
            { e with presence := .lost, miss := s.missLimit, attention := .idle } ∈ t.dir.entries)
        ∧ t.mate = s.mate ∧ (s.took rest).keepsRest t
        ∧ t.dir.generation = s.dir.generation + BitVec.ofNat 16 (s.losers l).length ∧ s.resolver.sameChoice t.resolver
        ∧ (s.resolver.phase = .resolved → s.statusHolds → t.statusHolds) ∧ (s.resolver.phase ≠ .resolved → t.resolver = s.resolver)
        ∧ ∃ tools : List Notice, toolsTell s.resolver t.resolver tools
          ∧ t.link = ((Notice.lane l .settling none :: (s.lossNotices l ++ tools)).foldl Link.post
              { s.link with requests := rest }).send (q.replyWith .ok [byteOf l.val, 2]))
    ∧ (q.payload = [byteOf l.val] → (s.lane l).state = .off ∨ (s.lane l).state = .disabled →
        exec .laneRestart s = .next ((s.took rest).refuse q .notNow))
    ∧ (q.payload = [n] → 3 < n.toNat → exec .laneRestart s = .next ((s.took rest).refuse q .badArgument))

/-- R19, R20, R84, R87, R128, R149, R162, R168: a trip takes the lane to FAULTED with power off, OVERCURRENT recorded, its work
ended and its entries LOST, and answers LANE_FAULT to an access that waits on the lane; without power no trip happens (log entry
3: the command then leaves the state as it is). Where no access waits on the lane, it posts LANE(FAULTED, OVERCURRENT), then
ATTENTION_ENDED(LANE_FAULT) for each attention it ends, then the TOOL notices, one for each change of the status, the last with the
status and the counts after the whole event (that they stand after all of those is the model's reading, log entry 16); the
generation counts the entries lost. The lane then reports that it has finished, which can run the initial resolution: after the
losses, the model's choice (log entry 28). The lane's Attention Service is cold after the trip, where no LOST entry of the lane had
an attention (R84), and LATNn reads not asserted. -/
def Obligations.TripFaultsLane : Prop :=
  ∀ (s : State) (l : LaneId),
    ((s.lane l).power = false → exec (.overcurrentTrip l) s = .next s)
    ∧ ((s.lane l).power = true →
      ∃ t, exec (.overcurrentTrip l) s = .next t
        ∧ (t.lane l).state = .faulted ∧ (t.lane l).power = false
        ∧ (t.lane l).fault = { cause := .overcurrent, addr := none, tag := none }
        ∧ (t.lane l).settleTimer = none ∧ (t.lane l).rescanTimer = none ∧ (t.lane l).pollGapTimer = none
        ∧ (t.lane l).rollcallGapTimer = none ∧ (t.lane l).engine = none ∧ (t.lane l).run = none
        ∧ (t.lane l).survey = Survey.cold ∧ (t.lane l).poller = Poller.cold ∧ (t.lane l).arbiter = Arbiter.cold
        ∧ (t.lane l).duplicateSeen = (s.lane l).duplicateSeen ∧ t.resolver.finished.get l = true
        ∧ (t.lane l).latn = false ∧ (t.lane l).attention = { Attention.cold with clearList := (t.lane l).attention.clearList }
        ∧ ((∀ e ∈ s.dir.entries, e.lane = l → e.presence = .lost → e.attention = .idle) → (t.lane l).attention = Attention.cold)
        ∧ (s.lane l).keepsParameters (t.lane l)
        ∧ (∀ e ∈ t.dir.entries, e.lane = l → e.presence = .lost)
        ∧ (∀ m, m ≠ l → (t.lane m).state = (s.lane m).state ∧ (s.lane m).keepsStanding (t.lane m))
        ∧ t.mate = s.mate ∧ s.keepsRest t
        ∧ ∀ kind token r, s.unit = .accessWait kind token l → (s.lane l).run = some r →
            t.unit = .replying none ∧ t.accessTimer = none
            ∧ t.link.currentReply = some { kind := kind + 0x80, token := token, status := .laneFault, payload := r.payload })
    ∧ ((s.lane l).power = true → s.noAccess l →
      ∃ t, exec (.overcurrentTrip l) s = .next t ∧ ∃ u : State, u.marksFinished l t ∧ u.unit = s.unit
        ∧ u.dir.generation = s.dir.generation + BitVec.ofNat 16 (s.losers l).length ∧ s.resolver.sameChoice u.resolver
        ∧ (s.resolver.phase = .resolved → s.statusHolds → u.statusHolds) ∧ (s.resolver.phase ≠ .resolved → u.resolver = s.resolver)
        ∧ ∃ tools : List Notice, toolsTell s.resolver u.resolver tools
          ∧ u.link = (Notice.lane l .faulted (some .overcurrent) :: (s.lossNotices l ++ tools)).foldl Link.post s.link)

/-- R23, R25, R44: the settle expiry takes the lane to ENUMERATING with an initial pass whose FORGET is sent at once;
the restart expiry turns power on and starts the settle timer. -/
def Obligations.LaneTimersExpire : Prop :=
  ∀ (s : State) (l : LaneId) (d : Nat),
    ((s.lane l).settleTimer = some d → (s.lane l).arbiter = Arbiter.cold →
      exec (.settleTimerExpiry l) s = .next (s.setLane l { s.lane l with
        settleTimer := none, state := .enumerating
        survey := { pass := some .initial, step := some .forget, stack := [], current := none, naming := none, position := none }
        engine := some { telegram := .forget, attempt := 1, phase := .sending }
        arbiter := { Arbiter.cold with grant := some (.survey .forget) } }))
    ∧ ((s.lane l).restartTimer = some d →
        exec (.restartTimerExpiry l) s = .next (s.setLane l { s.lane l with
          state := .settling, power := true, restartTimer := none, settleTimer := some (s.now + 50) }))

/-! ### The Telegram Engine -/

/-- R32, R34, R35: the phases of an attempt: the telegram's end, the answer timeout, carrier, the answer's end, the 1 ms
limit and the end of the rollcall slots; only the lane's engine changes. -/
def Obligations.EnginePhasesFollow : Prop :=
  ∀ (s : State) (l : LaneId) (u : Underway) (contention : Bool) (bytes : List Byte) (hits : BitVec 30),
    (s.lane l).engine = some u →
    (u.phase = .sending →
      exec (.telegramSent l) s = .next (s.setLane l { s.lane l with engine := some { u with
        phase := if u.telegram = .forget then .quiet .sent else if u.telegram = .rollcall then .slots else .window } }))
    ∧ (u.phase = .window → (u.telegram.directed = true → exec (.answerTimeout l) s = .next
          (s.setLane l { s.lane l with engine := some { u with phase := .quiet .noAnswer } }))
        ∧ (∀ p, u.telegram = .survey p → exec (.answerTimeout l) s = .next
            (s.setLane l { s.lane l with engine := some { u with phase := .quiet .silent } }))
        ∧ exec (.carrierBegins l) s = .next (s.setLane l { s.lane l with engine := some { u with phase := .receiving } }))
    ∧ (u.phase = .receiving →
        exec (.answerEnd l contention bytes) s = .next (s.setLane l { s.lane l with
          engine := some { u with phase := .quiet (judgeAnswer u.telegram contention bytes) } })
        ∧ (u.telegram.directed = true → exec (.carrierLimitExpiry l) s = .next
            (s.setLane l { s.lane l with engine := some { u with phase := .quiet .invalid } }))
        ∧ (∀ p, u.telegram = .survey p → exec (.carrierLimitExpiry l) s = .next
            (s.setLane l { s.lane l with engine := some { u with phase := .quiet .collided } })))
    ∧ (u.phase = .slots → exec (.rollcallSlotsEnd l hits) s = .next
        (s.setLane l { s.lane l with engine := some { u with phase := .quiet (.hits hits) } }))

/-- R32, R34, R198: an answer to a directed telegram is valid exactly when no contention was sensed, its CRC-8 matches and its
form fits the telegram (an ACK of ASSIGN carries the address; a descriptor has 1..255 objects, a label of 0..12 characters and
a tool ID exactly for class 0x01); REFUSED is taken only for READ and WRITE; every other answer is invalid. A SURVEY is CLEAN
exactly when one clean TAG answer carries a tag that begins with the prefix, and COLLIDED otherwise. Which values the flags
byte and the status byte may have is log entry 12. -/
def Obligations.AnswersAreJudged : Prop :=
  ∀ (t : Telegram) (bytes : List Byte),
    (t.directed = true → judgeAnswer t true bytes = .invalid)
    ∧ (t.directed = true → answerCheck bytes = false → judgeAnswer t false bytes = .invalid)
    ∧ (∀ p, t = .survey p → judgeAnswer t true bytes = .collided)
    ∧ (∀ p, t = .survey p → answerCheck bytes = false → judgeAnswer t false bytes = .collided)
    ∧ (∀ p (tag : Tag), judgeAnswer (.survey p) false (0x63 :: (be40 tag ++ [crc8 (0x63 :: be40 tag)]))
        = if tagBegins p tag then .clean tag else .collided)
    ∧ (∀ a o (v : Word32), judgeAnswer (.read a o) false (0x66 :: (be32 v ++ [crc8 (0x66 :: be32 v)])) = .valid (.value v))
    ∧ (∀ a, judgeAnswer (.ping a) false [0x65, 1, crc8 [0x65, 1]] = .valid (.status true)
        ∧ judgeAnswer (.ping a) false [0x65, 0, crc8 [0x65, 0]] = .valid (.status false))
    ∧ (∀ tag a, judgeAnswer (.assign tag a) false [0x61, byteOf a, crc8 [0x61, byteOf a]] = .valid .ack)
    ∧ (∀ a o v, judgeAnswer (.write a o v) false [0x61, crc8 [0x61]] = .valid .ack)
    ∧ (∀ a, judgeAnswer (.clear a) false [0x61, crc8 [0x61]] = .valid .ack)
    ∧ (∀ a code (d : List Byte), d.length ≤ 4 →
        judgeAnswer (.heed a) false (0x67 :: (code :: byteOf d.length :: d ++ [crc8 (0x67 :: code :: byteOf d.length :: d)]))
          = .valid (.cause code d))
    ∧ (∀ a o v, judgeAnswer (.read a o) false [0x62, crc8 [0x62]] = .refused
        ∧ judgeAnswer (.write a o v) false [0x62, crc8 [0x62]] = .refused)
    ∧ (∀ a, judgeAnswer (.ping a) false [0x62, crc8 [0x62]] = .invalid)
    ∧ (∀ contention, t.directed = true →
        (∀ x, judgeAnswer t contention bytes = .valid x
          ↔ contention = false ∧ ∃ body, t.answerForm x body ∧ bytes = body ++ [crc8 body])
        ∧ (judgeAnswer t contention bytes = .refused ↔ contention = false ∧ t.refusable ∧ bytes = [0x62, crc8 [0x62]])
        ∧ ((∃ x, judgeAnswer t contention bytes = .valid x) ∨ judgeAnswer t contention bytes = .refused
          ∨ judgeAnswer t contention bytes = .invalid))
    ∧ (∀ tag a b, b ≠ byteOf a → judgeAnswer (.assign tag a) false [0x61, b, crc8 [0x61, b]] = .invalid)
    ∧ (∀ p contention, t = .survey p →
        (∀ tag, judgeAnswer t contention bytes = .clean tag
          ↔ contention = false ∧ tagBegins p tag = true ∧ bytes = 0x63 :: (be40 tag ++ [crc8 (0x63 :: be40 tag)]))
        ∧ ((∃ tag, judgeAnswer t contention bytes = .clean tag) ∨ judgeAnswer t contention bytes = .collided))

/-- R33: a directed telegram without a valid answer is sent again after attempts 1 and 2, whichever way the wait for
quiet ends; only the lane's engine changes. -/
def Obligations.UnansweredTelegramIsRetried : Prop :=
  ∀ (s : State) (l : LaneId) (u : Underway) (r : AttemptResult) (c : Instr), c = .quietWaitEnd l ∨ c = .quietWaitLimitExpiry l →
    (s.lane l).engine = some u → u.phase = .quiet r → u.telegram.directed = true → r = .noAnswer ∨ r = .invalid →
    u.attempt < 3 →
      exec c s = .next (s.setLane l { s.lane l with
        engine := some { telegram := u.telegram, attempt := u.attempt + 1, phase := .sending } })

/-! ### Survey and naming -/

/-- R24, R43 to R48, R67: in a walk, a COLLIDED prefix shorter than 40 bits is replaced by its four children, the first of
them surveyed next; a SILENT one is dropped and the top of the stack surveyed next, or, on an empty stack, the pass ends: a
rescan pass without a notice, the initial pass with LANE(SUPERVISING), a poll round and the lane's report that it has finished,
which runs the initial resolution when it is the last (R162). A COLLIDED prefix of 40 bits is surveyed again after attempts 1
and 2; after attempt 3 DUPLICATE_TAG is recorded with that tag, the duplicate-seen flag is set, with a computation of the status
if it was clear, and the walk goes on. R44: once the FORGET of a pass has been sent, its walk begins with the SURVEY of the empty
prefix. -/
def Obligations.WalkFollowsOutcome : Prop :=
  (∀ (s : State) (l : LaneId) (u : Underway) (c : Instr), s.endsWith c l u (.survey .forget) .sent →
    s.outcomeGives c l ((s.engineFree l).asks l
      (fun v => { v with step := some .walk, position := none, current := some { digits := [], attempt := 1 } }) (.survey [])))
  ∧ ∀ (s : State) (l : LaneId) (u : Underway) (p : Digits) (c : Instr), c = .quietWaitEnd l ∨ c = .quietWaitLimitExpiry l →
    (s.lane l).engine = some u → (s.lane l).arbiter.grant = some (.survey (.survey p)) →
    (s.lane l).survey.step = some .walk → (s.lane l).survey.naming = none →
    (u.phase = .quiet .collided → (s.lane l).survey.current = some { digits := p, attempt := 1 } → p.length < 20 →
      s.outcomeGives c l ((s.engineFree l).asks l (fun v => { v with
        current := some { digits := p ++ [0], attempt := 1 }, stack := [p ++ [1], p ++ [2], p ++ [3]] ++ v.stack }) (.survey (p ++ [0])))
      ∧ ∃ t, exec c s = .next t ∧ t.dir = s.dir ∧ t.mate = s.mate ∧ t.resolver = s.resolver ∧ s.keepsRest t
        ∧ (∀ m, m ≠ l → t.lane m = s.lane m) ∧ (s.lane l).keepsStanding (t.lane l) ∧ (t.lane l).state = (s.lane l).state
        ∧ (t.lane l).survey.current = some { digits := p ++ [0], attempt := 1 }
        ∧ (t.lane l).survey.stack = [p ++ [1], p ++ [2], p ++ [3]] ++ (s.lane l).survey.stack)
    ∧ (∀ top rest, u.phase = .quiet .silent → (s.lane l).survey.stack = top :: rest →
      s.outcomeGives c l ((s.engineFree l).asks l
        (fun v => { v with current := some { digits := top, attempt := 1 }, stack := rest }) (.survey top))
      ∧ ∃ t, exec c s = .next t ∧ t.dir = s.dir ∧ t.mate = s.mate ∧ t.resolver = s.resolver ∧ s.keepsRest t
        ∧ (∀ m, m ≠ l → t.lane m = s.lane m) ∧ (s.lane l).keepsStanding (t.lane l) ∧ (t.lane l).state = (s.lane l).state
        ∧ (t.lane l).survey.current = some { digits := top, attempt := 1 } ∧ (t.lane l).survey.stack = rest)
    ∧ (u.phase = .quiet .silent → ∃ d, ((s.engineFree l).prefixGone l).walksOn l d ∧ s.outcomeGives c l d)
    ∧ (∀ k, u.phase = .quiet .collided → (s.lane l).survey.current = some { digits := p, attempt := k } → 20 ≤ p.length →
      (k < 3 → s.outcomeGives c l
        ((s.engineFree l).asks l (fun v => { v with current := some { digits := p, attempt := k + 1 } }) (.survey p)))
      ∧ (3 ≤ k → ∃ a d, State.walksOn a l d ∧ s.outcomeGives c l d
        ∧ a = { s with lanes := a.lanes, link := a.link, resolver := a.resolver, draws := a.draws }
        ∧ (∀ m, m ≠ l → a.lane m = s.lane m)
        ∧ a.lane l = { s.lane l with
            engine := none, duplicateSeen := true
            fault := { cause := .duplicateTag, addr := none, tag := some (digitsTag p) }
            survey := { (s.lane l).survey with current := none } }
        ∧ (p.length = 20 → tagBegins p (digitsTag p) = true)
        ∧ s.statusTold ((s.lane l).duplicateSeen = false) (s.link.post (.lane l (s.lane l).state (some .duplicateTag))) a))

/-- R50: the four naming decisions, in the order of the table. R49, R51, R56 to R59: a CLEAN outcome drops the current prefix
and starts the naming step of its decision, with its reservation or hold, and asks for ASSIGN: NEW with the lowest free handle
and address, a REJOIN or RECLAIM with the entry's own handle, and its own address or, from another lane, the lowest free one. A
DUPLICATE, a full lane (30 entries) and a full directory (64, reservations counted) are recorded with the tag, and the walk
goes on. -/
def Obligations.NamingIsDecided : Prop :=
  ∀ (s : State) (l : LaneId) (t : Tag) (e : Entry),
    (s.byTag? t = some e → s.heldElsewhere l e.handle = false → e.lane = l → e.presence ≠ .lost →
      s.decideNaming l t = .rejoin e)
    ∧ (s.byTag? t = some e → s.heldElsewhere l e.handle = false → e.presence = .lost → s.decideNaming l t = .reclaim e)
    ∧ (s.byTag? t = some e → e.lane ≠ l ∧ e.presence ≠ .lost ∨ s.heldElsewhere l e.handle = true →
        s.decideNaming l t = .duplicate)
    ∧ (s.byTag? t = none → s.newElsewhere l t = true → s.decideNaming l t = .duplicate)
    ∧ (s.byTag? t = none → s.newElsewhere l t = false → s.decideNaming l t = .new)
    ∧ ∀ (u : Underway) (p : Digits) (c : Instr) (v : State), s.endsWith c l u (.survey (.survey p)) (.clean t) →
      v = (s.engineFree l).prefixGone l →
      (∀ f, s.decideNaming l t = .rejoin f → s.outcomeGives c l (v.startsNaming l t .rejoin f.handle f.addr))
      ∧ (∀ f, s.decideNaming l t = .reclaim f →
        (f.lane = l → s.outcomeGives c l (v.startsNaming l t .reclaim f.handle f.addr))
        ∧ (∀ a, f.lane ≠ l → (s.onLane l).length < 30 → s.lowestAddr l a →
            s.outcomeGives c l (v.startsNaming l t .reclaim f.handle a))
        ∧ (f.lane ≠ l → 30 ≤ (s.onLane l).length →
            ∃ d, (v.faults l { cause := .laneFull, addr := none, tag := some t }).goesOn l d ∧ s.outcomeGives c l d))
      ∧ (s.decideNaming l t = .duplicate →
          ∃ d, (v.faults l { cause := .duplicateTag, addr := none, tag := some t }).goesOn l d ∧ s.outcomeGives c l d)
      ∧ (s.decideNaming l t = .new →
        (30 ≤ (s.onLane l).length →
          ∃ d, (v.faults l { cause := .laneFull, addr := none, tag := some t }).goesOn l d ∧ s.outcomeGives c l d)
        ∧ ((s.onLane l).length < 30 → 64 ≤ s.dir.entries.length + s.reserved.length →
          ∃ d, (v.faults l { cause := .directoryFull, addr := none, tag := some t }).goesOn l d ∧ s.outcomeGives c l d)
        ∧ (∀ a h, (s.onLane l).length < 30 → s.dir.entries.length + s.reserved.length < 64 → s.lowestAddr l a →
            s.lowestHandle h → s.outcomeGives c l (v.startsNaming l t .new h a)))

/-- R52, R61: an ANSWERED ASSIGN of a NEW step creates the entry with its fields, advances the generation by one, posts
NODE(NAMED), here shown where no object access runs on the lane, reports to the Resolver (at the tail of a queue, the model's
choice, log entry 15) and goes on to its DESCRIBE stage, whose request stands or is sent at once (R54). R53 to R57, R66, R148: ASSIGN without an answer is recorded as NO_ANSWER
with address and tag and ends the step; answered, it brings the entry of a REJOIN or RECLAIM back; a descriptor is stored with
the entry, and that of an identity entry runs a full resolution (R169); DESCRIBE without an answer is recorded; the pass goes
on. That a reclaim ends an attention which the entry had on another lane and takes it out of that lane's poll round, and that the
entry of the step is found again by handle and tag, are the model's choices (log entries 11, 26 and 23). -/
def Obligations.NamedNodeIsCreated : Prop :=
  (∀ (s : State) (l : LaneId) (u : Underway) (n : Naming) (a : Answer) (c : Instr),
      c = .quietWaitEnd l ∨ c = .quietWaitLimitExpiry l →
      (s.lane l).engine = some u → u.phase = .quiet (.valid a) →
      (s.lane l).arbiter.grant = some (.survey (.assign n.tag n.addr)) → (s.lane l).survey.naming = some n →
      n.kind = .new →
        ∃ t, exec c s = .next t
          ∧ { handle := n.handle, lane := l, addr := n.addr, tag := n.tag, identity := decide (Tag.cls n.tag = 0x01),
              presence := .present, miss := 0, override := .auto, nodeFault := false, descriptor := none,
              binding := none, attention := .idle, masked := false, discarded := 0 } ∈ t.dir.entries
          ∧ (∀ e ∈ s.dir.entries, e ∈ t.dir.entries) ∧ t.dir.entries.length = s.dir.entries.length + 1
          ∧ t.dir.generation = s.dir.generation + 1
          ∧ t.resolver = { s.resolver with reports := s.resolver.reports ++ [{ handle := n.handle, tag := n.tag, phase := s.resolver.phase }] }
          ∧ (t.lane l).survey.naming = some { n with stage := .describe }
          ∧ (t.lane l).surveys (.describe { handle := n.handle, lane := l, addr := n.addr, tag := n.tag })
          ∧ t.mate = s.mate ∧ s.keepsRest t ∧ (∀ m, m ≠ l → t.lane m = s.lane m) ∧ (s.lane l).keepsStanding (t.lane l)
          ∧ ((s.lane l).run = none → t.link = s.link.post (.node n.handle .named)))
  ∧ (∀ (s : State) (l : LaneId) (u : Underway) (n : Naming) (c : Instr) (r : AttemptResult),
      s.endsWith c l u (.survey (.assign n.tag n.addr)) r → (s.lane l).survey.naming = some n →
      (r = .noAnswer ∨ r = .invalid → u.telegram.directed = true → 3 ≤ u.attempt →
        ∃ d, (((s.engineFree l).faults l { cause := .noAnswer, addr := some n.addr, tag := some n.tag }).namingGone l).goesOn l d
          ∧ s.outcomeGives c l d)
      ∧ (∀ a, r = .valid a → n.kind ≠ .new →
        ((∀ e, s.entry? n.handle = some e → e.tag ≠ n.tag) →
          ∃ d, ((s.engineFree l).namingGone l).goesOn l d ∧ s.outcomeGives c l d)
        ∧ ∀ e, s.entry? n.handle = some e → e.tag = n.tag →
          ∃ b d, (s.engineFree l).comesBack e
              (if n.kind = .rejoin then { e with presence := .present, miss := 0, attention := .idle }
                else { e with presence := .present, miss := 0, lane := l, addr := n.addr
                              attention := if e.lane = l then e.attention else .idle }) b
            ∧ (b.namingGone l).goesOn l d ∧ s.outcomeGives c l d))
  ∧ (∀ (s : State) (l : LaneId) (u : Underway) (p : Target) (c : Instr) (r : AttemptResult),
      s.endsWith c l u (.survey (.describe p)) r →
      (∀ x, r = .valid (.descriptor x) →
        ∃ b d, (s.engineFree l).takesDescriptor p x b ∧ (b.namingGone l).goesOn l d ∧ s.outcomeGives c l d)
      ∧ (r = .noAnswer ∨ r = .invalid → u.telegram.directed = true → 3 ≤ u.attempt →
        ∃ d, (((s.engineFree l).faults l { cause := .noAnswer, addr := some p.addr, tag := some p.tag }).namingGone l).goesOn l d
          ∧ s.outcomeGives c l d))

/-! ### The directory -/

/-- R88, R89: LOOKUP replies with the generation and the record of the entry that holds the handle, or NO_SUCH_HANDLE. The
record is that of section 10.14, byte for byte; the tool ID of a descriptor without one is free (log entry 9). -/
def Obligations.LookupReturnsRecord : Prop :=
  ∀ (s : State) (q : Request) (rest : List Request) (h : Byte), s.queued q rest → q.kind = 0x18 → q.payload = [h] →
    (∀ e, s.entry? h.toNat = some e →
      exec .lookup s = .next (State.ok { s.took rest with draws := s.draws + 1 } q (be16 s.dir.generation ++ e.record s.draws)))
    ∧ (s.entry? h.toNat = none → exec .lookup s = .next ((s.took rest).refuse q .noSuchHandle))
    ∧ ∀ (draw : Nat) (e : Entry), ∃ (f8 : Byte) (tool : Word16),
        e.record draw = [byteOf e.handle, byteOf e.lane.val, byteOf e.addr] ++ be40 e.tag
          ++ [f8, byteOf (e.presence.code + 4 * e.override.code + 16 * e.attention.code
                + 64 * ((e.binding.map (·.access.code)).getD 0)),
              byteOf e.miss, byteOf e.discarded]
          ++ be16 ((e.descriptor.map (·.maker)).getD 0)
          ++ [(e.descriptor.map (·.revision)).getD 0, byteOf ((e.descriptor.map (·.objectCount)).getD 0)] ++ be16 tool
          ++ [byteOf ((e.binding.map (·.index)).getD 0), byteOf ((e.binding.map (fun b => levelCode b.level)).getD 0)]
          ++ byteOf ((e.binding.map (·.role)).getD []).length :: (e.binding.map (·.role)).getD []
          ++ byteOf ((e.descriptor.map (·.label)).getD []).length :: (e.descriptor.map (·.label)).getD []
        ∧ f8.getLsbD 0 = e.identity ∧ f8.getLsbD 1 = e.descriptor.isSome ∧ f8.getLsbD 2 = e.binding.isSome
        ∧ f8.getLsbD 3 = (e.descriptor.bind (·.toolId)).isSome ∧ f8.getLsbD 4 = e.nodeFault ∧ f8.getLsbD 5 = e.masked
        ∧ f8.getLsbD 6 = (e.descriptor.map (·.attnCapable)).getD false
        ∧ f8.getLsbD 7 = (e.binding.map (·.required)).getD false
        ∧ (e.descriptor = none → tool = 0) ∧ ∀ d x, e.descriptor = some d → d.toolId = some x → tool = x

/-- R90: FIND replies with the entry whose binding holds the role name, with NO_SUCH_ROLE when none does, and refuses a
name that is not 1..12 printable characters. That a name with a character that is not printable is refused also while no session
is open, when section 4.5 answers every FIND NO_SUCH_ROLE, is the model's choice (log entry 29). -/
def Obligations.FindReturnsRole : Prop :=
  ∀ (s : State) (q : Request) (rest : List Request), s.queued q rest → q.kind = 0x19 →
    (∀ e b, roleOk q.payload = true → s.byRole? q.payload = some (e, b) →
      e ∈ s.dir.entries ∧ e.binding = some b ∧ b.role = q.payload ∧
      exec .find s = .next ((s.took rest).ok q [byteOf e.handle, byteOf e.presence.code, byteOf b.index]))
    ∧ (roleOk q.payload = true → (∀ e ∈ s.dir.entries, e.binding.map (·.role) ≠ some q.payload) →
        exec .find s = .next ((s.took rest).refuse q .noSuchRole))
    ∧ (roleOk q.payload = false → exec .find s = .next ((s.took rest).refuse q .badArgument))

/-- R91, R163, R169, R171: PURGE removes a LOST entry that no naming step holds, posts NODE(PURGED), has the Resolver resolve in
full for a bound entry and compute the status for another one, or, before the initial resolution, absorb the report, and replies
with the generation: the one after the resolution too (the model's choice, log entry 25). Every other case is refused and changes
nothing. -/
def Obligations.PurgeRemovesLostEntry : Prop :=
  ∀ (s : State) (q : Request) (rest : List Request) (h : Byte), s.queued q rest → q.kind = 0x1A → q.payload = [h] →
    (∀ e, s.entry? h.toNat = some e → e.presence = .lost → s.held e.handle = false → e.binding = none →
      ∃ t, exec .purge s = .next t ∧ t.unit = .replying none
        ∧ t.link.currentReply = some (q.replyWith .ok (byteOf e.handle :: be16 (s.dir.generation + 1)))
        ∧ t.dir = { entries := s.dir.entries.filter (fun x => decide (x.handle ≠ e.handle)), generation := s.dir.generation + 1 }
        ∧ t.lanes = s.lanes ∧ t.mate = s.mate ∧ (s.took rest).keepsRest t
        ∧ (s.resolver.phase = .resolved → t.statusHolds ∧ s.resolver.sameChoice t.resolver
            ∧ ∃ k, (Link.post { s.link with requests := rest } (.node e.handle .purged)).told s.resolver t.resolver k
              ∧ t.link = k.send (q.replyWith .ok (byteOf e.handle :: be16 (s.dir.generation + 1))))
        ∧ (s.resolver.phase ≠ .resolved → t.resolver = s.resolver
            ∧ t.link = (Link.post { s.link with requests := rest } (.node e.handle .purged)).send
                (q.replyWith .ok (byteOf e.handle :: be16 (s.dir.generation + 1)))))
    ∧ (∀ e, s.entry? h.toNat = some e → e.presence = .lost → s.held e.handle = false → e.binding ≠ none →
      ∃ t, exec .purge s = .next t ∧ t.unit = .replying none
        ∧ t.link.currentReply = some (q.replyWith .ok (byteOf e.handle :: be16 t.dir.generation))
        ∧ t.dir.entries.map (·.handle) = (s.dir.entries.map (·.handle)).filter (fun x => decide (x ≠ e.handle))
        ∧ t.mate = s.mate ∧ (s.took rest).keepsRest t ∧ (∀ l, (s.lane l).keepsStanding (t.lane l))
        ∧ (s.resolver.phase = .resolved → State.resolvesTo { s with dir := {
              entries := s.dir.entries.filter (fun x => decide (x.handle ≠ e.handle)), generation := s.dir.generation + 1 } } t
            ∧ ∃ k, (Link.post { s.link with requests := rest } (.node e.handle .purged)).told s.resolver t.resolver k
              ∧ t.link = k.send (q.replyWith .ok (byteOf e.handle :: be16 t.dir.generation)))
        ∧ (s.resolver.phase ≠ .resolved → t.resolver = s.resolver ∧ t.lanes = s.lanes
            ∧ t.dir = { entries := s.dir.entries.filter (fun x => decide (x.handle ≠ e.handle)), generation := s.dir.generation + 1 }
            ∧ t.link = (Link.post { s.link with requests := rest } (.node e.handle .purged)).send
                (q.replyWith .ok (byteOf e.handle :: be16 (s.dir.generation + 1)))))
    ∧ (s.entry? h.toNat = none → exec .purge s = .next ((s.took rest).refuse q .noSuchHandle))
    ∧ (∀ e, s.entry? h.toNat = some e → e.presence ≠ .lost ∨ s.held e.handle = true →
        exec .purge s = .next ((s.took rest).refuse q .notNow))

/-! ### Presence -/

/-- R85, R107 to R110, R147: OVERRIDE sets the mode in one update with the presence that goes with it, and replies with the
entry's fields; the mode already held changes nothing. FORCED_PRESENT of an entry that is not PRESENT posts NODE(PRESENT) and has
the status computed, with its TOOL notice, before the reply; FORCED_ABSENT ends the entry's attention, with
ATTENTION_ENDED(ISOLATED) before the reply for one in service; a forced entry leaves the poll round (the model's reading, log
entry 26). A mode above 2 is refused by each of the three rows, in a session or not (the model's choices, log entries 6 and 29). -/
def Obligations.OverrideSetsMode : Prop :=
  ∀ (s : State) (q : Request) (rest : List Request) (h m : Byte) (e : Entry), s.queued q rest → q.kind = 0x1B →
    q.payload = [h, m] →
    (s.entry? h.toNat = some e → m = 0 → e.override ≠ .auto →
      exec .overrideAuto s = .next (((s.took rest).update e { e with override := .auto }).ok q
        ([h, 0, byteOf e.presence.code, byteOf e.miss] ++ be16 (s.dir.generation + 1))))
    ∧ (s.entry? h.toNat = some e → m = 1 → e.override ≠ .forcedPresent →
      ∃ t, exec .overrideForcedPresent s = .next t ∧ t.unit = .replying none
        ∧ t.link.currentReply = some (q.replyWith .ok ([h, 1, 0, 0] ++ be16 (s.dir.generation + 1)))
        ∧ t.dir = (s.update e { e with override := .forcedPresent, presence := .present, miss := 0 }).dir
        ∧ (∀ l, l ≠ e.lane → t.lane l = s.lane l) ∧ t.lane e.lane = (s.lane e.lane).offRound e.addr
        ∧ t.mate = s.mate ∧ (s.took rest).keepsRest t
        ∧ ∃ a : State, t = a.ok q ([h, 1, 0, 0] ++ be16 (s.dir.generation + 1))
          ∧ s.statusTold (e.presence ≠ .present) ((if e.presence ≠ .present then [Notice.node e.handle .present] else []).foldl
              Link.post { s.link with requests := rest }) a)
    ∧ (s.entry? h.toNat = some e → m = 2 → e.override ≠ .forcedAbsent →
      ∃ t, exec .overrideForcedAbsent s = .next t ∧ t.unit = .replying none
        ∧ t.link.currentReply = some (q.replyWith .ok ([h, 2, byteOf e.presence.code, byteOf e.miss] ++ be16 (s.dir.generation + 1)))
        ∧ t.dir = (s.update e { e with override := .forcedAbsent, attention := .idle }).dir
        ∧ (e.attention = .inService → ∀ v r, (t.lane e.lane).attention.slots.get v = some r → r.handle ≠ e.handle)
        ∧ (∀ l, l ≠ e.lane → t.lane l = s.lane l) ∧ (s.lane e.lane).keepsStanding (t.lane e.lane)
        ∧ (if e.attention = .inService then
            { (s.lane e.lane).offRound e.addr with attention := (s.lane e.lane).attention.release e.handle }
          else (s.lane e.lane).offRound e.addr).sameButWork (t.lane e.lane)
        ∧ t.mate = s.mate ∧ t.resolver = s.resolver ∧ (s.took rest).keepsRest t
        ∧ t.link = ((if e.attention = .inService then [Notice.attentionEnded e.handle .isolated] else []).foldl Link.post
            { s.link with requests := rest }).send
              (q.replyWith .ok ([h, 2, byteOf e.presence.code, byteOf e.miss] ++ be16 (s.dir.generation + 1))))
    ∧ (s.entry? h.toNat = some e → m = 0 → e.override = .auto → exec .overrideAuto s = .next ((s.took rest).ok q
        ([h, 0, byteOf e.presence.code, byteOf e.miss] ++ be16 s.dir.generation)))
    ∧ (s.entry? h.toNat = some e → m = 1 → e.override = .forcedPresent →
        exec .overrideForcedPresent s = .next ((s.took rest).ok q
          ([h, 1, byteOf e.presence.code, byteOf e.miss] ++ be16 s.dir.generation)))
    ∧ (s.entry? h.toNat = some e → m = 2 → e.override = .forcedAbsent →
        exec .overrideForcedAbsent s = .next ((s.took rest).ok q
          ([h, 2, byteOf e.presence.code, byteOf e.miss] ++ be16 s.dir.generation)))
    ∧ (s.entry? h.toNat = none → (m = 0 → exec .overrideAuto s = .next ((s.took rest).refuse q .noSuchHandle))
        ∧ (m = 1 → exec .overrideForcedPresent s = .next ((s.took rest).refuse q .noSuchHandle))
        ∧ (m = 2 → exec .overrideForcedAbsent s = .next ((s.took rest).refuse q .noSuchHandle)))
    ∧ (2 < m.toNat → exec .overrideAuto s = .next ((s.took rest).refuse q .badArgument)
        ∧ exec .overrideForcedPresent s = .next ((s.took rest).refuse q .badArgument)
        ∧ exec .overrideForcedAbsent s = .next ((s.took rest).refuse q .badArgument))

/-- R98 to R102, R105: a PING of the Poller that got no answer on its third attempt counts one miss on its entry: SUSPECT
below the miss limit, LOST at the limit with its attention and its part in the poll round ended (the latter the model's reading,
log entry 26), with the NODE notices; one that is answered makes the entry
PRESENT with miss count 0 and sets the node-fault flag, with NODE(PRESENT) from SUSPECT and NODE(FAULT) when the flag changes to
yes; then the round goes on or ends. R65: an answered recall PING brings a LOST entry back with NODE(REJOINED); without an
answer nothing changes, and the pass goes on. -/
def Obligations.PollMissIsCounted : Prop :=
  (∀ (s : State) (l : LaneId) (u : Underway) (p : Target) (e : Entry) (r : AttemptResult) (c : Instr),
      c = .quietWaitEnd l ∨ c = .quietWaitLimitExpiry l →
      (s.lane l).engine = some u → u.telegram = .ping p.addr → u.attempt = 3 → u.phase = .quiet r → r = .noAnswer ∨ r = .invalid →
      (s.lane l).arbiter.grant = some (.poll p) → p.lane = l → s.target? p = some e → e.override = .auto →
      e.presence ≠ .lost →
        ∃ t, exec c s = .next t
          ∧ t.dir = (s.update e (if e.miss + 1 < s.missLimit then { e with presence := .suspect, miss := e.miss + 1 }
              else { e with presence := .lost, miss := s.missLimit, attention := .idle })).dir
          ∧ t.mate = s.mate ∧ s.keepsRest t ∧ (∀ m, m ≠ l → t.lane m = s.lane m) ∧ (s.lane l).keepsStanding (t.lane l))
  ∧ (∀ (s : State) (l : LaneId) (u : Underway) (p : Target) (c : Instr) (r : AttemptResult), s.endsWith c l u (.poll p) r →
      (∀ f, r = .valid (.status f) → ∃ a d, (s.engineFree l).takesAnswer p (some f) a
          ∧ (a.modLane l (fun n => { n with poller := { n.poller with ping := none } })).pollsOn l d ∧ s.outcomeGives c l d)
      ∧ (r = .noAnswer ∨ r = .invalid → u.telegram.directed = true → 3 ≤ u.attempt → ∃ a d, (s.engineFree l).takesMiss p a
          ∧ (a.modLane l (fun n => { n with poller := { n.poller with ping := none } })).pollsOn l d ∧ s.outcomeGives c l d))
  ∧ (∀ (s : State) (l : LaneId) (u : Underway) (p : Target) (c : Instr) (r : AttemptResult),
      s.endsWith c l u (.survey (.recall p)) r →
      (∀ f, r = .valid (.status f) →
        ∃ a d, (s.engineFree l).takesRecall p f a ∧ a.goesOn l d ∧ s.outcomeGives c l d)
      ∧ (r = .noAnswer ∨ r = .invalid → u.telegram.directed = true → 3 ≤ u.attempt →
        ∃ d, (s.engineFree l).goesOn l d ∧ s.outcomeGives c l d))

/-- R97, R98, R99: the expiry of the poll gap timer begins a round over the addresses of the lane's AUTO entries that are
not LOST, and requests the first PING; an empty round ends at once and starts the gap again. -/
def Obligations.PollGapStartsRound : Prop :=
  ∀ (s : State) (l : LaneId) (d : Nat), (s.lane l).pollGapTimer = some d →
    ∃ t, exec (.pollGapTimerExpiry l) s = .next t ∧ t.dir = s.dir ∧ t.mate = s.mate ∧ t.resolver = s.resolver
      ∧ s.keepsRest t ∧ (s.lane l).keepsStanding (t.lane l) ∧ (t.lane l).state = (s.lane l).state
      ∧ (∀ m, m ≠ l → t.lane m = s.lane m)
      ∧ (s.roundSet l = [] → (t.lane l).poller = { phase := .gap, roundSet := [], position := none, ping := none }
          ∧ (t.lane l).pollGapTimer = some (s.now + (s.lane l).pollGapMs))
      ∧ (∀ a rest, s.roundSet l = a :: rest → (t.lane l).poller.phase = .round ∧ (t.lane l).poller.roundSet = a :: rest
          ∧ (t.lane l).poller.position = some a ∧ (t.lane l).pollGapTimer = none
          ∧ ∃ e, s.onLaneAt? l a = some e ∧ (t.lane l).poller.ping = some e.target ∧ (t.lane l).polls e.target)

/-! ### Arbitration and object access -/

/-- R114: a decision on a free wire: a due requestor of highest priority first, else the standing one of highest
priority; its count returns to 0, every other standing one's rises by one, the others keep theirs. On a free wire with a standing
request a grant is made. R113, R115: every step keeps the passed-over counts within their bounds, 8, 9, 10 and 11 from the highest
priority to the lowest. -/
def Obligations.GrantFollowsPriority : Prop :=
  (∀ a : Arbiter, a.grant = none → a.standing.list ≠ [] → ∃ g b, a.grantNext = some (g, b))
  ∧ (∀ s t : State, s.countsOk → step s = .next t → t.countsOk ∧ ∀ l,
      (t.lane l).arbiter.passed.attention ≤ 8 ∧ (t.lane l).arbiter.passed.access ≤ 9
        ∧ (t.lane l).arbiter.passed.survey ≤ 10 ∧ (t.lane l).arbiter.passed.poll ≤ 11)
  ∧ ∀ (a b : Arbiter) (g : Grant), a.grantNext = some (g, b) →
    a.grant = none ∧ b.grant = some g
      ∧ ∃ r, g.requestor = r ∧ r ∈ a.standing.list
        ∧ ((∃ x ∈ a.standing.list, 8 ≤ a.passed.of x) →
            a.standing.list.find? (fun x => decide (8 ≤ a.passed.of x)) = some r)
        ∧ ((∀ x ∈ a.standing.list, a.passed.of x < 8) → a.standing.list.head? = some r)
        ∧ b.standing.list = a.standing.list.erase r ∧ b.passed.of r = 0
        ∧ ∀ x, x ≠ r → b.passed.of x = if x ∈ a.standing.list then a.passed.of x + 1 else a.passed.of x

/-- R118, R119: the tests of READ_OBJECTS and WRITE_OBJECT, the first that fails giving the reply, without any other
change. -/
def Obligations.AccessIsCheckedInOrder : Prop :=
  ∀ (s : State) (q : Request) (rest : List Request) (h first count mode : Byte) (st : Status), s.queued q rest →
    (q.kind = 0x20 → q.payload = [h, first, count, mode] →
      ((count = 0 ∨ 16 < count.toNat ∨ 1 < mode.toNat → exec .readObjects s = .next ((s.took rest).refuse q .badArgument))
      ∧ (1 ≤ count.toNat → count.toNat ≤ 16 → mode.toNat ≤ 1 →
          s.accessCheck h.toNat first.toNat count.toNat false = .error st →
          exec .readObjects s = .next ((s.took rest).refuse q st))))
    ∧ (∀ v0 v1 v2 v3, q.kind = 0x21 → q.payload = [h, first, v0, v1, v2, v3] →
        s.accessCheck h.toNat first.toNat 1 true = .error st → exec .writeObject s = .next ((s.took rest).refuse q st))
    ∧ (∀ (k f n : Nat) (w : Bool), (s.entry? k = none → s.accessCheck k f n w = .error .noSuchHandle)
        ∧ ∀ e, s.entry? k = some e →
          ((s.lane e.lane).state ≠ .supervising → (s.lane e.lane).state ≠ .rescanning → s.accessCheck k f n w = .error .notNow)
          ∧ ((s.lane e.lane).state = .supervising ∨ (s.lane e.lane).state = .rescanning →
              (e.override = .forcedAbsent → s.accessCheck k f n w = .error .isolated)
              ∧ (e.override ≠ .forcedAbsent → e.presence = .lost → s.accessCheck k f n w = .error .nodeLost)
              ∧ (e.override ≠ .forcedAbsent → e.presence ≠ .lost → e.descriptor = none →
                  s.accessCheck k f n w = .error .noDescriptor)
              ∧ ∀ d, e.override ≠ .forcedAbsent → e.presence ≠ .lost → e.descriptor = some d →
                (d.objectCount < f + n → s.accessCheck k f n w = .error .outOfRange)
                ∧ (f + n ≤ d.objectCount → w = true → e.binding.map (·.access) ≠ some .rw →
                    s.accessCheck k f n w = .error .denied)
                ∧ (f + n ≤ d.objectCount → w = false ∨ e.binding.map (·.access) = some .rw →
                    s.accessCheck k f n w = .ok e)))

/-- R120, R121, R122: an access that passes its checks puts the Request Unit in its access wait, starts the access timer at 250 ms
and hands the lane its run, whose request for the lane stands or is granted at once, with the run's first telegram sent; the
directory does not change. -/
def Obligations.AccessStartsRun : Prop :=
  ∀ (s : State) (q : Request) (rest : List Request) (h first count mode : Byte) (e : Entry), s.queued q rest →
    (q.kind = 0x20 → q.payload = [h, first, count, mode] → 1 ≤ count.toNat → count.toNat ≤ 16 → mode.toNat ≤ 1 →
      s.accessCheck h.toNat first.toNat count.toNat false = .ok e →
      ∃ t, exec .readObjects s = .next t ∧ t.unit = .accessWait 0x20 q.token e.lane ∧ t.accessTimer = some (s.now + 250)
        ∧ (t.lane e.lane).run = some {
            kind := .read, block := decide (mode = 1),
            target := { handle := e.handle, lane := e.lane, addr := e.addr, tag := e.tag }, first := first.toNat,
            count := count.toNat, completed := 0, values := [], abandoned := false }
        ∧ (∀ r, (t.lane e.lane).run = some r → (t.lane e.lane).accesses (decide (mode = 1)) r)
        ∧ t.dir = s.dir ∧ t.link = { s.link with requests := rest } ∧ (s.took rest).keepsRest t ∧ t.mate = s.mate
        ∧ t.resolver = s.resolver ∧ ∀ m, m ≠ e.lane → t.lane m = s.lane m)
    ∧ (∀ v0 v1 v2 v3, q.kind = 0x21 → q.payload = [h, first, v0, v1, v2, v3] →
      s.accessCheck h.toNat first.toNat 1 true = .ok e →
      ∃ t, exec .writeObject s = .next t ∧ t.unit = .accessWait 0x21 q.token e.lane ∧ t.accessTimer = some (s.now + 250)
        ∧ (t.lane e.lane).run = some {
            kind := .write (word32 v0 v1 v2 v3), block := false,
            target := { handle := e.handle, lane := e.lane, addr := e.addr, tag := e.tag }, first := first.toNat,
            count := 1, completed := 0, values := [], abandoned := false }
        ∧ (∀ r, (t.lane e.lane).run = some r → (t.lane e.lane).accesses false r)
        ∧ t.dir = s.dir ∧ t.link = { s.link with requests := rest } ∧ (s.took rest).keepsRest t ∧ t.mate = s.mate
        ∧ t.resolver = s.resolver ∧ ∀ m, m ≠ e.lane → t.lane m = s.lane m)

/-- R121 to R125, R127: the outcome of an object telegram is evidence on the node first. A valid answer completes its object: the
last one ends the run with OK and, for a READ, all its values; else a SINGLE run requests the lane for its next telegram and a
BLOCK run sends it at once, or ends with NODE_LOST where its entry is gone or LOST. REFUSED, on any attempt, and NO_ANSWER end
the run with what has been read. The end of a run stops the access timer. Of an abandoned run only the evidence is left. R123:
when a PING between two telegrams of a run has ended, and nothing else comes before the access, the run's request is granted: its
next telegram is sent if its entry is there and not LOST; else the run ends with NODE_LOST and sends none. An entry that a miss
makes LOST leaves the poll round (the model's reading, log entry 26). -/
def Obligations.AccessOutcomeEndsRun : Prop :=
  (∀ (s : State) (l : LaneId) (u : Underway) (b : Bool) (r : Run) (kind token : Byte) (x : AttemptResult) (c : Instr),
      c = .quietWaitEnd l ∨ c = .quietWaitLimitExpiry l → (s.lane l).engine = some u → u.phase = .quiet x →
      (s.lane l).arbiter.grant = some (.access b) → s.unit = .accessWait kind token l → (s.lane l).run = some r →
      r.abandoned = false → r.kind = .read → u.telegram.directed = true → u.attempt = 3 →
      (∀ v, x = .valid (.value v) → r.completed + 1 = r.count →
        ∃ t, exec c s = .next t ∧ t.unit = .replying none ∧ t.accessTimer = none ∧ (t.lane l).run = none
          ∧ t.mate = s.mate ∧ s.keepsRest t ∧ t.link.currentReply = some {
              kind := kind + 0x80, token := token, status := .ok,
              payload := [byteOf r.target.handle, byteOf r.first, byteOf (r.completed + 1)]
                ++ ((r.values ++ [v]).map be32).flatten })
      ∧ (x = .refused → ∃ t, exec c s = .next t ∧ t.unit = .replying none ∧ t.accessTimer = none ∧ (t.lane l).run = none
          ∧ t.mate = s.mate ∧ s.keepsRest t
          ∧ t.link.currentReply = some { kind := kind + 0x80, token := token, status := .nodeRefused, payload := r.payload })
      ∧ (x = .noAnswer ∨ x = .invalid →
          ∃ t, exec c s = .next t ∧ t.unit = .replying none ∧ t.accessTimer = none ∧ (t.lane l).run = none
          ∧ t.mate = s.mate ∧ s.keepsRest t
          ∧ t.link.currentReply = some { kind := kind + 0x80, token := token, status := .noAnswer, payload := r.payload }))
  ∧ (∀ (s : State) (l : LaneId) (u : Underway) (b : Bool) (r : Run) (kind token : Byte) (x : AttemptResult) (c : Instr),
      s.endsWith c l u (.access b) x → s.unit = .accessWait kind token l → (s.lane l).run = some r → r.abandoned = false →
      (x = .refused ∨ (x = .noAnswer ∨ x = .invalid) ∧ u.telegram.directed = true ∧ 3 ≤ u.attempt →
        ∃ a t, (s.engineFree l).takesEvidence r.target x a ∧ exec c s = .next t ∧ t.unit = .replying none ∧ t.accessTimer = none
          ∧ (t.lane l).run = none ∧ t.dir = a.dir ∧ t.mate = s.mate ∧ s.keepsRest t ∧ (∀ m, m ≠ l → t.lane m = a.lane m)
          ∧ t.link.currentReply = some {
              kind := kind + 0x80, token := token, status := if x = .refused then .nodeRefused else .noAnswer
              payload := r.payload })
      ∧ (∀ y r', x = .valid y → r.after y r' → (r.kind = .read ∧ (∃ v, y = .value v)) ∨ (∃ w, r.kind = .write w) ∧ y = .ack →
        ∃ a, (s.engineFree l).takesAnswer r.target none a
          ∧ (r.count ≤ r'.completed → ∃ t, exec c s = .next t ∧ t.unit = .replying none ∧ t.accessTimer = none
              ∧ (t.lane l).run = none ∧ t.dir = a.dir ∧ t.mate = s.mate ∧ s.keepsRest t ∧ (∀ m, m ≠ l → t.lane m = s.lane m)
              ∧ t.link.currentReply = some { kind := kind + 0x80, token := token, status := .ok, payload := r'.payload })
          ∧ (r'.completed < r.count → r.block = false → a.holdsRun r' →
              ∃ t, exec c s = .next t ∧ t.unit = s.unit ∧ t.accessTimer = s.accessTimer ∧ (t.lane l).run = some r'
                ∧ t.dir = a.dir ∧ t.link = a.link ∧ t.mate = s.mate ∧ s.keepsRest t ∧ (∀ m, m ≠ l → t.lane m = s.lane m)
                ∧ (t.lane l).accesses false r')
          ∧ (r'.completed < r.count → r.block = true → a.holdsRun r' →
              ∃ m, r'.asksFor m ∧ exec c s = .next (a.modLane l (fun n => { n with
                run := some r', engine := some { telegram := m, attempt := 1, phase := .sending } })))
          ∧ (r'.completed < r.count → r.block = true → ¬ a.holdsRun r' →
              ∃ t, exec c s = .next t ∧ t.unit = .replying none ∧ t.accessTimer = none ∧ (t.lane l).run = none
                ∧ t.dir = a.dir ∧ t.mate = s.mate ∧ s.keepsRest t ∧ t.link.currentReply = some {
                  kind := kind + 0x80, token := token, status := .nodeLost, payload := r'.payload })))
  ∧ (∀ (s : State) (l : LaneId) (u : Underway) (b : Bool) (r : Run) (x : AttemptResult) (c : Instr),
      s.endsWith c l u (.access b) x → (s.lane l).run = some r → r.abandoned = true →
      (∃ y, x = .valid y) ∨ x = .refused ∨ (x = .noAnswer ∨ x = .invalid) ∧ u.telegram.directed = true ∧ 3 ≤ u.attempt →
        ∃ a, (s.engineFree l).takesEvidence r.target x a ∧ s.outcomeGives c l (a.modLane l (fun n => { n with run := none })))
  ∧ (∀ (s : State) (l : LaneId) (u : Underway) (p : Target) (b : Bool) (r : Run) (kind token : Byte) (x : AttemptResult) (c : Instr),
      s.endsWith c l u (.poll p) x → s.unit = .accessWait kind token l → (s.lane l).run = some r →
      (s.lane l).arbiter.standing.access = some b →
      (∃ f, x = .valid (.status f)) ∨ (x = .noAnswer ∨ x = .invalid) ∧ u.telegram.directed = true ∧ 3 ≤ u.attempt →
        ∃ a d t, ((∃ f, x = .valid (.status f) ∧ (s.engineFree l).takesAnswer p (some f) a)
            ∨ (x = .noAnswer ∨ x = .invalid) ∧ (s.engineFree l).takesMiss p a)
          ∧ (a.modLane l (fun n => { n with poller := { n.poller with ping := none } })).pollsOn l d
          ∧ exec c s = .next t ∧ d.grantEnds l t
          ∧ (d.accessFirst l → d.holdsRun r → (t.lane l).run = some r ∧ t.unit = s.unit ∧ t.accessTimer = s.accessTimer
            ∧ t.link = d.link ∧ (t.lane l).arbiter.grant = some (.access b)
            ∧ ∃ m, r.asksFor m ∧ (t.lane l).engine = some { telegram := m, attempt := 1, phase := .sending })
          ∧ (d.accessFirst l → ¬ d.holdsRun r → (t.lane l).run = none ∧ t.unit = .replying none ∧ t.accessTimer = none
            ∧ (∀ y, (t.lane l).arbiter.grant ≠ some (.access y))
            ∧ t.link = d.link.send { kind := kind + 0x80, token := token, status := .nodeLost, payload := r.payload }))

/-- R113, R127: the access timer's expiry ends the access with TIMEOUT; a telegram under way goes on for an abandoned
run, and a request that stands is withdrawn, with its passed-over count at 0. -/
def Obligations.AccessTimerEndsAccess : Prop :=
  ∀ (s : State) (l : LaneId) (kind token : Byte) (r : Run) (d : Nat), s.accessTimer = some d →
    s.unit = .accessWait kind token l → (s.lane l).run = some r →
      ∃ t, exec .accessTimerExpiry s = .next t ∧ t.unit = .replying none ∧ t.accessTimer = none ∧ t.dir = s.dir
        ∧ t.link.currentReply = some { kind := kind + 0x80, token := token, status := .timeout, payload := r.payload }
        ∧ t.mate = s.mate ∧ t.resolver = s.resolver ∧ s.keepsRest t ∧ (∀ m, m ≠ l → t.lane m = s.lane m)
        ∧ (s.lane l).keepsStanding (t.lane l)
        ∧ (∀ b, (s.lane l).engine.isSome = true → (s.lane l).arbiter.grant = some (.access b) →
            (t.lane l).run = some { r with abandoned := true } ∧ (t.lane l).engine = (s.lane l).engine
            ∧ (t.lane l).arbiter.grant = some (.access b))
        ∧ ((∀ b, (s.lane l).arbiter.grant ≠ some (.access b)) →
            (t.lane l).run = none ∧ (t.lane l).arbiter.standing.access = none
            ∧ ((s.lane l).arbiter.standing.access ≠ none → (t.lane l).arbiter.passed.access = 0))

/-! ### Attention -/

/-- R143, R144: ATTN_DONE, or the deadline of a record that is held, empties the slot, makes the entry IDLE and has a
CLEAR for its address in the list; the deadline posts ATTENTION_ENDED(EXPIRED), here shown where no object access runs
on the lane; an entry that is not in service is answered NOT_IN_SERVICE. -/
def Obligations.ServiceEndsByHostOrDeadline : Prop :=
  (∀ (s : State) (q : Request) (rest : List Request) (h : Byte), s.queued q rest → q.kind = 0x24 → q.payload = [h] →
      (∀ e v, s.entry? h.toNat = some e → e.attention = .inService → (s.lane e.lane).attention.slotOf e.handle = some v →
        ∃ t, exec .attnDone s = .next t ∧ t.unit = .replying none
          ∧ t.link.currentReply = some (q.replyWith .ok [h, byteOf v.val])
          ∧ t.dir = (s.update e { e with attention := .idle }).dir ∧ t.dir.generation = s.dir.generation
          ∧ (t.lane e.lane).attention.slots.get v = none ∧ (∃ i ∈ (t.lane e.lane).attention.clearList, i.addr = e.addr)
          ∧ (∀ m, m ≠ e.lane → t.lane m = s.lane m) ∧ t.mate = s.mate ∧ t.resolver = s.resolver
          ∧ (s.took rest).keepsRest t)
      ∧ (∀ e, s.entry? h.toNat = some e → e.attention ≠ .inService →
          exec .attnDone s = .next ((s.took rest).refuse q .notInService))
      ∧ (s.entry? h.toNat = none → exec .attnDone s = .next ((s.took rest).refuse q .noSuchHandle)))
  ∧ (∀ (s : State) (l : LaneId) (v : LevelId) (r : InService) (e : Entry) (d : Nat),
      (s.lane l).attention.slots.get v = some r → r.deadline = some d → s.entry? r.handle = some e → e.lane = l →
        ∃ t, exec (.attentionDeadlineExpiry l v) s = .next t
          ∧ t.dir = (s.update e { e with attention := .idle }).dir ∧ (t.lane l).attention.slots.get v = none
          ∧ (∃ i ∈ (t.lane l).attention.clearList, i.addr = e.addr)
          ∧ ((s.lane l).run = none → t.link = s.link.post (.attentionEnded e.handle .expired))
          ∧ (∀ m, m ≠ l → t.lane m = s.lane m) ∧ t.mate = s.mate ∧ t.resolver = s.resolver ∧ s.keepsRest t)

/-- R146: ATTN_MASK sets the mask; setting it on makes a PENDING entry IDLE and has a CLEAR for it in the list. The codes of the
setting, 1 for on and 0 for off, and the refusal of one above 1 are the model's reading (log entry 27), and that this refusal comes
before the test of the handle is its choice (log entry 29). -/
def Obligations.AttnMaskSetsMask : Prop :=
  ∀ (s : State) (q : Request) (rest : List Request) (h c : Byte), s.queued q rest → q.kind = 0x25 → q.payload = [h, c] →
    (∀ e, s.entry? h.toNat = some e → c = 1 → e.attention = .pending →
      ∃ t, exec .attnMask s = .next t ∧ t.unit = .replying none ∧ t.link.currentReply = some (q.replyWith .ok [h, 1, 0])
        ∧ t.dir = (s.update e { e with masked := true, attention := .idle }).dir
        ∧ (∃ i ∈ (t.lane e.lane).attention.clearList, i.addr = e.addr) ∧ t.mate = s.mate ∧ t.resolver = s.resolver
        ∧ (s.took rest).keepsRest t ∧ ∀ m, m ≠ e.lane → t.lane m = s.lane m)
    ∧ (∀ e, s.entry? h.toNat = some e → c = 0 ∨ c = 1 ∧ e.attention ≠ .pending →
      ∃ t, exec .attnMask s = .next t ∧ t.unit = .replying none
        ∧ t.link.currentReply = some (q.replyWith .ok [h, c, byteOf e.attention.code])
        ∧ t.dir = (s.update e { e with masked := decide (c = 1) }).dir ∧ t.mate = s.mate ∧ t.resolver = s.resolver
        ∧ (s.took rest).keepsRest t ∧ ∀ m, m ≠ e.lane → t.lane m = s.lane m)
    ∧ (c = 0 ∨ c = 1 → s.entry? h.toNat = none → exec .attnMask s = .next ((s.took rest).refuse q .noSuchHandle))
    ∧ (1 < c.toNat → exec .attnMask s = .next ((s.took rest).refuse q .badArgument))

/-- R16, R132, R133: LATNn's level is taken while the lane has power; an asserted line with no gap running, or the end of the
gap with the line asserted, has a ROLLCALL sent on a serving lane that has no other work. R135 to R137: its hits are taken in
ascending order: one of no entry is recorded as STRAY_ATTENTION and cleared; one of an entry PENDING or in service is ignored;
a discarded one is counted up to 255 and cleared; any other makes its entry PENDING; then the rollcall gap starts. The outcome
of a CLEAR is evidence on the entry it was added for (one that it makes LOST leaves the poll round, the model's reading, log entry
26), and its item leaves the list; an item joins the list unless one for its address is there. R132, R138, R139: the telegram that
the service chooses when its grant arrives is CLEAR, HEED or ROLLCALL, in that order, the HEED as the service condition and the
lane's rotation say; here shown for every state, and for a change of LATNn on a serving lane whose wire is free. -/
def Obligations.RollcallIsSentWhenDue : Prop :=
  (∀ (s : State) (l : LaneId) (asserted : Bool),
      (∃ t, exec (.latnChange l asserted) s = .next t ∧ (t.lane l).latn = (asserted && (s.lane l).power)
        ∧ (∀ m, m ≠ l → t.lane m = s.lane m) ∧ t.dir = s.dir ∧ t.mate = s.mate ∧ t.resolver = s.resolver ∧ s.keepsRest t)
      ∧ (∀ d, (s.lane l).rollcallGapTimer = some d →
          ∃ t, exec (.rollcallGapTimerExpiry l) s = .next t ∧ (t.lane l).rollcallGapTimer = none
            ∧ (∀ m, m ≠ l → t.lane m = s.lane m) ∧ t.dir = s.dir ∧ t.mate = s.mate ∧ t.resolver = s.resolver ∧ s.keepsRest t)
      ∧ ((s.lane l).state = .supervising ∨ (s.lane l).state = .rescanning → (s.lane l).arbiter = Arbiter.cold →
          (s.lane l).attention.clearList = [] → s.serviceLevel l = none →
          ((s.lane l).power = true → (s.lane l).rollcallGapTimer = none → ∃ t, exec (.latnChange l true) s = .next t
            ∧ (t.lane l).engine = some { telegram := .rollcall, attempt := 1, phase := .sending }
            ∧ (t.lane l).arbiter.grant = some .attention)
          ∧ ∀ d, (s.lane l).latn = true → (s.lane l).rollcallGapTimer = some d → ∃ t, exec (.rollcallGapTimerExpiry l) s = .next t
            ∧ (t.lane l).engine = some { telegram := .rollcall, attempt := 1, phase := .sending }
            ∧ (t.lane l).arbiter.grant = some .attention))
  ∧ (∀ (s : State) (l : LaneId) (u : Underway) (h : BitVec 30) (c : Instr), s.endsWith c l u .attention (.hits h) →
      u.telegram = .rollcall → ∃ f : Nat → State → State, (∀ k v, State.takesHit v l k (f k v))
        ∧ s.outcomeGives c l ((((List.range' 1 30).filter (fun k => h.getLsbD (k - 1))).foldl (fun v k => f k v)
            (s.engineFree l)).modLane l (fun n => { n with rollcallGapTimer := some (s.now + n.pollGapMs) })))
  ∧ (∀ (s : State) (l : LaneId) (u : Underway) (r : AttemptResult) (c : Instr) (x : Nat) (i : ClearItem) (rest : List ClearItem),
      s.endsWith c l u .attention r → u.telegram = .clear x → (s.lane l).attention.clearList = i :: rest →
      (∃ a, r = .valid a) ∨ (r = .noAnswer ∨ r = .invalid) ∧ 3 ≤ u.attempt →
      (i.owner = none → s.outcomeGives c l ((s.engineFree l).modLane l (fun n =>
          { n with attention := { n.attention with clearList := rest } })))
      ∧ ∀ k g, i.owner = some (k, g) → ∃ a, (s.engineFree l).takesEvidence { handle := k, lane := l, addr := i.addr, tag := g } r a
        ∧ s.outcomeGives c l (a.modLane l (fun n => { n with attention := { n.attention with clearList := rest } })))
  ∧ (∀ (a : Attention) (i : ClearItem), ((∃ x ∈ a.clearList, x.addr = i.addr) → a.addClear i = a)
      ∧ ((∀ x ∈ a.clearList, x.addr ≠ i.addr) → a.addClear i = { a with clearList := a.clearList ++ [i] }))
  ∧ (∀ (s : State) (l : LaneId) (m : Telegram) (h : Option Heed), s.directoryOk →
      (s.chooseAttention l = some (m, h) ↔ s.attentionSends l m h))
  ∧ ∀ (s v : State) (l : LaneId) (asserted : Bool), s.directoryOk →
      (s.lane l).state = .supervising ∨ (s.lane l).state = .rescanning → (s.lane l).arbiter = Arbiter.cold →
      v = s.modLane l (fun n => { n with latn := asserted && n.power }) →
      (∀ m h, v.attentionSends l m h → exec (.latnChange l asserted) s = .next (v.modLane l (fun n => { n with
          arbiter := { Arbiter.cold with grant := some .attention }, attention := { n.attention with heed := h }
          engine := some { telegram := m, attempt := 1, phase := .sending } })))
      ∧ ((∀ m h, ¬ v.attentionSends l m h) → exec (.latnChange l asserted) s = .next v)

/-- R140, R145: a HEED answered with a cause other than 0x00 puts its PENDING entry in service at the recorded level, with the
deadline that the timeout gives, and posts ATTENTION, here shown where no object access runs on the lane; R141: with cause 0x00
the entry becomes IDLE. The answer is evidence on the node first (R103): a SUSPECT entry is PRESENT, with its notices, before
ATTENTION is posted; of a HEED whose entry is no longer PENDING, or no longer matches, the evidence is all. R141: a HEED without
an answer makes a PENDING entry IDLE and is then one miss, and an entry that it makes LOST leaves the poll round (the model's
reading, log entry 26). Which entry a HEED goes to is stated with RollcallIsSentWhenDue. -/
def Obligations.HeedEntersService : Prop :=
  (∀ (s : State) (l : LaneId) (u : Underway) (r : AttemptResult) (c : Instr) (h : Heed), s.endsWith c l u .attention r →
    u.telegram = .heed h.target.addr → (s.lane l).attention.heed = some h →
    (∀ cause data, r = .valid (.cause cause data) → ∃ a, (s.engineFree l).takesAnswer h.target none a
      ∧ (∀ e, a.heeds h e → cause ≠ 0 → s.outcomeGives c l (a.entersService l h e cause data))
      ∧ (∀ e, a.heeds h e → cause = 0 → s.outcomeGives c l (a.heedsNothing l h e))
      ∧ ((∀ e, ¬ a.heeds h e) → s.outcomeGives c l (a.heedGone l)))
    ∧ (r = .noAnswer ∨ r = .invalid → 3 ≤ u.attempt →
        (∀ e, s.heeds h e → ∃ a, ((s.engineFree l).update e { e with attention := .idle }).takesMiss h.target a
          ∧ s.outcomeGives c l (a.heedGone l))
        ∧ ((∀ e, ¬ s.heeds h e) → ∃ a, (s.engineFree l).takesMiss h.target a ∧ s.outcomeGives c l (a.heedGone l))))
  ∧ ∀ (s : State) (l : LaneId) (u : Underway) (h : Heed) (e : Entry) (cause : Byte) (data : List Byte) (c : Instr),
    c = .quietWaitEnd l ∨ c = .quietWaitLimitExpiry l →
    (s.lane l).engine = some u → u.telegram = .heed h.target.addr → u.phase = .quiet (.valid (.cause cause data)) →
    (s.lane l).arbiter.grant = some .attention → (s.lane l).attention.heed = some h →
    s.target? h.target = some e → e.attention = .pending → e.presence = .present → e.miss = 0 →
      ∃ t, exec c s = .next t ∧ t.mate = s.mate ∧ t.resolver = s.resolver ∧ s.keepsRest t
        ∧ (∀ m, m ≠ l → t.lane m = s.lane m) ∧ (t.lane l).attention.lastServed.get h.level = some e.handle
        ∧ (cause ≠ 0 → t.dir = (s.update e { e with attention := .inService }).dir
            ∧ (t.lane l).attention.slots.get h.level
              = some {
                  handle := e.handle
                  deadline := if s.attnTimeout = 0 then none else some (s.now + 1000 * s.attnTimeout) }
            ∧ ((s.lane l).run = none → t.link = s.link.post (.attention e.handle h.level cause data)))
        ∧ (cause = 0 → t.dir = (s.update e { e with attention := .idle }).dir
            ∧ (t.lane l).attention.slots = (s.lane l).attention.slots
            ∧ ((s.lane l).run = none → t.link = s.link))

/-! ### Manifests, resolution, snapshots -/

/-- R155: MANIFEST_BEGIN opens a new load, or is refused and changes nothing. -/
def Obligations.ManifestBeginOpensLoad : Prop :=
  ∀ (s : State) (q : Request) (rest : List Request) (b hi lo n : Byte) (i : Fin 8), s.queued q rest → q.kind = 0x28 →
    (q.payload = [b, hi, lo, n] → 7 < b.toNat ∨ n = 0 ∨ 24 < n.toNat →
      exec .manifestBegin s = .next ((s.took rest).refuse q .badArgument))
    ∧ (q.payload = [byteOf i.val, hi, lo, n] → 1 ≤ n.toNat → n.toNat ≤ 24 →
      ((∃ j : Fin 8, j ≠ i ∧ (s.store.slots[j]).map (·.toolId) = some (word16 hi lo)) →
        exec .manifestBegin s = .next ((s.took rest).refuse q .noSlot))
      ∧ ((∀ j : Fin 8, j ≠ i → (s.store.slots[j]).map (·.toolId) ≠ some (word16 hi lo)) →
        exec .manifestBegin s = .next (State.ok { s.took rest with
          store := { s.store with load := some { slot := i, toolId := word16 hi lo, count := n.toNat, received := [] } } } q
          [byteOf i.val, hi, lo, n])))

/-- R156: MANIFEST_ENTRY adds the binding that has the expected index, or is refused and leaves the load as it was. -/
def Obligations.ManifestEntryAddsBinding : Prop :=
  ∀ (s : State) (q : Request) (rest : List Request), s.queued q rest → q.kind = 0x29 →
    lengthAllowed 0x29 q.payload = true →
    (s.store.load = none → exec .manifestEntry s = .next ((s.took rest).refuse q .notLoading))
    ∧ ∀ d, s.store.load = some d →
      ((at' q.payload 0).toNat ≠ d.received.length ∨ d.count ≤ d.received.length →
        exec .manifestEntry s = .next ((s.took rest).refuse q .sequence))
      ∧ ((at' q.payload 0).toNat = d.received.length → d.received.length < d.count →
        (¬ bindingFits q.payload → exec .manifestEntry s = .next ((s.took rest).refuse q .badArgument))
        ∧ (bindingFits q.payload → ∃ b : ManifestBinding,
          exec .manifestEntry s = .next (State.ok { s.took rest with
            store := { s.store with load := some { d with received := d.received ++ [b] } } } q
            [byteOf (d.received.length + 1)])
          ∧ b.role = q.payload.drop 10 ∧ b.cls = at' q.payload 2
          ∧ b.lane.map (·.val) = (if at' q.payload 1 = 0xFF then none else some (at' q.payload 1).toNat)
          ∧ b.level.map (·.val) = (if at' q.payload 4 = 3 then none else some (at' q.payload 4).toNat)
          ∧ b.required = (at' q.payload 3).getLsbD 1 ∧ (b.access = .rw ↔ (at' q.payload 3).getLsbD 2 = true)
          ∧ b.serial = (if (at' q.payload 3).getLsbD 0 then
              some (word32 (at' q.payload 5) (at' q.payload 6) (at' q.payload 7) (at' q.payload 8)) else none)))

/-- R157, R158: MANIFEST_END commits the load whole and MANIFEST_ERASE empties a slot, with a full resolution when a
resolved session's tool or applied slot is concerned; MANIFEST_END is refused without a load, with bindings missing, and
with a repeated role name, which discards the load. -/
def Obligations.ManifestIsCommittedOrErased : Prop :=
  (∀ (s : State) (q : Request) (rest : List Request), s.queued q rest → q.kind = 0x2A → q.payload = [] →
      (s.store.load = none → exec .manifestEnd s = .next ((s.took rest).refuse q .notLoading))
      ∧ ∀ d, s.store.load = some d →
        (d.received.length < d.count → exec .manifestEnd s = .next ((s.took rest).refuse q .incomplete))
        ∧ (d.count ≤ d.received.length → ¬ (d.received.map (·.role)).Nodup →
            exec .manifestEnd s = .next (State.refuse { s.took rest with store := { s.store with load := none } } q .duplicateRole))
        ∧ (d.count ≤ d.received.length → (d.received.map (·.role)).Nodup →
            ∃ t : State, t = { s.took rest with
                store := { slots := s.store.slots.set d.slot (some { toolId := d.toolId, bindings := d.received }), load := none } }
              ∧ (s.resolver.phase = .resolved → s.resolver.toolId = some d.toolId ∨ d.toolId = 0 ∨ s.resolver.applied = some d.slot →
                  exec .manifestEnd s = .next (t.fullResolution.ok q (byteOf d.slot.val :: be16 d.toolId)))
              ∧ (s.resolver.phase ≠ .resolved ∨ s.resolver.toolId ≠ some d.toolId ∧ d.toolId ≠ 0 ∧ s.resolver.applied ≠ some d.slot →
                  exec .manifestEnd s = .next (t.ok q (byteOf d.slot.val :: be16 d.toolId)))))
  ∧ (∀ (s : State) (q : Request) (rest : List Request) (b : Byte) (i : Fin 8), s.queued q rest → q.kind = 0x2B →
      (q.payload = [byteOf i.val] →
        ∃ t : State, t = { s.took rest with store := { s.store with slots := s.store.slots.set i none } }
          ∧ (s.resolver.phase = .resolved → s.resolver.applied = some i →
              exec .manifestErase s = .next (t.fullResolution.ok q [byteOf i.val]))
          ∧ (s.resolver.phase ≠ .resolved ∨ s.resolver.applied ≠ some i →
              exec .manifestErase s = .next (t.ok q [byteOf i.val])))
      ∧ (q.payload = [b] → 7 < b.toNat → exec .manifestErase s = .next ((s.took rest).refuse q .badArgument)))

/-- R159: MANIFEST_READ returns the slot's tool ID, its count and the binding at an index, and changes nothing. -/
def Obligations.ManifestReadReturnsBinding : Prop :=
  ∀ (s : State) (q : Request) (rest : List Request) (b k : Byte) (i : Fin 8), s.queued q rest → q.kind = 0x2C →
    (q.payload = [b, k] → 7 < b.toNat ∨ 23 < k.toNat → exec .manifestRead s = .next ((s.took rest).refuse q .badArgument))
    ∧ (q.payload = [byteOf i.val, k] → k.toNat ≤ 23 →
      (s.store.slots[i] = none → exec .manifestRead s = .next ((s.took rest).refuse q .outOfRange))
      ∧ ∀ m, s.store.slots[i] = some m →
        (m.bindings.length ≤ k.toNat → exec .manifestRead s = .next ((s.took rest).refuse q .outOfRange))
        ∧ ∀ x, m.bindings[k.toNat]? = some x →
          exec .manifestRead s = .next ((s.took rest).ok q
            (be16 m.toolId ++ [byteOf m.bindings.length, k,
              (match x.lane with
                | some l => byteOf l.val
                | none => 0xFF),
              x.cls, flagsByte [x.serial.isSome, x.required, decide (x.access = .rw)], byteOf (levelCode x.level)]
              ++ be32 (x.serial.getD 0) ++ byteOf x.role.length :: x.role)))

/-- R163 to R168, R172: RESOLVE in a resolved session runs a full resolution: it chooses the manifest from the identity
entries, gives the entries what the two passes give, advances the generation by the number of bindings that differ, computes
status and counts, and posts TOOL when status, slot or tool ID has changed; then it replies with the tool status, the applied
slot, the tool ID, the counts and the generation as they stand. Otherwise it is refused NOT_NOW. The tool ID bytes of an absent
session tool ID are a free value that the reply draws (log entry 9). That status and counts are computed from the manifest which the
applied slot holds is the model's reading (log entry 20). -/
def Obligations.ResolveRunsResolution : Prop :=
  ∀ (s : State) (q : Request) (rest : List Request), s.queued q rest → q.kind = 0x2D → q.payload = [] →
    (s.mate.session = false ∨ s.resolver.phase ≠ .resolved → exec .resolve s = .next ((s.took rest).refuse q .notNow))
    ∧ (s.mate.session = true → s.resolver.phase = .resolved →
      ∃ t, exec .resolve s = .next t ∧ s.resolvesTo t ∧ t.unit = .replying none ∧ t.mate = s.mate ∧ (s.took rest).keepsRest t
        ∧ (∃ k draw, Link.told { s.link with requests := rest } s.resolver t.resolver k
          ∧ t.link = k.send (q.replyWith .ok
            ([t.resolver.status.code,
              (match t.resolver.applied with
                | some i => byteOf i.val
                | none => 0xFF),
              yesNo t.resolver.toolId.isSome]
              ++ be16 (t.resolver.toolId.getD (Config.absentToolId draw))
              ++ [byteOf t.resolver.counts.bound, byteOf t.resolver.counts.requiredMissing,
                byteOf t.resolver.counts.optionalMissing, byteOf t.resolver.counts.extras]
              ++ be16 t.dir.generation)))
        ∧ ∀ l, (s.lane l).keepsStanding (t.lane l) ∧ (t.lane l).state = (s.lane l).state)

/-- R61, R163, R170: the oldest node-named report is taken (that reports stand in a queue is the model's choice, log entry 15).
One that was made or is taken before the initial resolution is absorbed: it changes nothing more. Of the others, a new entry that
is not an identity entry takes the binding that the two passes choose, and the status is computed; with no entry under the
reported handle and tag, with one that holds a binding, or with none that fits, nothing is bound and the status is computed; an
identity tag runs a full resolution. That the two passes and the status read the manifest from the applied slot is the model's
reading (log entry 20). -/
def Obligations.NodeNamedReportIsTaken : Prop :=
  ∀ (s : State) (r : Report) (rest : List Report), s.resolver.reports = r :: rest →
    (r.phase ≠ .resolved ∨ s.resolver.phase ≠ .resolved →
      exec .nodeNamedReport s = .next { s with resolver := { s.resolver with reports := rest } })
    ∧ (∀ e b, r.phase = .resolved → s.resolver.phase = .resolved → s.entry? r.handle = some e → e.tag = r.tag → Tag.isIdentity r.tag = false →
        e.binding = none → s.incrementalChoice e = some b →
        ∃ t, exec .nodeNamedReport s = .next t ∧ t.resolver.reports = rest ∧ t.lanes = s.lanes ∧ t.mate = s.mate
          ∧ s.keepsRest t ∧ t.resolver.applied = s.resolver.applied ∧ t.resolver.toolId = s.resolver.toolId
          ∧ t.dir.generation = s.dir.generation + 1
          ∧ t.dir.entries = s.dir.entries.map (fun x => if x.handle = e.handle then
              { e with
                binding := some { index := b.2, role := b.1.role, level := b.1.level, access := b.1.access, required := b.1.required }
                attention := if e.attention = .pending ∧ b.1.level.isNone then .idle else e.attention } else x)
          ∧ t.statusHolds ∧ s.link.told s.resolver t.resolver t.link)
    ∧ (∀ e x k, e.identity = false → (s.incrementalChoice e = some (x, k) ↔ s.takesBinding e k x)
        ∧ (s.incrementalChoice e = none ↔ ∀ j y, s.unheld j y → ¬ y.mayBind e))
    ∧ (r.phase = .resolved → s.resolver.phase = .resolved → Tag.isIdentity r.tag = false →
        (∀ e, s.entry? r.handle = some e → e.tag ≠ r.tag ∨ e.binding ≠ none ∨ s.incrementalChoice e = none) →
        ∃ t, exec .nodeNamedReport s = .next t ∧ t.resolver.reports = rest ∧ t.lanes = s.lanes ∧ t.dir = s.dir
          ∧ t.mate = s.mate ∧ s.keepsRest t ∧ t.resolver.applied = s.resolver.applied ∧ t.resolver.toolId = s.resolver.toolId
          ∧ t.statusHolds ∧ s.link.told s.resolver t.resolver t.link)
    ∧ (r.phase = .resolved → s.resolver.phase = .resolved → Tag.isIdentity r.tag = true →
        exec .nodeNamedReport s
          = .next ({ s with resolver := { s.resolver with reports := rest } } : State).fullResolution
        ∧ ∃ t, exec .nodeNamedReport s = .next t ∧ State.resolvesTo { s with resolver := { s.resolver with reports := rest } } t
          ∧ t.mate = s.mate ∧ s.keepsRest t
          ∧ ((∀ l, (s.lane l).run = none) → s.link.told s.resolver t.resolver t.link))

/-- R174 to R178: SNAPSHOT latches the directory, or reports that one is held or that the directory is empty;
SNAPSHOT_PAGE returns a page and marks it, with release at the last unread one; SNAPSHOT_RELEASE releases. The tool ID bytes of
descriptors without one are free values, drawn when the snapshot is latched, so that a page reads the same each time (log entry
9). -/
def Obligations.SnapshotIsLatchedReadReleased : Prop :=
  ∀ (s : State) (q : Request) (rest : List Request), s.queued q rest →
    (q.kind = 0x30 → q.payload = [] →
      (∀ sn, s.snap = some sn → exec .snapshot s = .next ((s.took rest).answer q .latchedAlready
          (be16 sn.generation ++ [byteOf sn.copy.length])))
      ∧ (s.snap = none → s.dir.entries = [] → exec .snapshot s = .next ((s.took rest).ok q (be16 s.dir.generation ++ [0, 0])))
      ∧ (s.snap = none → s.dir.entries ≠ [] → exec .snapshot s = .next (State.ok { s.took rest with
          draws := s.draws + 1
          snap := some { generation := s.dir.generation, copy := s.dir.entries, draw := s.draws
                         marks := List.replicate ((s.dir.entries.length + 3) / 4) false } } q
          (be16 s.dir.generation ++ [byteOf s.dir.entries.length, byteOf ((s.dir.entries.length + 3) / 4)]))))
    ∧ (∀ k : Byte, q.kind = 0x31 → q.payload = [k] →
      (s.snap = none → exec .snapshotPage s = .next ((s.took rest).refuse q .notLatched))
      ∧ ∀ sn, s.snap = some sn →
        (sn.marks.length ≤ k.toNat → exec .snapshotPage s = .next ((s.took rest).refuse q .badArgument))
        ∧ (k.toNat < sn.marks.length → exec .snapshotPage s = .next (State.ok { s.took rest with
            snap := if (sn.marks.set k.toNat true).all id then none else some { sn with marks := sn.marks.set k.toNat true } } q
            ([k, byteOf sn.marks.length] ++ be16 sn.generation ++ [byteOf ((sn.copy.drop (4 * k.toNat)).take 4).length]
              ++ (((sn.copy.drop (4 * k.toNat)).take 4).map (Entry.record sn.draw)).flatten))))
    ∧ (q.kind = 0x32 → q.payload = [] →
      (s.snap = none → exec .snapshotRelease s = .next ((s.took rest).refuse q .notLatched))
      ∧ ∀ sn, s.snap = some sn →
        exec .snapshotRelease s = .next (State.ok { s.took rest with snap := none } q (be16 sn.generation)))

/-! ### The Mate Monitor -/

/-- R1, R5 to R8: a sense event in each plug state. That a level which does not change is no event is the model's reading of R1
(log entry 8). R11, R26, R71, R96, R129, R130, R131, R152, R173: the close of a session stops the work of every lane that is not
DISABLED and resets the Resolver, with TOOL(NONE) when that changes what it shows, after PLUG(DETACHED); whether the reply
DETACHED to an access comes before or after TOOL(NONE) is open (log entry 10). R194: while a cold reset lasts, the event records
the pin's level and does nothing else, the model's reading (log entry 8). -/
def Obligations.SenseEventMovesPlug : Prop :=
  ∀ (s : State) (pin : SensePin) (level : Contact),
    (s.mate.level pin = level → exec (.senseEvent pin level) s = .next s)
    ∧ (s.mate.level pin ≠ level → s.hold ≠ none → exec (.senseEvent pin level) s = .next { s with mate := s.mate.record pin level })
    ∧ (s.mate.level pin ≠ level → s.hold = none →
      (s.mate.plug = .detached → level = .closed →
        exec (.senseEvent pin level) s = .next { s with
          mate := { s.mate.record pin level with plug := .mating, debounce := some (s.now + 20), partialTimer := some (s.now + 500) }
          link := s.link.post (.plug .mating) })
      ∧ (s.mate.plug = .detached → level = .opened →
        exec (.senseEvent pin level) s = .next { s with mate := s.mate.record pin level })
      ∧ (s.mate.plug = .mating ∨ s.mate.plug = .partialMate →
        exec (.senseEvent pin level) s = .next { s with mate := { s.mate.record pin level with debounce := some (s.now + 20) } })
      ∧ (s.mate.plug = .attached → level = .opened →
        ∃ t, exec (.senseEvent pin level) s = .next t ∧ t.mate.plug = .detached ∧ t.mate.session = false
          ∧ t.mate.debounce = none ∧ t.mate.partialTimer = none ∧ t.mate.enabled = s.mate.enabled ∧ t.mate.level pin = .opened
          ∧ s.keepsRest t ∧ (∀ l, (s.lane l).keepsParameters (t.lane l))
          ∧ (s.mate.session = false → t.link = s.link.post (.plug .detached) ∧ t.lanes = s.lanes ∧ t.dir = s.dir)
          ∧ (s.mate.session = true → (∀ m, s.noAccess m) →
              (s.link.post (.plug .detached)).told s.resolver Resolver.cold t.link ∧ t.unit = s.unit)
          ∧ (s.mate.session = true → ∀ kind token m r, s.unit = .accessWait kind token m → (s.lane m).run = some r → ∃ k,
              (s.link.post (.plug .detached)).told s.resolver Resolver.cold k
                ∧ t.link = k.send { kind := kind + 0x80, token := token, status := .detached, payload := r.payload }
              ∨ k = (s.link.post (.plug .detached)).send
                  { kind := kind + 0x80, token := token, status := .detached, payload := r.payload }
                ∧ k.told s.resolver Resolver.cold t.link)
          ∧ (s.mate.session = true → t.dir.entries = [] ∧ t.resolver = Resolver.cold
              ∧ t.dir.generation = s.dir.generation + (if s.dir.entries = [] then 0 else 1)
              ∧ (∀ l, (s.lane l).state ≠ .disabled → (t.lane l).state = .off ∧ (t.lane l).power = false
                  ∧ (t.lane l).engine = none ∧ (t.lane l).fault = (s.lane l).fault)
              ∧ (∀ l, (s.lane l).closesTo (t.lane l))
              ∧ ∀ kind token m r, s.unit = .accessWait kind token m → (s.lane m).run = some r →
                  t.unit = .replying none ∧ t.accessTimer = none
                  ∧ t.link.currentReply = some { kind := kind + 0x80, token := token, status := .detached, payload := r.payload })))

/-- R2, R3, R6, R7, R10, R22, R161, R162: the debounce expiry compares the senses, and with both closed opens the session of an
enabled plug, where the Resolver starts ENUMERATING with nothing applied and TOOL(ENUMERATING) follows PLUG(ATTACHED), or, with
no lane enabled, resolves at once; the partial expiry takes MATING to PARTIAL and leaves the debounce timer alone. -/
def Obligations.PlugTimersExpire : Prop :=
  ∀ (s : State) (d : Nat),
    (s.mate.debounce = some d → s.mate.plug = .mating ∨ s.mate.plug = .partialMate →
      (s.mate.lead = .opened → s.mate.seat = .opened → exec .debounceExpiry s = .next { s with
          mate := { s.mate with plug := .detached, debounce := none, partialTimer := none }, link := s.link.post (.plug .detached) })
      ∧ (s.mate.lead ≠ s.mate.seat → exec .debounceExpiry s = .next { s with mate := { s.mate with debounce := none } })
      ∧ (s.mate.lead = .closed → s.mate.seat = .closed → s.mate.enabled = false → exec .debounceExpiry s = .next { s with
          mate := { s.mate with plug := .attached, debounce := none, partialTimer := none }, link := s.link.post (.plug .attached) })
      ∧ (s.mate.lead = .closed → s.mate.seat = .closed → s.mate.enabled = true → s.mate.session = false →
          ∃ t, exec .debounceExpiry s = .next t ∧ t.mate.plug = .attached ∧ t.mate.session = true
            ∧ t.mate.debounce = none ∧ t.mate.partialTimer = none ∧ s.keepsRest t
            ∧ (∀ l, (s.lane l).keepsParameters (t.lane l) ∧ (t.lane l).fault = (s.lane l).fault)
            ∧ (∀ l, (s.lane l).state = .off → (t.lane l).state = .settling ∧ (t.lane l).power = true
                ∧ (t.lane l).settleTimer = some (s.now + 50))
            ∧ (∀ l, (s.lane l).state = .disabled → (t.lane l).state = .disabled)
            ∧ ((∃ l, (s.lane l).enabled = true) → t.dir = s.dir ∧ t.resolver = Resolver.begun
                ∧ (s.link.post (.plug .attached)).told s.resolver Resolver.begun t.link)
            ∧ ((∀ l, (s.lane l).enabled = false) → State.resolvesTo { s with resolver := Resolver.begun } t
                ∧ ((∀ l, (s.lane l).run = none) → ∃ k, (s.link.post (.plug .attached)).told s.resolver Resolver.begun k
                    ∧ k.told Resolver.begun t.resolver t.link))))
    ∧ (s.mate.partialTimer = some d → s.mate.plug = .mating → exec .partialExpiry s = .next { s with
        mate := { s.mate with plug := .partialMate, partialTimer := none }, link := s.link.post (.plug .partialMate) })

/-- R9, R12, R13, R161, R162, R173: PLUG_ENABLE and PLUG_DISABLE set the enable, open or close the session, and reply with the
plug state and the session as they then stand. A session that opens starts the Resolver ENUMERATING, with TOOL(ENUMERATING)
before the reply, or, with no lane enabled, resolves at once; one that is open already goes on unchanged. A session that closes
stops the work of every lane that is not DISABLED (R26, R71, R96, R130, R131, R152) and resets the Resolver, with TOOL(NONE), where
that changes what it shows, before the reply. -/
def Obligations.PlugEnableRulesSession : Prop :=
  ∀ (s : State) (q : Request) (rest : List Request), s.queued q rest → q.payload = [] →
    (q.kind = 0x08 →
      (s.mate.plug ≠ .attached → exec .plugEnable s = .next (State.ok { s.took rest with
          mate := { s.mate with enabled := true } } q [s.mate.plug.code, yesNo s.mate.session]))
      ∧ (s.mate.plug = .attached → s.mate.session = true → exec .plugEnable s = .next (State.ok { s.took rest with
          mate := { s.mate with enabled := true } } q [3, 1]))
      ∧ (s.mate.plug = .attached → ∃ t, exec .plugEnable s = .next t ∧ t.unit = .replying none
          ∧ t.mate = { s.mate with enabled := true, session := true }
          ∧ t.link.currentReply = some (q.replyWith .ok [3, 1]) ∧ (s.took rest).keepsRest t
          ∧ (∀ l, (s.lane l).keepsParameters (t.lane l) ∧ (t.lane l).fault = (s.lane l).fault)
          ∧ (s.mate.session = false → ∀ l, (s.lane l).state = .off → (t.lane l).state = .settling ∧ (t.lane l).power = true)
          ∧ (s.mate.session = false → (∃ l, (s.lane l).enabled = true) → t.dir = s.dir ∧ t.resolver = Resolver.begun
              ∧ ∃ k, Link.told { s.link with requests := rest } s.resolver Resolver.begun k
                ∧ t.link = k.send (q.replyWith .ok [3, 1]))
          ∧ (s.mate.session = false → (∀ l, (s.lane l).enabled = false) →
              State.resolvesTo { s with resolver := Resolver.begun } t
              ∧ ∃ k j, Link.told { s.link with requests := rest } s.resolver Resolver.begun k
                ∧ k.told Resolver.begun t.resolver j ∧ t.link = j.send (q.replyWith .ok [3, 1]))))
    ∧ (q.kind = 0x09 → ∃ t, exec .plugDisable s = .next t ∧ t.unit = .replying none
          ∧ t.mate = { s.mate with enabled := false, session := false }
          ∧ t.link.currentReply = some (q.replyWith .ok [s.mate.plug.code, 0]) ∧ (s.took rest).keepsRest t
          ∧ (∀ l, (s.lane l).keepsParameters (t.lane l) ∧ (t.lane l).fault = (s.lane l).fault)
          ∧ (s.mate.session = false → exec .plugDisable s = .next (State.ok { s.took rest with
              mate := { s.mate with enabled := false } } q [s.mate.plug.code, 0]))
          ∧ (s.mate.session = true → t.dir.entries = [] ∧ t.resolver = Resolver.cold
              ∧ t.dir.generation = s.dir.generation + (if s.dir.entries = [] then 0 else 1)
              ∧ (∀ l, (s.lane l).state ≠ .disabled → (t.lane l).state = .off ∧ (t.lane l).power = false)
              ∧ (∀ l, (s.lane l).closesTo (t.lane l))
              ∧ ∃ k, Link.told { s.link with requests := rest } s.resolver Resolver.cold k
                ∧ t.link = k.send (q.replyWith .ok [s.mate.plug.code, 0])))
end

