-- ==== Sys2Proof/Laws/Bytes.lean ====
section
/-! SUPPORT. Byte forms read back: characters on a line, words and tags from their bytes, an answer's check. -/

namespace Sys2Proof.Machine

/-! ### Characters (R182, R198) -/

/-- R16, R182: ten bit times for one byte. -/
theorem character_length (b : Byte) : (character b).length = 10 := by simp [character]

theorem characters_length (bs : List Byte) : (characters bs).length = 10 * bs.length := by
  induction bs with
  | nil => rfl
  | cons b bs ih => simp [characters, character_length] at ih ⊢; omega

/-- R182: the data bits of a character give its byte back. -/
theorem sampledByte_data (b : Byte) (stop : Bool) : sampledByte ((List.range 8).map b.getLsbD) stop = b := by
  have h : ∀ b : Byte, flagsByte ((List.range 8).map b.getLsbD) = b := by decide +kernel
  exact h b

/-! ### Words, tags and checks -/

/-- Two bytes of a word give it back. -/
theorem word16_be16 (v : Word16) : word16 (v.extractLsb' 8 8) (v.extractLsb' 0 8) = v := by
  unfold word16
  apply BitVec.eq_of_getLsbD_eq
  intro i hi
  simp only [BitVec.getLsbD_append, BitVec.getLsbD_extractLsb']
  by_cases h : i < 8
  · simp [h]
  · simp [h, show i - 8 < 8 by omega, show 8 + (i - 8) = i by omega]

/-- An answer that ends with the CRC-8 over its bytes passes its check. -/
theorem answerCheck_cons (a : Byte) (xs : List Byte) : answerCheck (a :: (xs ++ [crc8 (a :: xs)])) = true := by
  have : (a :: (xs ++ [crc8 (a :: xs)])) = (a :: xs) ++ [crc8 (a :: xs)] := rfl
  unfold answerCheck
  rw [this, List.getLast?_concat, List.dropLast_concat]
  simp

/-- Four bytes of a word give it back. -/
theorem word32_be32 (v : Word32) : word32 (v.extractLsb' 24 8) (v.extractLsb' 16 8) (v.extractLsb' 8 8) (v.extractLsb' 0 8) = v := by
  unfold word32
  apply BitVec.eq_of_getLsbD_eq
  intro i hi
  simp only [BitVec.getLsbD_append, BitVec.getLsbD_extractLsb']
  have : i < 8 ∨ (8 ≤ i ∧ i < 16) ∨ (16 ≤ i ∧ i < 24) ∨ (24 ≤ i ∧ i < 32) := by omega
  rcases this with h | ⟨h1, h2⟩ | ⟨h1, h2⟩ | ⟨h1, h2⟩
  · simp [h, show i < 16 by omega]
  · simp [h2, show ¬ i < 8 by omega, show i - 8 < 8 by omega, show 8 + (i - 8) = i by omega]
  · simp [show ¬ i < 16 by omega, show i - 16 < 8 by omega, show 16 + (i - 16) = i by omega]
  · simp [show ¬ i < 16 by omega, show ¬ i - 16 < 8 by omega, show i - 16 - 8 < 8 by omega, show 24 + (i - 16 - 8) = i by omega]

/-- Five bytes of a tag give it back. -/
theorem mkTag_be40 (t : Tag) : mkTag (t.extractLsb' 32 8) (word32
    (t.extractLsb' 24 8) (t.extractLsb' 16 8) (t.extractLsb' 8 8) (t.extractLsb' 0 8)) = t := by
  unfold mkTag word32
  apply BitVec.eq_of_getLsbD_eq
  intro i hi
  simp only [BitVec.getLsbD_append, BitVec.getLsbD_extractLsb']
  have : i < 8 ∨ (8 ≤ i ∧ i < 16) ∨ (16 ≤ i ∧ i < 24) ∨ (24 ≤ i ∧ i < 32) ∨ (32 ≤ i ∧ i < 40) := by omega
  rcases this with h | ⟨h1, h2⟩ | ⟨h1, h2⟩ | ⟨h1, h2⟩ | ⟨h1, h2⟩
  · simp [h, show i < 16 by omega, show i < 32 by omega]
  · simp [h2, show i < 32 by omega, show ¬ i < 8 by omega, show i - 8 < 8 by omega, show 8 + (i - 8) = i by omega]
  · simp [show i < 32 by omega, show ¬ i < 16 by omega, show i - 16 < 8 by omega, show 16 + (i - 16) = i by omega]
  · simp [show i < 32 by omega, show ¬ i < 16 by omega, show ¬ i - 16 < 8 by omega, show i - 16 - 8 < 8 by omega, show 24 + (i - 16 - 8) = i by omega]
  · simp [show ¬ i < 32 by omega, show i - 32 < 8 by omega, show 32 + (i - 32) = i by omega]

end Sys2Proof.Machine
end

