-- ==== Sys2Proof/Laws/Answers.lean ====
section
/-! SUPPORT. What makes an answer valid, refused or CLEAN (R32, R34, R198). -/

namespace Sys2Proof.Machine

theorem answerCheck_iff (bytes : List Byte) : answerCheck bytes = true ↔ ∃ body, bytes = body ++ [crc8 body] := by
  unfold answerCheck
  constructor
  · intro h
    cases hl : bytes.getLast? with
    | none => simp [hl] at h
    | some x =>
      simp only [hl, decide_eq_true_eq] at h
      refine ⟨bytes.dropLast, ?_⟩
      rw [h]
      exact (List.dropLast_append_getLast? x hl).symm
  · rintro ⟨body, rfl⟩
    simp

theorem bit_append16 (a b : Byte) (i : Nat) :
    BitVec.getLsbD (w := 16) (a ++ b) i = if i < 8 then b.getLsbD i else a.getLsbD (i - 8) := by
  have h : BitVec.getLsbD (a ++ b) i = _ := BitVec.getLsbD_append
  rw [h]

theorem bit_append32 (a b : Word16) (i : Nat) :
    BitVec.getLsbD (w := 32) (a ++ b) i = if i < 16 then b.getLsbD i else a.getLsbD (i - 16) := by
  have h : BitVec.getLsbD (a ++ b) i = _ := BitVec.getLsbD_append
  rw [h]

theorem bit_append40 (a : Byte) (b : Word32) (i : Nat) :
    BitVec.getLsbD (w := 40) (a ++ b) i = if i < 32 then b.getLsbD i else a.getLsbD (i - 32) := by
  have h : BitVec.getLsbD (a ++ b) i = _ := BitVec.getLsbD_append
  rw [h]

theorem be16_word16 (a b : Byte) : be16 (word16 a b) = [a, b] := by
  unfold be16 word16
  have h1 : BitVec.extractLsb' 8 8 (a ++ b) = a := by
    ext i hi
    rw [BitVec.getElem_extractLsb', bit_append16, if_neg (by omega), show 8 + i - 8 = i by omega, BitVec.getLsbD_eq_getElem hi]
  have h2 : BitVec.extractLsb' 0 8 (a ++ b) = b := by
    ext i hi
    rw [BitVec.getElem_extractLsb', bit_append16, if_pos (by omega), Nat.zero_add, BitVec.getLsbD_eq_getElem hi]
  rw [h1, h2]

/-- Four bytes are the bytes of the word they make. -/
theorem be32_word32 (a b c d : Byte) : be32 (word32 a b c d) = [a, b, c, d] := by
  have key : ∀ k, (hk : k < 4) → BitVec.extractLsb' (8 * k) 8 (word32 a b c d) = [d, c, b, a][k]'hk := by
    intro k hk
    ext i hi
    unfold word32
    rw [BitVec.getElem_extractLsb', bit_append32]
    have h1 : ∀ x y : Byte, ∀ j, BitVec.getLsbD (w := 16) (x ++ y) j = if j < 8 then y.getLsbD j else x.getLsbD (j - 8) := bit_append16
    match k, hk with
    | 0, _ => rw [if_pos (by omega), h1, if_pos (by omega)]; simp [BitVec.getLsbD_eq_getElem hi]
    | 1, _ => rw [if_pos (by omega), h1, if_neg (by omega), show 8 * 1 + i - 8 = i by omega]; simp [BitVec.getLsbD_eq_getElem hi]
    | 2, _ =>
      rw [if_neg (by omega), h1, if_pos (by omega), show 8 * 2 + i - 16 = i by omega]; simp [BitVec.getLsbD_eq_getElem hi]
    | 3, _ =>
      rw [if_neg (by omega), h1, if_neg (by omega), show 8 * 3 + i - 16 - 8 = i by omega]; simp [BitVec.getLsbD_eq_getElem hi]
  exact congrArg₂ _ (key 3 (by omega)) (congrArg₂ _ (key 2 (by omega)) (congrArg₂ _ (key 1 (by omega))
    (congrArg₂ _ (key 0 (by omega)) rfl)))

/-- Five bytes are the bytes of the tag they make. -/
theorem be40_mkTag (t a b c d : Byte) : be40 (mkTag t (word32 a b c d)) = [t, a, b, c, d] := by
  have h := be32_word32 a b c d
  unfold be32 at h
  unfold be40 mkTag
  generalize word32 a b c d = w at *
  have h0 : BitVec.extractLsb' 32 8 (t ++ w) = t := by
    ext i hi
    rw [BitVec.getElem_extractLsb', bit_append40, if_neg (by omega), show 32 + i - 32 = i by omega, BitVec.getLsbD_eq_getElem hi]
  have hk : ∀ k, k + 8 ≤ 32 → BitVec.extractLsb' k 8 (t ++ w) = BitVec.extractLsb' k 8 w := by
    intro k hk
    ext i hi
    rw [BitVec.getElem_extractLsb', bit_append40, if_pos (by omega), BitVec.getElem_extractLsb']
  rw [h0, hk 24 (by omega), hk 16 (by omega), hk 8 (by omega), hk 0 (by omega), h]

theorem byteOf_toNat' (b : Byte) : byteOf b.toNat = b := by simp [byteOf]

theorem byteOf_of_lt {n : Nat} (h : n < 256) : (byteOf n).toNat = n := by simp [byteOf, Nat.mod_eq_of_lt h]

/-- R198: the flags byte of a descriptor. -/
theorem descriptor_flags (f : Byte) (h : f.toNat < 4) :
    f = (if f.getLsbD 0 then 1 else 0) + (if f.getLsbD 1 then 2 else 0) := by
  have : ∀ n, n < 4 → (BitVec.ofNat 8 n) = (if (BitVec.ofNat 8 n).getLsbD 0 then 1 else 0)
      + (if (BitVec.ofNat 8 n).getLsbD 1 then (2 : Byte) else 0) := by decide
  have h2 := this f.toNat h
  simpa using h2

/-- R198: the contents of a DESCRIPTOR answer, with R32's bounds. -/
def Descriptor.fitsAs (d : Descriptor) (c : List Byte) : Prop :=
  1 ≤ d.objectCount ∧ d.objectCount ≤ 255 ∧ d.label.length ≤ 12
    ∧ c = be16 d.maker ++ [d.revision, byteOf d.objectCount,
          (if d.attnCapable then 1 else 0) + (if d.toolId.isSome then 2 else 0)]
          ++ (match d.toolId with
              | some x => be16 x
              | none => [])
          ++ (byteOf d.label.length :: d.label)

theorem readDescriptor_iff (c : List Byte) (d : Descriptor) : readDescriptor c = some d ↔ d.fitsAs c := by
  constructor
  · intro h
    match c, h with
    | [], h => cases h
    | [_], h => simp [readDescriptor] at h
    | [_, _], h => simp [readDescriptor] at h
    | [_, _, _], h => simp [readDescriptor] at h
    | [_, _, _, _], h => simp [readDescriptor, at'] at h
    | a0 :: a1 :: a2 :: a3 :: f :: tail, h =>
      unfold readDescriptor at h
      simp only [at', List.getD_cons_zero, List.getD_cons_succ, List.drop_succ_cons, List.drop_zero] at h
      cases ht : f.getLsbD 1 with
      | false =>
        simp only [ht, Bool.false_eq_true, if_false] at h
        cases tail with
        | nil => cases h
        | cons n label =>
          simp only at h
          split at h
          · rename_i hc
            cases h
            refine ⟨hc.2.2.1, ?_, ?_, ?_⟩
            · simp only; have := a3.isLt; omega
            · simp only; omega
            · have hf := descriptor_flags f hc.2.1
              rw [ht] at hf
              simp only [be16_word16, byteOf_toNat', hc.2.2.2.2, Option.isSome_none]
              rw [← hf]; rfl
          · cases h
      | true =>
        simp only [ht, if_true] at h
        match tail, h with
        | [], h => cases h
        | [_], h => cases h
        | [_, _], h => cases h
        | t0 :: t1 :: n :: label, h =>
          simp only [List.drop_succ_cons, List.drop_zero, List.getD_cons_zero, List.getD_cons_succ] at h
          split at h
          · rename_i hc
            cases h
            refine ⟨hc.2.2.1, ?_, ?_, ?_⟩
            · simp only; have := a3.isLt; omega
            · simp only; omega
            · have hf := descriptor_flags f hc.2.1
              rw [ht] at hf
              simp only [be16_word16, byteOf_toNat', hc.2.2.2.2, Option.isSome_some]
              rw [if_pos rfl] at hf
              rw [if_pos trivial, ← hf]; rfl
          · cases h
  · rintro ⟨h1, h2, h3, rfl⟩
    obtain ⟨mk, rv, oc, ac, lb, ti⟩ := d
    simp only at h1 h2 h3
    have ho : (byteOf oc).toNat = oc := byteOf_of_lt (by omega)
    have hl : (byteOf lb.length).toNat = lb.length := byteOf_of_lt (by omega)
    have hm : word16 (mk.extractLsb' 8 8) (mk.extractLsb' 0 8) = mk := word16_be16 mk
    cases ti with
    | none =>
      cases ac <;>
        simp [readDescriptor, be16, at', ho, hl, hm, h1, h3]
    | some x =>
      have hx : word16 (x.extractLsb' 8 8) (x.extractLsb' 0 8) = x := word16_be16 x
      cases ac <;>
        simp [readDescriptor, be16, at', ho, hl, hm, hx, h1, h3]

theorem be40_ext {c : List Byte} (h : c.length = 5) :
    be40 (mkTag (at' c 0) (word32 (at' c 1) (at' c 2) (at' c 3) (at' c 4))) = c := by
  match c, h with
  | [a, b, d, e, f], _ => exact be40_mkTag a b d e f

theorem be32_ext {c : List Byte} (h : c.length = 4) : be32 (word32 (at' c 0) (at' c 1) (at' c 2) (at' c 3)) = c := by
  match c, h with
  | [a, b, d, e], _ => exact be32_word32 a b d e

/-- R32: the form of an answer, given as its code and contents. -/
theorem judgeForm_valid (t : Telegram) (h : t.directed = true) (code : Byte) (c : List Byte) (x : Answer) :
    judgeForm t code c = .valid x ↔ t.answerForm x (code :: c) := by
  cases t with
  | forget => cases h
  | survey p => cases h
  | rollcall => cases h
  | assign tag a =>
    simp only [judgeForm]
    constructor
    · intro hj
      split at hj
      · rename_i hc
        cases hj
        obtain ⟨h1, h2, h3⟩ := hc
        match c, h2 with
        | [b], _ => change b = byteOf a at h3; simp [Telegram.answerForm, h1, h3]
      · cases hj
    · intro hf
      cases x <;> simp only [Telegram.answerForm] at hf
      injection hf with h1 h2
      subst h1 h2
      rw [if_pos ⟨rfl, rfl, rfl⟩]
  | describe a i =>
    simp only [judgeForm]
    constructor
    · intro hj
      split at hj
      · rename_i hc
        split at hj
        · rename_i d hd
          split at hj
          · rename_i hi
            cases hj
            obtain ⟨k1, k2, k3, k4⟩ := (readDescriptor_iff c d).mp hd
            refine ⟨k1, k2, k3, hi, ?_⟩
            rw [hc, k4]
            all_goals rfl
          · cases hj
        · cases hj
      · cases hj
    · intro hf
      cases x <;> simp only [Telegram.answerForm] at hf
      rename_i d
      obtain ⟨k1, k2, k3, k4, k5⟩ := hf
      injection k5 with k5 k6
      have hd : readDescriptor c = some d := (readDescriptor_iff c d).mpr ⟨k1, k2, k3, k6⟩
      rw [if_pos k5]
      simp only [hd]
      rw [if_pos k4]
  | ping a =>
    simp only [judgeForm]
    constructor
    · intro hj
      split at hj
      · rename_i hc
        cases hj
        obtain ⟨h1, h2, h3⟩ := hc
        match c, h2 with
        | [b], _ =>
          have h3 : b.toNat ≤ 1 := h3
          have : b = 0 ∨ b = 1 := by
            have : b.toNat = 0 ∨ b.toNat = 1 := by omega
            rcases this with h | h
            · exact .inl (BitVec.eq_of_toNat_eq h)
            · exact .inr (BitVec.eq_of_toNat_eq h)
          rcases this with rfl | rfl <;> simp [Telegram.answerForm, h1, at']
      · cases hj
    · intro hf
      cases x <;> simp only [Telegram.answerForm] at hf
      rename_i f
      injection hf with h1 h2
      subst h1 h2
      cases f <;> rfl
  | read a o =>
    simp only [judgeForm]
    constructor
    · intro hj
      split at hj
      · rename_i hc
        cases hj
        exact congrArg₂ _ hc.1 (be32_ext hc.2).symm
      · split at hj <;> cases hj
    · intro hf
      cases x <;> simp only [Telegram.answerForm] at hf
      rename_i v
      injection hf with h1 h2
      subst h1 h2
      rw [if_pos ⟨rfl, rfl⟩]
      exact congrArg _ (congrArg _ (word32_be32 v))
  | write a o v =>
    simp only [judgeForm]
    constructor
    · intro hj
      split at hj
      · rename_i hc
        cases hj
        have := List.length_eq_zero_iff.mp hc.2
        simp [Telegram.answerForm, hc.1, this]
      · split at hj <;> cases hj
    · intro hf
      cases x <;> simp only [Telegram.answerForm] at hf
      injection hf with h1 h2
      subst h1 h2
      rfl
  | heed a =>
    simp only [judgeForm]
    constructor
    · intro hj
      split at hj
      · rename_i hc
        cases hj
        obtain ⟨h1, h2, h3, h4⟩ := hc
        match c, h2 with
        | b :: n :: data, _ =>
          have h3 : n.toNat ≤ 4 := h3
          have h4 : data.length + 1 + 1 = 2 + n.toNat := h4
          have h4 : data.length = n.toNat := by omega
          refine ⟨?_, ?_⟩
          · change data.length ≤ 4; omega
          · rw [h1]
            change 0x67 :: b :: n :: data = 0x67 :: b :: byteOf data.length :: data
            rw [h4, byteOf_toNat']
      · cases hj
    · intro hf
      cases x <;> simp only [Telegram.answerForm] at hf
      rename_i b data
      obtain ⟨k1, k2⟩ := hf
      injection k2 with h1 h2
      subst h1 h2
      have hn : (byteOf data.length).toNat = data.length := byteOf_of_lt (by omega)
      rw [if_pos]
      · rfl
      · refine ⟨rfl, by simp, ?_, ?_⟩
        · change (byteOf data.length).toNat ≤ 4; omega
        · change (b :: byteOf data.length :: data).length = 2 + (byteOf data.length).toNat
          rw [hn]; simp; omega
  | clear a =>
    simp only [judgeForm]
    constructor
    · intro hj
      split at hj
      · rename_i hc
        cases hj
        have := List.length_eq_zero_iff.mp hc.2
        simp [Telegram.answerForm, hc.1, this]
      · cases hj
    · intro hf
      cases x <;> simp only [Telegram.answerForm] at hf
      injection hf with h1 h2
      subst h1 h2
      rfl

theorem judgeForm_refused (t : Telegram) (code : Byte) (c : List Byte) :
    judgeForm t code c = .refused ↔ t.refusable ∧ code = 0x62 ∧ c = [] := by
  constructor
  · intro h
    cases t <;> simp only [judgeForm, Telegram.refusable] at h ⊢ <;> repeat' split at h
    all_goals first
      | cases h; done
      | (rename_i hc; exact ⟨by simp, hc.1, List.length_eq_zero_iff.mp hc.2⟩)
  · rintro ⟨⟨a, o, rfl⟩ | ⟨a, o, v, rfl⟩, rfl, rfl⟩ <;> rfl

theorem judgeForm_kind (t : Telegram) (code : Byte) (c : List Byte) :
    (∃ x, judgeForm t code c = .valid x) ∨ judgeForm t code c = .refused ∨ judgeForm t code c = .invalid := by
  cases t <;> simp only [judgeForm] <;> (repeat' split) <;> simp

theorem judgeAnswer_directed (t : Telegram) (h : t.directed = true) (contention : Bool) (bytes : List Byte) :
    judgeAnswer t contention bytes = if !contention && answerCheck bytes then judgeForm t (at' bytes 0) (bytes.dropLast.drop 1)
      else .invalid := by
  cases t <;> first | rfl | cases h

/-- The answer that is its CRC-8 alone fits no telegram. -/
theorem judgeForm_empty (t : Telegram) : judgeForm t (crc8 []) [] = .invalid := by
  cases t <;> simp [judgeForm, crc8]

/-- R32: what makes an answer to a directed telegram valid. -/
theorem judgeAnswer_valid (t : Telegram) (h : t.directed = true) (contention : Bool) (bytes : List Byte) (x : Answer) :
    judgeAnswer t contention bytes = .valid x
      ↔ contention = false ∧ ∃ body, t.answerForm x body ∧ bytes = body ++ [crc8 body] := by
  rw [judgeAnswer_directed t h]
  constructor
  · intro hj
    split at hj
    · rename_i hc
      simp only [Bool.and_eq_true, Bool.not_eq_true'] at hc
      obtain ⟨body, hb⟩ := (answerCheck_iff bytes).mp hc.2
      refine ⟨hc.1, body, ?_, hb⟩
      subst hb
      cases body with
      | nil => rw [show at' ([] ++ [crc8 []]) 0 = crc8 [] from rfl] at hj; rw [show (([] : List Byte) ++ [crc8 []]).dropLast.drop 1 = [] from rfl, judgeForm_empty] at hj; cases hj
      | cons a as =>
        rw [List.dropLast_concat] at hj
        exact (judgeForm_valid t h a as x).mp hj
    · cases hj
  · rintro ⟨rfl, body, hf, rfl⟩
    have hc : answerCheck (body ++ [crc8 body]) = true := (answerCheck_iff _).mpr ⟨body, rfl⟩
    rw [hc]
    simp only [Bool.not_false, Bool.and_self, if_true, List.dropLast_concat]
    cases body with
    | nil => cases t <;> cases x <;> simp [Telegram.answerForm] at hf
    | cons a as => exact (judgeForm_valid t h a as x).mpr hf

theorem judgeAnswer_refused (t : Telegram) (h : t.directed = true) (contention : Bool) (bytes : List Byte) :
    judgeAnswer t contention bytes = .refused ↔ contention = false ∧ t.refusable ∧ bytes = [0x62, crc8 [0x62]] := by
  rw [judgeAnswer_directed t h]
  constructor
  · intro hj
    split at hj
    · rename_i hc
      simp only [Bool.and_eq_true, Bool.not_eq_true'] at hc
      obtain ⟨body, hb⟩ := (answerCheck_iff bytes).mp hc.2
      subst hb
      obtain ⟨k1, k2, k3⟩ := (judgeForm_refused t _ _).mp hj
      refine ⟨hc.1, k1, ?_⟩
      rw [List.dropLast_concat] at k3
      cases body with
      | nil => exact absurd k2 (by decide)
      | cons a as =>
        change a = 0x62 at k2
        change as = [] at k3
        subst k2 k3; rfl
    · cases hj
  · rintro ⟨rfl, k, rfl⟩
    rcases k with ⟨a, o, rfl⟩ | ⟨a, o, v, rfl⟩ <;> rfl

theorem judgeAnswer_kind (t : Telegram) (h : t.directed = true) (contention : Bool) (bytes : List Byte) :
    (∃ x, judgeAnswer t contention bytes = .valid x) ∨ judgeAnswer t contention bytes = .refused
      ∨ judgeAnswer t contention bytes = .invalid := by
  rw [judgeAnswer_directed t h]
  split
  · exact judgeForm_kind _ _ _
  · exact .inr (.inr rfl)

/-- R34: what makes the window of a SURVEY CLEAN. -/
theorem judgeAnswer_clean (p : Digits) (contention : Bool) (bytes : List Byte) (tag : Tag) :
    judgeAnswer (.survey p) contention bytes = .clean tag
      ↔ contention = false ∧ tagBegins p tag = true ∧ bytes = 0x63 :: (be40 tag ++ [crc8 (0x63 :: be40 tag)]) := by
  unfold judgeAnswer
  simp only []
  constructor
  · intro hj
    split at hj
    · rename_i hc
      simp only [Bool.and_eq_true, Bool.not_eq_true', decide_eq_true_eq] at hc
      split at hj
      · rename_i ht
        cases hj
        obtain ⟨⟨h1, h2⟩, h3, h4⟩ := hc
        refine ⟨h1, ht, ?_⟩
        obtain ⟨body, rfl⟩ := (answerCheck_iff bytes).mp h2
        rw [List.dropLast_concat] at h4 ⊢
        rw [be40_ext h4]
        cases body with
        | nil => simp at h4
        | cons a as =>
          change a = 0x63 at h3
          subst h3; rfl
      · cases hj
    · cases hj
  · rintro ⟨rfl, ht, rfl⟩
    have h1 := answerCheck_cons 0x63 (be40 tag)
    have h2 : (0x63 :: (be40 tag ++ [crc8 (0x63 :: be40 tag)])).dropLast.drop 1 = be40 tag := by
      rw [show (0x63 :: (be40 tag ++ [crc8 (0x63 :: be40 tag)])) = (0x63 :: be40 tag) ++ [crc8 (0x63 :: be40 tag)] from rfl,
        List.dropLast_concat]; rfl
    have h3 : mkTag (at' (be40 tag) 0) (word32 (at' (be40 tag) 1) (at' (be40 tag) 2) (at' (be40 tag) 3) (at' (be40 tag) 4))
        = tag := mkTag_be40 tag
    simp only [h1, h2, h3, ht, if_true]
    rfl

theorem judgeAnswer_survey (p : Digits) (contention : Bool) (bytes : List Byte) :
    (∃ tag, judgeAnswer (.survey p) contention bytes = .clean tag) ∨ judgeAnswer (.survey p) contention bytes = .collided := by
  unfold judgeAnswer
  simp only []
  split
  · split
    · exact .inl ⟨_, rfl⟩
    · exact .inr rfl
  · exact .inr rfl

end Sys2Proof.Machine
end

