-- ==== Sys2Proof/Laws/State.lean ====
section
/-! SUPPORT. One lemma for each field that a named update leaves alone, true by rfl. -/

namespace Sys2Proof.Machine

@[simp] theorem State.setLane_link (s : State) (l : LaneId) (x : Lane) : (s.setLane l x).link = s.link := rfl
@[simp] theorem State.setLane_unit (s : State) (l : LaneId) (x : Lane) : (s.setLane l x).unit = s.unit := rfl
@[simp] theorem State.setLane_accessTimer (s : State) (l : LaneId) (x : Lane) : (s.setLane l x).accessTimer = s.accessTimer := rfl
@[simp] theorem State.setLane_mate (s : State) (l : LaneId) (x : Lane) : (s.setLane l x).mate = s.mate := rfl
@[simp] theorem State.setLane_dir (s : State) (l : LaneId) (x : Lane) : (s.setLane l x).dir = s.dir := rfl
@[simp] theorem State.setLane_store (s : State) (l : LaneId) (x : Lane) : (s.setLane l x).store = s.store := rfl
@[simp] theorem State.setLane_resolver (s : State) (l : LaneId) (x : Lane) : (s.setLane l x).resolver = s.resolver := rfl
@[simp] theorem State.setLane_snap (s : State) (l : LaneId) (x : Lane) : (s.setLane l x).snap = s.snap := rfl
@[simp] theorem State.setLane_missLimit (s : State) (l : LaneId) (x : Lane) : (s.setLane l x).missLimit = s.missLimit := rfl
@[simp] theorem State.setLane_attnTimeout (s : State) (l : LaneId) (x : Lane) : (s.setLane l x).attnTimeout = s.attnTimeout := rfl
@[simp] theorem State.setLane_hold (s : State) (l : LaneId) (x : Lane) : (s.setLane l x).hold = s.hold := rfl
@[simp] theorem State.setLane_now (s : State) (l : LaneId) (x : Lane) : (s.setLane l x).now = s.now := rfl
@[simp] theorem State.setLane_draws (s : State) (l : LaneId) (x : Lane) : (s.setLane l x).draws = s.draws := rfl
@[simp] theorem State.setLane_pending (s : State) (l : LaneId) (x : Lane) : (s.setLane l x).pending = s.pending := rfl

@[simp] theorem State.modLane_link (s : State) (l : LaneId) (f : Lane → Lane) : (s.modLane l f).link = s.link := rfl
@[simp] theorem State.modLane_unit (s : State) (l : LaneId) (f : Lane → Lane) : (s.modLane l f).unit = s.unit := rfl
@[simp] theorem State.modLane_accessTimer (s : State) (l : LaneId) (f : Lane → Lane) : (s.modLane l f).accessTimer = s.accessTimer := rfl
@[simp] theorem State.modLane_mate (s : State) (l : LaneId) (f : Lane → Lane) : (s.modLane l f).mate = s.mate := rfl
@[simp] theorem State.modLane_dir (s : State) (l : LaneId) (f : Lane → Lane) : (s.modLane l f).dir = s.dir := rfl
@[simp] theorem State.modLane_store (s : State) (l : LaneId) (f : Lane → Lane) : (s.modLane l f).store = s.store := rfl
@[simp] theorem State.modLane_resolver (s : State) (l : LaneId) (f : Lane → Lane) : (s.modLane l f).resolver = s.resolver := rfl
@[simp] theorem State.modLane_snap (s : State) (l : LaneId) (f : Lane → Lane) : (s.modLane l f).snap = s.snap := rfl
@[simp] theorem State.modLane_missLimit (s : State) (l : LaneId) (f : Lane → Lane) : (s.modLane l f).missLimit = s.missLimit := rfl
@[simp] theorem State.modLane_attnTimeout (s : State) (l : LaneId) (f : Lane → Lane) : (s.modLane l f).attnTimeout = s.attnTimeout := rfl
@[simp] theorem State.modLane_hold (s : State) (l : LaneId) (f : Lane → Lane) : (s.modLane l f).hold = s.hold := rfl
@[simp] theorem State.modLane_now (s : State) (l : LaneId) (f : Lane → Lane) : (s.modLane l f).now = s.now := rfl
@[simp] theorem State.modLane_draws (s : State) (l : LaneId) (f : Lane → Lane) : (s.modLane l f).draws = s.draws := rfl
@[simp] theorem State.modLane_pending (s : State) (l : LaneId) (f : Lane → Lane) : (s.modLane l f).pending = s.pending := rfl

@[simp] theorem State.post_unit (s : State) (n : Notice) : (s.post n).unit = s.unit := rfl
@[simp] theorem State.post_accessTimer (s : State) (n : Notice) : (s.post n).accessTimer = s.accessTimer := rfl
@[simp] theorem State.post_mate (s : State) (n : Notice) : (s.post n).mate = s.mate := rfl
@[simp] theorem State.post_lanes (s : State) (n : Notice) : (s.post n).lanes = s.lanes := rfl
@[simp] theorem State.post_dir (s : State) (n : Notice) : (s.post n).dir = s.dir := rfl
@[simp] theorem State.post_store (s : State) (n : Notice) : (s.post n).store = s.store := rfl
@[simp] theorem State.post_resolver (s : State) (n : Notice) : (s.post n).resolver = s.resolver := rfl
@[simp] theorem State.post_snap (s : State) (n : Notice) : (s.post n).snap = s.snap := rfl
@[simp] theorem State.post_missLimit (s : State) (n : Notice) : (s.post n).missLimit = s.missLimit := rfl
@[simp] theorem State.post_attnTimeout (s : State) (n : Notice) : (s.post n).attnTimeout = s.attnTimeout := rfl
@[simp] theorem State.post_hold (s : State) (n : Notice) : (s.post n).hold = s.hold := rfl
@[simp] theorem State.post_now (s : State) (n : Notice) : (s.post n).now = s.now := rfl
@[simp] theorem State.post_draws (s : State) (n : Notice) : (s.post n).draws = s.draws := rfl
@[simp] theorem State.post_pending (s : State) (n : Notice) : (s.post n).pending = s.pending := rfl

@[simp] theorem State.replyThen_accessTimer (s : State) (r : Reply) (a : Option ResetKind) : (s.replyThen r a).accessTimer = s.accessTimer := rfl
@[simp] theorem State.replyThen_mate (s : State) (r : Reply) (a : Option ResetKind) : (s.replyThen r a).mate = s.mate := rfl
@[simp] theorem State.replyThen_lanes (s : State) (r : Reply) (a : Option ResetKind) : (s.replyThen r a).lanes = s.lanes := rfl
@[simp] theorem State.replyThen_dir (s : State) (r : Reply) (a : Option ResetKind) : (s.replyThen r a).dir = s.dir := rfl
@[simp] theorem State.replyThen_store (s : State) (r : Reply) (a : Option ResetKind) : (s.replyThen r a).store = s.store := rfl
@[simp] theorem State.replyThen_resolver (s : State) (r : Reply) (a : Option ResetKind) : (s.replyThen r a).resolver = s.resolver := rfl
@[simp] theorem State.replyThen_snap (s : State) (r : Reply) (a : Option ResetKind) : (s.replyThen r a).snap = s.snap := rfl
@[simp] theorem State.replyThen_missLimit (s : State) (r : Reply) (a : Option ResetKind) : (s.replyThen r a).missLimit = s.missLimit := rfl
@[simp] theorem State.replyThen_attnTimeout (s : State) (r : Reply) (a : Option ResetKind) : (s.replyThen r a).attnTimeout = s.attnTimeout := rfl
@[simp] theorem State.replyThen_hold (s : State) (r : Reply) (a : Option ResetKind) : (s.replyThen r a).hold = s.hold := rfl
@[simp] theorem State.replyThen_now (s : State) (r : Reply) (a : Option ResetKind) : (s.replyThen r a).now = s.now := rfl
@[simp] theorem State.replyThen_draws (s : State) (r : Reply) (a : Option ResetKind) : (s.replyThen r a).draws = s.draws := rfl
@[simp] theorem State.replyThen_pending (s : State) (r : Reply) (a : Option ResetKind) : (s.replyThen r a).pending = s.pending := rfl

@[simp] theorem State.answer_accessTimer (s : State) (q : Request) (st : Status) (p : List Byte) : (s.answer q st p).accessTimer = s.accessTimer := rfl
@[simp] theorem State.answer_mate (s : State) (q : Request) (st : Status) (p : List Byte) : (s.answer q st p).mate = s.mate := rfl
@[simp] theorem State.answer_lanes (s : State) (q : Request) (st : Status) (p : List Byte) : (s.answer q st p).lanes = s.lanes := rfl
@[simp] theorem State.answer_dir (s : State) (q : Request) (st : Status) (p : List Byte) : (s.answer q st p).dir = s.dir := rfl
@[simp] theorem State.answer_store (s : State) (q : Request) (st : Status) (p : List Byte) : (s.answer q st p).store = s.store := rfl
@[simp] theorem State.answer_resolver (s : State) (q : Request) (st : Status) (p : List Byte) : (s.answer q st p).resolver = s.resolver := rfl
@[simp] theorem State.answer_snap (s : State) (q : Request) (st : Status) (p : List Byte) : (s.answer q st p).snap = s.snap := rfl
@[simp] theorem State.answer_missLimit (s : State) (q : Request) (st : Status) (p : List Byte) : (s.answer q st p).missLimit = s.missLimit := rfl
@[simp] theorem State.answer_attnTimeout (s : State) (q : Request) (st : Status) (p : List Byte) : (s.answer q st p).attnTimeout = s.attnTimeout := rfl
@[simp] theorem State.answer_hold (s : State) (q : Request) (st : Status) (p : List Byte) : (s.answer q st p).hold = s.hold := rfl
@[simp] theorem State.answer_now (s : State) (q : Request) (st : Status) (p : List Byte) : (s.answer q st p).now = s.now := rfl
@[simp] theorem State.answer_draws (s : State) (q : Request) (st : Status) (p : List Byte) : (s.answer q st p).draws = s.draws := rfl
@[simp] theorem State.answer_pending (s : State) (q : Request) (st : Status) (p : List Byte) : (s.answer q st p).pending = s.pending := rfl

@[simp] theorem State.ok_accessTimer (s : State) (q : Request) (p : List Byte) : (s.ok q p).accessTimer = s.accessTimer := rfl
@[simp] theorem State.ok_mate (s : State) (q : Request) (p : List Byte) : (s.ok q p).mate = s.mate := rfl
@[simp] theorem State.ok_lanes (s : State) (q : Request) (p : List Byte) : (s.ok q p).lanes = s.lanes := rfl
@[simp] theorem State.ok_dir (s : State) (q : Request) (p : List Byte) : (s.ok q p).dir = s.dir := rfl
@[simp] theorem State.ok_store (s : State) (q : Request) (p : List Byte) : (s.ok q p).store = s.store := rfl
@[simp] theorem State.ok_resolver (s : State) (q : Request) (p : List Byte) : (s.ok q p).resolver = s.resolver := rfl
@[simp] theorem State.ok_snap (s : State) (q : Request) (p : List Byte) : (s.ok q p).snap = s.snap := rfl
@[simp] theorem State.ok_missLimit (s : State) (q : Request) (p : List Byte) : (s.ok q p).missLimit = s.missLimit := rfl
@[simp] theorem State.ok_attnTimeout (s : State) (q : Request) (p : List Byte) : (s.ok q p).attnTimeout = s.attnTimeout := rfl
@[simp] theorem State.ok_hold (s : State) (q : Request) (p : List Byte) : (s.ok q p).hold = s.hold := rfl
@[simp] theorem State.ok_now (s : State) (q : Request) (p : List Byte) : (s.ok q p).now = s.now := rfl
@[simp] theorem State.ok_draws (s : State) (q : Request) (p : List Byte) : (s.ok q p).draws = s.draws := rfl
@[simp] theorem State.ok_pending (s : State) (q : Request) (p : List Byte) : (s.ok q p).pending = s.pending := rfl

@[simp] theorem State.refuse_accessTimer (s : State) (q : Request) (st : Status) : (s.refuse q st).accessTimer = s.accessTimer := rfl
@[simp] theorem State.refuse_mate (s : State) (q : Request) (st : Status) : (s.refuse q st).mate = s.mate := rfl
@[simp] theorem State.refuse_lanes (s : State) (q : Request) (st : Status) : (s.refuse q st).lanes = s.lanes := rfl
@[simp] theorem State.refuse_dir (s : State) (q : Request) (st : Status) : (s.refuse q st).dir = s.dir := rfl
@[simp] theorem State.refuse_store (s : State) (q : Request) (st : Status) : (s.refuse q st).store = s.store := rfl
@[simp] theorem State.refuse_resolver (s : State) (q : Request) (st : Status) : (s.refuse q st).resolver = s.resolver := rfl
@[simp] theorem State.refuse_snap (s : State) (q : Request) (st : Status) : (s.refuse q st).snap = s.snap := rfl
@[simp] theorem State.refuse_missLimit (s : State) (q : Request) (st : Status) : (s.refuse q st).missLimit = s.missLimit := rfl
@[simp] theorem State.refuse_attnTimeout (s : State) (q : Request) (st : Status) : (s.refuse q st).attnTimeout = s.attnTimeout := rfl
@[simp] theorem State.refuse_hold (s : State) (q : Request) (st : Status) : (s.refuse q st).hold = s.hold := rfl
@[simp] theorem State.refuse_now (s : State) (q : Request) (st : Status) : (s.refuse q st).now = s.now := rfl
@[simp] theorem State.refuse_draws (s : State) (q : Request) (st : Status) : (s.refuse q st).draws = s.draws := rfl
@[simp] theorem State.refuse_pending (s : State) (q : Request) (st : Status) : (s.refuse q st).pending = s.pending := rfl

@[simp] theorem State.update_link (s : State) (old new : Entry) : (s.update old new).link = s.link := rfl
@[simp] theorem State.update_unit (s : State) (old new : Entry) : (s.update old new).unit = s.unit := rfl
@[simp] theorem State.update_accessTimer (s : State) (old new : Entry) : (s.update old new).accessTimer = s.accessTimer := rfl
@[simp] theorem State.update_mate (s : State) (old new : Entry) : (s.update old new).mate = s.mate := rfl
@[simp] theorem State.update_lanes (s : State) (old new : Entry) : (s.update old new).lanes = s.lanes := rfl
@[simp] theorem State.update_store (s : State) (old new : Entry) : (s.update old new).store = s.store := rfl
@[simp] theorem State.update_resolver (s : State) (old new : Entry) : (s.update old new).resolver = s.resolver := rfl
@[simp] theorem State.update_snap (s : State) (old new : Entry) : (s.update old new).snap = s.snap := rfl
@[simp] theorem State.update_missLimit (s : State) (old new : Entry) : (s.update old new).missLimit = s.missLimit := rfl
@[simp] theorem State.update_attnTimeout (s : State) (old new : Entry) : (s.update old new).attnTimeout = s.attnTimeout := rfl
@[simp] theorem State.update_hold (s : State) (old new : Entry) : (s.update old new).hold = s.hold := rfl
@[simp] theorem State.update_now (s : State) (old new : Entry) : (s.update old new).now = s.now := rfl
@[simp] theorem State.update_draws (s : State) (old new : Entry) : (s.update old new).draws = s.draws := rfl
@[simp] theorem State.update_pending (s : State) (old new : Entry) : (s.update old new).pending = s.pending := rfl

@[simp] theorem State.create_link (s : State) (e : Entry) : (s.create e).link = s.link := rfl
@[simp] theorem State.create_unit (s : State) (e : Entry) : (s.create e).unit = s.unit := rfl
@[simp] theorem State.create_accessTimer (s : State) (e : Entry) : (s.create e).accessTimer = s.accessTimer := rfl
@[simp] theorem State.create_mate (s : State) (e : Entry) : (s.create e).mate = s.mate := rfl
@[simp] theorem State.create_lanes (s : State) (e : Entry) : (s.create e).lanes = s.lanes := rfl
@[simp] theorem State.create_store (s : State) (e : Entry) : (s.create e).store = s.store := rfl
@[simp] theorem State.create_resolver (s : State) (e : Entry) : (s.create e).resolver = s.resolver := rfl
@[simp] theorem State.create_snap (s : State) (e : Entry) : (s.create e).snap = s.snap := rfl
@[simp] theorem State.create_missLimit (s : State) (e : Entry) : (s.create e).missLimit = s.missLimit := rfl
@[simp] theorem State.create_attnTimeout (s : State) (e : Entry) : (s.create e).attnTimeout = s.attnTimeout := rfl
@[simp] theorem State.create_hold (s : State) (e : Entry) : (s.create e).hold = s.hold := rfl
@[simp] theorem State.create_now (s : State) (e : Entry) : (s.create e).now = s.now := rfl
@[simp] theorem State.create_draws (s : State) (e : Entry) : (s.create e).draws = s.draws := rfl
@[simp] theorem State.create_pending (s : State) (e : Entry) : (s.create e).pending = s.pending := rfl

@[simp] theorem State.remove_link (s : State) (h : Nat) : (s.remove h).link = s.link := rfl
@[simp] theorem State.remove_unit (s : State) (h : Nat) : (s.remove h).unit = s.unit := rfl
@[simp] theorem State.remove_accessTimer (s : State) (h : Nat) : (s.remove h).accessTimer = s.accessTimer := rfl
@[simp] theorem State.remove_mate (s : State) (h : Nat) : (s.remove h).mate = s.mate := rfl
@[simp] theorem State.remove_lanes (s : State) (h : Nat) : (s.remove h).lanes = s.lanes := rfl
@[simp] theorem State.remove_store (s : State) (h : Nat) : (s.remove h).store = s.store := rfl
@[simp] theorem State.remove_resolver (s : State) (h : Nat) : (s.remove h).resolver = s.resolver := rfl
@[simp] theorem State.remove_snap (s : State) (h : Nat) : (s.remove h).snap = s.snap := rfl
@[simp] theorem State.remove_missLimit (s : State) (h : Nat) : (s.remove h).missLimit = s.missLimit := rfl
@[simp] theorem State.remove_attnTimeout (s : State) (h : Nat) : (s.remove h).attnTimeout = s.attnTimeout := rfl
@[simp] theorem State.remove_hold (s : State) (h : Nat) : (s.remove h).hold = s.hold := rfl
@[simp] theorem State.remove_now (s : State) (h : Nat) : (s.remove h).now = s.now := rfl
@[simp] theorem State.remove_draws (s : State) (h : Nat) : (s.remove h).draws = s.draws := rfl
@[simp] theorem State.remove_pending (s : State) (h : Nat) : (s.remove h).pending = s.pending := rfl

@[simp] theorem State.took_unit (s : State) (rest : List Request) : (s.took rest).unit = s.unit := rfl
@[simp] theorem State.took_accessTimer (s : State) (rest : List Request) : (s.took rest).accessTimer = s.accessTimer := rfl
@[simp] theorem State.took_mate (s : State) (rest : List Request) : (s.took rest).mate = s.mate := rfl
@[simp] theorem State.took_lanes (s : State) (rest : List Request) : (s.took rest).lanes = s.lanes := rfl
@[simp] theorem State.took_dir (s : State) (rest : List Request) : (s.took rest).dir = s.dir := rfl
@[simp] theorem State.took_store (s : State) (rest : List Request) : (s.took rest).store = s.store := rfl
@[simp] theorem State.took_resolver (s : State) (rest : List Request) : (s.took rest).resolver = s.resolver := rfl
@[simp] theorem State.took_snap (s : State) (rest : List Request) : (s.took rest).snap = s.snap := rfl
@[simp] theorem State.took_missLimit (s : State) (rest : List Request) : (s.took rest).missLimit = s.missLimit := rfl
@[simp] theorem State.took_attnTimeout (s : State) (rest : List Request) : (s.took rest).attnTimeout = s.attnTimeout := rfl
@[simp] theorem State.took_hold (s : State) (rest : List Request) : (s.took rest).hold = s.hold := rfl
@[simp] theorem State.took_now (s : State) (rest : List Request) : (s.took rest).now = s.now := rfl
@[simp] theorem State.took_draws (s : State) (rest : List Request) : (s.took rest).draws = s.draws := rfl
@[simp] theorem State.took_pending (s : State) (rest : List Request) : (s.took rest).pending = s.pending := rfl

/-! ### Lanes -/

@[simp] theorem Four.get_set_self {α : Type} (f : Four α) (i : LaneId) (x : α) : (f.set i x).get i = x := by
  match i with
  | 0 => rfl
  | 1 => rfl
  | 2 => rfl
  | 3 => rfl

theorem Four.get_set_ne {α : Type} (f : Four α) (i j : LaneId) (x : α) (h : j ≠ i) : (f.set i x).get j = f.get j := by
  match i, j with
  | 0, 0 | 1, 1 | 2, 2 | 3, 3 => exact absurd rfl h
  | 0, 1 | 0, 2 | 0, 3 | 1, 0 | 1, 2 | 1, 3 | 2, 0 | 2, 1 | 2, 3 | 3, 0 | 3, 1 | 3, 2 => rfl

@[simp] theorem Four.get_map {α β : Type} (f : Four α) (g : α → β) (i : LaneId) : (f.map g).get i = g (f.get i) := by
  match i with
  | 0 => rfl
  | 1 => rfl
  | 2 => rfl
  | 3 => rfl

@[simp] theorem State.lane_setLane_self (s : State) (l : LaneId) (x : Lane) : (s.setLane l x).lane l = x :=
  Four.get_set_self s.lanes l x

theorem State.lane_setLane_ne (s : State) (l m : LaneId) (x : Lane) (h : m ≠ l) : (s.setLane l x).lane m = s.lane m :=
  Four.get_set_ne s.lanes l m x h

@[simp] theorem State.lane_modLane_self (s : State) (l : LaneId) (f : Lane → Lane) :
    (s.modLane l f).lane l = f (s.lane l) :=
  Four.get_set_self s.lanes l (f (s.lane l))

theorem State.lane_modLane_ne (s : State) (l m : LaneId) (f : Lane → Lane) (h : m ≠ l) :
    (s.modLane l f).lane m = s.lane m :=
  Four.get_set_ne s.lanes l m (f (s.lane l)) h

/-- A lane after a change of one lane: the changed one, or as before. -/
theorem State.lane_modLane (s : State) (l m : LaneId) (f : Lane → Lane) :
    (s.modLane l f).lane m = if m = l then f (s.lane l) else s.lane m := by
  by_cases h : m = l
  · subst h; simp
  · simp [h, State.lane_modLane_ne]

@[simp] theorem State.lane_post (s : State) (n : Notice) (l : LaneId) : (s.post n).lane l = s.lane l := rfl
@[simp] theorem State.lane_replyThen (s : State) (r : Reply) (a : Option ResetKind) (l : LaneId) : (s.replyThen r a).lane l = s.lane l := rfl
@[simp] theorem State.lane_answer (s : State) (q : Request) (st : Status) (p : List Byte) (l : LaneId) : (s.answer q st p).lane l = s.lane l := rfl
@[simp] theorem State.lane_ok (s : State) (q : Request) (p : List Byte) (l : LaneId) : (s.ok q p).lane l = s.lane l := rfl
@[simp] theorem State.lane_refuse (s : State) (q : Request) (st : Status) (l : LaneId) : (s.refuse q st).lane l = s.lane l := rfl
@[simp] theorem State.lane_update (s : State) (old new : Entry) (l : LaneId) : (s.update old new).lane l = s.lane l := rfl
@[simp] theorem State.lane_create (s : State) (e : Entry) (l : LaneId) : (s.create e).lane l = s.lane l := rfl
@[simp] theorem State.lane_remove (s : State) (h : Nat) (l : LaneId) : (s.remove h).lane l = s.lane l := rfl
@[simp] theorem State.lane_took (s : State) (rest : List Request) (l : LaneId) : (s.took rest).lane l = s.lane l := rfl

end Sys2Proof.Machine
end

