-- ==== Sys2Proof/Laws/Ops.lean ====
section
/-! SUPPORT. What the shared operations of the Link Unit, of taking a request and of the Lane Arbiter can do, said
once for each. -/

namespace Sys2Proof.Machine

/-! ### The transmitter and the queues (R189, R190) -/

@[simp] theorem Link.begin_requests (k : Link) : k.begin.requests = k.requests := by
  unfold Link.begin; repeat' (first | rfl | split)

@[simp] theorem Link.begin_receiver (k : Link) : k.begin.receiver = k.receiver := by
  unfold Link.begin; repeat' (first | rfl | split)

@[simp] theorem Link.begin_mask (k : Link) : k.begin.mask = k.mask := by
  unfold Link.begin; repeat' (first | rfl | split)

@[simp] theorem Link.begin_rate (k : Link) : k.begin.rate = k.rate := by
  unfold Link.begin; repeat' (first | rfl | split)

@[simp] theorem Link.begin_noticesLost (k : Link) : k.begin.noticesLost = k.noticesLost := by
  unfold Link.begin; repeat' (first | rfl | split)

@[simp] theorem Link.begin_fault (k : Link) : k.begin.fault = k.fault := by
  unfold Link.begin; repeat' (first | rfl | split)

@[simp] theorem Link.begin_gapTimer (k : Link) : k.begin.gapTimer = k.gapTimer := by
  unfold Link.begin; repeat' (first | rfl | split)

/-- A frame that begins takes at most one notice from the queue. -/
theorem Link.begin_notices_le (k : Link) : k.begin.notices.length ≤ k.notices.length := by
  unfold Link.begin
  cases h1 : k.tx <;> cases h2 : k.reply <;> cases h3 : k.notices <;> simp [h3]
  split <;> simp

@[simp] theorem Link.post_requests (k : Link) (n : Notice) : (k.post n).requests = k.requests := by
  unfold Link.post; split_ifs <;> simp

@[simp] theorem Link.post_receiver (k : Link) (n : Notice) : (k.post n).receiver = k.receiver := by
  unfold Link.post; split_ifs <;> simp

@[simp] theorem Link.post_mask (k : Link) (n : Notice) : (k.post n).mask = k.mask := by
  unfold Link.post; split_ifs <;> simp

/-- R190: a posting keeps the notice queue within its 16 places. -/
theorem Link.post_notices_le (k : Link) (n : Notice) (h : k.notices.length ≤ Config.noticePlaces) :
    (k.post n).notices.length ≤ Config.noticePlaces := by
  unfold Link.post
  split_ifs with h1 h2
  · refine Nat.le_trans (Link.begin_notices_le _) ?_
    simpa using h2
  · exact h
  · exact h

@[simp] theorem Link.send_requests (k : Link) (r : Reply) : (k.send r).requests = k.requests := by
  unfold Link.send; simp

theorem Link.send_notices_le (k : Link) (r : Reply) : (k.send r).notices.length ≤ k.notices.length :=
  Link.begin_notices_le _

/-- R189: a reply that has been built waits for TXD or is on it. -/
theorem Link.currentReply_send (k : Link) (r : Reply) : (k.send r).currentReply = some r := by
  unfold Link.send Link.begin Link.currentReply
  cases k.tx <;> cases k.notices <;> simp

/-- The reply that a request has been given. -/
@[simp] theorem State.currentReply_replyThen (s : State) (r : Reply) (a : Option ResetKind) :
    (s.replyThen r a).link.currentReply = some r := Link.currentReply_send _ _

@[simp] theorem State.unit_replyThen (s : State) (r : Reply) (a : Option ResetKind) :
    (s.replyThen r a).unit = .replying a := rfl

@[simp] theorem State.link_post (s : State) (n : Notice) : (s.post n).link = s.link.post n := rfl

@[simp] theorem State.link_replyThen (s : State) (r : Reply) (a : Option ResetKind) :
    (s.replyThen r a).link = s.link.send r := rfl

/-! ### Taking a request (R187) -/

/-- R187: the row that takes a well-sized request serves it on the state without it. -/
theorem State.take_serves {s : State} {q : Request} {rest : List Request} {mine : Request → Bool}
    {serve : Request → State → State} (h : s.queued q rest) (hm : mine q = true)
    (hl : lengthAllowed q.kind q.payload = true) : s.take mine serve = serve q (s.took rest) := by
  simp [State.take, h.1, h.2, hm, hl, State.took]

/-- R187, step 2: a payload of the wrong length is refused. -/
theorem State.take_refuses {s : State} {q : Request} {rest : List Request} {mine : Request → Bool}
    {serve : Request → State → State} (h : s.queued q rest) (hm : mine q = true)
    (hl : lengthAllowed q.kind q.payload = false) : s.take mine serve = (s.took rest).refuse q .badArgument := by
  simp [State.take, h.1, h.2, hm, hl, State.took]

/-- A row leaves alone a request that is not its own. -/
theorem State.take_other {s : State} {q : Request} {rest : List Request} {mine : Request → Bool}
    {serve : Request → State → State} (h : s.queued q rest) (hm : mine q = false) : s.take mine serve = s := by
  simp [State.take, h.1, h.2, hm]

/-! ### What an operation of one lane leaves alone -/

/-- All but the link, the Request Unit, the access timer and one lane is as before. -/
def SameOutside (l : LaneId) (s t : State) : Prop :=
  t.mate = s.mate ∧ t.dir = s.dir ∧ t.store = s.store ∧ t.resolver = s.resolver ∧ t.snap = s.snap
    ∧ t.missLimit = s.missLimit ∧ t.attnTimeout = s.attnTimeout ∧ t.hold = s.hold ∧ t.now = s.now
    ∧ t.draws = s.draws ∧ t.pending = s.pending ∧ ∀ m, m ≠ l → t.lane m = s.lane m

theorem SameOutside.refl (l : LaneId) (s : State) : SameOutside l s s := by
  simp [SameOutside]

theorem SameOutside.trans {l : LaneId} {s t u : State} (h : SameOutside l s t) (k : SameOutside l t u) :
    SameOutside l s u := by
  obtain ⟨h1, h2, h3, h4, h5, h6, h7, h8, h9, h10, h11, h12⟩ := h
  obtain ⟨k1, k2, k3, k4, k5, k6, k7, k8, k9, k10, k11, k12⟩ := k
  exact ⟨k1.trans h1, k2.trans h2, k3.trans h3, k4.trans h4, k5.trans h5, k6.trans h6, k7.trans h7, k8.trans h8,
    k9.trans h9, k10.trans h10, k11.trans h11, fun m hm => (k12 m hm).trans (h12 m hm)⟩

theorem sameOutside_modLane (l : LaneId) (s : State) (f : Lane → Lane) : SameOutside l s (s.modLane l f) := by
  simp only [SameOutside, State.modLane_mate, State.modLane_dir, State.modLane_store, State.modLane_resolver,
    State.modLane_snap, State.modLane_missLimit, State.modLane_attnTimeout, State.modLane_hold, State.modLane_now,
    State.modLane_draws, State.modLane_pending, true_and]
  exact fun m hm => State.lane_modLane_ne s l m f hm

theorem sameOutside_startTelegram (l : LaneId) (s : State) (t : Telegram) : SameOutside l s (s.startTelegram l t) :=
  sameOutside_modLane l s _

theorem sameOutside_releaseGrant (l : LaneId) (s : State) : SameOutside l s (s.releaseGrant l) :=
  sameOutside_modLane l s _

theorem sameOutside_requestAttention (l : LaneId) (s : State) : SameOutside l s (s.requestAttention l) := by
  unfold State.requestAttention
  simp only []
  split
  · exact sameOutside_modLane l s _
  · exact SameOutside.refl l s

end Sys2Proof.Machine
end

