-- ==== Sys2Proof/Laws/Arbiter.lean ====
section
/-! SUPPORT. What the Lane Arbiter can do: it touches its own lane and, when it ends an access, the reply; nothing
else of the part. -/

namespace Sys2Proof.Machine

theorem sameOutside_endAccess (l : LaneId) (s : State) (st : Status) : SameOutside l s (s.endAccess l st) := by
  unfold State.endAccess
  split
  · split
    · exact sameOutside_modLane l s (fun n => { n with run := none })
    · exact SameOutside.refl l s
  · exact SameOutside.refl l s

theorem sameOutside_arbitrateRounds (k : Nat) (l : LaneId) (s : State) : SameOutside l s (arbitrateRounds k l s) := by
  induction k generalizing s with
  | zero => exact SameOutside.refl l s
  | succ k ih =>
    unfold arbitrateRounds
    simp only []
    have h1 := sameOutside_requestAttention l s
    split
    · exact h1
    · rename_i g a _
      have h2 := h1.trans (sameOutside_modLane l _ (fun n => { n with arbiter := a }))
      split
      · exact h2.trans (sameOutside_startTelegram l _ _)
      · exact h2.trans (sameOutside_startTelegram l _ _)
      · split
        · split
          · exact h2.trans (sameOutside_startTelegram l _ _)
          · exact ((h2.trans (sameOutside_endAccess l _ _)).trans (sameOutside_releaseGrant l _)).trans (ih _)
        · exact (h2.trans (sameOutside_releaseGrant l _)).trans (ih _)
      · split
        · exact (h2.trans (sameOutside_modLane l _ _)).trans (sameOutside_startTelegram l _ _)
        · exact (h2.trans (sameOutside_releaseGrant l _)).trans (ih _)

/-- The arbiter of a lane leaves the rest of the part alone. -/
theorem sameOutside_arbitrate (l : LaneId) (s : State) : SameOutside l s (s.arbitrate l) :=
  sameOutside_arbitrateRounds arbiterRounds l s

@[simp] theorem State.arbitrate_mate (s : State) (l : LaneId) : (s.arbitrate l).mate = s.mate :=
  (sameOutside_arbitrate l s).1
@[simp] theorem State.arbitrate_dir (s : State) (l : LaneId) : (s.arbitrate l).dir = s.dir :=
  (sameOutside_arbitrate l s).2.1
@[simp] theorem State.arbitrate_store (s : State) (l : LaneId) : (s.arbitrate l).store = s.store :=
  (sameOutside_arbitrate l s).2.2.1
@[simp] theorem State.arbitrate_resolver (s : State) (l : LaneId) : (s.arbitrate l).resolver = s.resolver :=
  (sameOutside_arbitrate l s).2.2.2.1
@[simp] theorem State.arbitrate_snap (s : State) (l : LaneId) : (s.arbitrate l).snap = s.snap :=
  (sameOutside_arbitrate l s).2.2.2.2.1

theorem State.arbitrate_lane_ne (s : State) (l m : LaneId) (h : m ≠ l) : (s.arbitrate l).lane m = s.lane m := by
  obtain ⟨_, _, _, _, _, _, _, _, _, _, _, h12⟩ := sameOutside_arbitrate l s
  exact h12 m h

end Sys2Proof.Machine
end

