-- ==== Sys2Proof/Laws/Frames.lean ====
section
/-! SUPPORT. What each shared operation leaves alone: the frame `keepsRest`, and what it can do to the lanes, the Resolver
and the directory. -/

namespace Sys2Proof.Machine

/-! ### keepsRest -/

theorem State.keepsRest.refl (s : State) : s.keepsRest s := by simp [State.keepsRest]

theorem State.keepsRest.trans {s t u : State} (h : s.keepsRest t) (k : t.keepsRest u) : s.keepsRest u := by
  obtain ⟨h1, h2, h3, h4, h5, h6, h7, h8, h9, h10, h11, h12, h13⟩ := h
  obtain ⟨k1, k2, k3, k4, k5, k6, k7, k8, k9, k10, k11, k12, k13⟩ := k
  exact ⟨k1.trans h1, k2.trans h2, k3.trans h3, k4.trans h4, k5.trans h5, k6.trans h6, k7.trans h7, k8.trans h8,
    k9.trans h9, k10.trans h10, k11.trans h11, k12.trans h12, k13.trans h13⟩

theorem State.keepsRest_setLane (s : State) (l : LaneId) (x : Lane) : s.keepsRest (s.setLane l x) := .refl s
theorem State.keepsRest_modLane (s : State) (l : LaneId) (f : Lane → Lane) : s.keepsRest (s.modLane l f) := .refl s
theorem State.keepsRest_update (s : State) (old new : Entry) : s.keepsRest (s.update old new) := .refl s
theorem State.keepsRest_create (s : State) (e : Entry) : s.keepsRest (s.create e) := .refl s
theorem State.keepsRest_remove (s : State) (h : Nat) : s.keepsRest (s.remove h) := .refl s
theorem State.keepsRest_addClear (s : State) (e : Entry) : s.keepsRest (s.addClear e) := .refl s

/-- A posting changes the notice queue, NOTICES_LOST, the reply's place and TXD only. -/
theorem Link.post_keeps (k : Link) (n : Notice) :
    (k.post n).rate = k.rate ∧ (k.post n).receiver = k.receiver ∧ (k.post n).gapTimer = k.gapTimer
      ∧ (k.post n).requests = k.requests ∧ (k.post n).mask = k.mask ∧ (k.post n).fault = k.fault := by
  unfold Link.post; split_ifs <;> simp

theorem Link.send_keeps (k : Link) (r : Reply) :
    (k.send r).rate = k.rate ∧ (k.send r).receiver = k.receiver ∧ (k.send r).gapTimer = k.gapTimer
      ∧ (k.send r).requests = k.requests ∧ (k.send r).mask = k.mask ∧ (k.send r).fault = k.fault := by
  simp [Link.send]

theorem State.keepsRest_post (s : State) (n : Notice) : s.keepsRest (s.post n) := by
  obtain ⟨h1, h2, h3, h4, h5, h6⟩ := Link.post_keeps s.link n
  exact ⟨rfl, rfl, rfl, rfl, rfl, rfl, rfl, h1, h2, h3, h4, h5, h6⟩

theorem State.keepsRest_replyThen (s : State) (r : Reply) (a : Option ResetKind) : s.keepsRest (s.replyThen r a) := by
  obtain ⟨h1, h2, h3, h4, h5, h6⟩ := Link.send_keeps s.link r
  exact ⟨rfl, rfl, rfl, rfl, rfl, rfl, rfl, h1, h2, h3, h4, h5, h6⟩

theorem State.keepsRest_answer (s : State) (q : Request) (st : Status) (p : List Byte) : s.keepsRest (s.answer q st p) :=
  s.keepsRest_replyThen _ _
theorem State.keepsRest_ok (s : State) (q : Request) (p : List Byte) : s.keepsRest (s.ok q p) := s.keepsRest_replyThen _ _
theorem State.keepsRest_refuse (s : State) (q : Request) (st : Status) : s.keepsRest (s.refuse q st) :=
  s.keepsRest_replyThen _ _

/-! ### Postings -/

/-- Postings change the link only. -/
theorem State.postAll_eq (ns : List Notice) (s : State) : s.postAll ns = { s with link := (s.postAll ns).link } := by
  induction ns generalizing s with
  | nil => rfl
  | cons n ns ih => exact ih (s.post n)

theorem State.keepsRest_postAll (ns : List Notice) (s : State) : s.keepsRest (s.postAll ns) := by
  induction ns generalizing s with
  | nil => exact .refl s
  | cons n ns ih => exact (s.keepsRest_post n).trans (ih _)

@[simp] theorem State.postAll_nil (s : State) : s.postAll [] = s := rfl
theorem State.postAll_cons (s : State) (n : Notice) (ns : List Notice) : s.postAll (n :: ns) = (s.post n).postAll ns := rfl
@[simp] theorem State.postAll_unit (ns : List Notice) (s : State) : (s.postAll ns).unit = s.unit := by rw [postAll_eq]
@[simp] theorem State.postAll_accessTimer (ns : List Notice) (s : State) : (s.postAll ns).accessTimer = s.accessTimer := by
  rw [postAll_eq]
@[simp] theorem State.postAll_mate (ns : List Notice) (s : State) : (s.postAll ns).mate = s.mate := by rw [postAll_eq]
@[simp] theorem State.postAll_lanes (ns : List Notice) (s : State) : (s.postAll ns).lanes = s.lanes := by rw [postAll_eq]
@[simp] theorem State.lane_postAll (ns : List Notice) (s : State) (l : LaneId) : (s.postAll ns).lane l = s.lane l := by
  rw [postAll_eq]; rfl
@[simp] theorem State.postAll_dir (ns : List Notice) (s : State) : (s.postAll ns).dir = s.dir := by rw [postAll_eq]
@[simp] theorem State.postAll_store (ns : List Notice) (s : State) : (s.postAll ns).store = s.store := by rw [postAll_eq]
@[simp] theorem State.postAll_resolver (ns : List Notice) (s : State) : (s.postAll ns).resolver = s.resolver := by
  rw [postAll_eq]
@[simp] theorem State.postAll_snap (ns : List Notice) (s : State) : (s.postAll ns).snap = s.snap := by rw [postAll_eq]
@[simp] theorem State.postAll_now (ns : List Notice) (s : State) : (s.postAll ns).now = s.now := by rw [postAll_eq]
@[simp] theorem State.postAll_missLimit (ns : List Notice) (s : State) : (s.postAll ns).missLimit = s.missLimit := by
  rw [postAll_eq]

/-- A frame stands on TXD. -/
def Link.busy (k : Link) : Prop := k.tx.isSome = true

theorem Link.begin_busy {k : Link} (h : k.busy) : k.begin = k := by
  unfold Link.busy at h
  unfold Link.begin
  cases hk : k.tx with
  | none => simp [hk] at h
  | some f => simp

/-- With a frame on TXD a posting leaves TXD and the reply alone. -/
theorem Link.post_busy {k : Link} (h : k.busy) (n : Notice) : (k.post n).tx = k.tx ∧ (k.post n).reply = k.reply := by
  have h2 : ∀ ns, Link.begin { k with notices := ns } = { k with notices := ns } := fun ns => Link.begin_busy h
  unfold Link.post
  split_ifs
  · rw [h2]; exact ⟨rfl, rfl⟩
  · exact ⟨rfl, rfl⟩
  · exact ⟨rfl, rfl⟩

theorem Link.send_busy (k : Link) (r : Reply) : (k.send r).busy := by
  unfold Link.send Link.begin Link.busy
  cases h1 : k.tx <;> cases h2 : k.notices <;> simp

/-- A reply stands and TXD is at work: no posting changes that. -/
def State.replied (s : State) (r : Reply) : Prop := s.link.currentReply = some r ∧ s.link.busy

theorem State.replied_replyThen (s : State) (r : Reply) (a : Option ResetKind) : (s.replyThen r a).replied r :=
  ⟨Link.currentReply_send _ _, Link.send_busy _ _⟩

theorem State.replied_post {s : State} {r : Reply} (h : s.replied r) (n : Notice) : (s.post n).replied r := by
  obtain ⟨h1, h2⟩ := h
  obtain ⟨k1, k2⟩ := Link.post_busy h2 n
  constructor
  · unfold Link.currentReply at *
    simp only [State.link_post, k1, k2]; exact h1
  · unfold Link.busy at *
    simp only [State.link_post, k1]; exact h2

theorem State.replied_postAll {r : Reply} (ns : List Notice) {s : State} (h : s.replied r) : (s.postAll ns).replied r := by
  induction ns generalizing s with
  | nil => exact h
  | cons n ns ih => exact ih (s.replied_post h n)

/-! ### What the arbiter does to its lane -/

theorem Lane.sameButWork.refl (n : Lane) : n.sameButWork n := rfl

theorem Lane.sameButWork.trans {n m k : Lane} (h : n.sameButWork m) (g : m.sameButWork k) : n.sameButWork k := by
  unfold Lane.sameButWork at *
  rw [g, h]

theorem Lane.sameButWork.standing {n m : Lane} (h : n.sameButWork m) : n.keepsStanding m := by
  unfold Lane.sameButWork at h
  rw [h]; simp [Lane.keepsStanding, Lane.keepsParameters]

theorem sameButWork_requestAttention (s : State) (l m : LaneId) : (s.lane m).sameButWork ((s.requestAttention l).lane m) := by
  unfold State.requestAttention
  simp only []
  split
  · rw [State.lane_modLane]
    split
    · subst m; rfl
    · rfl
  · rfl

theorem sameButWork_modLane (s : State) (l m : LaneId) (f : Lane → Lane) (h : ∀ n : Lane, n.sameButWork (f n)) :
    (s.lane m).sameButWork ((s.modLane l f).lane m) := by
  rw [State.lane_modLane]
  split
  · subst m; exact h _
  · rfl

theorem sameButWork_startTelegram (s : State) (l m : LaneId) (t : Telegram) :
    (s.lane m).sameButWork ((s.startTelegram l t).lane m) := by
  unfold State.startTelegram
  exact sameButWork_modLane s l m _ (by intro n; rfl)

theorem sameButWork_releaseGrant (s : State) (l m : LaneId) : (s.lane m).sameButWork ((s.releaseGrant l).lane m) := by
  unfold State.releaseGrant
  exact sameButWork_modLane s l m _ (by intro n; rfl)

theorem sameButWork_endAccess (s : State) (l m : LaneId) (st : Status) :
    (s.lane m).sameButWork ((s.endAccess l st).lane m) := by
  unfold State.endAccess
  split
  · split
    · exact sameButWork_modLane s l m (fun n => { n with run := none }) (by intro n; rfl)
    · rfl
  · rfl

theorem sameButWork_arbitrateRounds (k : Nat) (s : State) (l m : LaneId) :
    (s.lane m).sameButWork ((arbitrateRounds k l s).lane m) := by
  induction k generalizing s with
  | zero => rfl
  | succ k ih =>
    unfold arbitrateRounds
    simp only []
    have h1 := sameButWork_requestAttention s l m
    split
    · exact h1
    · rename_i g a _
      have h2 := h1.trans (sameButWork_modLane _ l m (fun n => { n with arbiter := a }) (by intro n; rfl))
      have h3 := h2.trans (sameButWork_releaseGrant _ l m)
      split
      · exact h2.trans (sameButWork_startTelegram _ l m _)
      · exact h2.trans (sameButWork_startTelegram _ l m _)
      · split
        · split
          · exact h2.trans (sameButWork_startTelegram _ l m _)
          · exact ((h2.trans (sameButWork_endAccess _ l m _)).trans (sameButWork_releaseGrant _ l m)).trans (ih _)
        · exact h3.trans (ih _)
      · split
        · rename_i t hd _
          exact (h2.trans (sameButWork_modLane _ l m
            (fun n => { n with attention := { n.attention with heed := hd } }) (by intro n; rfl))).trans
            (sameButWork_startTelegram _ l m _)
        · exact h3.trans (ih _)

/-- The arbiter changes its lane's engine, arbiter, run and heed only. -/
theorem sameButWork_arbitrate (s : State) (l m : LaneId) : (s.lane m).sameButWork ((s.arbitrate l).lane m) :=
  sameButWork_arbitrateRounds _ s l m

/-! ### What the arbiter does to the link and the Request Unit -/

theorem keepsRest_requestAttention (s : State) (l : LaneId) : s.keepsRest (s.requestAttention l) := by
  unfold State.requestAttention
  simp only []
  split
  · exact .refl s
  · exact .refl s

theorem keepsRest_endAccess (s : State) (l : LaneId) (st : Status) : s.keepsRest (s.endAccess l st) := by
  unfold State.endAccess
  split
  · split
    · refine State.keepsRest.trans ?_ (State.keepsRest_replyThen _ _ _)
      exact .refl s
    · exact .refl s
  · exact .refl s

theorem keepsRest_arbitrateRounds (k : Nat) (l : LaneId) (s : State) : s.keepsRest (arbitrateRounds k l s) := by
  induction k generalizing s with
  | zero => exact .refl s
  | succ k ih =>
    unfold arbitrateRounds
    simp only []
    have h1 := keepsRest_requestAttention s l
    split
    · exact h1
    · split
      · exact h1
      · exact h1
      · split
        · split
          · exact h1
          · exact (h1.trans (keepsRest_endAccess (State.modLane _ l _) l .nodeLost)).trans (ih (State.releaseGrant _ l))
        · exact h1.trans (ih (State.releaseGrant (State.modLane _ l _) l))
      · split
        · exact h1
        · exact h1.trans (ih (State.releaseGrant (State.modLane _ l _) l))

theorem keepsRest_arbitrate (s : State) (l : LaneId) : s.keepsRest (s.arbitrate l) := keepsRest_arbitrateRounds _ l s

/-- The link, the Request Unit, the access timer and the run of a lane are as before. -/
def State.sameAccess (l : LaneId) (s t : State) : Prop :=
  t.link = s.link ∧ t.unit = s.unit ∧ t.accessTimer = s.accessTimer ∧ (t.lane l).run = (s.lane l).run

theorem State.sameAccess.trans {l : LaneId} {s t u : State} (h : s.sameAccess l t) (k : t.sameAccess l u) :
    s.sameAccess l u :=
  ⟨k.1.trans h.1, k.2.1.trans h.2.1, k.2.2.1.trans h.2.2.1, k.2.2.2.trans h.2.2.2⟩

theorem State.sameAccess.noAccess {l : LaneId} {s t : State} (h : s.sameAccess l t) (k : s.noAccess l) : t.noAccess l := by
  rcases k with k | k
  · exact .inl (h.2.2.2.trans k)
  · exact .inr (fun a b => by rw [h.2.1]; exact k a b)

theorem sameAccess_modLane (s : State) (l : LaneId) (f : Lane → Lane) (h : ∀ n, (f n).run = n.run) :
    s.sameAccess l (s.modLane l f) := by
  refine ⟨rfl, rfl, rfl, ?_⟩
  rw [State.lane_modLane_self, h]

theorem sameAccess_startTelegram (s : State) (l : LaneId) (t : Telegram) : s.sameAccess l (s.startTelegram l t) :=
  sameAccess_modLane s l _ (fun _ => rfl)

theorem sameAccess_releaseGrant (s : State) (l : LaneId) : s.sameAccess l (s.releaseGrant l) :=
  sameAccess_modLane s l _ (fun _ => rfl)

theorem sameAccess_requestAttention (s : State) (l : LaneId) : s.sameAccess l (s.requestAttention l) := by
  unfold State.requestAttention
  simp only []
  split
  · exact sameAccess_modLane s l _ (fun _ => rfl)
  · exact ⟨rfl, rfl, rfl, rfl⟩

theorem endAccess_noAccess {s : State} {l : LaneId} (h : s.noAccess l) (st : Status) : s.endAccess l st = s := by
  unfold State.endAccess
  split
  · rename_i a b m r h1 h2
    split
    · rename_i hm
      subst hm
      rcases h with h | h
      · rw [h] at h2; cases h2
      · exact absurd h1 (h a b)
    · rfl
  · rfl

theorem sameAccess_arbitrateRounds (k : Nat) (l : LaneId) (s : State) (h : s.noAccess l) :
    s.sameAccess l (arbitrateRounds k l s) := by
  induction k generalizing s with
  | zero => exact ⟨rfl, rfl, rfl, rfl⟩
  | succ k ih =>
    unfold arbitrateRounds
    simp only []
    have h1 := sameAccess_requestAttention s l
    split
    · exact h1
    · rename_i g a _
      have h2 := h1.trans (sameAccess_modLane _ l (fun n => { n with arbiter := a }) (fun _ => rfl))
      have h3 := h2.trans (sameAccess_releaseGrant _ l)
      split
      · exact h2.trans (sameAccess_startTelegram _ l _)
      · exact h2.trans (sameAccess_startTelegram _ l _)
      · split
        · split
          · exact h2.trans (sameAccess_startTelegram _ l _)
          · rw [endAccess_noAccess (h2.noAccess h)]
            exact h3.trans (ih _ (h3.noAccess h))
        · exact h3.trans (ih _ (h3.noAccess h))
      · rename_i x _
        split
        · rename_i t hd _
          exact (h2.trans (sameAccess_modLane _ l
            (fun n => { n with attention := { n.attention with heed := hd } }) (fun _ => rfl))).trans
            (sameAccess_startTelegram _ l _)
        · exact h3.trans (ih _ (h3.noAccess h))

/-- Where the arbiter can end no access, it leaves the link, the Request Unit and the run alone. -/
theorem sameAccess_arbitrate {s : State} {l : LaneId} (h : s.noAccess l) : s.sameAccess l (s.arbitrate l) :=
  sameAccess_arbitrateRounds _ l s h

/-- The run of a lane still has its entry (R123). -/
def State.runHolds (s : State) (l : LaneId) : Prop := ∀ r, (s.lane l).run = some r → s.runStands r = true

theorem State.runHolds_of {s t : State} {l : LaneId} (h : s.sameAccess l t) (hd : t.dir = s.dir) (k : s.runHolds l) :
    t.runHolds l := by
  intro r hr
  have := k r (by rw [← h.2.2.2]; exact hr)
  unfold State.runStands State.target? at *
  rw [hd]; exact this

theorem requestAttention_dir (s : State) (l : LaneId) : (s.requestAttention l).dir = s.dir := by
  unfold State.requestAttention
  simp only []
  split <;> rfl

theorem sameAccess_arbitrateRounds_holds (k : Nat) (l : LaneId) (s : State) (h : s.runHolds l) :
    s.sameAccess l (arbitrateRounds k l s) := by
  induction k generalizing s with
  | zero => exact ⟨rfl, rfl, rfl, rfl⟩
  | succ k ih =>
    unfold arbitrateRounds
    simp only []
    have h1 := sameAccess_requestAttention s l
    split
    · exact h1
    · rename_i g a _
      have h2 := h1.trans (sameAccess_modLane _ l (fun n => { n with arbiter := a }) (fun _ => rfl))
      have hd : ((s.requestAttention l).modLane l (fun n => { n with arbiter := a })).dir = s.dir :=
        requestAttention_dir s l
      have h3 := h2.trans (sameAccess_releaseGrant _ l)
      split
      · exact h2.trans (sameAccess_startTelegram _ l _)
      · exact h2.trans (sameAccess_startTelegram _ l _)
      · split
        · rename_i r hr
          have hs := State.runHolds_of h2 hd h r hr
          split
          · exact h2.trans (sameAccess_startTelegram _ l _)
          · rename_i hn
            exact absurd hs hn
        · exact h3.trans (ih _ (State.runHolds_of h3 hd h))
      · split
        · rename_i t hd _
          exact (h2.trans (sameAccess_modLane _ l
            (fun n => { n with attention := { n.attention with heed := hd } }) (fun _ => rfl))).trans
            (sameAccess_startTelegram _ l _)
        · exact h3.trans (ih _ (State.runHolds_of h3 hd h))

/-- While the run's entry holds, the arbiter leaves the link, the Request Unit and the run alone. -/
theorem sameAccess_arbitrate_holds {s : State} {l : LaneId} (h : s.runHolds l) : s.sameAccess l (s.arbitrate l) :=
  sameAccess_arbitrateRounds_holds _ l s h

/-- While a grant is held the arbiter makes no decision: the engine and the grant stay. -/
theorem arbitrate_held {s : State} {l : LaneId} {g : Grant} (h : (s.lane l).arbiter.grant = some g) :
    ((s.arbitrate l).lane l).engine = (s.lane l).engine ∧ ((s.arbitrate l).lane l).arbiter.grant = some g := by
  have hq : ((s.requestAttention l).lane l).engine = (s.lane l).engine
      ∧ ((s.requestAttention l).lane l).arbiter.grant = (s.lane l).arbiter.grant := by
    unfold State.requestAttention
    simp only []
    split
    · rw [State.lane_modLane_self]; exact ⟨rfl, rfl⟩
    · exact ⟨rfl, rfl⟩
  have hn : ((s.requestAttention l).lane l).arbiter.grantNext = none := by
    unfold Arbiter.grantNext
    rw [hq.2, h]
  unfold State.arbitrate arbiterRounds arbitrateRounds
  simp only [hn]
  exact ⟨hq.1, hq.2.trans h⟩

theorem Arbiter.grantNext_access {a b : Arbiter} {g : Grant} (h : a.grantNext = some (g, b))
    (ha : a.standing.access = none) : b.standing.access = none ∧ b.passed.access = a.passed.access := by
  have hl : Requestor.access ∉ a.standing.list := by
    unfold Standing.list
    rw [ha]
    simp
  unfold Arbiter.grantNext at h
  split at h
  · cases h
  · split at h
    · cases h
    · rename_i r hr
      split at h
      · cases h
      · rename_i q hq
        cases h
        cases r <;> simp only [Standing.serve, Option.map_eq_some_iff] at hq
        · split at hq
          · cases hq; exact ⟨ha, by simp [Arbiter.count, hl, Passed.of]⟩
          · cases hq
        · obtain ⟨_, hx, _⟩ := hq; rw [ha] at hx; cases hx
        · obtain ⟨_, _, h⟩ := hq; cases h; exact ⟨ha, by simp [Arbiter.count, hl, Passed.of]⟩
        · obtain ⟨_, _, h⟩ := hq; cases h; exact ⟨ha, by simp [Arbiter.count, hl, Passed.of]⟩

/-- R113: the arbiter requests no access of its own, and the count of an access request that does not stand does not change. -/
theorem arbitrate_access_none {s : State} {l : LaneId} (h : (s.lane l).arbiter.standing.access = none) :
    ((s.arbitrate l).lane l).arbiter.standing.access = none
      ∧ ((s.arbitrate l).lane l).arbiter.passed.access = (s.lane l).arbiter.passed.access := by
  suffices ∀ k p (s : State), (s.lane l).arbiter.standing.access = none ∧ (s.lane l).arbiter.passed.access = p →
      ((arbitrateRounds k l s).lane l).arbiter.standing.access = none
        ∧ ((arbitrateRounds k l s).lane l).arbiter.passed.access = p from this _ _ s ⟨h, rfl⟩
  intro k p
  induction k with
  | zero => exact fun s h => h
  | succ k ih =>
    intro s h
    have hq : ((s.requestAttention l).lane l).arbiter.standing.access = none
        ∧ ((s.requestAttention l).lane l).arbiter.passed.access = p := by
      unfold State.requestAttention
      simp only []
      split
      · rw [State.lane_modLane_self]; exact h
      · exact h
    unfold arbitrateRounds
    simp only []
    split
    · exact hq
    · rename_i g a hg
      have ha := Arbiter.grantNext_access hg hq.1
      generalize hu : (s.requestAttention l).modLane l (fun n => { n with arbiter := a }) = u
      have hul : (u.lane l).arbiter.standing.access = none ∧ (u.lane l).arbiter.passed.access = p := by
        subst hu; rw [State.lane_modLane_self]; exact ⟨ha.1, ha.2.trans hq.2⟩
      have hrel : ∀ w : State, (w.lane l).arbiter.standing.access = none ∧ (w.lane l).arbiter.passed.access = p →
          ((w.releaseGrant l).lane l).arbiter.standing.access = none
            ∧ ((w.releaseGrant l).lane l).arbiter.passed.access = p := by
        intro w hw; unfold State.releaseGrant; rw [State.lane_modLane_self]; exact hw
      have hst : ∀ (w : State) t, (w.lane l).arbiter.standing.access = none ∧ (w.lane l).arbiter.passed.access = p →
          ((w.startTelegram l t).lane l).arbiter.standing.access = none
            ∧ ((w.startTelegram l t).lane l).arbiter.passed.access = p := by
        intro w t hw; unfold State.startTelegram; rw [State.lane_modLane_self]; exact hw
      split
      · exact hst _ _ hul
      · exact hst _ _ hul
      · split
        · split
          · exact hst _ _ hul
          · refine ih _ (hrel _ ?_)
            unfold State.endAccess
            split
            · split
              · have hw : ∀ (w : State) (a : Timer), State.lane { w with accessTimer := a } l = w.lane l := fun _ _ => rfl
                rw [State.lane_replyThen, hw, State.lane_modLane_self]
                exact hul
              · exact hul
            · exact hul
        · exact ih _ (hrel _ hul)
      · split
        · refine hst _ _ ?_
          rw [State.lane_modLane_self]; exact hul
        · exact ih _ (hrel _ hul)

/-! ### All arbiters -/

/-- All but the lanes, the link, the Request Unit and the access timer is as before. -/
theorem arbitrateAll_fields (s : State) :
    s.keepsRest s.arbitrateAll ∧ s.arbitrateAll.mate = s.mate ∧ s.arbitrateAll.dir = s.dir
      ∧ s.arbitrateAll.resolver = s.resolver ∧ s.arbitrateAll.draws = s.draws
      ∧ ∀ m, (s.lane m).sameButWork (s.arbitrateAll.lane m) := by
  unfold State.arbitrateAll
  generalize allLanes = ls
  induction ls generalizing s with
  | nil => exact ⟨.refl s, rfl, rfl, rfl, rfl, fun m => rfl⟩
  | cons l ls ih =>
    obtain ⟨h1, h2, h3, h4, h5, h6⟩ := ih (s.arbitrate l)
    obtain ⟨k1, k2, k3, k4, k5, k6, k7, k8, k9, k10, k11, k12⟩ := sameOutside_arbitrate l s
    refine ⟨(keepsRest_arbitrate s l).trans h1, h2.trans k1, h3.trans k2, h4.trans k4, h5.trans k10, fun m => ?_⟩
    exact (sameButWork_arbitrate s l m).trans (h6 m)

/-- With no access waiting, the arbiters leave the link, the Request Unit and every run alone. -/
theorem arbitrateAll_noAccess (s : State) (h : ∀ m, s.noAccess m) : ∀ m, s.sameAccess m s.arbitrateAll := by
  unfold State.arbitrateAll
  generalize allLanes = ls
  induction ls generalizing s with
  | nil => exact fun m => ⟨rfl, rfl, rfl, rfl⟩
  | cons l ls ih =>
    have h1 := sameAccess_arbitrate (h l)
    have h2 : ∀ m, s.sameAccess m (s.arbitrate l) := by
      intro m
      by_cases hm : m = l
      · subst hm; exact h1
      · exact ⟨h1.1, h1.2.1, h1.2.2.1, by rw [State.arbitrate_lane_ne _ _ _ hm]⟩
    intro m
    exact (h2 m).trans (ih (s.arbitrate l) (fun m => (h2 m).noAccess (h m)) m)

/-! ### A lane at rest -/

/-- The arbiter of a lane that is not in service, with nothing requested or granted, does nothing. -/
theorem arbitrate_idle {s : State} {l : LaneId} (hs : (s.lane l).state.serving = false)
    (ha : (s.lane l).arbiter = Arbiter.cold) : s.arbitrate l = s := by
  have h1 : s.requestAttention l = s := by
    unfold State.requestAttention
    simp [hs]
  have h2 : (s.lane l).arbiter.grantNext = none := by rw [ha]; decide
  unfold State.arbitrate arbiterRounds arbitrateRounds
  simp only [h1, h2]

/-- So a lane at rest stays as it is whichever arbiters act. -/
theorem arbitrateAll_idle (s : State) (m : LaneId) (hs : (s.lane m).state.serving = false)
    (ha : (s.lane m).arbiter = Arbiter.cold) : s.arbitrateAll.lane m = s.lane m := by
  unfold State.arbitrateAll
  generalize allLanes = ls
  induction ls generalizing s with
  | nil => rfl
  | cons l ls ih =>
    have h1 : (s.arbitrate l).lane m = s.lane m := by
      by_cases hm : m = l
      · subst hm; rw [arbitrate_idle hs ha]
      · exact State.arbitrate_lane_ne _ _ _ hm
    have := ih (s.arbitrate l) (by rw [h1]; exact hs) (by rw [h1]; exact ha)
    rw [h1] at this
    exact this

end Sys2Proof.Machine
end

