-- ==== Sys2Proof/Laws/Resolver.lean ====
section
/-! SUPPORT. What the Binding Resolver's operations can do: a recomputation writes the status and the counts and posts; a
resolution writes bindings, drops attentions that lose their level, and lets the arbiters act. -/

namespace Sys2Proof.Machine

/-! ### Recomputation (R166 to R168) -/

/-- A recomputation changes the link, the draws, the status and the counts only. -/
theorem State.recomputeFrom_eq (s : State) (b : ToolStatus × Option (Fin 8) × Option Word16) :
    s.recomputeFrom b = { s with
      link := (s.recomputeFrom b).link, draws := (s.recomputeFrom b).draws
      resolver := { s.resolver with status := s.computeStatus, counts := s.computeCounts } } := by
  unfold State.recomputeFrom
  rw [State.postAll_eq]
  unfold State.refresh
  simp only []
  split <;> rfl

theorem State.keepsRest_recomputeFrom (s : State) (b : ToolStatus × Option (Fin 8) × Option Word16) :
    s.keepsRest (s.recomputeFrom b) := by
  unfold State.recomputeFrom
  refine State.keepsRest.trans ?_ (State.keepsRest_postAll _ _)
  unfold State.refresh
  simp only []
  split <;> exact .refl s

theorem State.recomputeFrom_replied {s : State} {r : Reply} (h : s.replied r)
    (b : ToolStatus × Option (Fin 8) × Option Word16) : (s.recomputeFrom b).replied r := by
  unfold State.recomputeFrom
  refine State.replied_postAll _ ?_
  unfold State.refresh
  simp only []
  split <;> exact h

@[simp] theorem State.recomputeFrom_unit (s : State) (b) : (s.recomputeFrom b).unit = s.unit := by rw [recomputeFrom_eq]
@[simp] theorem State.recomputeFrom_accessTimer (s : State) (b) : (s.recomputeFrom b).accessTimer = s.accessTimer := by
  rw [recomputeFrom_eq]
@[simp] theorem State.recomputeFrom_mate (s : State) (b) : (s.recomputeFrom b).mate = s.mate := by rw [recomputeFrom_eq]
@[simp] theorem State.recomputeFrom_lanes (s : State) (b) : (s.recomputeFrom b).lanes = s.lanes := by rw [recomputeFrom_eq]
@[simp] theorem State.lane_recomputeFrom (s : State) (b) (l : LaneId) : (s.recomputeFrom b).lane l = s.lane l := by
  rw [recomputeFrom_eq]; rfl
@[simp] theorem State.recomputeFrom_dir (s : State) (b) : (s.recomputeFrom b).dir = s.dir := by rw [recomputeFrom_eq]
@[simp] theorem State.recomputeFrom_resolver (s : State) (b) :
    (s.recomputeFrom b).resolver = { s.resolver with status := s.computeStatus, counts := s.computeCounts } := by
  rw [recomputeFrom_eq]
@[simp] theorem State.recomputeFrom_missLimit (s : State) (b) : (s.recomputeFrom b).missLimit = s.missLimit := by
  rw [recomputeFrom_eq]
@[simp] theorem State.recomputeFrom_now (s : State) (b) : (s.recomputeFrom b).now = s.now := by rw [recomputeFrom_eq]
@[simp] theorem State.recomputeFrom_store (s : State) (b) : (s.recomputeFrom b).store = s.store := by rw [recomputeFrom_eq]
@[simp] theorem State.recomputeFrom_attnTimeout (s : State) (b) : (s.recomputeFrom b).attnTimeout = s.attnTimeout := by
  rw [recomputeFrom_eq]

theorem Resolver.sameChoice.refl (r : Resolver) : r.sameChoice r := by simp [Resolver.sameChoice]

theorem Resolver.sameChoice.trans {r t u : Resolver} (h : r.sameChoice t) (k : t.sameChoice u) : r.sameChoice u := by
  obtain ⟨h1, h2, h3, h4, h5, h6⟩ := h
  obtain ⟨k1, k2, k3, k4, k5, k6⟩ := k
  exact ⟨k1.trans h1, k2.trans h2, k3.trans h3, k4.trans h4, k5.trans h5, k6.trans h6⟩

/-- What an act can do that touches only the link, the draws, the Resolver's status and counts, and the directory. -/
structure State.onlyNews (s t : State) : Prop where
  rest : s.keepsRest t
  unit : t.unit = s.unit
  accessTimer : t.accessTimer = s.accessTimer
  mate : t.mate = s.mate
  lanes : t.lanes = s.lanes
  resolver : s.resolver.sameChoice t.resolver
  replied : ∀ r, s.replied r → t.replied r

theorem State.onlyNews.refl (s : State) : s.onlyNews s :=
  ⟨.refl s, rfl, rfl, rfl, rfl, .refl _, fun _ h => h⟩

theorem State.onlyNews.trans {s t u : State} (h : s.onlyNews t) (k : t.onlyNews u) : s.onlyNews u :=
  ⟨h.rest.trans k.rest, k.unit.trans h.unit, k.accessTimer.trans h.accessTimer, k.mate.trans h.mate, k.lanes.trans h.lanes,
    h.resolver.trans k.resolver, fun r hr => k.replied r (h.replied r hr)⟩

theorem State.onlyNews.lane {s t : State} (h : s.onlyNews t) (l : LaneId) : t.lane l = s.lane l := by
  unfold State.lane; rw [h.lanes]

theorem State.onlyNews_post (s : State) (n : Notice) : s.onlyNews (s.post n) :=
  ⟨s.keepsRest_post n, rfl, rfl, rfl, rfl, .refl _, fun _ h => State.replied_post h n⟩

theorem State.onlyNews_update (s : State) (old new : Entry) : s.onlyNews (s.update old new) :=
  ⟨.refl s, rfl, rfl, rfl, rfl, .refl _, fun _ h => h⟩

theorem State.onlyNews_recomputeFrom (s : State) (b) : s.onlyNews (s.recomputeFrom b) :=
  ⟨s.keepsRest_recomputeFrom b, by simp, by simp, by simp, by simp, by simp [Resolver.sameChoice],
    fun _ h => State.recomputeFrom_replied h b⟩

theorem State.onlyNews_recompute (s : State) : s.onlyNews s.recompute := by
  unfold State.recompute
  split
  · exact s.onlyNews_recomputeFrom _
  · exact .refl s

@[simp] theorem State.recompute_dir (s : State) : s.recompute.dir = s.dir := by
  unfold State.recompute; split <;> simp
@[simp] theorem State.recompute_lanes (s : State) : s.recompute.lanes = s.lanes := s.onlyNews_recompute.lanes
@[simp] theorem State.lane_recompute (s : State) (l : LaneId) : s.recompute.lane l = s.lane l := s.onlyNews_recompute.lane l
@[simp] theorem State.recompute_mate (s : State) : s.recompute.mate = s.mate := s.onlyNews_recompute.mate
@[simp] theorem State.recompute_unit (s : State) : s.recompute.unit = s.unit := s.onlyNews_recompute.unit
@[simp] theorem State.recompute_accessTimer (s : State) : s.recompute.accessTimer = s.accessTimer :=
  s.onlyNews_recompute.accessTimer

/-! ### Evidence (R100 to R102) -/

theorem State.onlyNews_reportPresence (s : State) (old new : Entry) : s.onlyNews (s.reportPresence old new) := by
  unfold State.reportPresence
  split
  · exact s.onlyNews_recompute
  · exact .refl s

@[simp] theorem State.reportPresence_dir (s : State) (old new : Entry) : (s.reportPresence old new).dir = s.dir := by
  unfold State.reportPresence; split <;> simp

theorem State.onlyNews_postFault (s : State) (old new : Entry) : s.onlyNews (s.postFault old new) := by
  unfold State.postFault
  split
  · exact s.onlyNews_post _
  · exact .refl s

@[simp] theorem State.postFault_dir (s : State) (old new : Entry) : (s.postFault old new).dir = s.dir := by
  unfold State.postFault; split <;> rfl

/-- An answer as evidence changes the directory and posts; it touches no lane. -/
theorem State.onlyNews_applyAnswer (s : State) (t : Target) (f : Option Bool) : s.onlyNews (s.applyAnswer t f) := by
  unfold State.applyAnswer
  split
  · rename_i e _
    split
    · simp only []
      refine State.onlyNews.trans ?_ (State.onlyNews_reportPresence _ _ _)
      refine State.onlyNews.trans ?_ (State.onlyNews_postFault _ _ _)
      split
      · exact (s.onlyNews_update _ _).trans (State.onlyNews_post _ _)
      · exact s.onlyNews_update _ _
    · exact .refl s
  · exact .refl s

/-! ### Changes of a lane's slots and clear list -/

theorem Lane.sameButService.refl (n : Lane) : n.sameButService n := rfl

theorem Lane.sameButService.trans {n m k : Lane} (h : n.sameButService m) (g : m.sameButService k) :
    n.sameButService k := by
  unfold Lane.sameButService at *
  rw [g, h]

theorem Lane.sameButWork.service {n m : Lane} (h : n.sameButWork m) : n.sameButService m := by
  unfold Lane.sameButWork at h
  rw [h]; rfl

theorem Lane.sameButService.standing {n m : Lane} (h : n.sameButService m) : n.keepsStanding m := by
  unfold Lane.sameButService at h
  rw [h]; simp [Lane.keepsStanding, Lane.keepsParameters]

theorem Lane.sameButService.state {n m : Lane} (h : n.sameButService m) : m.state = n.state := by
  unfold Lane.sameButService at h
  rw [h]

theorem Lane.sameButService.survey {n m : Lane} (h : n.sameButService m) : m.survey = n.survey := by
  unfold Lane.sameButService at h
  rw [h]

theorem sameButService_modLane (s : State) (l m : LaneId) (f : Lane → Lane) (h : ∀ n : Lane, n.sameButService (f n)) :
    (s.lane m).sameButService ((s.modLane l f).lane m) := by
  rw [State.lane_modLane]
  split
  · subst m; exact h _
  · rfl

theorem Attention.addClear_eq (a : Attention) (i : ClearItem) :
    a.addClear i = { a with clearList := (a.addClear i).clearList } := by
  unfold Attention.addClear
  split <;> rfl

theorem Attention.release_eq (a : Attention) (h : Nat) : a.release h = { a with slots := (a.release h).slots } := rfl

/-- R137: after an item has been added, one for its address is in the list. -/
theorem Attention.addClear_mem (a : Attention) (i : ClearItem) : ∃ x ∈ (a.addClear i).clearList, x.addr = i.addr := by
  unfold Attention.addClear
  split
  · rename_i h
    simpa using h
  · exact ⟨i, by simp, rfl⟩

theorem sameButService_addClear (s : State) (e : Entry) (m : LaneId) :
    (s.lane m).sameButService ((s.addClear e).lane m) := by
  unfold State.addClear
  refine sameButService_modLane s e.lane m _ ?_
  intro n
  unfold Lane.sameButService
  simp only []
  congr 1
  rw [Attention.addClear_eq]

/-- What an act can do that touches the link, the draws, the Resolver's status and counts, the directory, and the slots and
clear lists of lanes. -/
structure State.newsAndClears (s t : State) : Prop where
  rest : s.keepsRest t
  unit : t.unit = s.unit
  accessTimer : t.accessTimer = s.accessTimer
  mate : t.mate = s.mate
  lane : ∀ m, (s.lane m).sameButService (t.lane m) ∧ (t.lane m).run = (s.lane m).run
    ∧ (t.lane m).engine = (s.lane m).engine ∧ (t.lane m).arbiter = (s.lane m).arbiter
  resolver : s.resolver.sameChoice t.resolver
  replied : ∀ r, s.replied r → t.replied r

theorem State.newsAndClears.trans {s t u : State} (h : s.newsAndClears t) (k : t.newsAndClears u) : s.newsAndClears u :=
  ⟨h.rest.trans k.rest, k.unit.trans h.unit, k.accessTimer.trans h.accessTimer, k.mate.trans h.mate,
    fun m => ⟨(h.lane m).1.trans (k.lane m).1, (k.lane m).2.1.trans (h.lane m).2.1,
      (k.lane m).2.2.1.trans (h.lane m).2.2.1, (k.lane m).2.2.2.trans (h.lane m).2.2.2⟩,
    h.resolver.trans k.resolver, fun r hr => k.replied r (h.replied r hr)⟩

theorem State.onlyNews.clears {s t : State} (h : s.onlyNews t) : s.newsAndClears t :=
  ⟨h.rest, h.unit, h.accessTimer, h.mate, fun m => by rw [h.lane m]; exact ⟨rfl, rfl, rfl, rfl⟩, h.resolver, h.replied⟩

theorem State.newsAndClears.refl (s : State) : s.newsAndClears s := (State.onlyNews.refl s).clears

theorem State.newsAndClears_modLane (s : State) (l : LaneId) (f : Lane → Lane)
    (h : ∀ n : Lane, n.sameButService (f n) ∧ (f n).run = n.run ∧ (f n).engine = n.engine ∧ (f n).arbiter = n.arbiter) :
    s.newsAndClears (s.modLane l f) := by
  refine ⟨.refl s, rfl, rfl, rfl, fun m => ?_, .refl _, fun _ h => h⟩
  rw [State.lane_modLane]
  split
  · subst m; exact h _
  · exact ⟨rfl, rfl, rfl, rfl⟩

theorem State.newsAndClears_addClear (s : State) (e : Entry) : s.newsAndClears (s.addClear e) := by
  unfold State.addClear
  refine State.newsAndClears_modLane s e.lane _ (fun n => ⟨?_, rfl, rfl, rfl⟩)
  unfold Lane.sameButService
  simp only []
  congr 1
  rw [Attention.addClear_eq]

@[simp] theorem State.addClear_dir (s : State) (e : Entry) : (s.addClear e).dir = s.dir := rfl
@[simp] theorem State.addClear_resolver (s : State) (e : Entry) : (s.addClear e).resolver = s.resolver := rfl
@[simp] theorem State.addClear_link (s : State) (e : Entry) : (s.addClear e).link = s.link := rfl

/-- The end of an attention empties a slot and posts. -/
theorem State.newsAndClears_endAttention (s : State) (e : Entry) (w : EndReason) : s.newsAndClears (s.endAttention e w) := by
  unfold State.endAttention
  split
  · refine (State.newsAndClears_modLane s e.lane (fun n => { n with attention := n.attention.release e.handle }) ?_).trans
      (State.onlyNews_post _ _).clears
    exact fun n => ⟨rfl, rfl, rfl, rfl⟩
  · exact .refl s

@[simp] theorem State.endAttention_dir (s : State) (e : Entry) (w : EndReason) : (s.endAttention e w).dir = s.dir := by
  unfold State.endAttention; split <;> rfl

@[simp] theorem State.endAttention_resolver (s : State) (e : Entry) (w : EndReason) :
    (s.endAttention e w).resolver = s.resolver := by
  unfold State.endAttention; split <;> rfl

theorem State.endAttention_lane_ne (s : State) (e : Entry) (w : EndReason) (m : LaneId) (h : m ≠ e.lane) :
    (s.endAttention e w).lane m = s.lane m := by
  unfold State.endAttention
  split
  · simp [State.lane_modLane_ne _ _ _ _ h]
  · rfl

/-- The work, the service and the round set of a lane; all else is as before. -/
def Lane.sameButRound (n m : Lane) : Prop :=
  m = { n with
    engine := m.engine, arbiter := m.arbiter, run := m.run
    attention := { m.attention with lastServed := n.attention.lastServed }
    poller := { n.poller with roundSet := m.poller.roundSet } }

theorem Lane.sameButService.round {n m : Lane} (h : n.sameButService m) : n.sameButRound m := by
  unfold Lane.sameButService at h
  rw [h]; rfl

theorem Lane.sameButRound.trans {n m k : Lane} (h : n.sameButRound m) (g : m.sameButRound k) : n.sameButRound k := by
  unfold Lane.sameButRound at *
  rw [g, h]

theorem Lane.sameButRound.standing {n m : Lane} (h : n.sameButRound m) : n.keepsStanding m := by
  unfold Lane.sameButRound at h
  rw [h]; simp [Lane.keepsStanding, Lane.keepsParameters]

theorem Lane.sameButRound.state {n m : Lane} (h : n.sameButRound m) : m.state = n.state := by
  unfold Lane.sameButRound at h
  rw [h]

/-- What evidence can do: what `newsAndClears` says, and an address struck off a round set. -/
structure State.newsAndRounds (s t : State) : Prop where
  rest : s.keepsRest t
  unit : t.unit = s.unit
  accessTimer : t.accessTimer = s.accessTimer
  mate : t.mate = s.mate
  lane : ∀ m, (s.lane m).sameButRound (t.lane m) ∧ (t.lane m).run = (s.lane m).run
    ∧ (t.lane m).engine = (s.lane m).engine ∧ (t.lane m).arbiter = (s.lane m).arbiter
  resolver : s.resolver.sameChoice t.resolver
  replied : ∀ r, s.replied r → t.replied r

theorem State.newsAndClears.rounds {s t : State} (h : s.newsAndClears t) : s.newsAndRounds t :=
  ⟨h.rest, h.unit, h.accessTimer, h.mate, fun m => ⟨(h.lane m).1.round, (h.lane m).2⟩, h.resolver, h.replied⟩

theorem State.newsAndRounds.trans {s t u : State} (h : s.newsAndRounds t) (k : t.newsAndRounds u) : s.newsAndRounds u :=
  ⟨h.rest.trans k.rest, k.unit.trans h.unit, k.accessTimer.trans h.accessTimer, k.mate.trans h.mate,
    fun m => ⟨(h.lane m).1.trans (k.lane m).1, (k.lane m).2.1.trans (h.lane m).2.1,
      (k.lane m).2.2.1.trans (h.lane m).2.2.1, (k.lane m).2.2.2.trans (h.lane m).2.2.2⟩,
    h.resolver.trans k.resolver, fun r hr => k.replied r (h.replied r hr)⟩

/-- R85: an entry leaves its poll round. -/
theorem State.leaveRound_lane (s : State) (e : Entry) (m : LaneId) :
    (s.leaveRound e).lane m = if m = e.lane then (s.lane m).offRound e.addr else s.lane m := by
  unfold State.leaveRound
  rw [State.lane_modLane]
  split
  · subst m; rfl
  · rfl

@[simp] theorem State.leaveRound_dir (s : State) (e : Entry) : (s.leaveRound e).dir = s.dir := rfl
@[simp] theorem State.leaveRound_link (s : State) (e : Entry) : (s.leaveRound e).link = s.link := rfl
@[simp] theorem State.leaveRound_resolver (s : State) (e : Entry) : (s.leaveRound e).resolver = s.resolver := rfl
@[simp] theorem State.leaveRound_mate (s : State) (e : Entry) : (s.leaveRound e).mate = s.mate := rfl
@[simp] theorem State.leaveRound_unit (s : State) (e : Entry) : (s.leaveRound e).unit = s.unit := rfl

theorem State.newsAndRounds_leaveRound (s : State) (e : Entry) : s.newsAndRounds (s.leaveRound e) := by
  refine ⟨.refl s, rfl, rfl, rfl, fun m => ?_, .refl _, fun _ h => h⟩
  rw [State.leaveRound_lane]
  split
  · subst m; exact ⟨rfl, rfl, rfl, rfl⟩
  · exact ⟨rfl, rfl, rfl, rfl⟩

/-- A miss as evidence changes the directory, posts, and can empty a slot and strike an address on the entry's lane. -/
theorem State.newsAndRounds_applyMiss (s : State) (t : Target) : s.newsAndRounds (s.applyMiss t) := by
  unfold State.applyMiss
  split
  · rename_i e _
    split
    · simp only []
      refine State.newsAndRounds.trans ?_ (State.onlyNews_reportPresence _ _ _).clears.rounds
      split
      · exact (((s.onlyNews_update _ _).clears.rounds.trans (State.newsAndRounds_leaveRound _ _)).trans
          (State.onlyNews_post _ _).clears.rounds).trans (State.newsAndClears_endAttention _ _ _).rounds
      · split
        · exact ((s.onlyNews_update _ _).trans (State.onlyNews_post _ _)).clears.rounds
        · exact (s.onlyNews_update _ _).clears.rounds
    · exact (State.newsAndClears.refl s).rounds
  · exact (State.newsAndClears.refl s).rounds

theorem State.newsAndRounds_evidence (s : State) (t : Target) (o : TelegramOutcome) : s.newsAndRounds (s.evidence t o) := by
  unfold State.evidence
  split
  · exact (s.onlyNews_applyAnswer _ _).clears.rounds
  · exact (s.onlyNews_applyAnswer _ _).clears.rounds
  · exact s.newsAndRounds_applyMiss _
  · exact (State.newsAndClears.refl s).rounds

/-! ### Resolution (R165) -/

theorem State.foldl_addClear (es : List Entry) (s : State) :
    s.newsAndClears (es.foldl State.addClear s) ∧ (es.foldl State.addClear s).dir = s.dir
      ∧ (es.foldl State.addClear s).resolver = s.resolver ∧ (es.foldl State.addClear s).link = s.link := by
  induction es generalizing s with
  | nil => exact ⟨.refl s, rfl, rfl, rfl⟩
  | cons e es ih =>
    obtain ⟨h1, h2, h3, h4⟩ := ih (s.addClear e)
    exact ⟨(s.newsAndClears_addClear e).trans h1, h2, h3, h4⟩

/-- R86, R150: the bindings of one update: each entry takes its binding, and attentions that lose their level leave
CLEARs. -/
theorem State.writeBindings_spec (s : State) (f : Entry → Option Binding) :
    s.newsAndClears (s.writeBindings f) ∧ (s.writeBindings f).dir.entries = s.dir.entries.map (fun e => e.bindTo (f e))
      ∧ (s.writeBindings f).resolver = s.resolver ∧ (s.writeBindings f).link = s.link := by
  unfold State.writeBindings
  simp only []
  obtain ⟨h1, h2, h3, h4⟩ := State.foldl_addClear (s.dir.entries.filter (fun e => e.dropsPending (f e)))
    { s with
      dir := ({ s.dir with entries := s.dir.entries.map (fun e => e.bindTo (f e)) } : Directory).advance
        (s.dir.entries.filter (fun e => decide (e.binding ≠ f e))).length }
  refine ⟨State.newsAndClears.trans ?_ h1, by rw [h2]; rfl, h3, h4⟩
  exact ⟨.refl s, rfl, rfl, rfl, fun _ => ⟨rfl, rfl, rfl, rfl⟩, .refl _, fun _ h => h⟩

/-- The Resolver's values but for the choice, the status and the counts. -/
def Resolver.sameSession (r t : Resolver) : Prop := t.phase = r.phase ∧ t.finished = r.finished ∧ t.reports = r.reports

/-- What a resolution can do: bindings and attentions of entries, clear lists, the Resolver's choice, status and counts,
notices; and what the arbiters then do. -/
structure State.resolves (s t : State) : Prop where
  rest : s.keepsRest t
  mate : t.mate = s.mate
  lane : ∀ m, (s.lane m).sameButService (t.lane m)
  resolver : s.resolver.sameSession t.resolver
  entries : ∃ f : Entry → Option Binding, t.dir.entries = s.dir.entries.map (fun e => e.bindTo (f e))
  access : (∀ m, s.noAccess m) → t.unit = s.unit ∧ t.accessTimer = s.accessTimer
    ∧ (∀ m, (t.lane m).run = (s.lane m).run) ∧ ∀ r, s.replied r → t.replied r
  idle : ∀ m, (s.lane m).state.serving = false → (s.lane m).arbiter = Arbiter.cold →
    (t.lane m).engine = (s.lane m).engine ∧ (t.lane m).arbiter = Arbiter.cold ∧ (t.lane m).run = (s.lane m).run

/-- The choice, the bindings and the values that a full resolution leaves. -/
theorem State.rebind_spec (s : State) :
    s.rebind.dir.entries = s.dir.entries.map (fun e => e.bindTo (newBinding
        (s.chooseManifest.1.bind (fun i => s.store.slots[i]))
        (assignBindings s.dir.entries (s.chooseManifest.1.bind (fun i => s.store.slots[i]))) e))
      ∧ s.rebind.resolver = { s.resolver with
          applied := s.chooseManifest.1, conflict := s.chooseManifest.2.1, toolId := s.chooseManifest.2.2 }
      ∧ s.rebind.link = s.link ∧ s.keepsRest s.rebind ∧ s.rebind.unit = s.unit
      ∧ s.rebind.accessTimer = s.accessTimer ∧ s.rebind.mate = s.mate
      ∧ ∀ m, (s.lane m).sameButService (s.rebind.lane m) ∧ (s.rebind.lane m).run = (s.lane m).run
        ∧ (s.rebind.lane m).engine = (s.lane m).engine ∧ (s.rebind.lane m).arbiter = (s.lane m).arbiter := by
  unfold State.rebind
  simp only []
  generalize ht : ({ s with resolver := { s.resolver with
    applied := s.chooseManifest.1, conflict := s.chooseManifest.2.1, toolId := s.chooseManifest.2.2 } } : State) = t
  obtain ⟨h1, h2, h3, h4⟩ := State.writeBindings_spec t (newBinding t.appliedManifest
    (assignBindings t.dir.entries t.appliedManifest))
  subst ht
  refine ⟨h2, h3, h4, h1.rest, h1.unit, h1.accessTimer, h1.mate, h1.lane⟩

theorem State.resolution_spec (s : State) (b) :
    s.resolves (s.rebind.recomputeFrom b).arbitrateAll
      ∧ (s.rebind.recomputeFrom b).arbitrateAll.dir.entries = s.rebind.dir.entries
      ∧ (s.rebind.recomputeFrom b).arbitrateAll.resolver.applied = s.chooseManifest.1
      ∧ (s.rebind.recomputeFrom b).arbitrateAll.resolver.conflict = s.chooseManifest.2.1
      ∧ (s.rebind.recomputeFrom b).arbitrateAll.resolver.toolId = s.chooseManifest.2.2 := by
  obtain ⟨h1, h2, h3, h4, h5, h6, h7, h8⟩ := s.rebind_spec
  generalize s.rebind = t at *
  have hn := t.onlyNews_recomputeFrom b
  have hd : (t.recomputeFrom b).dir = t.dir := by simp
  have hr : (t.recomputeFrom b).resolver = { t.resolver with status := t.computeStatus, counts := t.computeCounts } := by simp
  generalize t.recomputeFrom b = u at *
  obtain ⟨a1, a2, a3, a4, a5, a6⟩ := arbitrateAll_fields u
  refine ⟨⟨h4.trans (hn.rest.trans a1), a2.trans (hn.mate.trans h7), fun m => ?_, ?_, ⟨_, by rw [a3, hd, h1]⟩, fun hm => ?_,
    fun m hs ha => ?_⟩, by rw [a3, hd], ?_, ?_, ?_⟩
  · refine (h8 m).1.trans ?_
    have := (a6 m).service
    rwa [hn.lane m] at this
  · rw [a4, hr, h2]
    simp [Resolver.sameSession]
  · have hu : ∀ m, u.noAccess m := by
      intro m
      rcases hm m with h | h
      · exact .inl (by rw [hn.lane m, (h8 m).2.1, h])
      · exact .inr (fun k t => by rw [hn.unit, h5]; exact h k t)
    have k := arbitrateAll_noAccess u hu
    refine ⟨(k 0).2.1.trans (hn.unit.trans h5), (k 0).2.2.1.trans (hn.accessTimer.trans h6), fun m => ?_, fun r hr => ?_⟩
    · rw [(k m).2.2.2, hn.lane m, (h8 m).2.1]
    · have : u.replied r := hn.replied r (by unfold State.replied; rw [h3]; exact hr)
      unfold State.replied at *
      rw [(k 0).1]; exact this
  · have hum : u.lane m = t.lane m := hn.lane m
    have := arbitrateAll_idle u m (by rw [hum, (h8 m).1.state]; exact hs) (by rw [hum, (h8 m).2.2.2]; exact ha)
    rw [this, hum]
    exact ⟨(h8 m).2.2.1, (h8 m).2.2.2.trans ha, (h8 m).2.1⟩
  · rw [a4, hr, h2]
  · rw [a4, hr, h2]
  · rw [a4, hr, h2]

/-- R165: a full resolution. -/
theorem State.fullResolution_spec (s : State) :
    s.resolves s.fullResolution ∧ s.fullResolution.dir.entries = s.rebind.dir.entries
      ∧ s.fullResolution.resolver.applied = s.chooseManifest.1
      ∧ s.fullResolution.resolver.conflict = s.chooseManifest.2.1
      ∧ s.fullResolution.resolver.toolId = s.chooseManifest.2.2 := by
  unfold State.fullResolution
  exact s.resolution_spec _

/-- What the report of a lane that has finished can do (R20, R24, R162): nothing more, or the initial resolution. -/
structure State.reported (l : LaneId) (s t : State) : Prop where
  rest : s.keepsRest t
  mate : t.mate = s.mate
  lane : ∀ m, (s.lane m).sameButService (t.lane m)
  finished : t.resolver.finished.get l = true
  entries : t.dir = s.dir ∨ ∃ f : Entry → Option Binding, t.dir.entries = s.dir.entries.map (fun e => e.bindTo (f e))
  access : (∀ m, s.noAccess m) → t.unit = s.unit ∧ t.accessTimer = s.accessTimer
    ∧ (∀ m, (t.lane m).run = (s.lane m).run) ∧ ∀ r, s.replied r → t.replied r
  idle : ∀ m, (s.lane m).state.serving = false → (s.lane m).arbiter = Arbiter.cold →
    (t.lane m).engine = (s.lane m).engine ∧ (t.lane m).arbiter = Arbiter.cold ∧ (t.lane m).run = (s.lane m).run

/-- A resolution after a change of the Resolver alone reports a lane whose mark it leaves. -/
theorem State.reported_of_resolves {s u v : State} {l : LaneId} (hu : u = { s with resolver := u.resolver })
    (hf : u.resolver.finished.get l = true) (h : u.resolves v) : s.reported l v := by
  have h2 := h.resolver.2.1
  have h1 := h.rest
  have h3 := h.mate
  have h4 := h.lane
  have h5 := h.entries
  have h6 := h.access
  have h7 := h.idle
  rw [hu] at h1 h3 h4 h5 h6 h7
  exact ⟨h1, h3, h4, by rw [h2]; exact hf, .inr h5, fun hm => h6 hm, h7⟩

theorem State.reported_of (s t : State) (l : LaneId) (now : Bool)
    (ht : t = { s with resolver := { s.resolver with finished := s.resolver.finished.set l true } }) :
    s.reported l (if now then t.initialResolution else t) := by
  have hf : t.resolver.finished.get l = true := by subst ht; exact Four.get_set_self _ _ _
  cases now with
  | true =>
    rw [if_pos rfl]
    unfold State.initialResolution
    refine State.reported_of_resolves ?_ ?_ (State.resolution_spec _ _).1
    · rw [ht]
    · exact hf
  | false =>
    subst ht
    exact ⟨.refl s, rfl, fun _ => rfl, hf, .inl rfl, fun _ => ⟨rfl, rfl, fun _ => rfl, fun _ h => h⟩,
      fun _ _ h => ⟨rfl, h, rfl⟩⟩

theorem State.reportFinished_spec (s : State) (l : LaneId) : s.reported l (s.reportFinished l) := by
  unfold State.reportFinished
  split
  · rename_i h
    exact ⟨.refl s, rfl, fun _ => rfl, h, .inl rfl, fun _ => ⟨rfl, rfl, fun _ => rfl, fun _ h => h⟩,
      fun _ _ h => ⟨rfl, h, rfl⟩⟩
  · exact s.reported_of _ l _ rfl

/-! ### The attention of a lane that a resolution does not serve (R150) -/

/-- The clear list of a lane is all of its attention that giving bindings changes, and that only where an entry of it was
PENDING. -/
theorem State.writeBindings_attention (s : State) (f : Entry → Option Binding) (m : LaneId) :
    ((s.writeBindings f).lane m).attention
        = { (s.lane m).attention with clearList := ((s.writeBindings f).lane m).attention.clearList }
      ∧ ((∀ e ∈ s.dir.entries, e.lane = m → e.attention ≠ .pending) →
          ((s.writeBindings f).lane m).attention = (s.lane m).attention) := by
  unfold State.writeBindings
  simp only []
  generalize ht : ({ s with dir := _ } : State) = t
  have hl : t.lane m = s.lane m := by subst ht; rfl
  rw [← hl]
  have hp : ∀ e ∈ s.dir.entries.filter (fun e => e.dropsPending (f e)), e ∈ s.dir.entries ∧ e.attention = .pending := by
    intro e he
    simp only [List.mem_filter, Entry.dropsPending, Bool.and_eq_true, decide_eq_true_eq] at he
    exact ⟨he.1, he.2.1⟩
  generalize s.dir.entries.filter (fun e => e.dropsPending (f e)) = es at *
  clear ht hl
  induction es generalizing t with
  | nil => exact ⟨rfl, fun _ => rfl⟩
  | cons e es ih =>
    obtain ⟨h1, h2⟩ := ih (t.addClear e) (fun x hx => hp x (by simp [hx]))
    simp only [List.foldl_cons]
    have ha : ((t.addClear e).lane m).attention = if m = e.lane then
        (t.lane e.lane).attention.addClear { addr := e.addr, owner := some (e.handle, e.tag) } else (t.lane m).attention := by
      unfold State.addClear
      rw [State.lane_modLane]
      split <;> rfl
    refine ⟨?_, fun h => ?_⟩
    · rw [h1, ha]
      split
      · rename_i hm
        rw [Attention.addClear_eq, hm]
      · rfl
    · obtain ⟨k1, k2⟩ := hp e (by simp)
      rw [h2 h, ha, if_neg]
      intro hm
      exact h e k1 hm.symm k2

/-- R162: the report of a lane that has finished leaves the attention of a lane that is not serving, but for its clear list. -/
theorem State.reportFinished_attention (s : State) (l m : LaneId) (hs : (s.lane m).state.serving = false)
    (ha : (s.lane m).arbiter = Arbiter.cold) :
    ((s.reportFinished l).lane m).attention
        = { (s.lane m).attention with clearList := ((s.reportFinished l).lane m).attention.clearList }
      ∧ ((∀ e ∈ s.dir.entries, e.lane = m → e.attention ≠ .pending) →
          ((s.reportFinished l).lane m).attention = (s.lane m).attention) := by
  unfold State.reportFinished
  split
  · exact ⟨rfl, fun _ => rfl⟩
  · simp only []
    split
    · unfold State.initialResolution
      simp only []
      generalize ht : ({ ({ s with resolver := _ } : State) with resolver := _ } : State) = t
      generalize ({ s with resolver := { s.resolver with finished := s.resolver.finished.set l true } } : State).resolver.shown = b
      have hl : t.lane m = s.lane m := by subst ht; rfl
      have hd : t.dir = s.dir := by subst ht; rfl
      rw [← hl] at hs ha ⊢
      rw [← hd]
      have hr := t.rebind_spec.2.2.2.2.2.2.2 m
      have hb : (t.rebind.lane m).attention = { (t.lane m).attention with clearList := (t.rebind.lane m).attention.clearList }
          ∧ ((∀ e ∈ t.dir.entries, e.lane = m → e.attention ≠ .pending) → (t.rebind.lane m).attention = (t.lane m).attention) := by
        unfold State.rebind
        exact State.writeBindings_attention _ _ m
      have hn := t.rebind.onlyNews_recomputeFrom b
      have hu : (t.rebind.recomputeFrom b).lane m = t.rebind.lane m := hn.lane m
      rw [arbitrateAll_idle _ m (by rw [hu, hr.1.state]; exact hs) (by rw [hu, hr.2.2.2]; exact ha), hu]
      exact hb
    · exact ⟨rfl, fun _ => rfl⟩

end Sys2Proof.Machine
end

