-- ==== Sys2Proof/Laws/Lanes.lean ====
section
/-! SUPPORT. What the loss of a lane does (R87): to the directory, entry by entry, and to the rest of the part. -/

namespace Sys2Proof.Machine

/-! ### The directory -/

/-- R87: the entries after the losses of some of them. -/
def loseAll (limit : Nat) (es xs : List Entry) : List Entry :=
  es.foldl (fun xs e => xs.map (fun x => if x.handle = e.handle then e.laneLost limit else x)) xs

theorem loseAll_mem {limit : Nat} {es xs : List Entry} {x : Entry} (h : x ∈ loseAll limit es xs) :
    (x ∈ xs ∧ ∀ e ∈ es, e.handle ≠ x.handle) ∨ ∃ e ∈ es, x = e.laneLost limit := by
  induction es generalizing xs with
  | nil => exact .inl ⟨h, by simp⟩
  | cons e es ih =>
    rcases ih h with ⟨h1, h2⟩ | ⟨f, h1, h2⟩
    · obtain ⟨y, hy, rfl⟩ := List.mem_map.mp h1
      by_cases hh : y.handle = e.handle
      · rw [if_pos hh]
        exact .inr ⟨e, by simp, rfl⟩
      · rw [if_neg hh] at h2 ⊢
        refine .inl ⟨hy, ?_⟩
        intro f hf
        rcases List.mem_cons.mp hf with rfl | hf
        · exact fun h => hh h.symm
        · exact h2 f hf
    · exact .inr ⟨f, by simp [h1], h2⟩

/-- An entry whose handle none of the lost ones has stays. -/
theorem mem_loseAll_of_ne {limit : Nat} {es xs : List Entry} {x : Entry} (h : x ∈ xs) (hn : ∀ e ∈ es, e.handle ≠ x.handle) :
    x ∈ loseAll limit es xs := by
  induction es generalizing xs with
  | nil => exact h
  | cons e es ih =>
    refine ih ?_ (fun f hf => hn f (by simp [hf]))
    refine List.mem_map.mpr ⟨x, h, ?_⟩
    rw [if_neg]
    exact fun h => hn e (by simp) h.symm

/-- With distinct handles, each lost entry is there as R87 leaves it. -/
theorem mem_loseAll_of_mem {limit : Nat} {es xs : List Entry} (hp : es.Pairwise (fun a b => a.handle ≠ b.handle))
    {e : Entry} (he : e ∈ es) (hx : ∃ x ∈ xs, x.handle = e.handle) : e.laneLost limit ∈ loseAll limit es xs := by
  induction es generalizing xs with
  | nil => cases he
  | cons f es ih =>
    obtain ⟨hp1, hp2⟩ := List.pairwise_cons.mp hp
    rcases List.mem_cons.mp he with h | he
    · subst h
      refine mem_loseAll_of_ne (es := es) ?_ (fun g hg => (hp1 g hg).symm)
      obtain ⟨x, hx, hh⟩ := hx
      exact List.mem_map.mpr ⟨x, hx, if_pos hh⟩
    · refine ih hp2 he ?_
      obtain ⟨x, hx, hh⟩ := hx
      refine ⟨x, List.mem_map.mpr ⟨x, hx, ?_⟩, hh⟩
      rw [if_neg]
      intro h
      exact hp1 e he (h ▸ hh)

/-- A loss keeps every entry's handle, lane, address and tag, given that the lost entry is the only one of its handle. -/
theorem loseAll_length (limit : Nat) (es xs : List Entry) : (loseAll limit es xs).length = xs.length := by
  induction es generalizing xs with
  | nil => rfl
  | cons e es ih => exact (ih _).trans (by simp)

/-! ### The losses -/

/-- What the acts of a trip or a restart can do to the part apart from the directory, the link and the Request Unit. -/
structure State.newsOrReply (s t : State) : Prop where
  rest : s.keepsRest t
  mate : t.mate = s.mate
  lane : ∀ m, (s.lane m).sameButService (t.lane m) ∧ (t.lane m).run = (s.lane m).run
    ∧ (t.lane m).engine = (s.lane m).engine ∧ (t.lane m).arbiter = (s.lane m).arbiter
  resolver : s.resolver.sameChoice t.resolver

theorem State.newsOrReply.refl (s : State) : s.newsOrReply s := ⟨.refl s, rfl, fun _ => ⟨rfl, rfl, rfl, rfl⟩, .refl _⟩

theorem State.newsOrReply.trans {s t u : State} (h : s.newsOrReply t) (k : t.newsOrReply u) : s.newsOrReply u :=
  ⟨h.rest.trans k.rest, k.mate.trans h.mate,
    fun m => ⟨(h.lane m).1.trans (k.lane m).1, (k.lane m).2.1.trans (h.lane m).2.1,
      (k.lane m).2.2.1.trans (h.lane m).2.2.1, (k.lane m).2.2.2.trans (h.lane m).2.2.2⟩,
    h.resolver.trans k.resolver⟩

theorem State.newsAndClears.orReply {s t : State} (h : s.newsAndClears t) : s.newsOrReply t :=
  ⟨h.rest, h.mate, h.lane, h.resolver⟩

theorem State.newsOrReply_sendAccessReply (s : State) (r : Reply) : s.newsOrReply (s.sendAccessReply r) := by
  refine ⟨?_, rfl, fun _ => ⟨rfl, rfl, rfl, rfl⟩, .refl _⟩
  exact State.keepsRest_replyThen { s with accessTimer := none } r none

theorem State.onlyNews_refresh (s : State) (b) : s.onlyNews (s.refresh b).1 ∧ (s.refresh b).1.dir = s.dir := by
  unfold State.refresh
  simp only []
  split
  · exact ⟨⟨.refl s, rfl, rfl, rfl, rfl, by simp [Resolver.sameChoice], fun _ h => h⟩, rfl⟩
  · exact ⟨⟨.refl s, rfl, rfl, rfl, rfl, by simp [Resolver.sameChoice], fun _ h => h⟩, rfl⟩

theorem State.onlyNews_recomputeLater (s : State) (due : List Notice) :
    s.onlyNews (s.recomputeLater due).1 ∧ (s.recomputeLater due).1.dir = s.dir := by
  unfold State.recomputeLater
  split
  · exact s.onlyNews_refresh _
  · exact ⟨.refl s, rfl⟩

/-- R87: one loss: the entry's update, the end of its attention, and a recomputation. -/
theorem loseEntry_spec (x : State × List Notice) (e : Entry) :
    x.1.newsAndClears (loseEntry x e).1
      ∧ (loseEntry x e).1.dir.entries
        = x.1.dir.entries.map (fun y => if y.handle = e.handle then e.laneLost x.1.missLimit else y)
      ∧ (∀ m, m ≠ e.lane → (loseEntry x e).1.lane m = x.1.lane m)
      ∧ ((x.1.lane e.lane).attention = Attention.cold → ((loseEntry x e).1.lane e.lane).attention = Attention.cold) := by
  unfold loseEntry
  have h1 := State.onlyNews_update x.1 e (e.laneLost x.1.missLimit)
  have h2 := State.newsAndClears_endAttention (x.1.update e (e.laneLost x.1.missLimit)) e .laneFault
  have h3 := State.onlyNews_recomputeLater ((x.1.update e (e.laneLost x.1.missLimit)).endAttention e .laneFault) x.2
  refine ⟨(h1.clears.trans h2).trans h3.1.clears, ?_, ?_, ?_⟩
  · rw [h3.2, State.endAttention_dir]
    rfl
  · intro m hm
    rw [h3.1.lane, State.endAttention_lane_ne _ _ _ _ hm]
    rfl
  · intro ha
    rw [h3.1.lane]
    unfold State.endAttention
    split
    · simp only [State.lane_post, State.lane_modLane_self, State.lane_update, ha]
      rfl
    · exact ha

/-- What an act of the losses of a lane does; `g` is what it does to the entries, for a miss limit. -/
structure LossAct (l : LaneId) (f : State × List Notice → State × List Notice) (g : Nat → List Entry → List Entry) : Prop where
  news : ∀ x : State × List Notice, x.1.newsOrReply (f x).1
  entries : ∀ x : State × List Notice, (f x).1.dir.entries = g x.1.missLimit x.1.dir.entries
  others : ∀ (x : State × List Notice) (m : LaneId), m ≠ l → (f x).1.lane m = x.1.lane m
  cold : ∀ x : State × List Notice, (x.1.lane l).attention = Attention.cold → ((f x).1.lane l).attention = Attention.cold

/-- An act that builds no reply: the Request Unit, the access timer and a reply that stands stay. -/
def QuietAct (f : State × List Notice → State × List Notice) : Prop :=
  ∀ x, (f x).1.unit = x.1.unit ∧ (f x).1.accessTimer = x.1.accessTimer ∧ ∀ r, x.1.replied r → (f x).1.replied r

theorem lossAct_loseEntry (l : LaneId) (e : Entry) (h : e.lane = l) :
    LossAct l (fun x => loseEntry x e) (fun k xs => xs.map (fun y => if y.handle = e.handle then e.laneLost k else y))
      ∧ QuietAct (fun x => loseEntry x e) := by
  subst h
  refine ⟨⟨fun x => (loseEntry_spec x e).1.orReply, fun x => (loseEntry_spec x e).2.1, fun x => (loseEntry_spec x e).2.2.1,
    fun x => (loseEntry_spec x e).2.2.2⟩, fun x => ?_⟩
  have := (loseEntry_spec x e).1
  exact ⟨this.unit, this.accessTimer, this.replied⟩

theorem lossAct_postDue (l : LaneId) : LossAct l postDue (fun _ xs => xs) ∧ QuietAct postDue := by
  refine ⟨⟨fun x => ?_, fun x => ?_, fun x m _ => ?_, fun x h => ?_⟩, fun x => ⟨?_, ?_, fun r h => ?_⟩⟩
  · refine ⟨State.keepsRest_postAll _ _, by simp [postDue], fun m => ?_, by simp [postDue, Resolver.sameChoice]⟩
    simp [postDue, Lane.sameButService]
  · simp [postDue]
  · simp [postDue]
  · simpa [postDue] using h
  · simp [postDue]
  · simp [postDue]
  · exact State.replied_postAll _ h

theorem lossAct_postLane (l : LaneId) (c : Option FaultCause) :
    LossAct l (fun x => (x.1.postLane l c, x.2)) (fun _ xs => xs) ∧ QuietAct (fun x => (x.1.postLane l c, x.2)) := by
  refine ⟨⟨fun x => (State.onlyNews_post _ _).clears.orReply, fun _ => rfl, fun _ _ _ => rfl, fun _ h => h⟩,
    fun x => ⟨rfl, rfl, fun r h => State.replied_post h _⟩⟩

theorem lossAct_reply (l : LaneId) (r : Reply) :
    LossAct l (fun x => (x.1.sendAccessReply r, x.2)) (fun _ xs => xs) :=
  ⟨fun x => x.1.newsOrReply_sendAccessReply r, fun _ => rfl, fun _ _ _ => rfl, fun _ h => h⟩

/-- A list of acts, each with what it does to the entries. -/
def LossActs (l : LaneId) (fs : List (State × List Notice → State × List Notice))
    (gs : List (Nat → List Entry → List Entry)) : Prop := List.Forall₂ (LossAct l) fs gs

/-- Acts in order. -/
theorem lossActs_fold {l : LaneId} {fs gs} (h : LossActs l fs gs) (x : State × List Notice) :
    x.1.newsOrReply (fs.foldl (fun y f => f y) x).1
      ∧ (fs.foldl (fun y f => f y) x).1.dir.entries = gs.foldl (fun xs g => g x.1.missLimit xs) x.1.dir.entries
      ∧ (∀ m, m ≠ l → (fs.foldl (fun y f => f y) x).1.lane m = x.1.lane m)
      ∧ ((x.1.lane l).attention = Attention.cold → ((fs.foldl (fun y f => f y) x).1.lane l).attention = Attention.cold) := by
  unfold LossActs at h
  induction h generalizing x with
  | nil => exact ⟨.refl _, rfl, fun _ _ => rfl, fun h => h⟩
  | cons hf _ ih =>
    rename_i f g fs gs _
    obtain ⟨h1, h2, h3, h4⟩ := ih (f x)
    have hm : (f x).1.missLimit = x.1.missLimit := (hf.news x).rest.2.2.1
    refine ⟨(hf.news x).trans h1, ?_, fun m hm => (h3 m hm).trans (hf.others x m hm), fun h => h4 (hf.cold x h)⟩
    simp only [List.foldl_cons]
    rw [h2, hf.entries, hm]

theorem quietActs_fold {fs : List (State × List Notice → State × List Notice)} (h : ∀ f ∈ fs, QuietAct f)
    (x : State × List Notice) :
    (fs.foldl (fun y f => f y) x).1.unit = x.1.unit ∧ (fs.foldl (fun y f => f y) x).1.accessTimer = x.1.accessTimer
      ∧ ∀ r, x.1.replied r → (fs.foldl (fun y f => f y) x).1.replied r := by
  induction fs generalizing x with
  | nil => exact ⟨rfl, rfl, fun _ h => h⟩
  | cons f fs ih =>
    obtain ⟨h1, h2, h3⟩ := ih (fun g hg => h g (by simp [hg])) (f x)
    obtain ⟨k1, k2, k3⟩ := h f (by simp) x
    exact ⟨h1.trans k1, h2.trans k2, fun r hr => h3 r (k3 r hr)⟩

/-- What the losses of a lane do to the entries. -/
def lossEffects (es : List Entry) : List (Nat → List Entry → List Entry) :=
  es.map (fun e k xs => xs.map (fun y => if y.handle = e.handle then e.laneLost k else y))

theorem lossEffects_fold (es xs : List Entry) (k : Nat) :
    (lossEffects es).foldl (fun xs g => g k xs) xs = loseAll k es xs := by
  unfold lossEffects loseAll
  rw [List.foldl_map]

theorem lossActs_lossActs (s : State) (l : LaneId) :
    LossActs l (s.lossActs l) (lossEffects (s.toLose l)) ∧ ∀ f ∈ s.lossActs l, QuietAct f := by
  have hl : ∀ e ∈ s.toLose l, e.lane = l := by
    intro e he
    simp only [State.toLose, State.onLane, List.mem_filter, decide_eq_true_eq] at he
    exact he.1.2
  unfold State.lossActs lossEffects LossActs
  generalize s.toLose l = es at hl
  constructor
  · induction es with
    | nil => exact .nil
    | cons e es ih =>
      exact .cons (lossAct_loseEntry l e (hl e (by simp))).1 (ih (fun f hf => hl f (by simp [hf])))
  · intro f hf
    obtain ⟨e, he, rfl⟩ := List.mem_map.mp hf
    exact (lossAct_loseEntry l e (hl e he)).2

/-- R87: after the losses of a lane no entry of it is there that is not LOST. -/
theorem loseAll_lost (s : State) (l : LaneId) (k : Nat) :
    ∀ e ∈ loseAll k (s.toLose l) s.dir.entries, e.lane = l → e.presence = .lost := by
  intro e he hl
  rcases loseAll_mem he with ⟨h1, h2⟩ | ⟨f, _, rfl⟩
  · by_contra hp
    refine h2 e ?_ rfl
    simp only [State.toLose, State.onLane, List.mem_filter, decide_eq_true_eq]
    exact ⟨⟨h1, hl⟩, by simpa using hp⟩
  · rfl

theorem State.mem_toLose (s : State) (l : LaneId) (e : Entry) :
    e ∈ s.toLose l ↔ e ∈ s.dir.entries ∧ e.lane = l ∧ e.presence ≠ .lost := by
  simp [State.toLose, State.onLane]; tauto

/-! ### Distinct handles (R72, R79) -/

theorem handle_unique {es : List Entry} (h : es.Pairwise (fun a b => a.handle < b.handle)) {e f : Entry} (he : e ∈ es)
    (hf : f ∈ es) (hh : e.handle = f.handle) : e = f := by
  induction es with
  | nil => cases he
  | cons x es ih =>
    obtain ⟨h1, h2⟩ := List.pairwise_cons.mp h
    rcases List.mem_cons.mp he with he' | he' <;> rcases List.mem_cons.mp hf with hf' | hf'
    · rw [he', hf']
    · have := h1 f hf'; rw [he'] at hh; omega
    · have := h1 e he'; rw [hf'] at hh; omega
    · exact ih h2 he' hf'

theorem State.entry_unique {s : State} (h : s.directoryOk) {e f : Entry} (he : e ∈ s.dir.entries) (hf : f ∈ s.dir.entries)
    (hh : e.handle = f.handle) : e = f := handle_unique h.1 he hf hh

theorem State.toLose_distinct {s : State} {l : LaneId} (h : s.directoryOk) :
    (s.toLose l).Pairwise (fun a b => a.handle ≠ b.handle) := by
  unfold State.toLose State.onLane
  exact ((h.1.imp (fun h => Nat.ne_of_lt h)).filter _).filter _

/-! ### The lane restart (R25, R69) -/

/-- R25, R69: what a lane restart leaves. -/
theorem State.restartLane_spec (s : State) (l : LaneId) :
    (s.restartLane l).lane l = (s.lane l).restarted (s.timer Config.restartMs)
      ∧ s.keepsRest (s.restartLane l) ∧ (s.restartLane l).mate = s.mate ∧ (s.restartLane l).unit = s.unit
      ∧ (∀ m, m ≠ l → (s.restartLane l).lane m = s.lane m)
      ∧ (s.restartLane l).dir.entries = loseAll s.missLimit (s.toLose l) s.dir.entries := by
  unfold State.restartLane
  simp only []
  generalize ht : (s.modLane l (fun n => n.restarted (s.timer Config.restartMs))).postLane l none = t
  have hx : ∃ x : State × List Notice, x = (if (s.lane l).duplicateSeen = true then t.recomputeLater [] else (t, []))
      ∧ t.onlyNews x.1 ∧ x.1.dir = t.dir := by
    refine ⟨_, rfl, ?_⟩
    split
    · exact State.onlyNews_recomputeLater _ _
    · exact ⟨.refl _, rfl⟩
  obtain ⟨x, hx, hn, hd⟩ := hx
  rw [← hx]
  obtain ⟨a1, a2, a3, a4⟩ := lossActs_fold (lossActs_lossActs s l).1 x
  obtain ⟨c1, _, _⟩ := quietActs_fold (lossActs_lossActs s l).2 x
  generalize List.foldl (fun x f => f x) x (s.lossActs l) = y at *
  obtain ⟨⟨b1, b2, b3, b4⟩, b5⟩ := lossAct_postDue l
  have htl : t.lane l = (s.lane l).restarted (s.timer Config.restartMs) := by subst ht; simp [State.postLane]
  have hs : s.keepsRest t := by subst ht; exact State.keepsRest_post (s.modLane l _) _
  have hxl : x.1.lane l = (s.lane l).restarted (s.timer Config.restartMs) := by rw [hn.lane, htl]
  have hcold := b4 y (a4 (by rw [hxl]; rfl))
  obtain ⟨h1, hrun, heng, harb⟩ := (a1.trans (b1 y)).lane l
  unfold Lane.sameButService at h1
  refine ⟨?_, (hs.trans hn.rest).trans (a1.trans (b1 y)).rest, ?_, ?_, ?_, ?_⟩
  · rw [h1, hrun, heng, harb, hxl, hcold]; rfl
  · rw [(a1.trans (b1 y)).mate, hn.mate]; subst ht; rfl
  · rw [(b5 y).1, c1, hn.unit]; subst ht; rfl
  · intro m hm
    rw [b3 y m hm, a3 m hm, hn.lane]
    subst ht
    simp [State.postLane, State.lane_modLane_ne _ _ _ _ hm]
  · rw [b2, a2, lossEffects_fold, hd, hn.rest.2.2.1]
    subst ht; rfl

/-! ### The trip (R20) -/

/-- The acts of a trip after its lane has been taken down. -/
theorem State.tripSequence_spec (s : State) (l : LaneId) (x : State × List Notice) :
    x.1.newsOrReply ((s.tripSequence l).foldl (fun y f => f y) x).1
      ∧ ((s.tripSequence l).foldl (fun y f => f y) x).1.dir.entries = loseAll x.1.missLimit (s.toLose l) x.1.dir.entries
      ∧ (∀ m, m ≠ l → ((s.tripSequence l).foldl (fun y f => f y) x).1.lane m = x.1.lane m)
      ∧ ((x.1.lane l).attention = Attention.cold →
          (((s.tripSequence l).foldl (fun y f => f y) x).1.lane l).attention = Attention.cold)
      ∧ (s.tripReply? l = none → ((s.tripSequence l).foldl (fun y f => f y) x).1.unit = x.1.unit)
      ∧ ∀ r, s.tripReply? l = some r → ((s.tripSequence l).foldl (fun y f => f y) x).1.unit = .replying none
        ∧ ((s.tripSequence l).foldl (fun y f => f y) x).1.accessTimer = none
        ∧ ((s.tripSequence l).foldl (fun y f => f y) x).1.replied r := by
  have hq : ∀ f ∈ s.tripActs l, QuietAct f := by
    intro f hf
    simp only [State.tripActs, List.mem_cons, List.mem_append, List.not_mem_nil, or_false] at hf
    rcases hf with rfl | hf | rfl
    · exact (lossAct_postLane l _).2
    · exact (lossActs_lossActs s l).2 f hf
    · exact (lossAct_postDue l).2
  have ha : LossActs l (s.tripActs l) ((fun _ xs => xs) :: (lossEffects (s.toLose l) ++ [fun _ xs => xs])) := by
    unfold LossActs State.tripActs
    exact .cons (lossAct_postLane l _).1
      (List.rel_append (lossActs_lossActs s l).1 (.cons (lossAct_postDue l).1 .nil))
  have he : ∀ k xs, (((fun _ xs => xs) :: (lossEffects (s.toLose l) ++ [fun _ xs => xs]) :
      List (Nat → List Entry → List Entry)).foldl (fun xs g => g k xs) xs) = loseAll k (s.toLose l) xs := by
    intro k xs
    simp only [List.foldl_cons, List.foldl_append, List.foldl_nil, lossEffects_fold]
  unfold State.tripSequence
  cases hr : s.tripReply? l with
  | none =>
    simp only []
    obtain ⟨h1, h2, h3, h4⟩ := lossActs_fold ha x
    refine ⟨h1, by rw [h2, he], h3, h4, fun _ => (quietActs_fold hq x).1, (fun r hr => nomatch hr)⟩
  | some r =>
    simp only []
    generalize Config.tripReplyPlace s.draws = k
    obtain ⟨gs, hgs, hge⟩ : ∃ gs, LossActs l ((s.tripActs l).take k ++ (fun x => (x.1.sendAccessReply r, x.2)) ::
        (s.tripActs l).drop k) gs ∧ ∀ j xs, gs.foldl (fun xs g => g j xs) xs = loseAll j (s.toLose l) xs := by
      refine ⟨_, List.rel_append (List.forall₂_take k ha) (.cons (lossAct_reply l r) (List.forall₂_drop k ha)), ?_⟩
      intro j xs
      rw [List.foldl_append, List.foldl_cons, ← List.foldl_append, List.take_append_drop, he]
    obtain ⟨h1, h2, h3, h4⟩ := lossActs_fold hgs x
    refine ⟨h1, by rw [h2, hge], h3, h4, (fun h => nomatch h), ?_⟩
    rintro _ ⟨⟩
    rw [List.foldl_append, List.foldl_cons]
    have hd : ∀ f ∈ (s.tripActs l).drop k, QuietAct f := fun f hf => hq f (List.mem_of_mem_drop hf)
    generalize List.foldl (fun y f => f y) x ((s.tripActs l).take k) = y
    obtain ⟨c1, c2, c3⟩ := quietActs_fold hd (y.1.sendAccessReply r, y.2)
    exact ⟨c1, c2, c3 r (State.replied_replyThen _ _ _)⟩

end Sys2Proof.Machine
end

