-- ==== Sys2Proof/Laws/Requests.lean ====
section
/-! SUPPORT. How a request row runs (R187), and the lane and slot numbers that a byte carries. -/

namespace Sys2Proof.Machine

/-- A request row that takes the head request answers what its rule serves. -/
theorem take_next {s : State} {q : Request} {rest : List Request} {mine : Request → Bool}
    {serve : Request → State → State} (h : s.queued q rest) (hm : mine q = true)
    (hl : lengthAllowed q.kind q.payload = true) :
    (Host.Outcome.next (s.take mine serve) : Host.Outcome State Fault Refusal) = .next (serve q (s.took rest)) :=
  congrArg Host.Outcome.next (State.take_serves h hm hl)

/-- R187: while a request can be taken, the Request Unit is free and no lane has a run. -/
theorem State.queued_free {s : State} {q : Request} {rest : List Request} (h : s.queued q rest) :
    s.unit = .free ∧ ∀ l, (s.lane l).run = none := by
  obtain ⟨h, _⟩ := h
  simp only [State.canTake, allLanes, List.all_cons, List.all_nil, Bool.and_true, Bool.and_eq_true, decide_eq_true_eq,
    Option.isNone_iff_eq_none] at h
  obtain ⟨h0, h1, h2, h3, h4⟩ := h
  refine ⟨h0, fun l => ?_⟩
  match l with
  | 0 => exact h1
  | 1 => exact h2
  | 2 => exact h3
  | 3 => exact h4

/-- So no arbiter can end an access. -/
theorem State.queued_noAccess {s : State} {q : Request} {rest : List Request} (h : s.queued q rest) :
    ∀ l, (s.took rest).noAccess l := fun l => .inl ((State.queued_free h).2 l)

theorem laneOf_byteOf (l : LaneId) : laneOf (byteOf l.val) = some l := by revert l; decide

theorem laneOf_large (b : Byte) (h : 3 < b.toNat) : laneOf b = none := by
  unfold laneOf; rw [dif_neg (by omega)]

theorem slotOf_byteOf (i : Fin 8) : slotOf (byteOf i.val) = some i := by revert i; decide

theorem slotOf_large (b : Byte) (h : 7 < b.toNat) : slotOf b = none := by
  unfold slotOf; rw [dif_neg (by omega)]

/-- A byte is the number it carries. -/
theorem byteOf_toNat (b : Byte) : byteOf b.toNat = b := by simp [byteOf]

/-- A looked-up entry holds the handle. -/
theorem State.entry?_handle {s : State} {h : Nat} {e : Entry} (he : s.entry? h = some e) : e.handle = h := by
  unfold State.entry? at he
  simpa using List.find?_some he

theorem State.entry?_mem {s : State} {h : Nat} {e : Entry} (he : s.entry? h = some e) : e ∈ s.dir.entries :=
  List.mem_of_find?_eq_some he

/-- After an update the handle finds the new entry, if it keeps its handle. -/
theorem State.entry?_update {s : State} {h : Nat} {e new : Entry} (he : s.entry? h = some e) (hn : new.handle = e.handle) :
    (s.update e new).entry? h = some new := by
  have hh := State.entry?_handle he
  unfold State.entry? at *
  change (List.map (fun x => if x.handle = e.handle then new else x) s.dir.entries).find? _ = _
  rw [List.find?_map]
  have : ((fun e => decide (e.handle = h)) ∘ fun x : Entry => if x.handle = e.handle then new else x)
      = fun x : Entry => decide (x.handle = h) := by
    funext x
    simp only [Function.comp]
    split
    · rename_i hx; simp [hn, hh, hx]
    · rfl
  rw [this, he]
  simp

/-- R187: a request row that cannot take the head request leaves the state as it is (log entry 1). -/
theorem State.take_stays {s : State} (mine : Request → Bool) (serve : Request → State → State) {k : Byte} {code : Option (Nat × Byte)}
    (hm : ∀ q, mine q = true → q.kind = k ∧ ∀ i b, code = some (i, b) → ∀ x, q.payload[i]? = some x → x ≠ b → ∀ d, (d, k, some (i, x)) ∉ requestRows)
    (h : s.canTake = false ∨ s.link.requests = [] ∨ ∃ q rest, s.link.requests = q :: rest ∧
      (q.kind ≠ k ∨ ∃ i b x, code = some (i, b) ∧ q.payload[i]? = some x ∧ x ≠ b ∧ ∃ d, (d, k, some (i, x)) ∈ requestRows)) :
    (Host.Outcome.next (s.take mine serve) : Host.Outcome State Fault Refusal) = .next s := by
  congr 1
  unfold State.take
  rcases h with h | h | ⟨q, rest, h, k⟩
  · rw [h]; rfl
  · rw [h]; split <;> rfl
  · rw [h]
    split
    · simp only []
      rw [if_neg]
      intro hq
      obtain ⟨h1, h2⟩ := hm q hq
      rcases k with k | ⟨i, b, x, k1, k2, k3, d, k4⟩
      · exact k h1
      · exact h2 i b k1 x k2 k3 d k4
    · rfl

/-- A row that selects by a code of the payload takes no request whose code is that of another row of its kind. -/
theorem selects_row {k : Byte} {i : Nat} {rows : List Byte} {c : Byte}
    (hr : requestRows.all (fun p => decide (p.2.1 ≠ k) || (match p.2.2 with | none => true | some y => decide (y.1 ≠ i) || rows.contains y.2)) = true) (q : Request) (h : selects k i rows c q = true) :
    q.kind = k ∧ ∀ j b, (some (i, c) : Option (Nat × Byte)) = some (j, b) → ∀ x, q.payload[j]? = some x → x ≠ b → ∀ d, (d, k, some (j, x)) ∉ requestRows := by
  unfold selects at h
  simp only [Bool.and_eq_true, decide_eq_true_eq, Bool.or_eq_true, Bool.not_eq_true', Bool.and_eq_false_iff, decide_eq_false_iff_not] at h
  refine ⟨h.1, ?_⟩
  intro j b hj x hx hxb d hd
  cases hj
  obtain ⟨hi, hg⟩ := List.getElem?_eq_some_iff.1 hx
  have ha : at' q.payload i = x := by unfold at'; simp [hx]
  rcases h.2 with ⟨_, h2⟩ | h2 | h2
  · exact hxb (ha.symm.trans h2)
  · exact h2 hi
  · rw [ha] at h2
    have := List.all_eq_true.1 hr _ hd
    simp at this h2
    exact h2 this

end Sys2Proof.Machine
end

