-- ==== Sys2Proof/Laws/Engine.lean ====
section
/-! SUPPORT. The end of a telegram (R33, R116): the outcome is delivered, the grant ends, and the arbiter acts. -/

namespace Sys2Proof.Machine

/-- R33: without another attempt the outcome is delivered and the grant ends. -/
theorem State.quietWait_delivers {s : State} {l : LaneId} {u : Underway} {r : AttemptResult}
    (h : (s.lane l).engine = some u) (hp : u.phase = .quiet r) (ha : u.again r = false) :
    s.quietWait l
      = ((s.modLane l (fun n => { n with engine := none })).deliver l u.telegram r.outcome).endGrant l := by
  unfold State.quietWait
  simp only [h, hp]
  unfold State.quietDone
  simp [ha]

/-- The two ends of the wait for quiet are one. -/
theorem exec_quietWait {s : State} {l : LaneId} {c : Instr} (h : c = .quietWaitEnd l ∨ c = .quietWaitLimitExpiry l) :
    exec c s = .next (s.quietWait l) := by
  rcases h with rfl | rfl
  · rfl
  · rfl

/-- R116: what the end of a grant can do. -/
theorem State.endGrant_spec (s : State) (l : LaneId) :
    s.keepsRest (s.endGrant l) ∧ (s.endGrant l).mate = s.mate ∧ (s.endGrant l).dir = s.dir
      ∧ (s.endGrant l).resolver = s.resolver ∧ (∀ m, m ≠ l → (s.endGrant l).lane m = s.lane m)
      ∧ (s.lane l).sameButWork ((s.endGrant l).lane l) ∧ (s.noAccess l → s.sameAccess l (s.endGrant l)) := by
  unfold State.endGrant
  split
  · have h1 : s.sameAccess l (s.releaseGrant l) := sameAccess_releaseGrant s l
    refine ⟨keepsRest_arbitrate (s.releaseGrant l) l, ?_, ?_, ?_, ?_, ?_, ?_⟩
    · rw [State.arbitrate_mate]; rfl
    · rw [State.arbitrate_dir]; rfl
    · rw [State.arbitrate_resolver]; rfl
    · intro m hm
      rw [State.arbitrate_lane_ne _ _ _ hm]
      exact State.lane_modLane_ne _ _ _ _ hm
    · exact (sameButWork_releaseGrant s l l).trans (sameButWork_arbitrate _ l l)
    · exact fun h => h1.trans (sameAccess_arbitrate (h1.noAccess h))
  · exact ⟨.refl s, rfl, rfl, rfl, fun _ _ => rfl, rfl, fun _ => ⟨rfl, rfl, rfl, rfl⟩⟩

/-- Two changes of a lane that agree on it are one. -/
theorem State.modLane_same {s : State} {l : LaneId} {f g : Lane → Lane} (h : f (s.lane l) = g (s.lane l)) :
    s.modLane l f = s.modLane l g := congrArg (s.setLane l) h

theorem State.modLane_modLane (s : State) (l : LaneId) (f g : Lane → Lane) :
    (s.modLane l f).modLane l g = s.modLane l (fun n => g (f n)) := by
  unfold State.modLane State.setLane State.lane
  match l with
  | 0 => rfl
  | 1 => rfl
  | 2 => rfl
  | 3 => rfl

theorem Lane.keepsStanding.refl (n : Lane) : n.keepsStanding n := ⟨⟨rfl, rfl, rfl, rfl⟩, rfl, rfl, rfl, rfl⟩

theorem Lane.keepsStanding.trans {n m k : Lane} (h : n.keepsStanding m) (g : m.keepsStanding k) : n.keepsStanding k := by
  obtain ⟨⟨a1, a2, a3, a4⟩, a5, a6, a7, a8⟩ := h
  obtain ⟨⟨b1, b2, b3, b4⟩, b5, b6, b7, b8⟩ := g
  exact ⟨⟨b1.trans a1, b2.trans a2, b3.trans a3, b4.trans a4⟩, b5.trans a5, b6.trans a6, b7.trans a7, b8.trans a8⟩

end Sys2Proof.Machine
end

