-- ==== Sys2Proof/Laws/Resolution.lean ====
section
/-! SUPPORT. What a recomputation and a resolution decide: the status and counts of R166 and R167, the TOOL notice of R168,
the choice of R164 and the two passes of R165. -/

namespace Sys2Proof.Machine

/-! ### Status and counts (R166 to R168) -/

theorem State.missing_eq (s : State) (k : Nat) : s.missing k = !s.fills k := by
  unfold State.missing State.fills
  congr 2
  funext e
  cases e.binding <;> simp [Bool.and_comm]

theorem State.missingCount_eq (s : State) (b : Bool) : s.missingCount b = (s.missingOf b).length := by
  unfold State.missingCount State.missingOf State.appliedManifest State.appliedBindings
  cases s.resolver.applied with
  | none => rfl
  | some i =>
    simp only [Option.bind_some]
    cases s.store.slots[i] with
    | none => rfl
    | some m => simp only [State.missing_eq]

theorem all_lanes (l : LaneId) : l ∈ allLanes := by revert l; decide

/-- R166, R167: a status and counts that are computed hold. -/
theorem State.statusHolds_of {s : State} (h : s.resolver.status = s.computeStatus) (k : s.resolver.counts = s.computeCounts) :
    s.statusHolds := by
  unfold State.computeStatus at h
  unfold State.computeCounts at k
  refine ⟨fun hs => by simpa [hs] using h, fun hs => ⟨fun hp => by simpa [hs, hp] using h, fun hp => ⟨fun hc => ?_, fun hc hd => ?_⟩⟩,
    fun hp => by rw [if_neg hp] at k; exact k, fun hp => ?_⟩
  · rw [if_neg (by simp [hs]), if_neg hp, if_pos] at h
    · exact h
    · rcases hc with hc | ⟨l, hl⟩
      · simp [hc]
      · simp only [Bool.or_eq_true, List.any_eq_true]
        exact .inr ⟨l, all_lanes l, hl⟩
  · rw [if_neg (by simp [hs]), if_neg hp, if_neg (by simp [hc, hd]), State.missingCount_eq] at h
    refine ⟨fun ha => by simpa [ha] using h, fun ha hm => ?_, fun ha hm => ?_⟩
    · rw [if_neg (by cases hx : s.resolver.applied <;> simp_all), if_pos (by simpa using hm)] at h
      exact h
    · rw [if_neg (by cases hx : s.resolver.applied <;> simp_all), if_neg (by simpa using hm)] at h
      exact h
  · rw [if_pos hp, State.missingCount_eq, State.missingCount_eq] at k
    exact k

/-- What the status and the counts are computed from. -/
theorem State.statusHolds_congr {s t : State} (h : s.statusHolds) (hm : t.mate = s.mate) (hr : t.resolver = s.resolver)
    (hd : t.dir = s.dir) (hst : t.store = s.store) (hl : ∀ l, (t.lane l).duplicateSeen = (s.lane l).duplicateSeen) :
    t.statusHolds := by
  have ha : t.appliedBindings = s.appliedBindings := by unfold State.appliedBindings; rw [hr, hst]
  have hf : t.fills = s.fills := by funext k; unfold State.fills; rw [hd]
  have hmo : t.missingOf = s.missingOf := by funext b; unfold State.missingOf; rw [ha, hf]
  unfold State.statusHolds at *
  simp only [hm, hr, hd, hl, hmo]
  exact h

theorem State.recomputeFrom_statusHolds (s : State) (b) : (s.recomputeFrom b).statusHolds := by
  have h : ({ s with resolver := { s.resolver with status := s.computeStatus, counts := s.computeCounts } } : State).statusHolds :=
    State.statusHolds_of rfl rfl
  exact State.statusHolds_congr h (by simp) (by simp) (by simp) (by simp) (fun l => by simp [State.lane])

/-- R168: what a recomputation posts. -/
theorem State.recomputeFrom_told (s : State) (r : Resolver) : s.link.told r (s.recomputeFrom r.shown).resolver (s.recomputeFrom r.shown).link := by
  rw [State.recomputeFrom_resolver]
  unfold State.recomputeFrom State.refresh Link.told
  simp only [Resolver.shown, Prod.mk.injEq, ne_eq]
  constructor
  · intro h; rw [if_neg (by simpa using h)]; rfl
  · intro h
    rw [if_pos (by
      intro ⟨h1, h2, h3⟩
      rcases h with h | h | h
      · exact h h1
      · exact h h2
      · exact h h3)]
    exact ⟨_, rfl⟩

/-- A recomputation after a report (R171), in the phase RESOLVED. -/
theorem State.recompute_statusHolds {s : State} (h : s.resolver.phase = .resolved) : s.recompute.statusHolds := by
  unfold State.recompute
  rw [if_pos h]
  exact s.recomputeFrom_statusHolds _

theorem State.recompute_told {s : State} (h : s.resolver.phase = .resolved) :
    s.link.told s.resolver s.recompute.resolver s.recompute.link := by
  unfold State.recompute
  rw [if_pos h]
  exact s.recomputeFrom_told _

/-! ### The choice of the manifest (R164) -/

theorem Store.slotOf_holdsAt (st : Store) (x : Word16) : st.holdsAt x (st.slotOf x) := by
  unfold Store.slotOf
  constructor
  · intro i h
    have := List.find?_some h
    simpa using this
  · intro h i hi
    have := List.find?_eq_none.mp h i (List.mem_finRange i)
    exact this (decide_eq_true hi)

theorem State.chooseManifest_choosesIn (s : State) (r : Resolver) (h1 : r.applied = s.chooseManifest.1)
    (h2 : r.conflict = s.chooseManifest.2.1) (h3 : r.toolId = s.chooseManifest.2.2) : s.choosesIn r := by
  unfold State.chooseManifest at h1 h2 h3
  unfold State.choosesIn
  refine ⟨fun h => ?_, fun e h => ?_, fun h => ?_⟩
  · rw [h] at h1 h2 h3
    exact ⟨h3, h2, h1 ▸ s.store.slotOf_holdsAt 0⟩
  · rw [h] at h1 h2 h3
    simp only [] at h1 h2 h3
    cases hx : e.descriptor.bind (·.toolId) with
    | none =>
      simp only [hx] at h1 h2 h3
      exact ⟨h3, h2, .inr ⟨by simp [h3], h1 ▸ s.store.slotOf_holdsAt 0⟩⟩
    | some x =>
      simp only [hx] at h1 h2 h3
      have hh := s.store.slotOf_holdsAt x
      cases hsl : s.store.slotOf x with
      | none =>
        simp only [hsl] at h1 h2 h3 hh
        refine ⟨h3, h2, .inr ⟨?_, h1 ▸ s.store.slotOf_holdsAt 0⟩⟩
        intro y hy; rw [h3] at hy; cases hy; exact hh
      | some i =>
        simp only [hsl] at h1 h2 h3 hh
        exact ⟨h3, h2, .inl ⟨x, h3, by simp [h1], h1 ▸ hh⟩⟩
  · cases hl : s.dir.entries.filter (·.identity) with
    | nil => rw [hl] at h; simp at h
    | cons a as =>
      cases as with
      | nil => rw [hl] at h; simp at h
      | cons b bs => rw [hl] at h1 h2 h3; exact ⟨h3, h2, h1⟩

/-! ### The two passes (R165) -/

theorem laneFits_iff (b : ManifestBinding) (l : LaneId) : b.laneFits l = true ↔ b.lane = none ∨ b.lane = some l := by
  unfold ManifestBinding.laneFits
  cases b.lane <;> simp

theorem unbound_mem {es : List Entry} {done : List (Nat × Nat)} {e : Entry} :
    e ∈ unboundIn es done ↔ e ∈ es ∧ e.identity = false ∧ ∀ x ∈ done, x.1 ≠ e.handle := by
  unfold unboundIn
  simp

theorem fitsSerial_iff (b : ManifestBinding) (e : Entry) :
    b.fitsSerial e = true ∧ e.identity = false ↔ b.serial ≠ none ∧ b.mayBind e := by
  unfold ManifestBinding.fitsSerial ManifestBinding.mayBind
  simp only [Bool.and_eq_true, decide_eq_true_eq, laneFits_iff]
  constructor
  · rintro ⟨⟨⟨h1, h2⟩, h3⟩, h4⟩; exact ⟨by simp [h1], h4, h2, h3, .inr h1⟩
  · rintro ⟨h1, h2, h3, h4, h5 | h5⟩
    · exact absurd h5 h1
    · exact ⟨⟨⟨h5, h3⟩, h4⟩, h2⟩

theorem fitsClass_iff (b : ManifestBinding) (e : Entry) :
    b.fitsClass e = true ∧ e.identity = false ↔ b.serial = none ∧ b.mayBind e := by
  unfold ManifestBinding.fitsClass ManifestBinding.mayBind
  simp only [Bool.and_eq_true, decide_eq_true_eq, laneFits_iff, Option.isNone_iff_eq_none]
  constructor
  · rintro ⟨⟨⟨h1, h2⟩, h3⟩, h4⟩; exact ⟨h1, h4, h2, h3, .inl h1⟩
  · rintro ⟨h1, h2, h3, h4, _⟩; exact ⟨⟨⟨h1, h3⟩, h4⟩, h2⟩

/-- What is bound so far: each pair is a handle and the index of a binding that its entry may hold; no handle and no index
twice. -/
structure DoneOk (es : List Entry) (full : List ManifestBinding) (done : List (Nat × Nat)) : Prop where
  fits : ∀ x ∈ done, ∃ e ∈ es, e.handle = x.1 ∧ ∃ b, full[x.2]? = some b ∧ b.mayBind e
  handles : ∀ x ∈ done, ∀ y ∈ done, x.1 = y.1 → x = y
  indices : ∀ x ∈ done, ∀ y ∈ done, x.2 = y.2 → x = y

theorem DoneOk.snoc {es full done} (h : DoneOk es full done) {e : Entry} {i : Nat} {b : ManifestBinding}
    (he : e ∈ unboundIn es done) (hb : full[i]? = some b) (hm : b.mayBind e) (hi : ∀ x ∈ done, x.2 ≠ i) :
    DoneOk es full (done ++ [(e.handle, i)]) := by
  obtain ⟨a1, _, a3⟩ := unbound_mem.mp he
  refine ⟨?_, ?_, ?_⟩
  · intro x hx
    rcases List.mem_append.mp hx with hx | hx
    · exact h.fits x hx
    · simp at hx; subst hx
      exact ⟨e, a1, rfl, b, hb, hm⟩
  · intro x hx y hy hxy
    rcases List.mem_append.mp hx with hx | hx <;> rcases List.mem_append.mp hy with hy | hy
    · exact h.handles x hx y hy hxy
    · simp at hy; subst hy; exact absurd hxy (a3 x hx)
    · simp at hx; subst hx; exact absurd hxy.symm (a3 y hy)
    · simp at hx hy; rw [hx, hy]
  · intro x hx y hy hxy
    rcases List.mem_append.mp hx with hx | hx <;> rcases List.mem_append.mp hy with hy | hy
    · exact h.indices x hx y hy hxy
    · simp at hy; subst hy; exact absurd hxy (hi x hx)
    · simp at hx; subst hx; exact absurd hxy.symm (hi y hy)
    · simp at hx hy; rw [hx, hy]

/-- Class and serial are the whole tag. -/
theorem tag_ext {t u : Tag} (h : Tag.cls t = Tag.cls u) (k : Tag.serial t = Tag.serial u) : t = u := by
  unfold Tag.cls Tag.serial at *
  ext i hi
  by_cases hlt : i < 32
  · have := congrArg (fun x => x.getLsbD i) k
    simpa [BitVec.getLsbD_extractLsb', hlt, hi] using this
  · have := congrArg (fun x => x.getLsbD (i - 32)) h
    simpa [BitVec.getLsbD_extractLsb', show i - 32 < 8 by omega, show 32 + (i - 32) = i by omega, hi] using this

/-- Pass A so far: an entry that a binding with a serial fits, among the first `k`, is bound to that or an earlier one. -/
def PassAOk (es : List Entry) (full : List ManifestBinding) (k : Nat) (done : List (Nat × Nat)) : Prop :=
  ∀ e ∈ es, ∀ j x, j < k → full[j]? = some x → x.serial ≠ none → x.mayBind e → ∃ y ∈ done, y.1 = e.handle ∧ y.2 ≤ j

/-- Pass A binds with serials only. -/
def SerialsBelow (full : List ManifestBinding) (k : Nat) (done : List (Nat × Nat)) : Prop :=
  ∀ x ∈ done, x.2 < k ∧ ∃ b, full[x.2]? = some b ∧ b.serial ≠ none

theorem passA_fold (es : List Entry) (ht : ∀ e ∈ es, ∀ f ∈ es, e.tag = f.tag → e = f) (full bs : List ManifestBinding) (k : Nat)
    (hf : ∀ j b, bs[j]? = some b → full[k + j]? = some b) (done : List (Nat × Nat)) (h : DoneOk es full done)
    (hk : SerialsBelow full k done) (ha : PassAOk es full k done) :
    DoneOk es full ((bs.zipIdx k).foldl (passA es) done)
      ∧ SerialsBelow full (k + bs.length) ((bs.zipIdx k).foldl (passA es) done)
      ∧ PassAOk es full (k + bs.length) ((bs.zipIdx k).foldl (passA es) done) := by
  induction bs generalizing k done with
  | nil => exact ⟨h, hk, ha⟩
  | cons b bs ih =>
    simp only [List.zipIdx_cons, List.foldl_cons, List.length_cons]
    rw [show k + (bs.length + 1) = k + 1 + bs.length by omega]
    have hb : full[k]? = some b := hf 0 b rfl
    have hnext : ∀ j c, bs[j]? = some c → full[k + 1 + j]? = some c := fun j c hc => by
      have := hf (j + 1) c hc
      rwa [show k + 1 + j = k + (j + 1) by omega]
    have hkk : SerialsBelow full (k + 1) done := fun x hx => ⟨by have := (hk x hx).1; omega, (hk x hx).2⟩
    unfold passA
    cases hfind : (unboundIn es done).find? (fun e => b.fitsSerial e) with
    | none =>
      simp only []
      refine ih (k + 1) hnext done h hkk ?_
      intro e he j x hj hx hs hm
      by_cases hjk : j < k
      · exact ha e he j x hjk hx hs hm
      · have : j = k := by omega
        subst this
        rw [hb] at hx; cases hx
        by_cases hu : ∀ y ∈ done, y.1 ≠ e.handle
        · have h1 := (fitsSerial_iff b e).mpr ⟨hs, hm⟩
          have := List.find?_eq_none.mp hfind e (unbound_mem.mpr ⟨he, h1.2, hu⟩)
          exact absurd h1.1 this
        · simp only [not_forall, not_not] at hu
          obtain ⟨y, hy, hye⟩ := hu
          exact ⟨y, hy, hye, by have := (hk y hy).1; omega⟩
    | some f =>
      simp only []
      have hfm := List.mem_of_find?_eq_some hfind
      have hff := List.find?_some hfind
      have hfit := (fitsSerial_iff b f).mp ⟨hff, (unbound_mem.mp hfm).2.1⟩
      refine ih (k + 1) hnext _ (h.snoc hfm hb hfit.2 (fun x hx => by have := (hk x hx).1; omega)) ?_ ?_
      · intro x hx
        rcases List.mem_append.mp hx with hx | hx
        · exact hkk x hx
        · simp at hx; subst hx
          exact ⟨by simp, b, hb, hfit.1⟩
      · intro e he j x hj hx hs hm
        by_cases hjk : j < k
        · obtain ⟨y, hy, h1, h2⟩ := ha e he j x hjk hx hs hm
          exact ⟨y, List.mem_append_left _ hy, h1, h2⟩
        · have : j = k := by omega
          subst this
          rw [hb] at hx; cases hx
          have h1 := (fitsSerial_iff b e).mpr ⟨hs, hm⟩
          have : e = f := by
            refine ht e he f (unbound_mem.mp hfm).1 (tag_ext ?_ ?_)
            · rw [← hm.2.1, ← hfit.2.2.1]
            · have a1 := hm.2.2.2.resolve_left hs
              have a2 := hfit.2.2.2.2.resolve_left hs
              rw [a1] at a2; exact Option.some.inj a2
          subst this
          exact ⟨(e.handle, j), by simp, rfl, by simp⟩

/-- Pass B so far: for each entry that a binding without a serial fits, among the first `k`. -/
def PassBOk (es : List Entry) (full : List ManifestBinding) (k : Nat) (done : List (Nat × Nat)) : Prop :=
  ∀ f ∈ es, ∀ j x, j < k → full[j]? = some x → x.serial = none → x.mayBind f →
    (∃ y ∈ done, y.1 = f.handle ∧ (y.2 ≤ j ∨ ∃ z, full[y.2]? = some z ∧ z.serial ≠ none))
    ∨ ∃ e ∈ es, e.before f ∧ (e.handle, j) ∈ done

theorem first_lowest {es : List Entry} (h : es.Pairwise (fun a b => a.handle < b.handle)) {p : Entry → Bool} {e f : Entry}
    (he : es.find? p = some e) (hf : f ∈ es) (hp : p f = true) : e = f ∨ e.handle < f.handle := by
  induction es with
  | nil => cases hf
  | cons x xs ih =>
    obtain ⟨h1, h2⟩ := List.pairwise_cons.mp h
    rw [List.find?_cons] at he
    cases hx : p x with
    | true =>
      simp [hx] at he; subst he
      rcases List.mem_cons.mp hf with rfl | hf
      · exact .inl rfl
      · exact .inr (h1 f hf)
    | false =>
      simp [hx] at he
      rcases List.mem_cons.mp hf with rfl | hf
      · rw [hx] at hp; cases hp
      · exact ih h2 he hf

/-- The entry that Pass B takes for a binding comes before every other candidate. -/
theorem passB_eq (es : List Entry) (hp : es.Pairwise (fun a b => a.handle < b.handle)) (done : List (Nat × Nat))
    (b : ManifestBinding × Nat) :
    (passB es done b = done ∧ ∀ e ∈ unboundIn es done, b.1.fitsClass e = false)
    ∨ ∃ e ∈ unboundIn es done, b.1.fitsClass e = true ∧ passB es done b = done ++ [(e.handle, b.2)]
        ∧ ∀ f ∈ unboundIn es done, b.1.fitsClass f = true → e = f ∨ e.before f := by
  have hq : ((unboundIn es done).filter (fun e => b.1.fitsClass e)).Pairwise (fun a b => a.handle < b.handle) :=
    (hp.filter _).filter _
  unfold passB
  simp only []
  generalize hc : (unboundIn es done).filter (fun e => b.1.fitsClass e) = cs at *
  have hmem : ∀ e, e ∈ cs ↔ e ∈ unboundIn es done ∧ b.1.fitsClass e = true := by
    intro e; rw [← hc]; exact List.mem_filter
  cases hf : cs.find? (fun e => decide (e.presence ≠ .lost)) with
  | some e =>
    right
    have h1 := (hmem e).mp (List.mem_of_find?_eq_some hf)
    have h2 : e.presence ≠ .lost := by simpa using List.find?_some hf
    refine ⟨e, h1.1, h1.2, rfl, fun f h3 h4 => ?_⟩
    by_cases hl : f.presence = .lost
    · exact .inr (.inl ⟨h2, hl⟩)
    · rcases first_lowest hq hf ((hmem f).mpr ⟨h3, h4⟩) (by simpa using hl) with h | h
      · exact .inl h
      · exact .inr (.inr ⟨by simp [h2, hl], h⟩)
  | none =>
    have hl : ∀ e ∈ cs, e.presence = .lost := by
      intro e he
      simpa using List.find?_eq_none.mp hf e he
    cases hh : cs.head? with
    | none =>
      left
      refine ⟨rfl, fun e he => ?_⟩
      rw [List.head?_eq_none_iff] at hh
      cases hb : b.1.fitsClass e with
      | false => rfl
      | true => have := (hmem e).mpr ⟨he, hb⟩; rw [hh] at this; cases this
    | some e =>
      right
      have h0 := List.mem_of_head? hh
      have h1 := (hmem e).mp h0
      refine ⟨e, h1.1, h1.2, rfl, fun f h3 h4 => ?_⟩
      have hfi : cs.find? (fun _ => true) = some e := by
        cases cs with
        | nil => cases hh
        | cons x xs => simpa using hh
      have h5 := (hmem f).mpr ⟨h3, h4⟩
      rcases first_lowest hq hfi h5 rfl with h | h
      · exact .inl h
      · exact .inr (.inr ⟨by simp [hl e h0, hl f h5], h⟩)

theorem passB_fold (es : List Entry) (hp : es.Pairwise (fun a b => a.handle < b.handle)) (full bs : List ManifestBinding) (k : Nat)
    (hf : ∀ j b, bs[j]? = some b → full[k + j]? = some b) (done : List (Nat × Nat)) (h : DoneOk es full done)
    (hk : ∀ x ∈ done, x.2 < k ∨ ∃ z, full[x.2]? = some z ∧ z.serial ≠ none) (ha : PassBOk es full k done)
    (sub : List (Nat × Nat)) (hs : ∀ x ∈ sub, x ∈ done) :
    DoneOk es full ((bs.zipIdx k).foldl (passB es) done)
      ∧ PassBOk es full (k + bs.length) ((bs.zipIdx k).foldl (passB es) done)
      ∧ ∀ x ∈ sub, x ∈ (bs.zipIdx k).foldl (passB es) done := by
  induction bs generalizing k done with
  | nil => exact ⟨h, ha, hs⟩
  | cons b bs ih =>
    simp only [List.zipIdx_cons, List.foldl_cons, List.length_cons]
    rw [show k + (bs.length + 1) = k + 1 + bs.length by omega]
    have hb : full[k]? = some b := hf 0 b rfl
    have hnext : ∀ j c, bs[j]? = some c → full[k + 1 + j]? = some c := fun j c hc => by
      have := hf (j + 1) c hc
      rwa [show k + 1 + j = k + (j + 1) by omega]
    have hkk : ∀ x ∈ done, x.2 < k + 1 ∨ ∃ z, full[x.2]? = some z ∧ z.serial ≠ none := fun x hx =>
      (hk x hx).imp (fun h => by omega) id
    have old : ∀ (f : Entry), f ∈ es → b.mayBind f → (¬ ∀ y ∈ done, y.1 ≠ f.handle) →
        ∃ y ∈ done, y.1 = f.handle ∧ (y.2 ≤ k ∨ ∃ z, full[y.2]? = some z ∧ z.serial ≠ none) := by
      intro f _ _ hu
      simp only [not_forall, not_not] at hu
      obtain ⟨y, hy, hye⟩ := hu
      exact ⟨y, hy, hye, (hk y hy).imp (fun h => by omega) id⟩
    rcases passB_eq es hp done (b, k) with ⟨he, hnone⟩ | ⟨e, hem, hef, he, hbest⟩
    · rw [he]
      refine ih (k + 1) hnext done h hkk ?_ hs
      intro f hfm j x hj hx hsn hm
      by_cases hjk : j < k
      · exact ha f hfm j x hjk hx hsn hm
      · have : j = k := by omega
        subst this
        rw [hb] at hx; cases hx
        have h1 := (fitsClass_iff b f).mpr ⟨hsn, hm⟩
        refine .inl (old f hfm hm fun hu => ?_)
        have := hnone f (unbound_mem.mpr ⟨hfm, h1.2, hu⟩)
        rw [h1.1] at this; cases this
    · rw [he]
      have hfit := (fitsClass_iff b e).mp ⟨hef, (unbound_mem.mp hem).2.1⟩
      refine ih (k + 1) hnext _ (h.snoc hem hb hfit.2 ?_) ?_ ?_ (fun x hx => List.mem_append_left _ (hs x hx))
      · intro x hx hxk
        rcases hk x hx with h1 | ⟨z, h1, h2⟩
        · omega
        · rw [hxk, hb] at h1; cases h1; exact h2 hfit.1
      · intro x hx
        rcases List.mem_append.mp hx with hx | hx
        · exact hkk x hx
        · simp at hx; subst hx; exact .inl (by simp)
      · intro f hfm j x hj hx hsn hm
        by_cases hjk : j < k
        · rcases ha f hfm j x hjk hx hsn hm with ⟨y, hy, h1⟩ | ⟨g, hg, h1, h2⟩
          · exact .inl ⟨y, List.mem_append_left _ hy, h1⟩
          · exact .inr ⟨g, hg, h1, List.mem_append_left _ h2⟩
        · have : j = k := by omega
          subst this
          rw [hb] at hx; cases hx
          have h1 := (fitsClass_iff b f).mpr ⟨hsn, hm⟩
          by_cases hu : ∀ y ∈ done, y.1 ≠ f.handle
          · rcases hbest f (unbound_mem.mpr ⟨hfm, h1.2, hu⟩) h1.1 with rfl | h2
            · exact .inl ⟨(e.handle, j), by simp, rfl, .inl (by simp)⟩
            · exact .inr ⟨e, (unbound_mem.mp hem).1, h2, by simp⟩
          · obtain ⟨y, hy, h2⟩ := old f hfm hm hu
            exact .inl ⟨y, List.mem_append_left _ hy, h2⟩

/-- R165: what the two passes bind. -/
theorem assignBindings_spec (es : List Entry) (hp : es.Pairwise (fun a b => a.handle < b.handle))
    (ht : ∀ e ∈ es, ∀ f ∈ es, e.tag = f.tag → e = f) (m : Manifest) :
    DoneOk es m.bindings (assignBindings es (some m))
      ∧ (∀ e ∈ es, ∀ j x, m.bindings[j]? = some x → x.serial ≠ none → x.mayBind e →
          ∃ y ∈ assignBindings es (some m), y.1 = e.handle ∧ y.2 ≤ j ∧ ∃ z, m.bindings[y.2]? = some z ∧ z.serial ≠ none)
      ∧ PassBOk es m.bindings m.bindings.length (assignBindings es (some m)) := by
  unfold assignBindings
  simp only []
  obtain ⟨a1, a2, a3⟩ := passA_fold es ht m.bindings m.bindings 0 (by intro j b h; simpa using h) [] ⟨by simp, by simp, by simp⟩
    (fun x hx => by cases hx) (fun e _ j x hj => by omega)
  obtain ⟨b1, b2, b3⟩ := passB_fold es hp m.bindings m.bindings 0 (by intro j b h; simpa using h) _ a1
    (fun x hx => .inr (a2 x hx).2) (fun e _ j x hj => by omega) _ (fun x hx => hx)
  rw [Nat.zero_add] at a3 b2
  refine ⟨b1, fun e he j x hx hs hm => ?_, b2⟩
  have hj : j < m.bindings.length := by
    rcases Nat.lt_or_ge j m.bindings.length with h | h
    · exact h
    · rw [List.getElem?_eq_none h] at hx; cases hx
  obtain ⟨y, hy, h1, h2⟩ := a3 e he j x hj hx hs hm
  exact ⟨y, b3 y hy, h1, h2, (a2 y hy).2⟩

theorem newBinding_iff {es : List Entry} {full : Manifest} {done : List (Nat × Nat)} (h : DoneOk es full.bindings done) (e : Entry)
    (bd : Binding) :
    newBinding (some full) done e = some bd
      ↔ (e.handle, bd.index) ∈ done ∧ ∃ b, full.bindings[bd.index]? = some b ∧ bd = b.copyAt bd.index := by
  unfold newBinding
  constructor
  · intro hn
    cases hf : done.find? (fun x => decide (x.1 = e.handle)) with
    | none => simp [hf] at hn
    | some x =>
      simp only [hf, Option.bind_some] at hn
      cases hb : full.bindings[x.2]? with
      | none => simp [hb] at hn
      | some b =>
        simp [hb] at hn
        subst hn
        have h1 : x.1 = e.handle := by simpa using List.find?_some hf
        have h2 := List.mem_of_find?_eq_some hf
        exact ⟨by rw [← h1]; exact h2, b, hb, rfl⟩
  · rintro ⟨hm, b, hb, hc⟩
    cases hf : done.find? (fun x => decide (x.1 = e.handle)) with
    | none =>
      have := List.find?_eq_none.mp hf _ hm
      simp at this
    | some x =>
      have h1 : x.1 = e.handle := by simpa using List.find?_some hf
      have := h.handles x (List.mem_of_find?_eq_some hf) _ hm h1
      subst this
      simp only [Option.bind_some, hb, Option.map_some]
      rw [hc]; rfl

/-- R165: the entries after the two passes. -/
theorem bound_passesGive {es : List Entry} (hp : es.Pairwise (fun a b => a.handle < b.handle))
    (ht : ∀ e ∈ es, ∀ f ∈ es, e.tag = f.tag → e = f) (m : Manifest) :
    passesGive m (es.map (fun e => e.bindTo (newBinding (some m) (assignBindings es (some m)) e))) := by
  obtain ⟨h1, h2, h3⟩ := assignBindings_spec es hp ht m
  generalize assignBindings es (some m) = done at *
  have hu : ∀ e ∈ es, ∀ f ∈ es, e.handle = f.handle → e = f := fun e he f hf => handle_unique hp he hf
  have may : ∀ (b : ManifestBinding) (e : Entry) (x), b.mayBind (e.bindTo x) ↔ b.mayBind e := fun _ _ _ => Iff.rfl
  have held : ∀ e ∈ es, ∀ k, (e.handle, k) ∈ done → ∃ z, m.bindings[k]? = some z ∧ newBinding (some m) done e = some (z.copyAt k) := by
    intro e _ k hk
    obtain ⟨_, _, _, z, hz, _⟩ := h1.fits _ hk
    exact ⟨z, hz, (newBinding_iff h1 e (z.copyAt k)).mpr ⟨hk, z, hz, rfl⟩⟩
  refine ⟨?_, ?_, ?_, ?_⟩
  · intro e he b hb
    obtain ⟨x, hx, rfl⟩ := List.mem_map.mp he
    obtain ⟨k1, z, k2, k3⟩ := (newBinding_iff h1 x b).mp hb
    obtain ⟨y, y1, y2, c, c1, c2⟩ := h1.fits _ k1
    have : y = x := hu y y1 x hx y2
    subst this
    have c1' : m.bindings[b.index]? = some c := c1
    rw [k2] at c1'; cases c1'
    exact ⟨z, k2, c2, k3⟩
  · intro e he f hf b c hb hc hidx
    obtain ⟨x, hx, rfl⟩ := List.mem_map.mp he
    obtain ⟨y, hy, rfl⟩ := List.mem_map.mp hf
    have k1 := ((newBinding_iff h1 x b).mp hb).1
    have k2 := ((newBinding_iff h1 y c).mp hc).1
    have : x.handle = y.handle := by simpa using congrArg Prod.fst (h1.indices _ k1 _ k2 hidx)
    rw [hu x hx y hy this]
  · intro e he k x hx hs hm
    obtain ⟨f, hf, rfl⟩ := List.mem_map.mp he
    obtain ⟨⟨y1, y2⟩, hy, k1, k2, z, hz, hzs⟩ := h2 f hf k x hx hs hm
    simp only at k1 k2 hz
    subst k1
    obtain ⟨z', hz', hn⟩ := held f hf y2 hy
    exact ⟨_, z, hn, k2, hz, hzs⟩
  · intro f hf k x hx hs hm
    obtain ⟨g, hg, rfl⟩ := List.mem_map.mp hf
    have hk : k < m.bindings.length := by
      rcases Nat.lt_or_ge k m.bindings.length with h | h
      · exact h
      · rw [List.getElem?_eq_none h] at hx; cases hx
    rcases h3 g hg k x hk hx hs hm with ⟨⟨y1, y2⟩, hy, k1, k2⟩ | ⟨e, he, k1, k2⟩
    · simp only at k1 k2
      subst k1
      obtain ⟨z, hz, hn⟩ := held g hg y2 hy
      refine .inl ⟨_, z, hn, hz, k2.imp id ?_⟩
      rintro ⟨w, hw, hws⟩
      rw [hz] at hw; cases hw; exact hws
    · obtain ⟨z, hz, hn⟩ := held e he k k2
      exact .inr ⟨_, List.mem_map.mpr ⟨e, he, rfl⟩, k1, _, hn, rfl⟩

/-! ### A resolution (R162, R165) -/

theorem zip_map_filter {α β : Type} (es : List α) (g : α → β) (p : α × β → Bool) :
    ((es.zip (es.map g)).filter p).length = (es.filter (fun e => p (e, g e))).length := by
  induction es with
  | nil => rfl
  | cons e es ih =>
    simp only [List.map_cons, List.zip_cons_cons, List.filter_cons]
    split <;> simp [ih]

theorem mem_zip_map {α β : Type} (es : List α) (g : α → β) {x : α × β} (h : x ∈ es.zip (es.map g)) : x.1 ∈ es ∧ x.2 = g x.1 := by
  induction es with
  | nil => cases h
  | cons e es ih =>
    simp only [List.map_cons, List.zip_cons_cons, List.mem_cons] at h
    rcases h with rfl | h
    · exact ⟨List.mem_cons_self, rfl⟩
    · exact ⟨List.mem_cons_of_mem _ (ih h).1, (ih h).2⟩

/-- R137: an item stays in its list when another is added. -/
theorem State.addClear_keeps (s : State) (e : Entry) (m : LaneId) {i : ClearItem} (h : i ∈ (s.lane m).attention.clearList) :
    i ∈ ((s.addClear e).lane m).attention.clearList := by
  unfold State.addClear
  rw [State.lane_modLane]
  split
  · rename_i hm; subst hm
    simp only [Attention.addClear]
    split
    · exact h
    · exact List.mem_append_left _ h
  · exact h

theorem State.addClear_has (s : State) (e : Entry) : ∃ i ∈ ((s.addClear e).lane e.lane).attention.clearList, i.addr = e.addr := by
  unfold State.addClear
  rw [State.lane_modLane_self]
  exact Attention.addClear_mem _ _

theorem State.foldl_addClear_has (es : List Entry) (s : State) :
    (∀ m, ∀ i ∈ (s.lane m).attention.clearList, i ∈ ((es.foldl State.addClear s).lane m).attention.clearList)
      ∧ ∀ e ∈ es, ∃ i ∈ ((es.foldl State.addClear s).lane e.lane).attention.clearList, i.addr = e.addr := by
  induction es generalizing s with
  | nil => exact ⟨fun _ _ h => h, fun _ h => by cases h⟩
  | cons e es ih =>
    obtain ⟨h1, h2⟩ := ih (s.addClear e)
    refine ⟨fun m i hi => h1 m i (s.addClear_keeps e m hi), fun f hf => ?_⟩
    rcases List.mem_cons.mp hf with rfl | hf
    · obtain ⟨i, hi, ha⟩ := s.addClear_has f
      exact ⟨i, h1 _ i hi, ha⟩
    · exact h2 f hf

theorem Entry.bindTo_boundAnew (e : Entry) (b : Option Binding) : e.boundAnew (e.bindTo b) := by
  unfold Entry.boundAnew Entry.bindTo
  simp only [Option.isNone_iff_eq_none]

theorem Lane.sameButService.duplicate {n m : Lane} (h : n.sameButService m) : m.duplicateSeen = n.duplicateSeen :=
  h.standing.2.2.2.2

/-- What a resolution decides, the Resolver being resolved before it and its TOOL notice judged against `r`. -/
theorem State.resolution_resolvesTo (s : State) (r : Resolver) (hp : s.resolver.phase = .resolved) :
    s.resolvesTo (s.rebind.recomputeFrom r.shown).arbitrateAll := by
  have hspec := s.resolution_spec r.shown
  obtain ⟨h1, h2, h3, h4, h5⟩ := hspec
  obtain ⟨r1, r2, r3, r4, _, _, r7, r8⟩ := s.rebind_spec
  have hstat := s.rebind.recomputeFrom_statusHolds r.shown
  obtain ⟨a1, a2, a3, a4, a5, a6⟩ := arbitrateAll_fields (s.rebind.recomputeFrom r.shown)
  have hgen : (s.rebind.recomputeFrom r.shown).arbitrateAll.dir = s.rebind.dir := by rw [a3]; simp
  have hlist : ∀ m, ((s.rebind.recomputeFrom r.shown).arbitrateAll.lane m).attention.clearList = (s.rebind.lane m).attention.clearList := by
    intro m
    have := a6 m
    unfold Lane.sameButWork at this
    rw [this]; simp
  have hst2 : (s.rebind.recomputeFrom r.shown).arbitrateAll.statusHolds := by
    refine State.statusHolds_congr hstat a2 a4 a3 a1.1 (fun l => ?_)
    exact (a6 l).service.duplicate
  have hph : (s.rebind.recomputeFrom r.shown).arbitrateAll.resolver.phase = .resolved := by rw [h1.resolver.1, hp]
  have hrep := h1.resolver.2.2
  generalize (s.rebind.recomputeFrom r.shown).arbitrateAll = t at *
  have hent : t.dir.entries = _ := (congrArg Directory.entries hgen).trans r1
  refine ⟨s.chooseManifest_choosesIn _ h3 h4 h5, hph, hrep, ?_, ?_, ?_, ?_, ?_, hst2⟩
  · rw [hent, List.forall₂_map_right_iff, List.forall₂_same]
    exact fun e _ => e.bindTo_boundAnew _
  · rw [hent, zip_map_filter, hgen]
    unfold State.rebind State.writeBindings
    simp only []
    rw [(State.foldl_addClear _ _).2.1]
    rfl
  · intro ha e he
    rw [h3] at ha
    rw [hent, ha] at he
    obtain ⟨x, _, rfl⟩ := List.mem_map.mp he
    rfl
  · intro i m hd ha hsl
    rw [h3] at ha
    rw [hent, ha]
    simp only [Option.bind_some, hsl]
    refine bound_passesGive hd.1 ?_ m
    intro e he f hf htag
    by_contra hne
    have hd2 := hd.2.1
    obtain ⟨i, hi, rfl⟩ := List.getElem_of_mem he
    obtain ⟨j, hj, rfl⟩ := List.getElem_of_mem hf
    rcases Nat.lt_trichotomy i j with h | h | h
    · exact List.pairwise_iff_getElem.mp hd2 i j hi hj h htag
    · subst h; exact hne rfl
    · exact List.pairwise_iff_getElem.mp hd2 j i hj hi h htag.symm
  · intro x hx hne
    rw [hent] at hx
    obtain ⟨hm, heq⟩ := mem_zip_map _ _ hx
    rw [hlist]
    rw [heq] at hne
    unfold State.rebind State.writeBindings
    simp only []
    refine (State.foldl_addClear_has _ _).2 x.1 (List.mem_filter.mpr ⟨hm, ?_⟩)
    unfold Entry.bindTo at hne
    simp only at hne
    split at hne
    · rename_i hc
      unfold Entry.dropsPending
      simp only [Bool.and_eq_true, decide_eq_true_eq]
      exact hc
    · exact absurd rfl hne

/-- What a resolution decides from and about: the directory, the manifests, the lanes, the Resolver and the session. -/
theorem State.resolvesTo.congr {s t u v : State} (h : s.resolvesTo t) (hd : u.dir = s.dir) (hs : u.store = s.store)
    (hl : ∀ l, (u.lane l).reservation = (s.lane l).reservation) (hr : u.resolver.reports = s.resolver.reports) (kd : v.dir = t.dir) (ks : v.store = t.store)
    (kl : v.lanes = t.lanes) (kr : v.resolver = t.resolver) (km : v.mate = t.mate) : u.resolvesTo v := by
  have klane : v.lane = t.lane := by funext l; unfold State.lane; rw [kl]
  have hok : u.directoryOk = s.directoryOk := by unfold State.directoryOk; simp only [hd, hl]
  have hch : ∀ r, u.choosesIn r = s.choosesIn r := fun r => by unfold State.choosesIn; rw [hd, hs]
  obtain ⟨h1, h2, h3, h4, h5, h6, h7, h8, h9⟩ := h
  refine ⟨by rw [hch, kr]; exact h1, by rw [kr]; exact h2, by rw [kr, hr]; exact h3, by rw [hd, kd]; exact h4,
    by rw [hd, kd]; exact h5, by rw [kd, kr]; exact h6, by rw [hok, kd, kr, hs]; exact h7, by rw [hd, kd, klane]; exact h8, ?_⟩
  exact State.statusHolds_congr h9 km kr kd ks (fun l => by rw [klane])

/-- R165: what a full resolution decides. -/
theorem State.fullResolution_resolvesTo {s : State} (h : s.resolver.phase = .resolved) : s.resolvesTo s.fullResolution :=
  s.resolution_resolvesTo s.resolver h

/-- R162: what the initial resolution decides. -/
theorem State.initialResolution_resolvesTo (s : State) : s.resolvesTo s.initialResolution := by
  exact (State.resolution_resolvesTo { s with resolver := { s.resolver with phase := .resolved } } s.resolver rfl).congr
    rfl rfl (fun _ => rfl) rfl rfl rfl rfl rfl rfl

/-- R168: with no access under way, a full resolution posts its TOOL notice and nothing else. -/
theorem State.resolution_told (s : State) (r : Resolver) (h : ∀ m, s.noAccess m) :
    s.link.told r (s.rebind.recomputeFrom r.shown).arbitrateAll.resolver (s.rebind.recomputeFrom r.shown).arbitrateAll.link := by
  obtain ⟨r1, r2, r3, r4, r5, r6, r7, r8⟩ := s.rebind_spec
  have ht := s.rebind.recomputeFrom_told r
  rw [r3] at ht
  obtain ⟨a1, a2, a3, a4, a5, a6⟩ := arbitrateAll_fields (s.rebind.recomputeFrom r.shown)
  have hn := s.rebind.onlyNews_recomputeFrom r.shown
  have hu : ∀ m, (s.rebind.recomputeFrom r.shown).noAccess m := by
    intro m
    rcases h m with h | h
    · exact .inl (by rw [hn.lane m, (r8 m).2.1, h])
    · exact .inr (fun k t => by rw [hn.unit, r5]; exact h k t)
  rw [a4, (arbitrateAll_noAccess _ hu 0).1]
  exact ht

theorem State.initialResolution_told {s : State} (h : ∀ m, s.noAccess m) :
    s.link.told s.resolver s.initialResolution.resolver s.initialResolution.link :=
  State.resolution_told { s with resolver := { s.resolver with phase := .resolved } } s.resolver h

theorem State.fullResolution_told {s : State} (h : ∀ m, s.noAccess m) :
    s.link.told s.resolver s.fullResolution.resolver s.fullResolution.link := s.resolution_told s.resolver h

/-! ### The opening of a session (R161, R162) -/

theorem Lane.opened_keeps (n : Lane) (d : Timer) :
    (n.opened d).enabled = n.enabled ∧ (n.opened d).run = n.run ∧ (n.opened d).reservation = n.reservation := by
  unfold Lane.opened
  split <;> exact ⟨rfl, rfl, rfl⟩

/-- The Resolver as a session opens, and the initial resolution at once where no lane is enabled. -/
theorem State.openSession_begins (s : State) (h : s.mate.session = false) :
    ((∃ l, (s.lane l).enabled = true) → s.openSession.dir = s.dir ∧ s.openSession.resolver = Resolver.begun
        ∧ s.link.told s.resolver Resolver.begun s.openSession.link)
      ∧ ((∀ l, (s.lane l).enabled = false) → State.resolvesTo { s with resolver := Resolver.begun } s.openSession
        ∧ ((∀ l, (s.lane l).run = none) → ∃ k, s.link.told s.resolver Resolver.begun k
            ∧ k.told Resolver.begun s.openSession.resolver s.openSession.link)) := by
  unfold State.openSession
  rw [if_neg (by rw [h]; simp)]
  simp only []
  generalize ht : ({ s with
      mate := { s.mate with session := true }
      lanes := s.lanes.map (fun n => n.opened (s.timer Config.settleMs))
      resolver := Resolver.opened } : State) = t
  have hl : ∀ l, t.lane l = (s.lane l).opened (s.timer Config.settleMs) := by
    intro l; subst ht; exact Four.get_map _ _ _
  have hn := t.onlyNews_recomputeFrom s.resolver.shown
  have hd : (t.recomputeFrom s.resolver.shown).dir = s.dir := by rw [State.recomputeFrom_dir]; subst ht; rfl
  have hs : (t.recomputeFrom s.resolver.shown).store = s.store := by rw [State.recomputeFrom_store]; subst ht; rfl
  have hr : (t.recomputeFrom s.resolver.shown).resolver = Resolver.begun := by
    rw [State.recomputeFrom_resolver]; subst ht; rfl
  have hk := t.recomputeFrom_told s.resolver
  rw [hr, show t.link = s.link by subst ht; rfl] at hk
  generalize t.recomputeFrom s.resolver.shown = u at *
  have hul : ∀ l, u.lane l = (s.lane l).opened (s.timer Config.settleMs) := fun l => (hn.lane l).trans (hl l)
  have hall : u.allFinished = allLanes.all (fun l => !(s.lane l).enabled) := by
    unfold State.allFinished
    congr 1; funext l
    rw [hul, (Lane.opened_keeps _ _).1, hr]
    have : Resolver.begun.finished.get l = false := by revert l; decide
    rw [this, Bool.or_false]
  constructor
  · rintro ⟨l, hle⟩
    rw [if_neg]
    · exact ⟨hd, hr, hk⟩
    · rw [hall]
      simp only [List.all_eq_true, not_forall]
      exact ⟨l, all_lanes l, by simp [hle]⟩
  · intro hle
    rw [if_pos (by rw [hall]; simp [hle])]
    have h1 := u.initialResolution_resolvesTo
    have h2 : (∀ m, u.noAccess m) → _ := State.initialResolution_told (s := u)
    generalize u.initialResolution = v at *
    refine ⟨h1.congr (by rw [hd]) (by rw [hs]) (fun l => ?_) (by rw [hr]) rfl rfl rfl rfl rfl, fun hrun => ⟨u.link, hk, ?_⟩⟩
    · rw [hul, (Lane.opened_keeps _ _).2.2]; rfl
    · have := h2 (fun m => .inl (by rw [hul, (Lane.opened_keeps _ _).2.1, hrun]))
      rw [hr] at this; exact this

/-! ### Incremental resolution (R170) -/

theorem State.appliedBindings_eq (s : State) : s.appliedBindings = match s.appliedManifest with | some m => m.bindings | none => [] := by
  unfold State.appliedManifest State.appliedBindings
  cases s.resolver.applied <;> rfl

theorem State.mem_unfilled (s : State) (x : ManifestBinding) (k : Nat) : (x, k) ∈ s.unfilled ↔ s.unheld k x := by
  unfold State.unfilled State.unheld
  rw [State.appliedBindings_eq]
  cases s.appliedManifest with
  | none => simp
  | some m =>
    simp only [List.mem_filter, List.mem_zipIdx_iff_getElem?]
    refine and_congr Iff.rfl ?_
    simp only [Bool.not_eq_true', List.any_eq_false, decide_eq_true_eq]
    constructor
    · intro h e he b hb hk
      exact h e he (by simp [hb, hk])
    · intro h e he hk
      cases hb : e.binding with
      | none => simp [hb] at hk
      | some b => simp [hb] at hk; exact h e he b hb hk

theorem State.unfilled_sorted (s : State) : s.unfilled.Pairwise (fun a b => a.2 < b.2) := by
  unfold State.unfilled
  split
  · refine List.Pairwise.filter _ ?_
    rename_i m _
    generalize m.bindings = bs
    generalize 0 = k
    induction bs generalizing k with
    | nil => exact .nil
    | cons b bs ih =>
      rw [List.zipIdx_cons]
      refine List.pairwise_cons.mpr ⟨?_, ih (k + 1)⟩
      intro x hx
      have := List.le_snd_of_mem_zipIdx hx
      simp only; omega
  · exact .nil

theorem find_first {es : List (ManifestBinding × Nat)} (h : es.Pairwise (fun a b => a.2 < b.2)) {p : ManifestBinding × Nat → Bool} {e : ManifestBinding × Nat}
    (he : es.find? p = some e) : ∀ f ∈ es, p f = true → e.2 ≤ f.2 := by
  induction es with
  | nil => cases he
  | cons x xs ih =>
    obtain ⟨h1, h2⟩ := List.pairwise_cons.mp h
    intro f hf hp
    rw [List.find?_cons] at he
    cases hx : p x with
    | true =>
      simp [hx] at he; subst he
      rcases List.mem_cons.mp hf with rfl | hf
      · exact Nat.le_refl _
      · exact Nat.le_of_lt (h1 f hf)
    | false =>
      simp [hx] at he
      rcases List.mem_cons.mp hf with rfl | hf
      · rw [hx] at hp; cases hp
      · exact ih h2 he f hf hp

theorem State.choice_none (s : State) (e : Entry) (hi : e.identity = false) :
   s.incrementalChoice e = none ↔ ∀ j y, s.unheld j y → ¬ y.mayBind e := by
  have fs := fun y : ManifestBinding => fitsSerial_iff y e
  have fc := fun y : ManifestBinding => fitsClass_iff y e
  unfold State.incrementalChoice
  cases ha : s.unfilled.find? (fun b => b.1.fitsSerial e) with
  | some b =>
    simp only [reduceCtorEq, false_iff]
    intro h
    have h1 := List.find?_some ha
    exact h b.2 b.1 ((State.mem_unfilled s b.1 b.2).mp (List.mem_of_find?_eq_some ha)) ((fs b.1).mp ⟨h1, hi⟩).2
  | none =>
    simp only [List.find?_eq_none]
    constructor
    · intro h j y hu hm
      by_cases hy : y.serial = none
      · exact h (y, j) ((State.mem_unfilled s y j).mpr hu) ((fc y).mpr ⟨hy, hm⟩).1
      · exact List.find?_eq_none.mp ha (y, j) ((State.mem_unfilled s y j).mpr hu) ((fs y).mpr ⟨hy, hm⟩).1
    · intro h b hb hf
      exact h b.2 b.1 ((State.mem_unfilled s b.1 b.2).mp hb) ((fc b.1).mp ⟨hf, hi⟩).2

theorem State.choice_takes (s : State) (e : Entry) (hi : e.identity = false) (x : ManifestBinding) (k : Nat)
   (h : s.incrementalChoice e = some (x, k)) : s.takesBinding e k x := by
  have fs := fun y : ManifestBinding => fitsSerial_iff y e
  have fc := fun y : ManifestBinding => fitsClass_iff y e
  unfold State.incrementalChoice at h
  cases ha : s.unfilled.find? (fun b => b.1.fitsSerial e) with
  | some b =>
    simp only [ha, Option.some.injEq] at h
    subst h
    have h1 := (fs x).mp ⟨(by simpa using List.find?_some ha), hi⟩
    refine ⟨(State.mem_unfilled s x k).mp (List.mem_of_find?_eq_some ha), h1.2, .inl ⟨h1.1, ?_⟩⟩
    intro j y hu hm hy
    exact find_first s.unfilled_sorted ha (y, j) ((State.mem_unfilled s y j).mpr hu) ((fs y).mpr ⟨hy, hm⟩).1
  | none =>
    simp only [ha] at h
    have h1 := (fc x).mp ⟨(by simpa using List.find?_some h), hi⟩
    refine ⟨(State.mem_unfilled s x k).mp (List.mem_of_find?_eq_some h), h1.2, .inr ⟨h1.1, ?_⟩⟩
    intro j y hu hm
    have hy : y.serial = none := by
      by_contra hy
      exact List.find?_eq_none.mp ha (y, j) ((State.mem_unfilled s y j).mpr hu) ((fs y).mpr ⟨hy, hm⟩).1
    exact ⟨hy, find_first s.unfilled_sorted h (y, j) ((State.mem_unfilled s y j).mpr hu) ((fc y).mpr ⟨hy, hm⟩).1⟩

theorem State.choice_iff (s : State) (e : Entry) (hi : e.identity = false) (x : ManifestBinding) (k : Nat) :
   s.incrementalChoice e = some (x, k) ↔ s.takesBinding e k x := by
  refine ⟨State.choice_takes s e hi x k, fun h => ?_⟩
  cases hc : s.incrementalChoice e with
  | none => exact absurd h.2.1 ((State.choice_none s e hi).mp hc k x h.1)
  | some b =>
    obtain ⟨x', k'⟩ := b
    have h' := State.choice_takes s e hi x' k' hc
    have hk : k = k' := by
      rcases h.2.2 with ⟨a1, a2⟩ | ⟨a1, a2⟩ <;> rcases h'.2.2 with ⟨b1, b2⟩ | ⟨b1, b2⟩
      · exact Nat.le_antisymm (a2 _ _ h'.1 h'.2.1 b1) (b2 _ _ h.1 h.2.1 a1)
      · exact absurd (b2 _ _ h.1 h.2.1).1 a1
      · exact absurd (a2 _ _ h'.1 h'.2.1).1 b1
      · exact Nat.le_antisymm (a2 _ _ h'.1 h'.2.1).2 (b2 _ _ h.1 h.2.1).2
    subst hk
    have := h.1.1.symm.trans h'.1.1
    cases this; rfl

end Sys2Proof.Machine
end

