-- ==== Sys2Proof/Laws/Mate.lean ====
section
/-! SUPPORT. What the opening and the closing of a session do (R10, R11). -/

namespace Sys2Proof.Machine

/-! ### The close (R11, R26, R94, R129, R173) -/

/-- A recomputation after a close leaves the Resolver cold. -/
theorem State.closeTool_spec (s : State) (b) (hm : s.mate.session = false) (hr : s.resolver = Resolver.cold) :
    (s.closeTool b).resolver = Resolver.cold := by
  unfold State.closeTool
  rw [State.recomputeFrom_resolver]
  unfold State.computeStatus State.computeCounts
  rw [hr, hm]
  rfl

theorem State.closeReply_spec (s : State) (r : Option (LaneId × Reply)) :
    s.newsOrReply (s.closeReply r) ∧ (s.closeReply r).dir = s.dir ∧ (s.closeReply r).lanes = s.lanes
      ∧ (s.closeReply r).resolver = s.resolver ∧ (r = none → s.closeReply r = s)
      ∧ ∀ x, r = some x → (s.closeReply r).unit = .replying none ∧ (s.closeReply r).accessTimer = none
        ∧ (s.closeReply r).replied x.2 := by
  cases r with
  | none => exact ⟨.refl s, rfl, rfl, rfl, fun _ => rfl, (fun x h => nomatch h)⟩
  | some x =>
    refine ⟨State.newsOrReply_sendAccessReply s x.2, rfl, rfl, rfl, (fun h => nomatch h), ?_⟩
    rintro _ ⟨⟩
    exact ⟨rfl, rfl, State.replied_replyThen _ _ _⟩

/-- R11: what the close of an open session leaves. -/
structure State.closedFrom (s t : State) : Prop where
  rest : s.keepsRest t
  mate : t.mate = { s.mate with session := false }
  lanes : t.lanes = s.lanes.map Lane.closed
  dir : t.dir = s.dir.emptied
  resolver : t.resolver = Resolver.cold
  quiet : s.accessReply? .detached = none → t.unit = s.unit ∧ t.accessTimer = s.accessTimer
  reply : ∀ x, s.accessReply? .detached = some x → t.unit = .replying none ∧ t.accessTimer = none ∧ t.replied x.2

theorem State.closeSession_spec (s : State) (h : s.mate.session = true) : s.closedFrom s.closeSession := by
  unfold State.closeSession
  rw [if_pos h]
  simp only []
  have h0 : s.keepsRest s.closeBlocks := .refl s
  split
  · obtain ⟨a1, a2, a3, a4, a5, a6⟩ := State.closeReply_spec s.closeBlocks (s.accessReply? .detached)
    generalize hu : s.closeBlocks.closeReply (s.accessReply? .detached) = u at *
    have hn : u.onlyNews (u.closeTool s.resolver.shown) := State.onlyNews_recomputeFrom u _
    have hd : (u.closeTool s.resolver.shown).dir = u.dir := State.recomputeFrom_dir u _
    refine ⟨h0.trans (a1.rest.trans hn.rest), hn.mate.trans a1.mate, hn.lanes.trans a3, hd.trans a2, ?_, ?_, ?_⟩
    · exact State.closeTool_spec u _ (by rw [a1.mate]; rfl) a4
    · intro hr
      have := a5 hr
      refine ⟨?_, ?_⟩
      · rw [hn.unit, this]; rfl
      · rw [hn.accessTimer, this]; rfl
    · intro x hx
      obtain ⟨b1, b2, b3⟩ := a6 x hx
      exact ⟨hn.unit.trans b1, hn.accessTimer.trans b2, hn.replied _ b3⟩
  · have hn : s.closeBlocks.onlyNews (s.closeBlocks.closeTool s.resolver.shown) := State.onlyNews_recomputeFrom _ _
    have hd : (s.closeBlocks.closeTool s.resolver.shown).dir = s.closeBlocks.dir := State.recomputeFrom_dir _ _
    have hr := State.closeTool_spec s.closeBlocks s.resolver.shown rfl rfl
    generalize s.closeBlocks.closeTool s.resolver.shown = u at *
    obtain ⟨a1, a2, a3, a4, a5, a6⟩ := State.closeReply_spec u (s.accessReply? .detached)
    refine ⟨h0.trans (hn.rest.trans a1.rest), a1.mate.trans hn.mate, a3.trans hn.lanes, a2.trans hd, a4.trans hr, ?_, ?_⟩
    · intro h
      rw [a5 h]
      exact ⟨hn.unit, hn.accessTimer⟩
    · intro x hx
      exact a6 x hx

/-- R11, R129, R173: what the close of a session posts: TOOL(NONE) where that changes what the Resolver shows, before or after
the reply to an access. -/
theorem State.closeSession_told (s : State) (h : s.mate.session = true) :
    (s.accessReply? .detached = none → s.link.told s.resolver Resolver.cold s.closeSession.link)
      ∧ ∀ l r, s.accessReply? .detached = some (l, r) → ∃ k, s.link.told s.resolver Resolver.cold k ∧ s.closeSession.link = k.send r
          ∨ k = s.link.send r ∧ k.told s.resolver Resolver.cold s.closeSession.link := by
  have ht : ∀ u : State, u.mate.session = false → u.resolver = Resolver.cold →
      u.link.told s.resolver Resolver.cold (u.closeTool s.resolver.shown).link := by
    intro u h1 h2
    have := u.recomputeFrom_told s.resolver
    rw [show u.recomputeFrom s.resolver.shown = u.closeTool s.resolver.shown from rfl, State.closeTool_spec u _ h1 h2] at this
    exact this
  unfold State.closeSession
  rw [if_pos h]
  simp only []
  refine ⟨fun hr => ?_, fun l r hr => ?_⟩
  · rw [hr]
    exact ht s.closeBlocks rfl rfl
  · rw [hr]
    split
    · refine ⟨s.link.send r, .inr ⟨rfl, ?_⟩⟩
      exact ht (s.closeBlocks.closeReply (some (l, r))) rfl rfl
    · exact ⟨_, .inl ⟨ht s.closeBlocks rfl rfl, rfl⟩⟩

/-- R26: a lane that the close finds. -/
theorem Lane.closed_spec (n : Lane) :
    n.keepsParameters n.closed ∧ n.closed.fault = n.fault
      ∧ (n.state ≠ .disabled → n.closed.state = .off ∧ n.closed.power = false ∧ n.closed.engine = none) := by
  unfold Lane.closed
  split
  · rename_i h
    exact ⟨⟨rfl, rfl, rfl, rfl⟩, rfl, fun h2 => absurd h h2⟩
  · exact ⟨⟨rfl, rfl, rfl, rfl⟩, rfl, fun _ => ⟨rfl, rfl, rfl⟩⟩

/-- R26, R71, R96, R130, R131, R152: the whole of a lane at the close of a session. -/
theorem Lane.closed_closesTo (n : Lane) : n.closesTo n.closed := by
  unfold Lane.closed
  exact ⟨fun h => if_pos h, fun h => by rw [if_neg h]; rfl⟩

theorem State.closedFrom.lane {s t : State} (h : s.closedFrom t) (l : LaneId) : t.lane l = (s.lane l).closed := by
  unfold State.lane
  rw [h.lanes, Four.get_map]

/-! ### The opening (R10, R22, R161, R162) -/

/-- R10: what the opening of a session can do. -/
structure State.openedFrom (s t : State) : Prop where
  rest : s.keepsRest t
  mate : t.mate = { s.mate with session := true }
  lane : ∀ l, ((s.lane l).opened (s.timer Config.settleMs)).sameButService (t.lane l)
  unit : (∀ m, s.noAccess m) → t.unit = s.unit

theorem State.openSession_spec (s : State) (h : s.mate.session = false) : s.openedFrom s.openSession := by
  unfold State.openSession
  rw [if_neg (by rw [h]; simp)]
  simp only []
  generalize ht : ({ s with
      mate := { s.mate with session := true }
      lanes := s.lanes.map (fun n => n.opened (s.timer Config.settleMs))
      resolver := Resolver.opened } : State) = t
  have h0 : s.keepsRest t := by subst ht; exact .refl s
  have hl : ∀ l, t.lane l = (s.lane l).opened (s.timer Config.settleMs) := by
    intro l; subst ht; exact Four.get_map _ _ _
  have hn := t.onlyNews_recomputeFrom s.resolver.shown
  generalize t.recomputeFrom s.resolver.shown = u at *
  split
  · unfold State.initialResolution
    obtain ⟨r1, _⟩ := State.resolution_spec { u with resolver := { u.resolver with phase := .resolved } } u.resolver.shown
    have e1 := r1.rest
    have e2 := r1.mate
    have e3 := r1.lane
    have e4 := r1.access
    generalize (State.recomputeFrom (State.rebind { u with resolver := { u.resolver with phase := .resolved } })
      u.resolver.shown).arbitrateAll = v at *
    refine ⟨h0.trans (hn.rest.trans e1), ?_, fun l => ?_, fun hm => ?_⟩
    · rw [e2]
      refine hn.mate.trans ?_
      subst ht; rfl
    · have := e3 l
      rw [show State.lane { u with resolver := { u.resolver with phase := .resolved } } l = u.lane l from rfl, hn.lane,
        hl] at this
      exact this
    · have hna : ∀ m, State.noAccess { u with resolver := { u.resolver with phase := .resolved } } m := by
        intro m
        rcases hm m with hx | hx
        · refine .inl ?_
          rw [show State.lane { u with resolver := { u.resolver with phase := .resolved } } m = u.lane m from rfl, hn.lane, hl]
          unfold Lane.opened
          split
          · exact hx
          · exact hx
        · refine .inr (fun a b => ?_)
          change u.unit ≠ _
          rw [hn.unit]
          subst ht; exact hx a b
      obtain ⟨k, _⟩ := e4 hna
      rw [k]
      refine hn.unit.trans ?_
      subst ht; rfl
  · refine ⟨h0.trans hn.rest, ?_, fun l => ?_, fun _ => ?_⟩
    · rw [hn.mate]; subst ht; rfl
    · rw [hn.lane, hl]; rfl
    · rw [hn.unit]; subst ht; rfl

/-- R22: a lane that the opening finds OFF settles with power on; the others are as before. -/
theorem Lane.opened_spec (n : Lane) (d : Timer) :
    n.keepsParameters (n.opened d) ∧ (n.opened d).fault = n.fault
      ∧ (n.state = .off → (n.opened d).state = .settling ∧ (n.opened d).power = true ∧ (n.opened d).settleTimer = d)
      ∧ (n.state ≠ .off → n.opened d = n) := by
  unfold Lane.opened Lane.powerUp
  split
  · rename_i h
    exact ⟨⟨rfl, rfl, rfl, rfl⟩, rfl, fun _ => ⟨rfl, rfl, rfl⟩, fun h2 => absurd h h2⟩
  · rename_i h
    exact ⟨⟨rfl, rfl, rfl, rfl⟩, rfl, fun h2 => absurd h2 h, fun _ => rfl⟩

end Sys2Proof.Machine
end

