-- ==== Sys2Proof/Laws/Counts.lean ====
section
/-! SUPPORT. The passed-over counts of a Lane Arbiter (R114, R115): what a request, a decision and a withdrawal make of them. -/

namespace Sys2Proof.Machine

/-- The requestors with a standing request. -/
theorem Standing.mem_list (q : Standing) (r : Requestor) : r ∈ q.list ↔ match r with
    | .attention => q.attention = true
    | .access => q.access.isSome = true
    | .survey => q.survey.isSome = true
    | .poll => q.poll.isSome = true := by
  unfold Standing.list
  cases q.attention <;> cases q.access <;> cases q.survey <;> cases q.poll <;> cases r <;> simp

/-- More requests can stand. -/
theorem Arbiter.countsOk.standing {a : Arbiter} (h : a.countsOk) (q : Standing) (hq : ∀ r ∈ a.standing.list, r ∈ q.list) :
    ({ a with standing := q } : Arbiter).countsOk := ⟨fun r hr => h.1 r (fun c => hr (hq r c)), h.2⟩

/-- What a decision chooses, for the counts: a due requestor before which no due one of higher priority stands, or one with no
due requestor standing. -/
theorem Arbiter.pick_due {a : Arbiter} {r : Requestor} (h : a.pick = some r) : r ∈ a.standing.list
    ∧ ((8 ≤ a.passed.of r ∧ (r = .access ∨ r = .survey ∨ r = .poll → a.standing.attention = true → a.passed.attention < 8)
        ∧ (r = .survey ∨ r = .poll → a.standing.access.isSome = true → a.passed.access < 8)
        ∧ (r = .poll → a.standing.survey.isSome = true → a.passed.survey < 8))
      ∨ ∀ x ∈ a.standing.list, a.passed.of x < 8) := by
  unfold Arbiter.pick at h
  split at h
  · rename_i x hx
    cases h
    have h1 := List.find?_some hx
    have h2 := List.mem_of_find?_eq_some hx
    have hp : ∀ y, 8 ≤ a.passed.of y → decide (Config.dueCount ≤ a.passed.of y) = true := fun y hy => by simpa [Config.dueCount] using hy
    have h1 : 8 ≤ a.passed.of r := by simpa [Config.dueCount] using h1
    generalize hP : (fun r => decide (Config.dueCount ≤ a.passed.of r)) = P at *
    have hp : ∀ y, 8 ≤ a.passed.of y → P y = true := fun y hy => by subst hP; exact hp y hy
    refine ⟨h2, .inl ⟨h1, fun hr ha => ?_, fun hr ha => ?_, fun hr ha => ?_⟩⟩
    · by_contra hc
      unfold Standing.list at hx
      rw [if_pos ha, List.append_assoc, List.append_assoc, List.singleton_append, List.find?_cons_of_pos (hp .attention (by simp only [Passed.of]; omega))] at hx
      cases hx; simp at hr
    · by_contra hc
      unfold Standing.list at hx
      rw [if_pos ha, List.append_assoc, List.append_assoc, List.find?_append, List.singleton_append,
        List.find?_cons_of_pos (hp .access (by simp only [Passed.of]; omega))] at hx
      cases hA : a.standing.attention <;> rw [hA] at hx <;> simp [List.find?_cons] at hx
      · subst hx; simp at hr
      · split at hx <;> simp at hx <;> subst hx <;> simp at hr
    · by_contra hc
      unfold Standing.list at hx
      rw [if_pos ha, List.append_assoc, List.find?_append, List.singleton_append,
        List.find?_cons_of_pos (hp .survey (by simp only [Passed.of]; omega))] at hx
      cases hA : a.standing.attention <;> cases hC : a.standing.access.isSome <;> rw [hA, hC] at hx <;> simp [List.find?_cons] at hx <;>
        (repeat' split at hx) <;> (try simp at hx) <;> subst hx <;> simp at hr
  · rename_i hx
    refine ⟨List.mem_of_head? h, .inr (fun x hm => ?_)⟩
    have := List.find?_eq_none.1 hx x hm
    simpa [Config.dueCount] using this

/-- A grant takes the granted request away, and no other. -/
theorem Standing.serve_list {q p : Standing} {r : Requestor} {g : Grant} (h : q.serve r = some (g, p)) (x : Requestor) :
    x ∈ p.list ↔ x ∈ q.list ∧ x ≠ r := by
  simp only [Standing.mem_list]
  cases r <;> simp only [Standing.serve] at h
  · split at h
    · cases h; cases x <;> simp
    · cases h
  all_goals
    obtain ⟨y, hy, h⟩ := Option.map_eq_some_iff.1 h
    cases h; cases x <;> simp

/-- One decision on the four counts. -/
theorem counts_step (c d : Requestor → Nat) (st : Requestor → Prop) (r : Requestor) (hd : ∀ x, d x = 0 ∧ x = r ∨ d x = c x + 1 ∧ x ≠ r ∧ st x
      ∨ d x = c x ∧ x ≠ r ∧ ¬ st x) (h0 : ∀ x, ¬ st x → c x = 0) 
    (hp : (8 ≤ c r ∧ (r = .access ∨ r = .survey ∨ r = .poll → st .attention → c .attention < 8)
        ∧ (r = .survey ∨ r = .poll → st .access → c .access < 8) ∧ (r = .poll → st .survey → c .survey < 8)) ∨ ∀ x, st x → c x < 8)
    (up : Nat → Nat → Nat) (hup : ∀ a b, a + 8 < b ∧ up a b = 1 ∨ ¬ a + 8 < b ∧ up a b = 0)
    (h1 : c .attention ≤ 8) (h2 : c .access ≤ 8 + up (c .attention) (c .access))
    (h3 : c .survey ≤ 8 + up (c .attention) (c .survey) + up (c .access) (c .survey))
    (h4 : c .poll ≤ 8 + up (c .attention) (c .poll) + up (c .access) (c .poll) + up (c .survey) (c .poll)) :
    d .attention ≤ 8 ∧ d .access ≤ 8 + up (d .attention) (d .access)
      ∧ d .survey ≤ 8 + up (d .attention) (d .survey) + up (d .access) (d .survey)
      ∧ d .poll ≤ 8 + up (d .attention) (d .poll) + up (d .access) (d .poll) + up (d .survey) (d .poll) := by
  have a1 := hd .attention
  have a2 := hd .access
  have a3 := hd .survey
  have a4 := hd .poll
  have z1 := h0 .attention
  have z2 := h0 .access
  have z3 := h0 .survey
  have z4 := h0 .poll
  have y : (∀ x, st x → c x < 8) → (st .attention → c .attention < 8) ∧ (st .access → c .access < 8) ∧ (st .survey → c .survey < 8)
      ∧ (st .poll → c .poll < 8) := fun h => ⟨h _, h _, h _, h _⟩
  have hp := hp.imp id y
  have u1 := hup (c .attention) (c .access)
  have u2 := hup (c .attention) (c .survey)
  have u3 := hup (c .access) (c .survey)
  have u4 := hup (c .attention) (c .poll)
  have u5 := hup (c .access) (c .poll)
  have u6 := hup (c .survey) (c .poll)
  have v1 := hup (d .attention) (d .access)
  have v2 := hup (d .attention) (d .survey)
  have v3 := hup (d .access) (d .survey)
  have v4 := hup (d .attention) (d .poll)
  have v5 := hup (d .access) (d .poll)
  have v6 := hup (d .survey) (d .poll)
  clear y hd h0 hup
  generalize up (c .attention) (c .access) = x1 at *
  generalize up (c .attention) (c .survey) = x2 at *
  generalize up (c .access) (c .survey) = x3 at *
  generalize up (c .attention) (c .poll) = x4 at *
  generalize up (c .access) (c .poll) = x5 at *
  generalize up (c .survey) (c .poll) = x6 at *
  generalize up (d .attention) (d .access) = w1 at *
  generalize up (d .attention) (d .survey) = w2 at *
  generalize up (d .access) (d .survey) = w3 at *
  generalize up (d .attention) (d .poll) = w4 at *
  generalize up (d .access) (d .poll) = w5 at *
  generalize up (d .survey) (d .poll) = w6 at *
  generalize d .attention = d1 at *
  generalize d .access = d2 at *
  generalize d .survey = d3 at *
  generalize d .poll = d4 at *
  cases r <;> simp only [reduceCtorEq, or_true, or_false, false_or, forall_const, ne_eq, not_true_eq_false, not_false_eq_true, and_true, and_false, true_and, false_and, IsEmpty.forall_iff] at * <;>
  generalize c .attention = c1 at * <;>
  generalize c .access = c2 at * <;>
  generalize c .survey = c3 at * <;>
  generalize c .poll = c4 at * <;>
  (by_cases k1 : st .attention <;> by_cases k2 : st .access <;> by_cases k3 : st .survey <;> by_cases k4 : st .poll <;> simp only [k1, k2, k3, k4, not_true_eq_false, not_false_eq_true, and_true, and_false, or_false, false_or, forall_const, IsEmpty.forall_iff] at * <;> omega)

/-- R114, R115: a decision keeps the counts in order. -/
theorem Arbiter.countsOk.next {a b : Arbiter} {g : Grant} (h : a.countsOk) (hg : a.grantNext = some (g, b)) : b.countsOk := by
  unfold Arbiter.grantNext at hg
  split at hg
  · cases hg
  · split at hg
    · cases hg
    · rename_i r hr
      split at hg
      · cases hg
      · rename_i g' q hq
        cases hg
        obtain ⟨hm, hd⟩ := Arbiter.pick_due hr
        obtain ⟨h0, h1, h2, h3, h4⟩ := h
        have hof : ∀ x, (a.count r).of x = if x = r then 0 else if a.standing.list.contains x then a.passed.of x + 1 else a.passed.of x := by
          intro x; cases x <;> rfl
        refine ⟨fun x hx => ?_, ?_⟩
        · change (a.count r).of x = 0
          rw [hof]
          split
          · rfl
          · rename_i hne
            have : x ∉ a.standing.list := fun c => hx ((Standing.serve_list hq x).2 ⟨c, hne⟩)
            rw [if_neg (by simpa using this)]
            exact h0 x this
        · refine counts_step a.passed.of (a.count r).of (fun x => x ∈ a.standing.list) r (fun x => ?_) h0 ?_
            (fun a b => if a + 8 < b then 1 else 0) (fun a b => ?_) h1 h2 h3 h4
          · rw [hof]
            by_cases hx : x = r
            · exact .inl ⟨if_pos hx, hx⟩
            · by_cases hs : x ∈ a.standing.list
              · exact .inr (.inl ⟨by rw [if_neg hx, if_pos (by simpa using hs)], hx, hs⟩)
              · exact .inr (.inr ⟨by rw [if_neg hx, if_neg (by simpa using hs)], hx, hs⟩)
          · refine hd.imp (fun ⟨k1, k2, k3, k4⟩ => ⟨k1, fun hr ha => k2 hr ?_, fun hr ha => k3 hr ?_, fun hr ha => k4 hr ?_⟩) id
            · simpa [Standing.mem_list] using ha
            · simpa [Standing.mem_list] using ha
            · simpa [Standing.mem_list] using ha
          · by_cases hx : a + 8 < b
            · exact .inl ⟨hx, if_pos hx⟩
            · exact .inr ⟨hx, if_neg hx⟩

/-- R130: the counts of a cold arbiter are in order. -/
theorem Arbiter.countsOk_cold : Arbiter.cold.countsOk := by
  refine ⟨fun r _ => by cases r <;> rfl, ?_⟩
  decide

/-- R113: a request of the Object Access Engine that is withdrawn has its count set to 0. -/
theorem Arbiter.countsOk.withdraw {a : Arbiter} {g : Option Grant} (h : a.countsOk) : ({
    grant := g
    standing := { a.standing with access := none }
    passed := if a.standing.access.isSome then { a.passed with access := 0 } else a.passed } : Arbiter).countsOk := by
  obtain ⟨h0, h1, h2, h3, h4⟩ := h
  have hz := h0 .access
  have hp : (if a.standing.access.isSome then { a.passed with access := 0 } else a.passed : Passed) = { a.passed with access := 0 } := by
    split
    · rfl
    · rename_i hn
      have : a.passed.access = 0 := hz (by rw [Standing.mem_list]; exact hn)
      rcases hx : a.passed with ⟨p1, p2, p3, p4⟩
      rw [hx] at this
      simp at this
      rw [this]
  unfold Arbiter.countsOk
  rw [hp]
  refine ⟨fun r hr => ?_, h1, Nat.zero_le _, ?_, ?_⟩
  · rw [Standing.mem_list] at hr
    cases r
    · exact h0 .attention (fun c => hr ((Standing.mem_list _ _).1 c))
    · rfl
    · exact h0 .survey (fun c => hr ((Standing.mem_list _ _).1 c))
    · exact h0 .poll (fun c => hr ((Standing.mem_list _ _).1 c))
  · change a.passed.survey ≤ 8 + (if a.passed.attention + 8 < a.passed.survey then 1 else 0) + (if 0 + 8 < a.passed.survey then 1 else 0)
    split_ifs at * <;> omega
  · change a.passed.poll ≤ 8 + (if a.passed.attention + 8 < a.passed.poll then 1 else 0) + (if 0 + 8 < a.passed.poll then 1 else 0)
      + (if a.passed.survey + 8 < a.passed.poll then 1 else 0)
    split_ifs at * <;> omega

/-- R115: the counts of lanes whose arbiters are in order lie within 8, 9, 10 and 11. -/
theorem Arbiter.countsOk.bounds {a : Arbiter} (h : a.countsOk) :
    a.passed.attention ≤ 8 ∧ a.passed.access ≤ 9 ∧ a.passed.survey ≤ 10 ∧ a.passed.poll ≤ 11 := by
  obtain ⟨_, h1, h2, h3, h4⟩ := h
  refine ⟨h1, ?_, ?_, ?_⟩
  · split at h2 <;> omega
  · split at h3 <;> split at h3 <;> omega
  · split at h4 <;> split at h4 <;> split at h4 <;> omega

end Sys2Proof.Machine
end

