-- ==== Sys2Proof/Laws/Calm.lean ====
section
/-! SUPPORT. What the shared operations outside the Survey Engine, the power switch and the Mate Monitor can do to what
the four invariants speak of: `calm`, one lemma for each operation. -/

namespace Sys2Proof.Machine

/-! ### calm -/

/-- The lane's state, power, mask place, state timers and survey are as before; a survey request that stood may have been
granted; and a survey grant is still held, with the telegram under way as it was. -/
structure Lane.calm (n m : Lane) : Prop where
  state : m.state = n.state
  enabled : m.enabled = n.enabled
  power : m.power = n.power
  settle : m.settleTimer = n.settleTimer
  restart : m.restartTimer = n.restartTimer
  rescan : m.rescanTimer = n.rescanTimer
  survey : m.survey = n.survey
  work : (m.arbiter.standing.survey = n.arbiter.standing.survey
        ∧ Grant.surveyWork? m.arbiter.grant = Grant.surveyWork? n.arbiter.grant)
      ∨ ∃ w, n.arbiter.standing.survey = some w ∧ Grant.surveyWork? n.arbiter.grant = none
        ∧ m.arbiter.standing.survey = none ∧ Grant.surveyWork? m.arbiter.grant = some w
  held : ∀ w, Grant.surveyWork? n.arbiter.grant = some w → m.engine = n.engine
  counts : n.arbiter.countsOk → m.arbiter.countsOk

theorem Lane.calm.refl (n : Lane) : n.calm n := ⟨rfl, rfl, rfl, rfl, rfl, rfl, rfl, .inl ⟨rfl, rfl⟩, fun _ _ => rfl, id⟩

theorem Lane.calm.trans {n m k : Lane} (h : n.calm m) (g : m.calm k) : n.calm k := by
  refine ⟨g.state.trans h.state, g.enabled.trans h.enabled, g.power.trans h.power, g.settle.trans h.settle,
    g.restart.trans h.restart, g.rescan.trans h.rescan, g.survey.trans h.survey, ?_, ?_, fun k => g.counts (h.counts k)⟩
  · rcases h.work with ⟨h1, h2⟩ | ⟨w, h1, h2, h3, h4⟩
    · rcases g.work with ⟨g1, g2⟩ | ⟨v, g1, g2, g3, g4⟩
      · exact .inl ⟨g1.trans h1, g2.trans h2⟩
      · exact .inr ⟨v, h1 ▸ g1, h2 ▸ g2, g3, g4⟩
    · rcases g.work with ⟨g1, g2⟩ | ⟨v, g1, g2, g3, g4⟩
      · exact .inr ⟨w, h1, h2, g1.trans h3, g2.trans h4⟩
      · rw [h3] at g1; cases g1
  · intro w hw
    rcases h.work with ⟨h1, h2⟩ | ⟨v, h1, h2, h3, h4⟩
    · exact (g.held w (h2.trans hw)).trans (h.held w hw)
    · rw [h2] at hw; cases hw

/-- R72, R79: the handle and the tag of each entry, in order. -/
def State.keys (s : State) : List (Nat × Tag) := s.dir.entries.map (fun e => (e.handle, e.tag))

/-- The Mate Monitor, the lanes' standing, the bounds of the two queues and the keys of the directory are kept. -/
structure State.calm (s t : State) : Prop where
  mate : t.mate = s.mate
  lane : ∀ l, (s.lane l).calm (t.lane l)
  requests : s.link.requests.length ≤ Config.requestPlaces → t.link.requests.length ≤ Config.requestPlaces
  notices : s.link.notices.length ≤ Config.noticePlaces → t.link.notices.length ≤ Config.noticePlaces
  handles : t.dir.entries.map (·.handle) = s.dir.entries.map (·.handle)
  keys : (s.dir.entries.map (·.handle)).Nodup → t.keys = s.keys

theorem State.calm.refl (s : State) : s.calm s := ⟨rfl, fun _ => .refl _, id, id, rfl, fun _ => rfl⟩

theorem State.calm.trans {s t u : State} (h : s.calm t) (k : t.calm u) : s.calm u := by
  refine ⟨k.mate.trans h.mate, fun l => (h.lane l).trans (k.lane l), fun x => k.requests (h.requests x),
    fun x => k.notices (h.notices x), k.handles.trans h.handles, fun x => ?_⟩
  exact (k.keys (by rw [h.handles]; exact x)).trans (h.keys x)

/-- A change of anything that calm does not speak of. -/
theorem State.calm_of {s t : State} (h1 : t.mate = s.mate) (h2 : t.lanes = s.lanes) (h3 : t.link = s.link)
    (h4 : t.dir = s.dir) : s.calm t := by
  refine ⟨h1, fun l => ?_, by rw [h3]; exact id, by rw [h3]; exact id, by rw [h4], fun _ => ?_⟩
  · rw [show t.lane l = s.lane l by unfold State.lane; rw [h2]]; exact .refl _
  · unfold State.keys; rw [h4]

/-! ### Lanes, postings, replies -/

theorem State.calm_modLane (s : State) (l : LaneId) (f : Lane → Lane) (h : (s.lane l).calm (f (s.lane l))) :
    s.calm (s.modLane l f) := by
  refine ⟨rfl, fun m => ?_, id, id, rfl, fun _ => rfl⟩
  rw [State.lane_modLane]
  split
  · subst m; exact h
  · exact .refl _

theorem State.calm_post (s : State) (n : Notice) : s.calm (s.post n) :=
  ⟨rfl, fun _ => .refl _, by rw [State.link_post, Link.post_requests]; exact id, Link.post_notices_le _ _, rfl, fun _ => rfl⟩

theorem State.calm_postAll (ns : List Notice) (s : State) : s.calm (s.postAll ns) := by
  induction ns generalizing s with
  | nil => exact .refl s
  | cons n ns ih => exact (s.calm_post n).trans (ih _)

theorem State.calm_replyThen (s : State) (r : Reply) (a : Option ResetKind) : s.calm (s.replyThen r a) :=
  ⟨rfl, fun _ => .refl _, by rw [State.link_replyThen, Link.send_requests]; exact id, fun h => Nat.le_trans (Link.send_notices_le _ _) h, rfl, fun _ => rfl⟩

theorem State.calm_ok (s : State) (q : Request) (p : List Byte) : s.calm (s.ok q p) := s.calm_replyThen _ _
theorem State.calm_refuse (s : State) (q : Request) (st : Status) : s.calm (s.refuse q st) := s.calm_replyThen _ _
theorem State.calm_answer (s : State) (q : Request) (st : Status) (p : List Byte) : s.calm (s.answer q st p) :=
  s.calm_replyThen _ _

theorem State.calm_sendAccessReply (s : State) (r : Reply) : s.calm (s.sendAccessReply r) :=
  State.calm.trans (t := { s with accessTimer := none }) (State.calm_of rfl rfl rfl rfl) (State.calm_replyThen _ r none)

theorem State.calm_postLane (s : State) (l : LaneId) (c : Option FaultCause) : s.calm (s.postLane l c) := s.calm_post _

theorem State.calm_writeFault (s : State) (l : LaneId) (r : FaultRecord) : s.calm (s.writeFault l r) :=
  (s.calm_modLane l _ ⟨rfl, rfl, rfl, rfl, rfl, rfl, rfl, .inl ⟨rfl, rfl⟩, fun _ _ => rfl, id⟩).trans (State.calm_postLane _ _ _)

/-! ### The directory -/

/-- Some entry carries this handle and this tag. -/
def State.knows (s : State) (e : Entry) : Prop := (e.handle, e.tag) ∈ s.keys

theorem State.knows_of_mem {s : State} {e : Entry} (h : e ∈ s.dir.entries) : s.knows e := List.mem_map.2 ⟨e, h, rfl⟩

theorem State.knows_of_entry? {s : State} {h : Nat} {e : Entry} (x : s.entry? h = some e) : s.knows e :=
  State.knows_of_mem (List.mem_of_find?_eq_some x)

theorem State.knows_of_target? {s : State} {t : Target} {e : Entry} (x : s.target? t = some e) : s.knows e :=
  State.knows_of_mem (List.mem_of_find?_eq_some x)

theorem State.knows_of_onLaneAt? {s : State} {l : LaneId} {a : Nat} {e : Entry} (x : s.onLaneAt? l a = some e) : s.knows e :=
  State.knows_of_mem (List.mem_of_find?_eq_some x)

theorem State.knows_of_heldEntry? {s : State} {n : Naming} {e : Entry} (x : s.heldEntry? n = some e) : s.knows e := by
  unfold State.heldEntry? at x
  obtain ⟨h, _⟩ := Option.filter_eq_some_iff.1 x
  exact State.knows_of_entry? h

/-- R82: an update of a known entry that keeps its handle and tag is calm. -/
theorem State.calm_update_of {s : State} {old new : Entry} (hk : (s.dir.entries.map (·.handle)).Nodup → s.knows old)
    (hh : new.handle = old.handle) (ht : new.tag = old.tag) : s.calm (s.update old new) := by
  refine ⟨rfl, fun _ => .refl _, id, id, ?_, fun hn => ?_⟩
  · change List.map _ (s.dir.entries.map (fun e => if e.handle = old.handle then new else e)) = _
    rw [List.map_map]
    refine List.map_congr_left (fun e _ => ?_)
    simp only [Function.comp]
    split
    · rename_i hx; rw [hh, hx]
    · rfl
  · change List.map _ (s.dir.entries.map (fun e => if e.handle = old.handle then new else e)) = _
    rw [List.map_map]
    refine List.map_congr_left (fun e he => ?_)
    simp only [Function.comp]
    split
    · rename_i hx
      obtain ⟨o, ho, hoe⟩ := List.mem_map.1 (hk hn)
      have : o = e := by
        refine List.inj_on_of_nodup_map hn ho he ?_
        have := congrArg Prod.fst hoe
        simp at this
        rw [this, hx]
      subst this
      rw [hh, ht, ← hoe]
    · rfl

theorem State.calm_update {s : State} {old new : Entry} (hk : s.knows old) (hh : new.handle = old.handle)
    (ht : new.tag = old.tag) : s.calm (s.update old new) := State.calm_update_of (fun _ => hk) hh ht

theorem State.calm.knows {s t : State} (h : s.calm t) (hn : (s.dir.entries.map (·.handle)).Nodup) {e : Entry}
    (k : s.knows e) : t.knows e := by unfold State.knows; rw [h.keys hn]; exact k

theorem State.calm_addClear (s : State) (e : Entry) : s.calm (s.addClear e) :=
  s.calm_modLane _ _ ⟨rfl, rfl, rfl, rfl, rfl, rfl, rfl, .inl ⟨rfl, rfl⟩, fun _ _ => rfl, id⟩

theorem State.calm_endAttention (s : State) (e : Entry) (w : EndReason) : s.calm (s.endAttention e w) := by
  unfold State.endAttention
  split
  · exact (s.calm_modLane _ _ ⟨rfl, rfl, rfl, rfl, rfl, rfl, rfl, .inl ⟨rfl, rfl⟩, fun _ _ => rfl, id⟩).trans (State.calm_post _ _)
  · exact .refl s

theorem State.calm_leaveRound (s : State) (e : Entry) : s.calm (s.leaveRound e) :=
  s.calm_modLane _ _ ⟨rfl, rfl, rfl, rfl, rfl, rfl, rfl, .inl ⟨rfl, rfl⟩, fun _ _ => rfl, id⟩

/-! ### The arbiter -/

/-- A request that joins those that stand. -/
theorem Arbiter.countsOk.asks {a b : Arbiter} (h : a.countsOk) (hp : b.passed = a.passed)
    (hq : ∀ r ∈ a.standing.list, r ∈ b.standing.list) : b.countsOk := by
  have := h.standing b.standing hq
  unfold Arbiter.countsOk at *
  rw [hp]
  exact this

theorem State.calm_requestAttention (s : State) (l : LaneId) : s.calm (s.requestAttention l) := by
  unfold State.requestAttention
  simp only []
  split
  · refine s.calm_modLane _ _ ⟨rfl, rfl, rfl, rfl, rfl, rfl, rfl, .inl ⟨rfl, rfl⟩, fun _ _ => rfl, fun h => h.asks rfl ?_⟩
    intro r hr
    rw [Standing.mem_list] at *
    cases r <;> simp_all
  · exact .refl s

theorem State.calm_endAccess (s : State) (l : LaneId) (st : Status) : s.calm (s.endAccess l st) := by
  unfold State.endAccess
  split
  · split
    · refine State.calm.trans (s.calm_modLane l (fun n => { n with run := none }) ?_) ?_
      · exact ⟨rfl, rfl, rfl, rfl, rfl, rfl, rfl, .inl ⟨rfl, rfl⟩, fun _ _ => rfl, id⟩
      · refine State.calm.trans (t := { s.modLane l (fun n => { n with run := none }) with accessTimer := none }) ?_ ?_
        · exact State.calm_of rfl rfl rfl rfl
        · exact State.calm_replyThen _ _ _
    · exact .refl s
  · exact .refl s

theorem State.endAccess_arbiter (s : State) (l m : LaneId) (st : Status) :
    ((s.endAccess l st).lane m).arbiter = (s.lane m).arbiter := by
  have h : ((s.modLane l (fun n => { n with run := none })).lane m).arbiter = (s.lane m).arbiter := by
    rw [State.lane_modLane]
    split
    · subst m; rfl
    · rfl
  unfold State.endAccess
  split
  · split
    · exact h
    · rfl
  · rfl

/-- R114: what a decision does to the survey's request. -/
theorem Arbiter.grantNext_survey {a b : Arbiter} {g : Grant} (h : a.grantNext = some (g, b)) :
    a.grant = none ∧ b.grant = some g
      ∧ ((∃ w, g = .survey w ∧ a.standing.survey = some w ∧ b.standing.survey = none)
        ∨ (∀ w, g ≠ .survey w) ∧ b.standing.survey = a.standing.survey) := by
  unfold Arbiter.grantNext at h
  split at h
  · cases h
  · rename_i hg
    split at h
    · cases h
    · rename_i r hr
      split at h
      · cases h
      · rename_i g' q hq
        cases h
        refine ⟨hg, rfl, ?_⟩
        cases r <;> simp only [Standing.serve] at hq
        · split at hq
          · cases hq; exact .inr ⟨(by intro w h; cases h), rfl⟩
          · cases hq
        · cases h1 : a.standing.access with
          | none => rw [h1] at hq; cases hq
          | some x => rw [h1] at hq; cases hq; exact .inr ⟨(by intro w h; cases h), rfl⟩
        · cases h1 : a.standing.survey with
          | none => rw [h1] at hq; cases hq
          | some x => rw [h1] at hq; cases hq; exact .inl ⟨x, rfl, rfl, rfl⟩
        · cases h1 : a.standing.poll with
          | none => rw [h1] at hq; cases hq
          | some x => rw [h1] at hq; cases hq; exact .inr ⟨(by intro w h; cases h), rfl⟩

theorem Grant.surveyWork?_of_ne {g : Grant} (h : ∀ w, g ≠ .survey w) : Grant.surveyWork? (some g) = none := by
  cases g
  · rfl
  · rfl
  · exact absurd rfl (h _)
  · rfl

/-- The start of a telegram for any grant but the survey's. -/
theorem State.calm_startTelegram (s : State) (l : LaneId) (t : Telegram)
    (h : Grant.surveyWork? (s.lane l).arbiter.grant = none) : s.calm (s.startTelegram l t) :=
  s.calm_modLane _ _ ⟨rfl, rfl, rfl, rfl, rfl, rfl, rfl, .inl ⟨rfl, rfl⟩, fun w hw => (by rw [h] at hw; cases hw), id⟩

/-- The release of any grant but the survey's. -/
theorem State.calm_releaseGrant (s : State) (l : LaneId)
    (h : Grant.surveyWork? (s.lane l).arbiter.grant = none) : s.calm (s.releaseGrant l) :=
  s.calm_modLane _ _ ⟨rfl, rfl, rfl, rfl, rfl, rfl, rfl, .inl ⟨rfl, h.symm⟩, fun _ _ => rfl, id⟩

theorem State.calm_arbitrateRounds (k : Nat) (l : LaneId) (s : State) : s.calm (arbitrateRounds k l s) := by
  induction k generalizing s with
  | zero => exact .refl s
  | succ k ih =>
    unfold arbitrateRounds
    simp only []
    have h1 := s.calm_requestAttention l
    generalize s.requestAttention l = u at *
    split
    · exact h1
    · rename_i g a hg
      obtain ⟨g1, g2, g3⟩ := Arbiter.grantNext_survey hg
      have hne : (∀ w, g ≠ .survey w) → u.calm (u.modLane l (fun n => { n with arbiter := a }))
          ∧ Grant.surveyWork? ((u.modLane l (fun n => { n with arbiter := a })).lane l).arbiter.grant = none := by
        intro hw
        have h0 : Grant.surveyWork? a.grant = none := by rw [g2]; exact Grant.surveyWork?_of_ne hw
        rcases g3 with ⟨w, h, _⟩ | ⟨_, g3⟩
        · exact absurd h (hw w)
        · refine ⟨u.calm_modLane _ _ ⟨rfl, rfl, rfl, rfl, rfl, rfl, rfl, .inl ⟨g3, ?_⟩, fun _ _ => rfl, fun h => h.next hg⟩, ?_⟩
          · change Grant.surveyWork? a.grant = _
            rw [h0, g1]; rfl
          · rw [State.lane_modLane_self]; exact h0
      split
      · rename_i w
        refine h1.trans ?_
        rcases g3 with ⟨w', h, g3, g4⟩ | ⟨h, _⟩
        · cases h
          unfold State.startTelegram
          refine ⟨rfl, fun m => ?_, id, id, rfl, fun _ => rfl⟩
          rw [State.lane_modLane]
          split
          · subst m
            rw [State.lane_modLane_self]
            refine ⟨rfl, rfl, rfl, rfl, rfl, rfl, rfl, .inr ⟨w, g3, by rw [g1]; rfl, g4, by rw [g2]; rfl⟩, ?_, fun h => h.next hg⟩
            intro v hv; rw [g1] at hv; cases hv
          · rw [State.lane_modLane]
            rw [if_neg (by assumption)]
            exact .refl _
        · exact absurd rfl (h w)
      · obtain ⟨c, d⟩ := hne (by intro w h; cases h)
        exact (h1.trans c).trans (State.calm_startTelegram _ _ _ d)
      · obtain ⟨c, d⟩ := hne (by intro w h; cases h)
        split
        · split
          · exact (h1.trans c).trans (State.calm_startTelegram _ _ _ d)
          · refine ((h1.trans c).trans ?_).trans (ih _)
            refine (State.calm_endAccess _ l .nodeLost).trans (State.calm_releaseGrant _ _ ?_)
            rw [State.endAccess_arbiter]; exact d
        · exact ((h1.trans c).trans (State.calm_releaseGrant _ _ d)).trans (ih _)
      · obtain ⟨c, d⟩ := hne (by intro w h; cases h)
        split
        · rename_i t hd _
          refine (h1.trans c).trans (State.calm.trans (State.calm_modLane _ l
            (fun n => { n with attention := { n.attention with heed := hd } }) ?_) (State.calm_startTelegram _ _ _ ?_))
          · exact ⟨rfl, rfl, rfl, rfl, rfl, rfl, rfl, .inl ⟨rfl, rfl⟩, fun _ _ => rfl, id⟩
          · rw [State.lane_modLane_self]; exact d
        · exact ((h1.trans c).trans (State.calm_releaseGrant _ _ d)).trans (ih _)

/-- The arbiter is calm. -/
theorem State.calm_arbitrate (s : State) (l : LaneId) : s.calm (s.arbitrate l) := State.calm_arbitrateRounds _ l s

theorem State.calm_foldl {α : Type} (f : State → α → State) (h : ∀ (s : State) a, s.calm (f s a)) (xs : List α) (s : State) :
    s.calm (xs.foldl f s) := by
  induction xs generalizing s with
  | nil => exact .refl s
  | cons x xs ih => exact (h s x).trans (ih _)

theorem State.calm_arbitrateAll (s : State) : s.calm s.arbitrateAll := State.calm_foldl _ State.calm_arbitrate _ s

/-! ### The Resolver -/

theorem State.calm_refresh (s : State) (b) : s.calm (s.refresh b).1 := by
  unfold State.refresh
  simp only []
  split
  · exact State.calm_of rfl rfl rfl rfl
  · exact State.calm_of rfl rfl rfl rfl

theorem State.calm_recomputeFrom (s : State) (b) : s.calm (s.recomputeFrom b) :=
  (s.calm_refresh b).trans (State.calm_postAll _ _)

theorem State.calm_recompute (s : State) : s.calm s.recompute := by
  unfold State.recompute
  split
  · exact s.calm_recomputeFrom _
  · exact .refl s

theorem State.calm_recomputeLater (s : State) (due : List Notice) : s.calm (s.recomputeLater due).1 := by
  unfold State.recomputeLater
  split
  · exact s.calm_refresh _
  · exact .refl s

theorem State.calm_writeBindings (s : State) (f : Entry → Option Binding) : s.calm (s.writeBindings f) := by
  unfold State.writeBindings
  simp only []
  refine State.calm.trans ?_ (State.calm_foldl _ State.calm_addClear _ _)
  refine ⟨rfl, fun _ => .refl _, id, id, ?_, fun _ => ?_⟩
  · change List.map _ (s.dir.entries.map (fun e => e.bindTo (f e))) = _
    rw [List.map_map]
    rfl
  · change List.map _ (s.dir.entries.map (fun e => e.bindTo (f e))) = _
    rw [List.map_map]
    rfl

theorem State.calm_rebind (s : State) : s.calm s.rebind := by
  unfold State.rebind
  simp only []
  refine State.calm.trans ?_ (State.calm_writeBindings _ _)
  exact State.calm_of rfl rfl rfl rfl

theorem State.calm_fullResolution (s : State) : s.calm s.fullResolution :=
  (s.calm_rebind.trans (State.calm_recomputeFrom _ _)).trans (State.calm_arbitrateAll _)

theorem State.calm_initialResolution (s : State) : s.calm s.initialResolution := by
  unfold State.initialResolution
  simp only []
  refine State.calm.trans (t := { s with resolver := { s.resolver with phase := .resolved } }) ?_ ?_
  · exact State.calm_of rfl rfl rfl rfl
  · exact ((State.calm_rebind _).trans (State.calm_recomputeFrom _ _)).trans (State.calm_arbitrateAll _)

theorem State.calm_reportFinished (s : State) (l : LaneId) : s.calm (s.reportFinished l) := by
  unfold State.reportFinished
  simp only []
  split
  · exact .refl s
  · have h : s.calm { s with resolver := { s.resolver with finished := s.resolver.finished.set l true } } :=
      State.calm_of rfl rfl rfl rfl
    split
    · exact h.trans (State.calm_initialResolution _)
    · exact h

theorem State.calm_resolveIfResolved (s : State) : s.calm s.resolveIfResolved := by
  unfold State.resolveIfResolved
  split
  · exact s.calm_fullResolution
  · exact .refl s

theorem State.calm_takeReport (s : State) (r : Report) : s.calm (s.takeReport r) := by
  unfold State.takeReport
  split
  · split
    · exact s.calm_fullResolution
    · unfold State.incremental
      split
      · rename_i e he
        split
        · split
          · exact (State.calm_update (State.knows_of_entry? he) (by rfl) (by rfl)).trans (State.calm_recompute _)
          · exact s.calm_recompute
        · exact s.calm_recompute
      · exact s.calm_recompute
  · exact .refl s

/-! ### Presence -/

theorem State.calm_reportPresence (s : State) (old new : Entry) : s.calm (s.reportPresence old new) := by
  unfold State.reportPresence
  split
  · exact s.calm_recompute
  · exact .refl s

theorem State.calm_postFault (s : State) (old new : Entry) : s.calm (s.postFault old new) := by
  unfold State.postFault
  split
  · exact s.calm_post _
  · exact .refl s

theorem State.calm_applyAnswer (s : State) (t : Target) (f : Option Bool) : s.calm (s.applyAnswer t f) := by
  unfold State.applyAnswer
  split
  · rename_i e he
    split
    · simp only []
      have h := State.calm_update (new := e.answered f) (State.knows_of_target? he) (by rfl) (by rfl)
      refine State.calm.trans ?_ (State.calm_reportPresence _ _ _)
      refine State.calm.trans ?_ (State.calm_postFault _ _ _)
      split
      · exact h.trans (State.calm_post _ _)
      · exact h
    · exact .refl s
  · exact .refl s

theorem Entry.missed_key (e : Entry) (k : Nat) : (e.missed k).handle = e.handle ∧ (e.missed k).tag = e.tag := by
  unfold Entry.missed
  split <;> exact ⟨rfl, rfl⟩

theorem State.calm_applyMiss (s : State) (t : Target) : s.calm (s.applyMiss t) := by
  unfold State.applyMiss
  split
  · rename_i e he
    split
    · simp only []
      have h := State.calm_update (State.knows_of_target? he) (e.missed_key s.missLimit).1 (e.missed_key s.missLimit).2
      refine State.calm.trans ?_ (State.calm_reportPresence _ _ _)
      split
      · exact ((h.trans (State.calm_leaveRound _ _)).trans (State.calm_post _ _)).trans (State.calm_endAttention _ _ _)
      · split
        · exact h.trans (State.calm_post _ _)
        · exact h
    · exact .refl s
  · exact .refl s

theorem State.calm_evidence (s : State) (t : Target) (o : TelegramOutcome) : s.calm (s.evidence t o) := by
  unfold State.evidence
  split
  · exact s.calm_applyAnswer _ _
  · exact s.calm_applyAnswer _ _
  · exact s.calm_applyMiss _
  · exact .refl s

/-- A change of a lane in the fields that calm does not speak of. -/
theorem Lane.calm_of {n m : Lane} (h : m.state = n.state ∧ m.enabled = n.enabled ∧ m.power = n.power
    ∧ m.settleTimer = n.settleTimer ∧ m.restartTimer = n.restartTimer ∧ m.rescanTimer = n.rescanTimer
    ∧ m.survey = n.survey ∧ m.engine = n.engine) (h1 : m.arbiter.standing.survey = n.arbiter.standing.survey)
    (h2 : Grant.surveyWork? m.arbiter.grant = Grant.surveyWork? n.arbiter.grant)
    (h3 : n.arbiter.countsOk → m.arbiter.countsOk := by exact id) : n.calm m :=
  ⟨h.1, h.2.1, h.2.2.1, h.2.2.2.1, h.2.2.2.2.1, h.2.2.2.2.2.1, h.2.2.2.2.2.2.1, .inl ⟨h1, h2⟩, fun _ _ => h.2.2.2.2.2.2.2, h3⟩

/-- A request of the Poller or of the Object Access Engine. -/
theorem Lane.calm_asks {n m : Lane} (h : m.state = n.state ∧ m.enabled = n.enabled ∧ m.power = n.power
    ∧ m.settleTimer = n.settleTimer ∧ m.restartTimer = n.restartTimer ∧ m.rescanTimer = n.rescanTimer
    ∧ m.survey = n.survey ∧ m.engine = n.engine) (h1 : m.arbiter.grant = n.arbiter.grant) (h2 : m.arbiter.passed = n.arbiter.passed)
    (h3 : m.arbiter.standing.survey = n.arbiter.standing.survey)
    (h4 : ∀ r ∈ n.arbiter.standing.list, r ∈ m.arbiter.standing.list) : n.calm m :=
  Lane.calm_of h h3 (by rw [h1]) (fun k => k.asks h2 h4)

theorem State.calm_pollNext (s : State) (l : LaneId) : s.calm (s.pollNext l) := by
  unfold State.pollNext
  split
  · refine s.calm_modLane _ _ (Lane.calm_asks ⟨rfl, rfl, rfl, rfl, rfl, rfl, rfl, rfl⟩ rfl rfl rfl (fun r hr => ?_))
    rw [Standing.mem_list] at *
    cases r <;> simp_all
  · exact s.calm_modLane _ _ (Lane.calm_of ⟨rfl, rfl, rfl, rfl, rfl, rfl, rfl, rfl⟩ rfl rfl)

theorem State.calm_pollRound (s : State) (l : LaneId) : s.calm (s.pollRound l) := by
  unfold State.pollRound
  refine (s.calm_modLane _ _ ?_).trans (State.calm_pollNext _ _)
  exact Lane.calm_of ⟨rfl, rfl, rfl, rfl, rfl, rfl, rfl, rfl⟩ rfl rfl

theorem State.calm_pollOutcome (s : State) (l : LaneId) (t : Target) (o : TelegramOutcome) : s.calm (s.pollOutcome l t o) := by
  unfold State.pollOutcome
  simp only []
  refine State.calm.trans ?_ (State.calm_pollNext _ _)
  refine State.calm.trans ?_ (State.calm_modLane _ _ _ (Lane.calm_of ⟨rfl, rfl, rfl, rfl, rfl, rfl, rfl, rfl⟩ rfl rfl))
  split
  · exact s.calm_applyAnswer _ _
  · exact s.calm_applyMiss _
  · exact .refl s

/-- R87: the loss of a known entry. -/
theorem calm_loseEntry {x : State × List Notice} {e : Entry} (h : (x.1.dir.entries.map (·.handle)).Nodup → x.1.knows e) :
    x.1.calm (loseEntry x e).1 := by
  unfold loseEntry
  exact ((State.calm_update_of h (by rfl) (by rfl)).trans (State.calm_endAttention _ _ _)).trans (State.calm_recomputeLater _ _)

/-! ### Attention -/

theorem State.calm_classifyHit (s : State) (l : LaneId) (k : Nat) : s.calm (s.classifyHit l k) := by
  unfold State.classifyHit
  split
  · unfold State.strayHit
    exact (s.calm_writeFault _ _).trans
      (State.calm_modLane _ _ _ (Lane.calm_of ⟨rfl, rfl, rfl, rfl, rfl, rfl, rfl, rfl⟩ rfl rfl))
  · rename_i e he
    split
    · exact .refl s
    · exact .refl s
    · split
      · exact (State.calm_update (State.knows_of_onLaneAt? he) (by rfl) (by rfl)).trans (State.calm_addClear _ _)
      · exact State.calm_update (State.knows_of_onLaneAt? he) (by rfl) (by rfl)

theorem State.heeded?_target {s : State} {h : Heed} {e : Entry} (x : s.heeded? h = some e) : s.target? h.target = some e := by
  unfold State.heeded? at x
  split at x
  · split at x
    · rename_i he _; cases x; exact he
    · cases x
  · cases x

theorem State.calm_heedOutcome (s : State) (l : LaneId) (o : TelegramOutcome) : s.calm (s.heedOutcome l o) := by
  unfold State.heedOutcome
  split
  · exact .refl s
  · rename_i h _
    simp only []
    refine State.calm.trans ?_ (State.calm_modLane _ _ _ (Lane.calm_of ⟨rfl, rfl, rfl, rfl, rfl, rfl, rfl, rfl⟩ rfl rfl))
    split
    · split
      · unfold State.heedNothing
        simp only []
        refine (s.calm_applyAnswer h.target none).trans ?_
        split
        · rename_i e he
          exact (State.calm_update (State.knows_of_target? (State.heeded?_target he)) (by rfl) (by rfl)).trans
            (State.calm_modLane _ _ _ (Lane.calm_of ⟨rfl, rfl, rfl, rfl, rfl, rfl, rfl, rfl⟩ rfl rfl))
        · exact .refl _
      · unfold State.heedCause
        simp only []
        refine (s.calm_applyAnswer h.target none).trans ?_
        split
        · rename_i e he
          exact ((State.calm_update (State.knows_of_target? (State.heeded?_target he)) (by rfl) (by rfl)).trans
            (State.calm_modLane _ _ _ (Lane.calm_of ⟨rfl, rfl, rfl, rfl, rfl, rfl, rfl, rfl⟩ rfl rfl))).trans
            (State.calm_post _ _)
        · exact .refl _
    · unfold State.heedSilent
      simp only []
      refine State.calm.trans ?_ (State.calm_applyMiss _ _)
      split
      · rename_i e he
        exact State.calm_update (State.knows_of_target? (State.heeded?_target he)) (by rfl) (by rfl)
      · exact .refl _
    · exact .refl s

theorem State.calm_attentionOutcome (s : State) (l : LaneId) (t : Telegram) (o : TelegramOutcome) :
    s.calm (s.attentionOutcome l t o) := by
  unfold State.attentionOutcome
  split
  · unfold State.rollcallOutcome
    exact (State.calm_foldl _ (fun t k => State.calm_classifyHit t l k) _ _).trans
      (State.calm_modLane _ _ _ (Lane.calm_of ⟨rfl, rfl, rfl, rfl, rfl, rfl, rfl, rfl⟩ rfl rfl))
  · unfold State.clearOutcome
    split
    · exact .refl s
    · simp only []
      refine State.calm.trans ?_ (State.calm_modLane _ _ _ (Lane.calm_of ⟨rfl, rfl, rfl, rfl, rfl, rfl, rfl, rfl⟩ rfl rfl))
      split
      · exact s.calm_evidence _ _
      · exact .refl s
  · exact s.calm_heedOutcome _ _
  · exact .refl s

theorem State.calm_finishAttention {s : State} {e : Entry} (h : s.knows e) : s.calm (s.finishAttention e) := by
  unfold State.finishAttention
  exact ((State.calm_update h (by rfl) (by rfl)).trans
    (State.calm_modLane _ _ _ (Lane.calm_of ⟨rfl, rfl, rfl, rfl, rfl, rfl, rfl, rfl⟩ rfl rfl))).trans (State.calm_addClear _ _)

theorem State.calm_expireSlot (s : State) (l : LaneId) (r : InService) : s.calm (s.expireSlot l r) := by
  unfold State.expireSlot
  split
  · rename_i e he
    exact ((State.calm_finishAttention (State.knows_of_entry? he)).trans (State.calm_post _ _)).trans (State.calm_arbitrate _ _)
  · exact .refl s

/-! ### Object access -/

theorem State.calm_requestAccess (s : State) (l : LaneId) (b : Bool) : s.calm (s.requestAccess l b) := by
  refine s.calm_modLane _ _ (Lane.calm_asks ⟨rfl, rfl, rfl, rfl, rfl, rfl, rfl, rfl⟩ rfl rfl rfl (fun r hr => ?_))
  rw [Standing.mem_list] at *
  cases r <;> simp_all

theorem State.calm_startAccess (s : State) (q : Request) (e : Entry) (r : Run) : s.calm (s.startAccess q e r) := by
  unfold State.startAccess
  simp only []
  refine State.calm.trans ?_ (State.calm_arbitrate _ _)
  refine State.calm.trans (t := (s.modLane e.lane (fun n => { n with run := some r })).requestAccess e.lane r.block) ?_
    (State.calm_of rfl rfl rfl rfl)
  exact (s.calm_modLane _ _ (Lane.calm_of ⟨rfl, rfl, rfl, rfl, rfl, rfl, rfl, rfl⟩ rfl rfl)).trans (State.calm_requestAccess _ _ _)

/-- R127: the end of an access by its timer. -/
theorem Lane.calm_abandonRun (n : Lane) : n.calm n.abandonRun := by
  unfold Lane.abandonRun
  split
  · exact Lane.calm_of ⟨rfl, rfl, rfl, rfl, rfl, rfl, rfl, rfl⟩ rfl rfl
  · refine Lane.calm_of ⟨rfl, rfl, rfl, rfl, rfl, rfl, rfl, rfl⟩ rfl ?_ (fun h => h.withdraw)
    rcases h : n.arbiter.grant with _ | g
    · rfl
    · cases g <;> rfl

/-- R124: the outcome of a telegram of a run, whose lane does not hold a survey grant. -/
theorem State.calm_accessOutcome (s : State) (l : LaneId) (o : TelegramOutcome)
    (h : ∃ b, (s.lane l).arbiter.grant = some (.access b)) : s.calm (s.accessOutcome l o) := by
  obtain ⟨b, hb⟩ := h
  unfold State.accessOutcome
  split
  · exact .refl s
  · rename_i r hr
    simp only []
    have h1 := s.calm_evidence r.target o
    have hg : Grant.surveyWork? ((s.evidence r.target o).lane l).arbiter.grant = none := by
      rw [((State.newsAndRounds_evidence s r.target o).lane l).2.2.2, hb]; rfl
    generalize s.evidence r.target o = t at *
    have hmod : ∀ x : Option Run, t.calm (t.modLane l (fun n => { n with run := x }))
        ∧ Grant.surveyWork? ((t.modLane l (fun n => { n with run := x })).lane l).arbiter.grant = none := fun x =>
      ⟨t.calm_modLane _ _ (Lane.calm_of ⟨rfl, rfl, rfl, rfl, rfl, rfl, rfl, rfl⟩ rfl rfl), by
        rw [State.lane_modLane_self]; exact hg⟩
    split
    · exact h1.trans (hmod _).1
    · split
      · rename_i a
        refine h1.trans ?_
        unfold State.continueRun
        simp only []
        obtain ⟨c, d⟩ := hmod (some (r.advance a))
        split
        · exact c.trans (State.calm_endAccess _ _ _)
        · split
          · exact c.trans (State.calm_requestAccess _ _ _)
          · split
            · exact c.trans (State.calm_startTelegram _ _ _ d)
            · exact c.trans (State.calm_endAccess _ _ _)
      · exact h1.trans (State.calm_endAccess _ _ _)
      · exact h1.trans (State.calm_endAccess _ _ _)
      · exact h1

end Sys2Proof.Machine
end

