-- ==== Sys2Proof/Laws/Kept.lean ====
section
/-! SUPPORT. What is calm keeps the queue bounds, the power law, the order of the walk, the order of the directory and the
passed-over counts. -/

namespace Sys2Proof.Machine

/-! ### The four properties under calm -/

theorem State.calm.queuesFit {s t : State} (h : s.calm t) (k : s.queuesFit) : t.queuesFit :=
  ⟨h.requests k.1, h.notices k.2⟩

theorem Lane.calm.powerOk {n m : Lane} (h : n.calm m) (b : Bool) : m.powerOk b = n.powerOk b := by
  unfold Lane.powerOk
  rw [h.state, h.enabled, h.power, h.settle, h.restart, h.rescan, h.survey]

theorem State.calm.powerLaw {s t : State} (h : s.calm t) (k : s.powerLaw) : t.powerLaw := by
  refine ⟨by rw [h.mate]; exact k.1, fun l => ?_⟩
  rw [h.mate, (h.lane l).powerOk]
  exact k.2 l

theorem Lane.calm.surveyOk {n m : Lane} (h : n.calm m) (k : n.surveyOk) : m.surveyOk := by
  obtain ⟨k1, k2, k3, k4, k5, k6, k7, k8, k9⟩ := k
  have hs := h.survey
  unfold Lane.surveyOk
  rw [h.survey, h.state, h.settle, h.restart, h.rescan]
  refine ⟨k1, k2, k3, ?_, ?_, ?_, k7, k8, k9⟩
  · intro w hw
    rcases h.work with ⟨h1, h2⟩ | ⟨v, h1, h2, h3, h4⟩
    · exact k4 w (h1 ▸ hw)
    · rw [h3] at hw; cases hw
  · intro w hw
    rcases h.work with ⟨h1, h2⟩ | ⟨v, h1, h2, h3, h4⟩
    · rw [h1]; exact k5 w (h2 ▸ hw)
    · rw [h4] at hw; cases hw
      exact ⟨k4 _ h1, h3⟩
  · intro hst
    obtain ⟨a, b, c⟩ := k6 hst
    rcases h.work with ⟨h1, h2⟩ | ⟨v, h1, h2, h3, h4⟩
    · exact ⟨a, h1.trans b, h2.trans c⟩
    · rw [b] at h1; cases h1

theorem State.calm.surveyOk {s t : State} (h : s.calm t) (k : s.surveyOk) : t.surveyOk := fun l => (h.lane l).surveyOk (k l)

theorem State.calm.countsOk {s t : State} (h : s.calm t) (k : s.countsOk) : t.countsOk := fun l => (h.lane l).counts (k l)

/-- The order of the directory, said of its keys. -/
theorem State.directoryOk_iff (s : State) : s.directoryOk ↔
    s.keys.Pairwise (fun a b => a.1 < b.1) ∧ s.keys.Pairwise (fun a b => a.2 ≠ b.2)
      ∧ (∀ k ∈ s.keys, 1 ≤ k.1 ∧ k.1 ≤ Config.maxEntries)
      ∧ (∀ l n, (s.lane l).reservation = some n → 1 ≤ n.handle ∧ n.handle ≤ Config.maxEntries
          ∧ (∀ k ∈ s.keys, k.1 ≠ n.handle ∧ k.2 ≠ n.tag))
      ∧ (∀ l m n k, l ≠ m → (s.lane l).reservation = some n → (s.lane m).reservation = some k →
          n.handle ≠ k.handle ∧ n.tag ≠ k.tag) := by
  unfold State.directoryOk State.keys
  simp only [List.pairwise_map, List.forall_mem_map]

theorem State.directoryOk.nodup {s : State} (h : s.directoryOk) : (s.dir.entries.map (·.handle)).Nodup := by
  refine List.pairwise_map.2 (h.1.imp (fun hab => ?_))
  exact Nat.ne_of_lt hab

/-- The keys and the reservations are all that the order of the directory speaks of. -/
theorem State.directoryOk_of {s t : State} (h : s.directoryOk) (hk : t.keys = s.keys)
    (hr : ∀ l n, (t.lane l).reservation = some n → (s.lane l).reservation = some n) : t.directoryOk := by
  rw [State.directoryOk_iff] at *
  obtain ⟨h1, h2, h3, h4, h5⟩ := h
  rw [hk]
  exact ⟨h1, h2, h3, fun l n hn => h4 l n (hr l n hn), fun l m n k hlm a b => h5 l m n k hlm (hr l n a) (hr m k b)⟩

theorem State.calm.directoryOk {s t : State} (h : s.calm t) (k : s.directoryOk) : t.directoryOk := by
  refine State.directoryOk_of k (h.keys k.nodup) (fun l n hn => ?_)
  unfold Lane.reservation at *
  rw [(h.lane l).survey] at hn
  exact hn

/-- R72: at most 64 entries. -/
theorem State.directoryOk.length_le {s : State} (h : s.directoryOk) : s.dir.entries.length ≤ Config.maxEntries := by
  have h2 : (s.dir.entries.map (·.handle)).toFinset ⊆ Finset.Icc 1 Config.maxEntries := by
    intro x hx
    obtain ⟨e, he, rfl⟩ := List.mem_map.1 (List.mem_toFinset.1 hx)
    exact Finset.mem_Icc.2 (h.2.2.1 e he)
  have h3 := Finset.card_le_card h2
  rw [List.toFinset_card_of_nodup h.nodup, List.length_map, Nat.card_Icc] at h3
  simpa using h3

end Sys2Proof.Machine
end

