-- ==== Sys2Proof/Laws/Order.lean ====
section
/-! SUPPORT. What the shared operations do to the bounds of the directory and to the in-service tables (R73, R101, R142): each
keeps `orderly`, one lemma for each operation. -/

namespace Sys2Proof.Machine

/-! ### orderly -/

/-- The bounds of the directory, the in-service tables, and distinct handles. -/
structure State.orderly (s : State) : Prop where
  handles : (s.dir.entries.map (·.handle)).Nodup
  bounds : s.boundsOk
  service : s.serviceOk

/-- An act keeps the bounds of the directory and the in-service tables. -/
def State.ordered (s t : State) : Prop := s.orderly → t.orderly

theorem State.ordered.refl (s : State) : s.ordered s := id

theorem State.ordered.trans {s t u : State} (h : s.ordered t) (k : t.ordered u) : s.ordered u := fun x => k (h x)

theorem ordered_ite {s a b : State} {p : Prop} [Decidable p] (h : s.ordered a) (k : s.ordered b) :
    s.ordered (if p then a else b) := by
  split
  · exact h
  · exact k

theorem State.ordered_foldl {α : Type} (f : State → α → State) (h : ∀ (s : State) a, s.ordered (f s a)) (xs : List α)
    (s : State) : s.ordered (xs.foldl f s) := by
  induction xs generalizing s with
  | nil => exact .refl s
  | cons x xs ih => exact (h s x).trans (ih _)

theorem State.orderly.unique {s : State} (h : s.orderly) {e f : Entry} (he : e ∈ s.dir.entries) (hf : f ∈ s.dir.entries)
    (hh : e.handle = f.handle) : e = f := List.inj_on_of_nodup_map h.handles he hf hh

/-- A slot of an entry that is not IN_SERVICE is empty. -/
theorem State.orderly.noSlot {s : State} (h : s.orderly) {e : Entry} (he : e ∈ s.dir.entries) (ha : e.attention ≠ .inService)
    {l v r} (hs : s.slot l v r) : r.handle ≠ e.handle := by
  intro hc
  obtain ⟨x, hx, h1, _, h3⟩ := h.service.1 l v r hs
  rw [h.unique hx he (h1.trans hc)] at h3
  exact ha h3

/-! ### What leaves lanes and entries in order -/

/-- A lane whose state, survey and heed are as before, and that, when it is not served, has no more of the service's
request or grant than before. -/
structure Lane.rests (n m : Lane) : Prop where
  state : m.state = n.state
  survey : m.survey = n.survey
  heed : m.attention.heed = n.attention.heed
  idle : n.state.serving = false → n.arbiter.standing.attention = false → n.arbiter.grant ≠ some .attention →
    m.arbiter.standing.attention = false ∧ m.arbiter.grant ≠ some .attention

theorem Lane.rests.refl (n : Lane) : n.rests n := ⟨rfl, rfl, rfl, fun _ a b => ⟨a, b⟩⟩

theorem Lane.rests.trans {n m k : Lane} (h : n.rests m) (g : m.rests k) : n.rests k :=
  ⟨g.state.trans h.state, g.survey.trans h.survey, g.heed.trans h.heed, fun a b c =>
    g.idle (h.state ▸ a) (h.idle a b c).1 (h.idle a b c).2⟩

/-- The miss limit, the session and the lanes are in order as before. -/
structure State.rests (s t : State) : Prop where
  missLimit : t.missLimit = s.missLimit
  session : t.mate.session = s.mate.session
  lane : ∀ l, (s.lane l).rests (t.lane l)

theorem State.rests.refl (s : State) : s.rests s := ⟨rfl, rfl, fun _ => .refl _⟩

theorem State.rests.trans {s t u : State} (h : s.rests t) (k : t.rests u) : s.rests u :=
  ⟨k.missLimit.trans h.missLimit, k.session.trans h.session, fun l => (h.lane l).trans (k.lane l)⟩

theorem State.rests.of {s t : State} (h1 : t.mate = s.mate) (h2 : t.lanes = s.lanes) (h3 : t.missLimit = s.missLimit) : s.rests t :=
  ⟨h3, by rw [h1], fun l => by rw [show t.lane l = s.lane l by unfold State.lane; rw [h2]]; exact .refl _⟩

/-- The slots are as before. -/
def State.sameSlots (s t : State) : Prop := ∀ l v r, t.slot l v r ↔ s.slot l v r

/-- The slots are as before but for those of a handle. -/
def State.lessSlots (s : State) (h : Nat) (t : State) : Prop := ∀ l v r, t.slot l v r ↔ s.slot l v r ∧ r.handle ≠ h

theorem State.sameSlots.less {s t : State} (h : s.sameSlots t) (k : s.orderly) {e : Entry} (he : e ∈ s.dir.entries)
    (ha : e.attention ≠ .inService) : s.lessSlots e.handle t :=
  fun l v r => ⟨fun x => ⟨(h l v r).1 x, k.noSlot he ha ((h l v r).1 x)⟩, fun x => (h l v r).2 x.1⟩

/-- An entry after a change that leaves its attention in order. -/
structure State.fits (s : State) (e f : Entry) : Prop where
  handle : f.handle = e.handle
  lane : f.lane = e.lane
  service : f.attention = .inService ↔ e.attention = .inService
  idle : (e.presence = .lost ∨ e.override = .forcedAbsent → e.attention = .idle) →
    f.presence = .lost ∨ f.override = .forcedAbsent → f.attention = .idle
  serving : (e.attention ≠ .idle → (s.lane e.lane).state.serving = true) → f.attention ≠ .idle →
    (s.lane e.lane).state.serving = true

theorem State.fits.refl (s : State) (e : Entry) : s.fits e e := ⟨rfl, rfl, .rfl, fun h => h, fun h => h⟩

/-- The in-service tables after changes of entries that leave them in order. -/
theorem State.serviceOk.of {s t : State} (h : s.serviceOk) (k : s.rests t) (hs : s.sameSlots t) (g : Entry → Entry)
    (he : t.dir.entries = s.dir.entries.map g) (hg : ∀ e ∈ s.dir.entries, s.fits e (g e)) : t.serviceOk := by
  obtain ⟨h1, h2, h3, h4, h5, h6, h7, h8⟩ := h
  have hst : ∀ l, (t.lane l).state = (s.lane l).state := fun l => (k.lane l).state
  unfold State.serviceOk
  rw [he]
  refine ⟨?_, ?_, ?_, ?_, ?_, ?_, ?_, ?_⟩
  · intro l v r x
    obtain ⟨e, y, a, b, d⟩ := h1 l v r ((hs l v r).1 x)
    have := hg e y
    exact ⟨g e, List.mem_map.2 ⟨e, y, rfl⟩, this.handle.trans a, this.lane.trans b, this.service.2 d⟩
  · intro f hf x
    obtain ⟨e, y, rfl⟩ := List.mem_map.1 hf
    have := hg e y
    obtain ⟨v, r, a, b⟩ := h2 e y (this.service.1 x)
    exact ⟨v, r, (hs _ v r).2 (by rw [this.lane]; exact a), b.trans this.handle.symm⟩
  · intro l v w r q a b
    exact h3 l v w r q ((hs _ _ _).1 a) ((hs _ _ _).1 b)
  · intro f hf
    obtain ⟨e, y, rfl⟩ := List.mem_map.1 hf
    exact (hg e y).idle (h4 e y)
  · intro f hf x
    obtain ⟨e, y, rfl⟩ := List.mem_map.1 hf
    rw [hst, (hg e y).lane]
    exact (hg e y).serving (h5 e y) x
  · intro l x
    rw [hst] at x
    obtain ⟨a, b, c, d⟩ := h6 l x
    exact ⟨fun v r y => a v r ((hs _ _ _).1 y), (k.lane l).heed.trans b, (k.lane l).idle x c d⟩
  · intro l hd x
    obtain ⟨a, b⟩ := h7 l hd ((k.lane l).heed ▸ x)
    exact ⟨a, fun r y => b r ((hs _ _ _).1 y)⟩
  · intro l x
    rw [hst]
    exact h8 l ((k.lane l).survey ▸ x)

/-- The bounds after changes of entries that keep their places. -/
theorem State.boundsOk.of {s t : State} (h : s.boundsOk) (hk : t.missLimit = s.missLimit) (hm : t.mate.session = s.mate.session)
    (hv : ∀ l n, (t.lane l).survey.naming = some n → (s.lane l).survey.naming = some n) (g : Entry → Entry)
    (he : t.dir.entries = s.dir.entries.map g)
    (hg : ∀ e ∈ s.dir.entries, (g e).handle = e.handle ∧ (g e).lane = e.lane ∧ (g e).addr = e.addr
      ∧ (e.missOk s.missLimit → (g e).missOk s.missLimit)) : t.boundsOk := by
  obtain ⟨h1, h2, h3, h4, h5, h6⟩ := h
  unfold State.boundsOk
  rw [hk, hm, he]
  refine ⟨h1, h2, fun x => by rw [h3 x]; rfl, ?_, ?_, ?_⟩
  · intro f hf
    obtain ⟨e, x, rfl⟩ := List.mem_map.1 hf
    obtain ⟨_, _, a, b⟩ := hg e x
    exact ⟨b (h4 e x).1, by rw [a]; exact (h4 e x).2⟩
  · rw [List.pairwise_map]
    refine h5.imp_of_mem (fun {a b} ha hb hab => ?_)
    rw [(hg a ha).2.1, (hg b hb).2.1, (hg a ha).2.2.1, (hg b hb).2.2.1]
    exact hab
  · intro l n k1 k2
    obtain ⟨a, b, c⟩ := h6 l n (hv l n k1) k2
    refine ⟨a, b, fun f hf hl ha => ?_⟩
    obtain ⟨e, x, rfl⟩ := List.mem_map.1 hf
    obtain ⟨x1, x2, x3, _⟩ := hg e x
    rw [x1]
    exact c e x (x2 ▸ hl) (x3 ▸ ha)

theorem State.rests.naming {s t : State} (h : s.rests t) (l : LaneId) (n : Naming) (k : (t.lane l).survey.naming = some n) :
    (s.lane l).survey.naming = some n := (h.lane l).survey ▸ k

theorem handles_map {es : List Entry} {g : Entry → Entry} (h : (es.map (·.handle)).Nodup) (hg : ∀ e ∈ es, (g e).handle = e.handle) :
    ((es.map g).map (·.handle)).Nodup := by
  have : (es.map g).map (·.handle) = es.map (·.handle) := by
    rw [List.map_map]
    exact List.map_congr_left (fun e x => hg e x)
  rw [this]
  exact h

/-- What changes entries and leaves their places and attentions in order. -/
theorem State.orderly.of {s t : State} (h : s.orderly) (k : s.rests t) (hs : s.sameSlots t) (g : Entry → Entry)
    (he : t.dir.entries = s.dir.entries.map g)
    (hg : ∀ e ∈ s.dir.entries, s.fits e (g e) ∧ (g e).addr = e.addr ∧ (e.missOk s.missLimit → (g e).missOk s.missLimit)) :
    t.orderly := by
  refine ⟨?_, h.bounds.of k.missLimit k.session k.naming g he (fun e x => ⟨(hg e x).1.handle, (hg e x).1.lane, (hg e x).2⟩),
    h.service.of k hs g he (fun e x => (hg e x).1)⟩
  rw [he]
  exact handles_map h.handles (fun e x => (hg e x).1.handle)

/-- What leaves the entries and the slots as they are. -/
theorem State.ordered_same {s t : State} (k : s.rests t) (hs : s.sameSlots t) (he : t.dir.entries = s.dir.entries) : s.ordered t :=
  fun h => h.of k hs id (by rw [he, List.map_id]) (fun e _ => ⟨.refl s e, rfl, id⟩)

/-- A change of anything that the order does not speak of. -/
theorem State.ordered_of {s t : State} (h1 : t.mate = s.mate) (h2 : t.lanes = s.lanes) (h3 : t.dir = s.dir)
    (h4 : t.missLimit = s.missLimit) : s.ordered t := by
  have hl : ∀ l, t.lane l = s.lane l := fun l => by unfold State.lane; rw [h2]
  exact State.ordered_same ⟨h4, by rw [h1], fun l => by rw [hl]; exact .refl _⟩
    (fun l v r => by unfold State.slot; rw [hl]) (by rw [h3])

theorem State.ordered_modLane (s : State) (l : LaneId) (f : Lane → Lane) (h : (s.lane l).rests (f (s.lane l)))
    (k : (f (s.lane l)).attention.slots = (s.lane l).attention.slots) : s.ordered (s.modLane l f) := by
  refine State.ordered_same ⟨rfl, rfl, fun m => ?_⟩ (fun m v r => ?_) rfl
  · rw [State.lane_modLane]
    split
    · rename_i hm; subst hm; exact h
    · exact .refl _
  · unfold State.slot
    rw [State.lane_modLane]
    split
    · rename_i hm; subst hm; rw [k]
    · rfl

/-- What only news can do. -/
theorem State.ordered_news {s t : State} (n : s.onlyNews t) (d : t.dir = s.dir) : s.ordered t :=
  State.ordered_of n.mate n.lanes d n.rest.2.2.1

/-- R82: an update of an entry of the directory that leaves it in order. -/
theorem State.ordered_update {s : State} {old new : Entry} (he : old ∈ s.dir.entries) (hf : s.fits old new)
    (ha : new.addr = old.addr) (hm : 1 ≤ s.missLimit → old.missOk s.missLimit → new.missOk s.missLimit) : s.ordered (s.update old new) := by
  intro h
  refine h.of (t := s.update old new) ⟨rfl, rfl, fun _ => .refl _⟩ (fun _ _ _ => .rfl) (fun x => if x.handle = old.handle then new else x) rfl (fun e x => ?_)
  split
  · rename_i hh
    rw [h.unique x he hh]
    exact ⟨hf, ha, hm h.bounds.1⟩
  · exact ⟨.refl s e, rfl, id⟩

/-! ### An entry that becomes IDLE, or moves -/

/-- The bounds after a change of one entry, which may move. -/
theorem State.boundsOk.swap {s t : State} (hh : (s.dir.entries.map (·.handle)).Nodup) (h : s.boundsOk) (k : s.rests t) {e f : Entry}
    (hd : t.dir.entries = (s.update e f).dir.entries) (hf : f.handle = e.handle)
    (hm : f.missOk s.missLimit) (h1 : 1 ≤ f.addr) (h30 : f.addr ≤ 30)
    (hp : ∀ x ∈ s.dir.entries, x.lane = f.lane → x.addr = f.addr → x.handle = e.handle)
    (hn : ∀ l n, (s.lane l).survey.naming = some n → n.stage = .assign → f.lane = l → f.addr = n.addr →
      n.kind ≠ .new ∧ e.handle = n.handle) : t.boundsOk := by
  obtain ⟨b1, b2, b3, b4, b5, b6⟩ := h
  have hd : t.dir.entries = s.dir.entries.map (fun x => if x.handle = e.handle then f else x) := hd
  unfold State.boundsOk
  rw [k.missLimit, k.session, hd]
  refine ⟨b1, b2, fun x => by rw [b3 x]; rfl, ?_, ?_, ?_⟩
  · intro g hg
    obtain ⟨x, hx, rfl⟩ := List.mem_map.1 hg
    split
    · exact ⟨hm, h1, h30⟩
    · exact b4 x hx
  · rw [List.pairwise_map]
    have hne : s.dir.entries.Pairwise (fun a b => a.handle ≠ b.handle) := List.pairwise_map.1 hh
    refine (hne.and b5).imp_of_mem (fun {a b} ha hb hab => ?_)
    obtain ⟨c1, c2⟩ := hab
    by_cases hae : a.handle = e.handle <;> by_cases hbe : b.handle = e.handle
    · exact absurd (hae.trans hbe.symm) c1
    · rw [if_pos hae, if_neg hbe]
      intro c4 c5
      exact hbe (hp b hb c4.symm c5.symm)
    · rw [if_neg hae, if_pos hbe]
      intro c4 c5
      exact hae (hp a ha c4 c5)
    · rw [if_neg hae, if_neg hbe]; exact c2
  · intro l n k1 k2
    obtain ⟨a, b, c⟩ := b6 l n ((k.lane l).survey ▸ k1) k2
    refine ⟨a, b, fun g hg hl ha => ?_⟩
    obtain ⟨x, hx, rfl⟩ := List.mem_map.1 hg
    split at hl
    · rename_i hxe
      rw [if_pos hxe] at ha ⊢
      rw [hf]
      exact hn l n ((k.lane l).survey ▸ k1) k2 hl ha
    · rename_i hxe
      rw [if_neg hxe] at ha ⊢
      exact c x hx hl ha

/-- An entry that stays where it is. -/
theorem State.orderly.place {s : State} (h : s.orderly) {e f : Entry} (he : e ∈ s.dir.entries) (hl : f.lane = e.lane) (ha : f.addr = e.addr) :
    1 ≤ f.addr ∧ f.addr ≤ 30 ∧ (∀ x ∈ s.dir.entries, x.lane = f.lane → x.addr = f.addr → x.handle = e.handle)
      ∧ ∀ l n, (s.lane l).survey.naming = some n → n.stage = .assign → f.lane = l → f.addr = n.addr →
        n.kind ≠ .new ∧ e.handle = n.handle := by
  obtain ⟨b1, b2, b3, b4, b5, b6⟩ := h.bounds
  rw [hl, ha]
  refine ⟨(b4 e he).2.1, (b4 e he).2.2, fun x hx h1 h2 => ?_, fun l n k1 k2 k3 k4 => (b6 l n k1 k2).2.2 e he k3 k4⟩
  by_contra hc
  have : Std.Symm (fun a b : Entry => a.lane = b.lane → a.addr ≠ b.addr) := ⟨fun a b hab c1 c2 => hab c1.symm c2.symm⟩
  exact b5.forall hx he (fun c => hc (by rw [c])) h1 h2

/-- An entry of which nothing is left in the in-service tables. -/
theorem State.orderly.swap {s t : State} (h : s.orderly) (k : s.rests t) {e f : Entry} (hd : t.dir.entries = (s.update e f).dir.entries)
    (hf : f.handle = e.handle) (hm : f.missOk s.missLimit)
    (hp : 1 ≤ f.addr ∧ f.addr ≤ 30 ∧ (∀ x ∈ s.dir.entries, x.lane = f.lane → x.addr = f.addr → x.handle = e.handle)
      ∧ ∀ l n, (s.lane l).survey.naming = some n → n.stage = .assign → f.lane = l → f.addr = n.addr →
        n.kind ≠ .new ∧ e.handle = n.handle)
    (hi : f.attention = .idle) (hs : s.lessSlots e.handle t) : t.orderly := by
  refine ⟨?_, h.bounds.swap h.handles k hd hf hm hp.1 hp.2.1 hp.2.2.1 hp.2.2.2, ?_⟩
  · rw [hd]
    refine handles_map h.handles (fun x _ => ?_)
    split
    · rename_i hx; rw [hf, hx]
    · rfl
  obtain ⟨h1, h2, h3, h4, h5, h6, h7, h8⟩ := h.service
  have hst : ∀ l, (t.lane l).state = (s.lane l).state := fun l => (k.lane l).state
  have hd : t.dir.entries = s.dir.entries.map (fun x => if x.handle = e.handle then f else x) := hd
  have hmem : ∀ g ∈ t.dir.entries, g.attention = .idle ∨ g ∈ s.dir.entries ∧ g.handle ≠ e.handle := by
    intro g hg
    rw [hd] at hg
    obtain ⟨x, hx, rfl⟩ := List.mem_map.1 hg
    split
    · exact .inl hi
    · rename_i hne; exact .inr ⟨hx, hne⟩
  refine ⟨?_, ?_, ?_, ?_, ?_, ?_, ?_, ?_⟩
  · intro l v r x
    obtain ⟨x1, x2⟩ := (hs l v r).1 x
    obtain ⟨g, y, a, b, d⟩ := h1 l v r x1
    refine ⟨g, ?_, a, b, d⟩
    rw [hd]
    exact List.mem_map.2 ⟨g, y, if_neg (by rw [a]; exact x2)⟩
  · intro g hg x
    rcases hmem g hg with hx | ⟨hx, hne⟩
    · rw [hx] at x; cases x
    · obtain ⟨v, r, a, b⟩ := h2 g hx x
      exact ⟨v, r, (hs _ _ _).2 ⟨a, by rw [b]; exact hne⟩, b⟩
  · intro l v w r q a b
    exact h3 l v w r q ((hs _ _ _).1 a).1 ((hs _ _ _).1 b).1
  · intro g hg
    rcases hmem g hg with hx | ⟨hx, hne⟩
    · exact fun _ => hx
    · exact h4 g hx
  · intro g hg x
    rcases hmem g hg with hx | ⟨hx, hne⟩
    · exact absurd hx x
    · rw [hst]; exact h5 g hx x
  · intro l x
    rw [hst] at x
    obtain ⟨a, b, c, d⟩ := h6 l x
    exact ⟨fun v r y => a v r ((hs _ _ _).1 y).1, (k.lane l).heed.trans b, (k.lane l).idle x c d⟩
  · intro l hd x
    obtain ⟨a, b⟩ := h7 l hd ((k.lane l).heed ▸ x)
    exact ⟨a, fun r y => b r ((hs _ _ _).1 y).1⟩
  · intro l x
    rw [hst]
    exact h8 l ((k.lane l).survey ▸ x)

end Sys2Proof.Machine
end

