-- ==== Sys2Proof/Laws/Settled.lean ====
section
/-! SUPPORT. The shared operations keep the bounds of the directory and the in-service tables in order: `ordered`, one lemma for
each operation. -/

namespace Sys2Proof.Machine

/-! ### Postings and replies -/

theorem State.ordered_post (s : State) (n : Notice) : s.ordered (s.post n) := State.ordered_of rfl rfl rfl rfl

theorem State.ordered_postAll (ns : List Notice) (s : State) : s.ordered (s.postAll ns) := by
  induction ns generalizing s with
  | nil => exact .refl s
  | cons n ns ih => exact (s.ordered_post n).trans (ih _)

theorem State.ordered_replyThen (s : State) (r : Reply) (a : Option ResetKind) : s.ordered (s.replyThen r a) :=
  State.ordered_of rfl rfl rfl rfl

theorem State.ordered_ok (s : State) (q : Request) (p : List Byte) : s.ordered (s.ok q p) := s.ordered_replyThen _ _
theorem State.ordered_refuse (s : State) (q : Request) (st : Status) : s.ordered (s.refuse q st) := s.ordered_replyThen _ _
theorem State.ordered_answer (s : State) (q : Request) (st : Status) (p : List Byte) : s.ordered (s.answer q st p) :=
  s.ordered_replyThen _ _
theorem State.ordered_sendAccessReply (s : State) (r : Reply) : s.ordered (s.sendAccessReply r) := State.ordered_of rfl rfl rfl rfl
theorem State.ordered_postLane (s : State) (l : LaneId) (c : Option FaultCause) : s.ordered (s.postLane l c) := s.ordered_post _

/-- A change of a lane in nothing that the order speaks of. -/
theorem State.ordered_lane (s : State) (l : LaneId) (f : Lane → Lane) (h : (f (s.lane l)).state = (s.lane l).state
    ∧ (f (s.lane l)).survey = (s.lane l).survey ∧ (f (s.lane l)).attention.heed = (s.lane l).attention.heed
    ∧ (f (s.lane l)).attention.slots = (s.lane l).attention.slots
    ∧ (f (s.lane l)).arbiter.standing.attention = (s.lane l).arbiter.standing.attention)
    (k : (f (s.lane l)).arbiter.grant = (s.lane l).arbiter.grant ∨ (f (s.lane l)).arbiter.grant ≠ some .attention) :
    s.ordered (s.modLane l f) :=
  s.ordered_modLane l f ⟨h.1, h.2.1, h.2.2.1, fun _ a b => ⟨h.2.2.2.2.trans a, k.elim (fun x => by rw [x]; exact b) id⟩⟩ h.2.2.2.1

theorem State.ordered_writeFault (s : State) (l : LaneId) (r : FaultRecord) : s.ordered (s.writeFault l r) :=
  (s.ordered_lane l _ ⟨rfl, rfl, rfl, rfl, rfl⟩ (.inl rfl)).trans (State.ordered_postLane _ _ _)

theorem State.ordered_addClear (s : State) (e : Entry) : s.ordered (s.addClear e) := by
  unfold State.addClear
  refine s.ordered_lane _ _ ?_ (.inl rfl)
  unfold Attention.addClear
  split <;> exact ⟨rfl, rfl, rfl, rfl, rfl⟩

theorem State.ordered_leaveRound (s : State) (e : Entry) : s.ordered (s.leaveRound e) :=
  s.ordered_lane _ _ ⟨rfl, rfl, rfl, rfl, rfl⟩ (.inl rfl)

/-! ### The end of an attention -/

theorem Attention.release_get (a : Attention) (h : Nat) (v : LevelId) (r : InService) :
    (a.release h).slots.get v = some r ↔ a.slots.get v = some r ∧ r.handle ≠ h := by
  have key : ∀ x : Option InService, (match x with
      | some x => if x.handle = h then none else some x
      | none => none) = some r ↔ x = some r ∧ r.handle ≠ h := by
    intro x
    cases x with
    | none => simp
    | some x =>
      simp only [Option.some.injEq]
      constructor
      · intro hx
        split at hx
        · cases hx
        · cases hx; exact ⟨rfl, by assumption⟩
      · rintro ⟨rfl, hx⟩
        rw [if_neg hx]
  match v with
  | 0 => exact key _
  | 1 => exact key _
  | 2 => exact key _

theorem State.slot_release (s : State) (e : Entry) (l : LaneId) (v : LevelId) (r : InService) :
    (s.modLane e.lane (fun n => { n with attention := n.attention.release e.handle })).slot l v r ↔
      s.slot l v r ∧ (l = e.lane → r.handle ≠ e.handle) := by
  unfold State.slot
  rw [State.lane_modLane]
  split
  · rename_i hl
    subst hl
    rw [Attention.release_get]
    simp
  · rename_i hl
    simp [hl]

/-- The slots of an entry are on its lane. -/
theorem State.orderly.slotLane {s : State} (h : s.orderly) {e : Entry} (he : e ∈ s.dir.entries) {l v r} (hs : s.slot l v r)
    (hr : r.handle = e.handle) : l = e.lane := by
  obtain ⟨x, hx, h1, h2, _⟩ := h.service.1 l v r hs
  rw [← h.unique hx he (h1.trans hr), h2]

theorem State.lessSlots_release {s u : State} (h : s.orderly) {e : Entry} (he : e ∈ s.dir.entries) (hu : s.sameSlots u) :
    s.lessSlots e.handle (u.modLane e.lane (fun n => { n with attention := n.attention.release e.handle })) := by
  intro l v r
  rw [State.slot_release, hu l v r]
  constructor
  · rintro ⟨a, b⟩
    exact ⟨a, fun c => b (h.slotLane he a c) c⟩
  · rintro ⟨a, b⟩
    exact ⟨a, fun _ => b⟩

theorem State.lessSlots_endAttention {s u : State} (h : s.orderly) {e : Entry} (he : e ∈ s.dir.entries) (hu : s.sameSlots u)
    (w : EndReason) : s.lessSlots e.handle (u.endAttention e w) := by
  unfold State.endAttention
  split
  · exact State.lessSlots_release h he hu
  · rename_i hi
    exact State.sameSlots.less hu h he hi

theorem State.rests_release (s : State) (e : Entry) :
    s.rests (s.modLane e.lane (fun n => { n with attention := n.attention.release e.handle })) := by
  refine ⟨rfl, rfl, fun m => ?_⟩
  rw [State.lane_modLane]
  split
  · rename_i hm; subst hm; exact ⟨rfl, rfl, rfl, fun _ a b => ⟨a, b⟩⟩
  · exact .refl _

theorem State.rests_endAttention (s : State) (e : Entry) (w : EndReason) : s.rests (s.endAttention e w) := by
  unfold State.endAttention
  split
  · exact (s.rests_release e).trans (.of rfl rfl rfl)
  · exact .refl s

theorem State.endAttention_entries (s : State) (e : Entry) (w : EndReason) : (s.endAttention e w).dir.entries = s.dir.entries := by
  unfold State.endAttention
  split <;> rfl

/-- What an update and a strike off the round leave, for the order. -/
theorem State.leaveRound_rests (s : State) (e : Entry) : s.rests (s.leaveRound e) ∧ s.sameSlots (s.leaveRound e) := by
  refine ⟨⟨rfl, rfl, fun m => ?_⟩, fun m v r => ?_⟩
  · unfold State.leaveRound
    rw [State.lane_modLane]
    split
    · rename_i hm; subst hm; exact ⟨rfl, rfl, rfl, fun _ a b => ⟨a, b⟩⟩
    · exact .refl _
  · unfold State.leaveRound State.slot
    rw [State.lane_modLane]
    split
    · rename_i hm; subst hm; rfl
    · rfl

/-- An entry that stays in its place and becomes IDLE, with the end of its attention. -/
theorem State.ordered_end {s u : State} {e f : Entry} (w : EndReason) (he : e ∈ s.dir.entries) (hf : f.handle = e.handle)
    (hl : f.lane = e.lane) (ha : f.addr = e.addr) (hm : s.orderly → f.missOk s.missLimit) (hi : f.attention = .idle)
    (hu : s.rests u) (hs : s.sameSlots u) (hd : u.dir.entries = (s.update e f).dir.entries) : s.ordered (u.endAttention e w) :=
  fun h => h.swap (hu.trans (u.rests_endAttention e w)) ((u.endAttention_entries e w).trans hd) hf (hm h) (h.place he hl ha) hi
    (State.lessSlots_endAttention h he hs w)

theorem State.ordered_finishAttention {s : State} {e : Entry} (he : e ∈ s.dir.entries) : s.ordered (s.finishAttention e) := by
  unfold State.finishAttention
  refine State.ordered.trans ?_ (State.ordered_addClear _ e)
  intro h
  refine h.swap (f := { e with attention := .idle }) ((State.rests.of (s := s) (t := s.update e { e with attention := .idle }) rfl rfl rfl).trans
    (State.rests_release _ e)) rfl rfl
    (h.bounds.2.2.2.1 e he).1 (h.place he rfl rfl) rfl
    (State.lessSlots_release (u := s.update e { e with attention := .idle }) h he (fun _ _ _ => .rfl))

/-! ### The arbiter -/

theorem State.ordered_requestAttention (s : State) (l : LaneId) : s.ordered (s.requestAttention l) := by
  unfold State.requestAttention
  simp only []
  split
  · rename_i hc
    simp only [Bool.and_eq_true] at hc
    refine s.ordered_modLane l _ ⟨rfl, rfl, rfl, fun a _ _ => ?_⟩ rfl
    rw [hc.1.1.1] at a; cases a
  · exact .refl s

theorem State.ordered_endAccess (s : State) (l : LaneId) (st : Status) : s.ordered (s.endAccess l st) := by
  unfold State.endAccess
  split
  · split
    · refine (s.ordered_lane l (fun n => { n with run := none }) ⟨rfl, rfl, rfl, rfl, rfl⟩ (.inl rfl)).trans ?_
      exact State.ordered_of rfl rfl rfl rfl
    · exact .refl s
  · exact .refl s

theorem State.ordered_startTelegram (s : State) (l : LaneId) (t : Telegram) : s.ordered (s.startTelegram l t) :=
  s.ordered_lane l _ ⟨rfl, rfl, rfl, rfl, rfl⟩ (.inl rfl)

theorem State.ordered_releaseGrant (s : State) (l : LaneId) : s.ordered (s.releaseGrant l) :=
  s.ordered_lane l _ ⟨rfl, rfl, rfl, rfl, rfl⟩ (.inr (by intro h; cases h))

/-- R114: without a request of the service it is not granted. -/
theorem Arbiter.grantNext_idle {a b : Arbiter} {g : Grant} (h : a.grantNext = some (g, b)) (hs : a.standing.attention = false) :
    b.standing.attention = false ∧ b.grant ≠ some .attention := by
  unfold Arbiter.grantNext at h
  split at h
  · cases h
  · split at h
    · cases h
    · rename_i r hr
      split at h
      · cases h
      · rename_i g' q hq
        cases h
        cases r <;> simp only [Standing.serve] at hq
        · rw [hs] at hq; cases hq
        · cases h1 : a.standing.access with
          | none => rw [h1] at hq; cases hq
          | some x => rw [h1] at hq; cases hq; exact ⟨hs, by intro h; cases h⟩
        · cases h1 : a.standing.survey with
          | none => rw [h1] at hq; cases hq
          | some x => rw [h1] at hq; cases hq; exact ⟨hs, by intro h; cases h⟩
        · cases h1 : a.standing.poll with
          | none => rw [h1] at hq; cases hq
          | some x => rw [h1] at hq; cases hq; exact ⟨hs, by intro h; cases h⟩

theorem Arbiter.grantNext_grant {a b : Arbiter} {g : Grant} (h : a.grantNext = some (g, b)) : b.grant = some g := by
  unfold Arbiter.grantNext at h
  split at h
  · cases h
  · split at h
    · cases h
    · split at h
      · cases h
      · cases h; rfl

theorem State.ordered_grant {s : State} {l : LaneId} {g : Grant} {a : Arbiter} (h : (s.lane l).arbiter.grantNext = some (g, a)) :
    s.ordered (s.modLane l (fun n => { n with arbiter := a })) :=
  s.ordered_modLane l _ ⟨rfl, rfl, rfl, fun _ b _ => Arbiter.grantNext_idle h b⟩ rfl

theorem mem_levels : ∀ v : LevelId, v ∈ allLevels := by decide

/-- R138: the level of the service condition has an empty slot. -/
theorem State.serviceLevel_empty {s : State} {l : LaneId} {v : LevelId} (h : s.serviceLevel l = some v) (r : InService) :
    ¬ s.slot l v r := by
  intro hs
  unfold State.serviceLevel at h
  split at h
  · split at h
    · rename_i hall
      cases h
      have := List.all_eq_true.1 hall v (mem_levels v)
      unfold State.slot at hs
      rw [hs] at this
      simp at this
    · cases h
  · cases h

theorem State.chooseAttention_heed {s : State} {l : LaneId} {t : Telegram} {x : Heed} (h : s.chooseAttention l = some (t, some x)) :
    x.target.lane = l ∧ ∀ r, ¬ s.slot l x.level r := by
  unfold State.chooseAttention at h
  split at h
  · cases h
  · split at h
    · rename_i v hv
      split at h
      · rename_i e he
        cases h
        refine ⟨?_, State.serviceLevel_empty hv⟩
        have hm : e ∈ s.pendingOn l := by
          unfold State.chooseHeed at he
          simp only [] at he
          split at he
          · split at he
            · rename_i hf
              cases he
              exact List.mem_of_mem_filter (List.mem_of_find?_eq_some hf)
            · exact List.mem_of_mem_filter (List.mem_of_mem_head? he)
          · exact List.mem_of_mem_filter (List.mem_of_mem_head? he)
          · exact List.mem_of_mem_filter (List.mem_of_mem_head? he)
        unfold State.pendingOn State.onLane at hm
        have := (List.mem_filter.1 (List.mem_filter.1 hm).1).2
        exact of_decide_eq_true this
      · cases h
    · split at h <;> cases h

/-- R139: the heed in flight of a lane is set or cleared. -/
theorem State.ordered_heed {s : State} {l : LaneId} {x : Option Heed} (h : s.orderly → ∀ y, x = some y →
    (s.lane l).state.serving = true ∧ y.target.lane = l ∧ ∀ r, ¬ s.slot l y.level r) :
    s.ordered (s.modLane l (fun n => { n with attention := { n.attention with heed := x } })) := by
  intro k
  have hslot : ∀ m v r, (s.modLane l (fun n => { n with attention := { n.attention with heed := x } })).slot m v r ↔ s.slot m v r := by
    intro m v r
    unfold State.slot
    rw [State.lane_modLane]
    split
    · rename_i hm; subst hm; rfl
    · rfl
  have hlane : ∀ m, ((s.modLane l (fun n => { n with attention := { n.attention with heed := x } })).lane m).state = (s.lane m).state
      ∧ ((s.modLane l (fun n => { n with attention := { n.attention with heed := x } })).lane m).survey = (s.lane m).survey
      ∧ ((s.modLane l (fun n => { n with attention := { n.attention with heed := x } })).lane m).arbiter = (s.lane m).arbiter
      ∧ ((s.modLane l (fun n => { n with attention := { n.attention with heed := x } })).lane m).attention.heed
        = if m = l then x else (s.lane m).attention.heed := by
    intro m
    rw [State.lane_modLane]
    split
    · rename_i hm; subst hm; exact ⟨rfl, rfl, rfl, rfl⟩
    · exact ⟨rfl, rfl, rfl, rfl⟩
  obtain ⟨b1, b2, b3, b4, b5, b6⟩ := k.bounds
  obtain ⟨h1, h2, h3, h4, h5, h6, h7, h8⟩ := k.service
  refine ⟨k.handles, ⟨b1, b2, b3, b4, b5, fun m n k1 => b6 m n ((hlane m).2.1 ▸ k1)⟩, ?_⟩
  refine ⟨?_, ?_, ?_, h4, ?_, ?_, ?_, ?_⟩
  · exact fun m v r a => h1 m v r ((hslot m v r).1 a)
  · intro e he a
    obtain ⟨v, r, b, c⟩ := h2 e he a
    exact ⟨v, r, (hslot _ v r).2 b, c⟩
  · exact fun m v w r q a b => h3 m v w r q ((hslot _ _ _).1 a) ((hslot _ _ _).1 b)
  · intro e he a
    rw [(hlane _).1]; exact h5 e he a
  · intro m a
    rw [(hlane m).1] at a
    obtain ⟨c1, c2, c3, c4⟩ := h6 m a
    rw [(hlane m).2.2.1, (hlane m).2.2.2]
    refine ⟨fun v r b => c1 v r ((hslot m v r).1 b), ?_, c3, c4⟩
    split
    · rename_i hm
      subst hm
      cases hx : x with
      | none => rfl
      | some y => have := (h k y hx).1; rw [a] at this; cases this
    · exact c2
  · intro m y a
    rw [(hlane m).2.2.2] at a
    split at a
    · rename_i hm
      subst hm
      obtain ⟨_, c1, c2⟩ := h k y a
      exact ⟨c1, fun r b => c2 r ((hslot _ _ _).1 b)⟩
    · obtain ⟨c1, c2⟩ := h7 m y a
      exact ⟨c1, fun r b => c2 r ((hslot _ _ _).1 b)⟩
  · intro m a
    rw [(hlane m).1]; exact h8 m ((hlane m).2.1 ▸ a)

theorem State.ordered_arbitrateRounds (k : Nat) (l : LaneId) (s : State) : s.ordered (arbitrateRounds k l s) := by
  induction k generalizing s with
  | zero => exact .refl s
  | succ k ih =>
    unfold arbitrateRounds
    simp only []
    have h1 := s.ordered_requestAttention l
    generalize s.requestAttention l = u at *
    split
    · exact h1
    · rename_i g a hg
      have h2 := h1.trans (State.ordered_grant hg)
      have hgr : ((u.modLane l (fun n => { n with arbiter := a })).lane l).arbiter.grant = some g := by
        rw [State.lane_modLane_self]; exact Arbiter.grantNext_grant hg
      generalize u.modLane l (fun n => { n with arbiter := a }) = v at *
      split
      · exact h2.trans (State.ordered_startTelegram _ _ _)
      · exact h2.trans (State.ordered_startTelegram _ _ _)
      · split
        · split
          · exact h2.trans (State.ordered_startTelegram _ _ _)
          · exact ((h2.trans (State.ordered_endAccess _ _ _)).trans (State.ordered_releaseGrant _ _)).trans (ih _)
        · exact (h2.trans (State.ordered_releaseGrant _ _)).trans (ih _)
      · split
        · rename_i t x hx
          refine (h2.trans (State.ordered_heed (fun ho y hy => ?_))).trans (State.ordered_startTelegram _ _ _)
          subst hy
          refine ⟨?_, State.chooseAttention_heed hx⟩
          by_contra hs
          exact (ho.service.2.2.2.2.2.1 l (by simpa using hs)).2.2.2 hgr
        · exact (h2.trans (State.ordered_releaseGrant _ _)).trans (ih _)

theorem State.ordered_arbitrate (s : State) (l : LaneId) : s.ordered (s.arbitrate l) := State.ordered_arbitrateRounds _ l s

theorem State.ordered_arbitrateAll (s : State) : s.ordered s.arbitrateAll := State.ordered_foldl _ State.ordered_arbitrate _ s

/-! ### The Resolver -/

theorem State.ordered_refresh (s : State) (b) : s.ordered (s.refresh b).1 := by
  unfold State.refresh
  simp only []
  split
  · exact State.ordered_of rfl rfl rfl rfl
  · exact State.ordered_of rfl rfl rfl rfl

theorem State.ordered_recomputeFrom (s : State) (b) : s.ordered (s.recomputeFrom b) :=
  (s.ordered_refresh b).trans (State.ordered_postAll _ _)

theorem State.ordered_recompute (s : State) : s.ordered s.recompute := by
  unfold State.recompute
  split
  · exact s.ordered_recomputeFrom _
  · exact .refl s

theorem State.ordered_recomputeLater (s : State) (due : List Notice) : s.ordered (s.recomputeLater due).1 := by
  unfold State.recomputeLater
  split
  · exact s.ordered_refresh _
  · exact .refl s

/-- An entry that only changes in what the order does not speak of. -/
theorem State.fits.of {s : State} {e f : Entry} (h1 : f.handle = e.handle) (h2 : f.lane = e.lane) (h3 : f.attention = e.attention)
    (h4 : f.presence = .lost ∨ f.override = .forcedAbsent → e.presence = .lost ∨ e.override = .forcedAbsent) : s.fits e f :=
  ⟨h1, h2, by rw [h3], fun a b => h3.trans (a (h4 b)), fun a b => a (h3 ▸ b)⟩

/-- R150: an entry that is given a binding fits. -/
theorem State.fits_bindTo (s : State) (e : Entry) (b : Option Binding) : s.fits e (e.bindTo b) := by
  unfold Entry.bindTo
  refine ⟨rfl, rfl, ?_, ?_, ?_⟩
  · simp only []
    split
    · rename_i h; rw [h.1]; decide
    · exact .rfl
  · intro a b
    simp only []
    split
    · rfl
    · exact a b
  · intro a b
    refine a (fun c => b ?_)
    simp only []
    split
    · rfl
    · exact c

theorem State.ordered_writeBindings (s : State) (f : Entry → Option Binding) : s.ordered (s.writeBindings f) := by
  unfold State.writeBindings
  simp only []
  refine State.ordered.trans ?_ (State.ordered_foldl _ State.ordered_addClear _ _)
  intro h
  exact h.of (.of rfl rfl rfl) (fun _ _ _ => .rfl) (fun e => e.bindTo (f e)) rfl
    (fun e _ => ⟨s.fits_bindTo e _, rfl, id⟩)

theorem State.ordered_rebind (s : State) : s.ordered s.rebind := by
  unfold State.rebind
  simp only []
  refine State.ordered.trans ?_ (State.ordered_writeBindings _ _)
  exact State.ordered_of rfl rfl rfl rfl

theorem State.ordered_fullResolution (s : State) : s.ordered s.fullResolution :=
  (s.ordered_rebind.trans (State.ordered_recomputeFrom _ _)).trans (State.ordered_arbitrateAll _)

theorem State.ordered_initialResolution (s : State) : s.ordered s.initialResolution := by
  unfold State.initialResolution
  simp only []
  refine State.ordered.trans (t := { s with resolver := { s.resolver with phase := .resolved } }) ?_ ?_
  · exact State.ordered_of rfl rfl rfl rfl
  · exact ((State.ordered_rebind _).trans (State.ordered_recomputeFrom _ _)).trans (State.ordered_arbitrateAll _)

theorem State.ordered_reportFinished (s : State) (l : LaneId) : s.ordered (s.reportFinished l) := by
  unfold State.reportFinished
  simp only []
  split
  · exact .refl s
  · have h : s.ordered { s with resolver := { s.resolver with finished := s.resolver.finished.set l true } } :=
      State.ordered_of rfl rfl rfl rfl
    split
    · exact h.trans (State.ordered_initialResolution _)
    · exact h

theorem State.ordered_resolveIfResolved (s : State) : s.ordered s.resolveIfResolved := by
  unfold State.resolveIfResolved
  split
  · exact s.ordered_fullResolution
  · exact .refl s

theorem State.mem_of_entry? {s : State} {h : Nat} {e : Entry} (x : s.entry? h = some e) : e ∈ s.dir.entries :=
  List.mem_of_find?_eq_some x

theorem State.mem_of_target? {s : State} {t : Target} {e : Entry} (x : s.target? t = some e) : e ∈ s.dir.entries :=
  List.mem_of_find?_eq_some x

theorem State.mem_of_onLaneAt? {s : State} {l : LaneId} {a : Nat} {e : Entry} (x : s.onLaneAt? l a = some e) :
    e ∈ s.dir.entries ∧ e.lane = l := by
  refine ⟨List.mem_of_find?_eq_some x, ?_⟩
  have := List.find?_some x
  simp only [Bool.and_eq_true, decide_eq_true_eq] at this
  exact this.1

theorem State.ordered_takeReport (s : State) (r : Report) : s.ordered (s.takeReport r) := by
  unfold State.takeReport
  split
  · split
    · exact s.ordered_fullResolution
    · unfold State.incremental
      split
      · rename_i e he
        split
        · split
          · exact (State.ordered_update (State.mem_of_entry? he) (s.fits_bindTo e _) rfl (fun _ => id)).trans
              (State.ordered_recompute _)
          · exact s.ordered_recompute
        · exact s.ordered_recompute
      · exact s.ordered_recompute
  · exact .refl s

/-! ### Evidence -/

theorem State.ordered_reportPresence (s : State) (old new : Entry) : s.ordered (s.reportPresence old new) := by
  unfold State.reportPresence
  split
  · exact s.ordered_recompute
  · exact .refl s

theorem State.ordered_postFault (s : State) (old new : Entry) : s.ordered (s.postFault old new) := by
  unfold State.postFault
  split
  · exact s.ordered_post _
  · exact .refl s

/-- R77: an entry that is PRESENT with miss count 0. -/
theorem Entry.missOk_present {e : Entry} {k : Nat} (h : 1 ≤ k) (hp : e.presence = .present) (hm : e.miss = 0) : e.missOk k := by
  unfold Entry.missOk
  rw [hp, hm]
  refine ⟨Nat.zero_le _, ⟨(by intro h; cases h), (by intro h; omega)⟩, ⟨fun _ => rfl, fun _ => rfl⟩⟩

/-- R100: an entry that answered. -/
theorem State.ordered_answered {s : State} {e : Entry} (he : e ∈ s.dir.entries) (f : Option Bool) :
    s.ordered (s.update e (e.answered f)) := by
  refine State.ordered_update he (State.fits.of rfl rfl rfl ?_) rfl (fun h _ => Entry.missOk_present h rfl rfl)
  rintro (h | h)
  · cases h
  · exact .inr h

theorem State.ordered_applyAnswer (s : State) (t : Target) (f : Option Bool) : s.ordered (s.applyAnswer t f) := by
  unfold State.applyAnswer
  split
  · rename_i e he
    split
    · simp only []
      have h := State.ordered_answered (State.mem_of_target? he) f
      refine State.ordered.trans ?_ (State.ordered_reportPresence _ _ _)
      refine State.ordered.trans ?_ (State.ordered_postFault _ _ _)
      split
      · exact h.trans (State.ordered_post _ _)
      · exact h
    · exact .refl s
  · exact .refl s

theorem Entry.missed_lost (e : Entry) (k : Nat) : (e.missed k).handle = e.handle ∧ (e.missed k).lane = e.lane
    ∧ (e.missed k).addr = e.addr ∧ (e.missed k).override = e.override
    ∧ ((e.missed k).presence = .lost → (e.missed k).attention = .idle)
    ∧ ((e.missed k).presence ≠ .lost → (e.missed k).attention = e.attention)
    ∧ (1 ≤ k → (e.missed k).missOk k) := by
  unfold Entry.missed
  split
  · rename_i h
    refine ⟨rfl, rfl, rfl, rfl, (by intro h; cases h), fun _ => rfl, fun _ => ?_⟩
    unfold Entry.missOk
    simp only []
    refine ⟨by omega, ⟨(by intro h; cases h), (by intro h; omega)⟩, ⟨(by intro h; cases h), (by intro h; omega)⟩⟩
  · refine ⟨rfl, rfl, rfl, rfl, fun _ => rfl, (fun h => absurd rfl h), fun hk => ?_⟩
    unfold Entry.missOk
    exact ⟨Nat.le_refl _, ⟨fun _ => rfl, fun _ => rfl⟩, ⟨(by intro h; cases h), (by intro h; change k = 0 at h; omega)⟩⟩

theorem State.ordered_applyMiss (s : State) (t : Target) : s.ordered (s.applyMiss t) := by
  unfold State.applyMiss
  split
  · rename_i e he
    split
    · simp only []
      obtain ⟨m1, m2, m3, m4, m5, m6, m7⟩ := e.missed_lost s.missLimit
      refine State.ordered.trans ?_ (State.ordered_reportPresence _ _ _)
      split
      · rename_i hl
        obtain ⟨r1, r2⟩ := State.leaveRound_rests (s.update e (e.missed s.missLimit)) e
        exact State.ordered_end .lost (State.mem_of_target? he) m1 m2 m3 (fun h => m7 h.bounds.1) (m5 hl)
          (((State.rests.of (s := s) (t := s.update e (e.missed s.missLimit)) rfl rfl rfl).trans r1).trans (.of (t := State.post _ _) rfl rfl rfl)) r2 rfl
      · rename_i hl
        have h : s.ordered (s.update e (e.missed s.missLimit)) := by
          refine State.ordered_update (State.mem_of_target? he) (State.fits.of m1 m2 (m6 hl) ?_) m3 (fun k _ => m7 k)
          rintro (h | h)
          · exact absurd h hl
          · exact .inr (m4 ▸ h)
        split
        · exact h.trans (State.ordered_post _ _)
        · exact h
    · exact .refl s
  · exact .refl s

theorem State.ordered_evidence (s : State) (t : Target) (o : TelegramOutcome) : s.ordered (s.evidence t o) := by
  unfold State.evidence
  split
  · exact s.ordered_applyAnswer _ _
  · exact s.ordered_applyAnswer _ _
  · exact s.ordered_applyMiss _
  · exact .refl s

/-! ### The poller -/

theorem State.ordered_pollNext (s : State) (l : LaneId) : s.ordered (s.pollNext l) := by
  unfold State.pollNext
  split
  · exact s.ordered_lane _ _ ⟨rfl, rfl, rfl, rfl, rfl⟩ (.inl rfl)
  · exact s.ordered_lane _ _ ⟨rfl, rfl, rfl, rfl, rfl⟩ (.inl rfl)

theorem State.ordered_pollRound (s : State) (l : LaneId) : s.ordered (s.pollRound l) := by
  unfold State.pollRound
  exact (s.ordered_lane _ _ ⟨rfl, rfl, rfl, rfl, rfl⟩ (.inl rfl)).trans (State.ordered_pollNext _ _)

theorem State.ordered_pollOutcome (s : State) (l : LaneId) (t : Target) (o : TelegramOutcome) : s.ordered (s.pollOutcome l t o) := by
  unfold State.pollOutcome
  simp only []
  refine State.ordered.trans ?_ (State.ordered_pollNext _ _)
  refine State.ordered.trans ?_ (State.ordered_lane _ _ _ ⟨rfl, rfl, rfl, rfl, rfl⟩ (.inl rfl))
  split
  · exact s.ordered_applyAnswer _ _
  · exact s.ordered_applyMiss _
  · exact .refl s

/-! ### Object access -/

theorem State.ordered_requestAccess (s : State) (l : LaneId) (b : Bool) : s.ordered (s.requestAccess l b) :=
  s.ordered_lane _ _ ⟨rfl, rfl, rfl, rfl, rfl⟩ (.inl rfl)

theorem State.ordered_startAccess (s : State) (q : Request) (e : Entry) (r : Run) : s.ordered (s.startAccess q e r) := by
  unfold State.startAccess
  simp only []
  refine State.ordered.trans ?_ (State.ordered_arbitrate _ _)
  refine State.ordered.trans (t := (s.modLane e.lane (fun n => { n with run := some r })).requestAccess e.lane r.block) ?_
    (State.ordered_of rfl rfl rfl rfl)
  exact (s.ordered_lane _ _ ⟨rfl, rfl, rfl, rfl, rfl⟩ (.inl rfl)).trans (State.ordered_requestAccess _ _ _)

theorem State.ordered_abandonRun (s : State) (l : LaneId) : s.ordered (s.modLane l Lane.abandonRun) := by
  refine s.ordered_lane l _ ?_ ?_
  · unfold Lane.abandonRun
    split <;> exact ⟨rfl, rfl, rfl, rfl, rfl⟩
  · unfold Lane.abandonRun
    split
    · exact .inl rfl
    · rcases h : (s.lane l).arbiter.grant with _ | g
      · exact .inl rfl
      · cases g
        · exact .inl rfl
        · exact .inr (by simp)
        · exact .inl rfl
        · exact .inl rfl

theorem State.ordered_accessOutcome (s : State) (l : LaneId) (o : TelegramOutcome) : s.ordered (s.accessOutcome l o) := by
  unfold State.accessOutcome
  split
  · exact .refl s
  · rename_i r hr
    simp only []
    have h1 := s.ordered_evidence r.target o
    generalize s.evidence r.target o = t at *
    have hmod : ∀ x : Option Run, t.ordered (t.modLane l (fun n => { n with run := x })) := fun x =>
      t.ordered_lane _ _ ⟨rfl, rfl, rfl, rfl, rfl⟩ (.inl rfl)
    split
    · exact h1.trans (hmod _)
    · split
      · rename_i a
        refine h1.trans ?_
        unfold State.continueRun
        simp only []
        have c := hmod (some (r.advance a))
        split
        · exact c.trans (State.ordered_endAccess _ _ _)
        · split
          · exact c.trans (State.ordered_requestAccess _ _ _)
          · split
            · exact c.trans (State.ordered_startTelegram _ _ _)
            · exact c.trans (State.ordered_endAccess _ _ _)
      · exact h1.trans (State.ordered_endAccess _ _ _)
      · exact h1.trans (State.ordered_endAccess _ _ _)
      · exact h1

/-! ### The outcomes of the Attention Service's telegrams -/

/-- R131: the service's grant is held by a lane whose service is active. -/
theorem State.orderly.serves {s : State} (h : s.orderly) {l : LaneId} (k : (s.lane l).arbiter.grant = some .attention) :
    (s.lane l).state.serving = true := by
  by_contra hs
  exact (h.service.2.2.2.2.2.1 l (by simpa using hs)).2.2.2 k

theorem State.ordered_classifyHit (s : State) (l : LaneId) (k : Nat) (hs : (s.lane l).state.serving = true) :
    s.ordered (s.classifyHit l k) := by
  unfold State.classifyHit
  split
  · unfold State.strayHit
    refine (s.ordered_writeFault _ _).trans (State.ordered_lane _ _ _ ?_ (.inl rfl))
    unfold Attention.addClear
    split <;> exact ⟨rfl, rfl, rfl, rfl, rfl⟩
  · rename_i e he
    obtain ⟨hm, hl⟩ := State.mem_of_onLaneAt? he
    split
    · exact .refl s
    · exact .refl s
    · rename_i hi
      split
      · unfold State.discardHit
        refine State.ordered.trans ?_ (State.ordered_addClear _ _)
        exact State.ordered_update hm (State.fits.of rfl rfl rfl id) rfl (fun _ => id)
      · rename_i hd
        refine State.ordered_update hm ⟨rfl, rfl, ?_, ?_, ?_⟩ rfl (fun _ => id)
        · rw [hi]; simp
        · intro _ hx
          unfold Entry.hitDiscarded at hd
          rcases hx with hx | hx
          · rw [show e.presence = .lost from hx] at hd; simp at hd
          · rw [show e.override = .forcedAbsent from hx] at hd; simp at hd
        · intro _ _; rw [hl]; exact hs

theorem State.ordered_rollcall (l : LaneId) (ks : List Nat) (s : State) (hs : (s.lane l).state.serving = true) :
    s.ordered (ks.foldl (fun t k => t.classifyHit l k) s) := by
  induction ks generalizing s with
  | nil => exact .refl s
  | cons k ks ih =>
    refine (s.ordered_classifyHit l k hs).trans (ih _ ?_)
    rw [((s.calm_classifyHit l k).lane l).state]; exact hs

theorem State.ordered_heedEnds (s : State) (l : LaneId) :
    s.ordered (s.modLane l (fun n => { n with attention := { n.attention with heed := none } })) :=
  State.ordered_heed (fun _ y hy => by cases hy)

/-- R141: an entry of the pending set that becomes IDLE. -/
theorem State.ordered_drop {s : State} {e f : Entry} (he : e ∈ s.dir.entries) (hp : e.attention = .pending)
    (hf : f = { e with attention := .idle }) : s.ordered (s.update e f) := by
  subst hf
  refine State.ordered_update he ⟨rfl, rfl, ?_, fun _ _ => rfl, fun _ h => absurd rfl h⟩ rfl (fun _ => id)
  rw [hp]; simp

theorem State.heeded?_pending {s : State} {h : Heed} {e : Entry} (x : s.heeded? h = some e) :
    e ∈ s.dir.entries ∧ e.attention = .pending ∧ e.lane = h.target.lane := by
  unfold State.heeded? at x
  split at x
  · rename_i y hy
    split at x
    · rename_i hp
      cases x
      refine ⟨State.mem_of_target? hy, hp, ?_⟩
      have := List.find?_some hy
      unfold Entry.isTarget at this
      simp only [Bool.and_eq_true, decide_eq_true_eq] at this
      exact this.1.1.2
    · cases x
  · cases x

theorem Three.get_set {α : Type} (f : Three α) (v w : LevelId) (x : α) : (f.set v x).get w = if w = v then x else f.get w := by
  fin_cases v <;> fin_cases w <;> rfl

/-- R140: an entry of the pending set enters service in an empty slot, and the heed is no longer in flight. -/
theorem State.ordered_enter {s t : State} {l : LaneId} {v : LevelId} {e : Entry} {r : InService} (he : e ∈ s.dir.entries)
    (hp : e.attention = .pending) (hl : e.lane = l) (hr : r.handle = e.handle) (hv : ∀ q, ¬ s.slot l v q)
    (hm : t.mate = s.mate) (hk : t.missLimit = s.missLimit) (hd : t.dir.entries = (s.update e { e with attention := .inService }).dir.entries)
    (hn : ∀ m, m ≠ l → t.lane m = s.lane m)
    (ht : (t.lane l).state = (s.lane l).state ∧ (t.lane l).survey = (s.lane l).survey ∧ (t.lane l).attention.heed = none
      ∧ (t.lane l).arbiter = (s.lane l).arbiter ∧ (t.lane l).attention.slots = (s.lane l).attention.slots.set v (some r)) :
    s.ordered t := by
  intro h
  obtain ⟨b1, b2, b3, b4, b5, b6⟩ := h.bounds
  obtain ⟨h1, h2, h3, h4, h5, h6, h7, h8⟩ := h.service
  have hd : t.dir.entries = s.dir.entries.map (fun x => if x.handle = e.handle then { e with attention := .inService } else x) := hd
  have hst : ∀ m, (t.lane m).state = (s.lane m).state := by
    intro m; by_cases hm : m = l
    · rw [hm]; exact ht.1
    · rw [hn m hm]
  have hsv : ∀ m, (t.lane m).survey = (s.lane m).survey := by
    intro m; by_cases hm : m = l
    · rw [hm]; exact ht.2.1
    · rw [hn m hm]
  have hslot : ∀ m w q, t.slot m w q ↔ (m = l ∧ w = v ∧ q = r) ∨ s.slot m w q := by
    intro m w q
    unfold State.slot
    by_cases hml : m = l
    · subst hml
      rw [ht.2.2.2.2, Three.get_set]
      split
      · rename_i hw
        subst hw
        constructor
        · intro x; cases x; exact .inl ⟨rfl, rfl, rfl⟩
        · rintro (⟨_, _, rfl⟩ | x)
          · rfl
          · exact absurd x (hv q)
      · rename_i hw
        simp [hw]
    · rw [hn m hml]
      simp [hml]
  have hmem : ∀ f ∈ t.dir.entries, f = { e with attention := .inService } ∨ f ∈ s.dir.entries ∧ f.handle ≠ e.handle := by
    intro f hf
    rw [hd] at hf
    obtain ⟨x, hx, rfl⟩ := List.mem_map.1 hf
    split
    · exact .inl rfl
    · rename_i hne; exact .inr ⟨hx, hne⟩
  have hnew : { e with attention := .inService } ∈ t.dir.entries := by
    rw [hd]; exact List.mem_map.2 ⟨e, he, if_pos rfl⟩
  have hold : ∀ x ∈ s.dir.entries, x.handle ≠ e.handle → x ∈ t.dir.entries := by
    intro x hx hne
    rw [hd]; exact List.mem_map.2 ⟨x, hx, if_neg hne⟩
  have hrest : s.rests { s with dir := t.dir } := .of rfl rfl rfl
  have hb : State.boundsOk { s with dir := t.dir } := by
    refine h.bounds.of hrest.missLimit hrest.session hrest.naming (fun x => if x.handle = e.handle then { e with attention := .inService } else x) hd (fun x hx => ?_)
    split
    · rename_i hh
      have := h.unique hx he hh
      subst this
      exact ⟨rfl, rfl, rfl, id⟩
    · exact ⟨rfl, rfl, rfl, id⟩
  refine ⟨?_, ?_, ?_⟩
  · rw [hd]
    refine handles_map h.handles (fun x _ => ?_)
    split
    · rename_i hx; exact hx.symm
    · rfl
  · obtain ⟨c1, c2, c3, c4, c5, c6⟩ := hb
    refine ⟨?_, ?_, ?_, ?_, c5, fun m n k1 => c6 m n (hsv m ▸ k1)⟩
    · rw [hk]; exact c1
    · rw [hk]; exact c2
    · rw [hm]; exact c3
    · rw [hk]; exact c4
  have hpe : e.presence ≠ .lost ∧ e.override ≠ .forcedAbsent := by
    constructor
    · intro c
      have := h4 e he (.inl c); rw [hp] at this; cases this
    · intro c
      have := h4 e he (.inr c); rw [hp] at this; cases this
  have hserv : (s.lane l).state.serving = true := by
    have := h5 e he (by rw [hp]; decide)
    rw [hl] at this; exact this
  refine ⟨?_, ?_, ?_, ?_, ?_, ?_, ?_, ?_⟩
  · intro m w q x
    rcases (hslot m w q).1 x with ⟨rfl, rfl, rfl⟩ | x
    · exact ⟨_, hnew, hr.symm, hl, rfl⟩
    · obtain ⟨f, hf, a, b, c⟩ := h1 m w q x
      refine ⟨f, hold f hf (fun d => ?_), a, b, c⟩
      rw [h.unique hf he d, hp] at c; cases c
  · intro f hf x
    rcases hmem f hf with rfl | ⟨hf, hne⟩
    · exact ⟨v, r, (hslot _ _ _).2 (.inl ⟨hl, rfl, rfl⟩), hr⟩
    · obtain ⟨w, q, a, b⟩ := h2 f hf x
      exact ⟨w, q, (hslot _ _ _).2 (.inr a), b⟩
  · intro m w u q p x y k
    have hno : ∀ m w q, s.slot m w q → q.handle ≠ e.handle := fun m w q a => h.noSlot he (by rw [hp]; decide) a
    rcases (hslot m w q).1 x with ⟨rfl, rfl, rfl⟩ | x <;> rcases (hslot _ u p).1 y with ⟨y1, rfl, rfl⟩ | y
    · rfl
    · exact absurd (k.symm.trans hr) (hno _ _ _ y)
    · exact absurd (k.trans hr) (hno _ _ _ x)
    · exact h3 m w u q p x y k
  · intro f hf x
    rcases hmem f hf with rfl | ⟨hf, hne⟩
    · exact absurd x (by rintro (c | c); exacts [hpe.1 c, hpe.2 c])
    · exact h4 f hf x
  · intro f hf x
    rw [hst]
    rcases hmem f hf with rfl | ⟨hf, hne⟩
    · change (s.lane e.lane).state.serving = true
      rw [hl]; exact hserv
    · exact h5 f hf x
  · intro m x
    rw [hst] at x
    have hml : m ≠ l := by intro c; rw [c, hserv] at x; cases x
    rw [hn m hml]
    obtain ⟨a, b, c, d⟩ := h6 m x
    refine ⟨fun w q y => ?_, b, c, d⟩
    rcases (hslot m w q).1 y with ⟨z, _⟩ | y
    · exact hml z
    · exact a w q y
  · intro m y x
    by_cases hml : m = l
    · subst hml; rw [ht.2.2.1] at x; cases x
    · rw [hn m hml] at x
      obtain ⟨a, b⟩ := h7 m y x
      refine ⟨a, fun q z => ?_⟩
      rcases (hslot m _ q).1 z with ⟨z, _⟩ | z
      · exact hml z
      · exact b q z
  · intro m x
    rw [hst]; rw [hsv] at x; exact h8 m x

theorem State.ordered_heedCause {s : State} {l : LaneId} {h : Heed} (hh : (s.lane l).attention.heed = some h) (c : Byte)
    (data : List Byte) :
    s.ordered ((s.heedCause l h c data).modLane l (fun n => { n with attention := { n.attention with heed := none } })) := by
  unfold State.heedCause
  simp only []
  have h1 := s.ordered_applyAnswer h.target none
  have hl := (s.onlyNews_applyAnswer h.target none).lane l
  generalize s.applyAnswer h.target none = u at *
  intro k
  obtain ⟨a, b⟩ := k.service.2.2.2.2.2.2.1 l h hh
  have ku := h1 k
  have hv : ∀ q, ¬ u.slot l h.level q := fun q x => b q (by unfold State.slot at *; rw [← hl]; exact x)
  split
  · rename_i e he
    obtain ⟨e1, e2, e3⟩ := State.heeded?_pending he
    refine State.ordered_enter (r := { handle := e.handle, deadline := u.attnDeadline }) e1 e2 (e3.trans a) rfl hv rfl rfl rfl
      (fun m hm => ?_) ?_ ku
    · rw [State.lane_modLane_ne _ _ _ _ hm]
      have : ∀ n x, ((State.modLane (u.update e { e with attention := .inService }) l n).post x).lane m = u.lane m := fun n x =>
        State.lane_modLane_ne (u.update e _) l m n hm
      exact this _ _
    · rw [State.lane_modLane_self]
      have : ∀ n x, ((State.modLane (u.update e { e with attention := .inService }) l n).post x).lane l = n (u.lane l) := fun n x =>
        State.lane_modLane_self (u.update e _) l n
      rw [this]
      exact ⟨rfl, rfl, rfl, rfl, rfl⟩
  · exact State.ordered_heedEnds u l ku

theorem State.ordered_heedNothing (s : State) (l : LaneId) (h : Heed) : s.ordered (s.heedNothing l h) := by
  unfold State.heedNothing
  simp only []
  refine (s.ordered_applyAnswer h.target none).trans ?_
  split
  · rename_i e he
    obtain ⟨e1, e2, _⟩ := State.heeded?_pending he
    exact (State.ordered_drop e1 e2 rfl).trans (State.ordered_lane _ _ _ ⟨rfl, rfl, rfl, rfl, rfl⟩ (.inl rfl))
  · exact .refl _

theorem State.ordered_heedSilent (s : State) (h : Heed) : s.ordered (s.heedSilent h) := by
  unfold State.heedSilent
  simp only []
  refine State.ordered.trans ?_ (State.ordered_applyMiss _ _)
  split
  · rename_i e he
    obtain ⟨e1, e2, _⟩ := State.heeded?_pending he
    exact State.ordered_drop e1 e2 rfl
  · exact .refl _

theorem State.ordered_heedOutcome (s : State) (l : LaneId) (o : TelegramOutcome) : s.ordered (s.heedOutcome l o) := by
  unfold State.heedOutcome
  split
  · exact .refl s
  · rename_i h hh
    simp only []
    split
    · split
      · exact (s.ordered_heedNothing l h).trans (State.ordered_heedEnds _ _)
      · exact State.ordered_heedCause hh _ _
    · exact (s.ordered_heedSilent h).trans (State.ordered_heedEnds _ _)
    · exact State.ordered_heedEnds _ _

theorem State.ordered_attentionOutcome (s : State) (l : LaneId) (t : Telegram) (o : TelegramOutcome)
    (hg : (s.lane l).arbiter.grant = some .attention) : s.ordered (s.attentionOutcome l t o) := by
  unfold State.attentionOutcome
  split
  · unfold State.rollcallOutcome
    refine State.ordered.trans (fun h => ?_) (State.ordered_lane _ _ _ ⟨rfl, rfl, rfl, rfl, rfl⟩ (.inl rfl))
    exact State.ordered_rollcall l _ s (h.serves hg) h
  · unfold State.clearOutcome
    split
    · exact .refl s
    · simp only []
      refine State.ordered.trans ?_ (State.ordered_lane _ _ _ ⟨rfl, rfl, rfl, rfl, rfl⟩ (.inl rfl))
      split
      · exact s.ordered_evidence _ _
      · exact .refl s
  · exact s.ordered_heedOutcome _ _
  · exact .refl s

theorem State.ordered_expireSlot (s : State) (l : LaneId) (r : InService) : s.ordered (s.expireSlot l r) := by
  unfold State.expireSlot
  split
  · rename_i e he
    exact ((State.ordered_finishAttention (State.mem_of_entry? he)).trans (State.ordered_post _ _)).trans (State.ordered_arbitrate _ _)
  · exact .refl s

/-! ### OVERRIDE and ATTN_MASK -/

theorem ordered_overrideToAuto {e : Entry} {s : State} (he : e ∈ s.dir.entries) : s.ordered (overrideToAuto e s) := by
  refine State.ordered_update he (State.fits.of rfl rfl rfl ?_) rfl (fun _ => id)
  rintro (h | h)
  · exact .inl h
  · cases h

theorem ordered_overrideToPresent {e : Entry} {s : State} (he : e ∈ s.dir.entries) : s.ordered (overrideToPresent e s) := by
  unfold overrideToPresent
  simp only []
  refine State.ordered.trans ?_ (State.ordered_reportPresence _ _ _)
  have : s.ordered ((s.update e { e with override := .forcedPresent, presence := .present, miss := 0 }).leaveRound e) := by
    refine State.ordered.trans (State.ordered_update (new := { e with override := .forcedPresent, presence := .present, miss := 0 }) he (State.fits.of rfl rfl rfl ?_) rfl
      (fun h _ => Entry.missOk_present h rfl rfl)) (State.ordered_leaveRound _ _)
    rintro (h | h) <;> cases h
  exact ordered_ite (this.trans (State.ordered_post _ _)) this

theorem ordered_overrideToAbsent {e : Entry} {s : State} (he : e ∈ s.dir.entries) : s.ordered (overrideToAbsent e s) := by
  unfold overrideToAbsent
  refine State.ordered.trans ?_ (State.ordered_arbitrate _ _)
  obtain ⟨r1, r2⟩ := State.leaveRound_rests (s.update e { e with override := .forcedAbsent, attention := .idle }) e
  exact State.ordered_end (f := { e with override := .forcedAbsent, attention := .idle }) .isolated he rfl rfl rfl
    (fun h => (h.bounds.2.2.2.1 e he).1) rfl
    ((State.rests.of (s := s) (t := s.update e { e with override := .forcedAbsent, attention := .idle }) rfl rfl rfl).trans r1) r2 rfl

theorem ordered_maskTo {s : State} {e : Entry} (he : e ∈ s.dir.entries) (on : Bool) : s.ordered (s.update e (e.maskTo on)) := by
  refine State.ordered_update he ⟨rfl, rfl, ?_, ?_, ?_⟩ rfl (fun _ => id)
  · unfold Entry.maskTo
    simp only []
    split
    · rename_i h; rw [h.2]; decide
    · exact .rfl
  · intro a b
    unfold Entry.maskTo
    simp only []
    split
    · rfl
    · exact a b
  · intro a b
    refine a (fun c => b ?_)
    unfold Entry.maskTo
    simp only []
    split
    · rfl
    · exact c

/-! ### The Survey Engine -/

theorem State.ordered_storeDescriptor (s : State) (t : Target) (d : Descriptor) : s.ordered (s.storeDescriptor t d) := by
  unfold State.storeDescriptor
  split
  · rename_i e he
    simp only []
    have : s.ordered (s.update e { e with descriptor := some d }) :=
      State.ordered_update (State.mem_of_target? he) (State.fits.of rfl rfl rfl id) rfl (fun _ => id)
    exact ordered_ite (this.trans (State.ordered_resolveIfResolved _)) this
  · exact .refl s

theorem State.ordered_recallAnswered (s : State) (t : Target) (f : Bool) : s.ordered (s.recallAnswered t f) := by
  unfold State.recallAnswered
  split
  · rename_i e he
    split
    · simp only []
      exact (((State.ordered_answered (State.mem_of_target? he) _).trans (State.ordered_post _ _)).trans
        (State.ordered_postFault _ _ _)).trans (State.ordered_reportPresence _ _ _)
    · exact .refl s
  · exact .refl s

theorem State.ordered_report (s : State) (h : Nat) (g : Tag) : s.ordered (s.report h g) := State.ordered_of rfl rfl rfl rfl

/-- R55 to R57: an entry that comes back, at a place that is its own. -/
theorem ordered_comeBack {s : State} {e new : Entry} (he : e ∈ s.dir.entries) (hh : new.handle = e.handle)
    (hp : new.presence = .present) (hm : new.miss = 0) (ho : new.override = e.override)
    (ha : new.attention = .idle ∨ new.attention = e.attention ∧ new.lane = e.lane)
    (hb : s.orderly → 1 ≤ new.addr ∧ new.addr ≤ 30 ∧ (∀ x ∈ s.dir.entries, x.lane = new.lane → x.addr = new.addr → x.handle = e.handle)
      ∧ ∀ l n, (s.lane l).survey.naming = some n → n.stage = .assign → new.lane = l → new.addr = n.addr →
        n.kind ≠ .new ∧ e.handle = n.handle) : s.ordered (s.comeBack e new) := by
  unfold State.comeBack
  simp only []
  refine State.ordered.trans ?_ (State.ordered_reportPresence _ _ _)
  have hr : s.rests ((s.comeBackTo e new).post (.node e.handle .rejoined)) ∧ s.sameSlots ((s.comeBackTo e new).post (.node e.handle .rejoined)) := by
    unfold State.comeBackTo
    split
    · exact ⟨.of rfl rfl rfl, fun _ _ _ => .rfl⟩
    · obtain ⟨a, b⟩ := s.leaveRound_rests e
      exact ⟨a.trans (.of rfl rfl rfl), b⟩
  have hd : ((s.comeBackTo e new).post (.node e.handle .rejoined)).dir.entries = (s.update e new).dir.entries := by
    unfold State.comeBackTo
    split <;> rfl
  generalize (s.comeBackTo e new).post (.node e.handle .rejoined) = u at *
  split
  · rename_i hs
    intro h
    obtain ⟨p1, p2, p3, p4⟩ := hb h
    rcases ha with ha | ⟨_, ha⟩
    · exact h.swap hr.1 hd hh (Entry.missOk_present h.bounds.1 hp hm) ⟨p1, p2, p3, p4⟩ ha
        (hr.2.less h he (by rw [← hs, ha]; decide))
    · have hd' : u.dir.entries = s.dir.entries.map (fun x => if x.handle = e.handle then new else x) := hd
      refine ⟨?_, h.bounds.swap h.handles hr.1 hd hh (Entry.missOk_present h.bounds.1 hp hm) p1 p2 p3 p4, ?_⟩
      · rw [hd']
        refine handles_map h.handles (fun x _ => ?_)
        split
        · rename_i hx; rw [hh, hx]
        · rfl
      · refine h.service.of hr.1 hr.2 _ hd' (fun x hx => ?_)
        split
        · rename_i hxe
          rw [h.unique hx he hxe]
          refine State.fits.of hh ha hs ?_
          rintro (c | c)
          · rw [hp] at c; cases c
          · exact .inr (ho ▸ c)
        · exact .refl s x
  · rename_i hs
    refine State.ordered.trans ?_ (State.ordered_arbitrate _ _)
    intro h
    have hi : new.attention = .idle := ha.elim id (fun x => absurd x.1 hs)
    exact h.swap (hr.1.trans (u.rests_endAttention e .lost)) ((u.endAttention_entries e .lost).trans hd) hh
      (Entry.missOk_present h.bounds.1 hp hm) (hb h) hi (State.lessSlots_endAttention h he hr.2 .lost)

/-! ### Lane loss (R87) -/

/-- R87: the losses of a lane, entry by entry. -/
theorem loseAll_map (k : Nat) (es xs : List Entry) : ∃ g : Entry → Entry, loseAll k es xs = xs.map g
    ∧ ∀ x, (∃ e ∈ es, e.handle = x.handle ∧ g x = e.laneLost k) ∨ (g x = x ∧ ∀ e ∈ es, e.handle ≠ x.handle) := by
  induction es generalizing xs with
  | nil => exact ⟨id, (List.map_id _).symm, fun x => .inr ⟨rfl, by simp⟩⟩
  | cons e es ih =>
    obtain ⟨g, h1, h2⟩ := ih (xs.map (fun x => if x.handle = e.handle then e.laneLost k else x))
    refine ⟨fun x => g (if x.handle = e.handle then e.laneLost k else x), ?_, fun x => ?_⟩
    · change loseAll k es _ = _
      rw [h1, List.map_map]
      rfl
    · simp only []
      split
      · rename_i hx
        rcases h2 (e.laneLost k) with ⟨f, a, b, c⟩ | ⟨a, _⟩
        · exact .inl ⟨f, List.mem_cons_of_mem _ a, b.trans hx.symm, c⟩
        · exact .inl ⟨e, List.mem_cons_self .., hx.symm, a⟩
      · rename_i hx
        rcases h2 x with ⟨f, a, b, c⟩ | ⟨a, b⟩
        · exact .inl ⟨f, List.mem_cons_of_mem _ a, b, c⟩
        · refine .inr ⟨a, fun f hf => ?_⟩
          rcases List.mem_cons.1 hf with rfl | hf
          · exact fun c => hx c.symm
          · exact b f hf

/-- A lane that has been taken down, with its losses. -/
theorem State.ordered_loss {s t : State} {l : LaneId} (hm : t.mate.session = s.mate.session) (hk : t.missLimit = s.missLimit)
    (hd : t.dir.entries = loseAll s.missLimit (s.toLose l) s.dir.entries)
    (hn : ∀ m, m ≠ l → t.lane m = s.lane m) (ha : (t.lane l).attention = Attention.cold) (hb : (t.lane l).arbiter = Arbiter.cold)
    (hs : (t.lane l).survey = Survey.cold) (hv : (t.lane l).state.serving = false) : s.ordered t := by
  intro h
  obtain ⟨h1, h2, h3, h4, h5, h6, h7, h8⟩ := h.service
  obtain ⟨g, hg, hc⟩ := loseAll_map s.missLimit (s.toLose l) s.dir.entries
  have key : ∀ e ∈ s.dir.entries, (g e = e.laneLost s.missLimit ∧ e.lane = l) ∨ (g e = e ∧ (e.lane = l → e.presence = .lost)) := by
    intro e he
    rcases hc e with ⟨f, hf, hh, hgf⟩ | ⟨hge, hne⟩
    · obtain ⟨a, b, _⟩ := (s.mem_toLose l f).1 hf
      rw [h.unique a he hh] at hgf b
      exact .inl ⟨hgf, b⟩
    · refine .inr ⟨hge, fun hl => ?_⟩
      by_contra hp
      exact hne e ((s.mem_toLose l e).2 ⟨he, hl, hp⟩) rfl
  have hkeep : ∀ e ∈ s.dir.entries, (g e).handle = e.handle ∧ (g e).lane = e.lane ∧ (g e).addr = e.addr := by
    intro e he
    rcases key e he with ⟨a, _⟩ | ⟨a, _⟩ <;> rw [a] <;> exact ⟨rfl, rfl, rfl⟩
  have hidle : ∀ e ∈ s.dir.entries, (g e).attention ≠ .idle → g e = e ∧ e.lane ≠ l := by
    intro e he x
    rcases key e he with ⟨a, _⟩ | ⟨a, b⟩
    · rw [a] at x; exact absurd rfl x
    · refine ⟨a, fun c => x ?_⟩
      rw [a]; exact h4 e he (.inl (b c))
  rw [hg] at hd
  have hno : ∀ v r, ¬ t.slot l v r := by
    intro v r x
    unfold State.slot at x
    rw [ha] at x
    revert x
    fin_cases v <;> intro x <;> cases x
  have hsl : ∀ m v r, t.slot m v r → m ≠ l ∧ s.slot m v r := by
    intro m v r x
    have hm : m ≠ l := fun c => hno v r (c ▸ x)
    refine ⟨hm, ?_⟩
    unfold State.slot at x ⊢
    rw [hn m hm] at x; exact x
  refine ⟨?_, ?_, ?_, ?_, ?_, ?_, ?_, ?_, ?_, ?_⟩
  · rw [hd]; exact handles_map h.handles (fun e he => (hkeep e he).1)
  · refine h.bounds.of hk hm (fun m n x => ?_) g hd (fun e he => ⟨(hkeep e he).1, (hkeep e he).2.1, (hkeep e he).2.2, fun k => ?_⟩)
    · by_cases hml : m = l
      · rw [hml, hs] at x; cases x
      · rw [hn m hml] at x; exact x
    · rcases key e he with ⟨a, _⟩ | ⟨a, _⟩ <;> rw [a]
      · have := h.bounds.1
        exact ⟨Nat.le_refl _, ⟨fun _ => rfl, fun _ => rfl⟩, ⟨(by intro h; cases h), (by intro h; change s.missLimit = 0 at h; omega)⟩⟩
      · exact k
  · intro m v r x
    obtain ⟨hml, x⟩ := hsl m v r x
    obtain ⟨e, he, a, b, c⟩ := h1 m v r x
    rcases key e he with ⟨_, d⟩ | ⟨d, _⟩
    · exact absurd (b.symm.trans d) hml
    · exact ⟨e, by rw [hd]; exact List.mem_map.2 ⟨e, he, d⟩, a, b, c⟩
  · intro f hf x
    rw [hd] at hf
    obtain ⟨e, he, rfl⟩ := List.mem_map.1 hf
    obtain ⟨a, b⟩ := hidle e he (by rw [x]; decide)
    rw [a] at x ⊢
    obtain ⟨v, r, c, d⟩ := h2 e he x
    refine ⟨v, r, ?_, d⟩
    unfold State.slot at c ⊢
    rw [hn _ b]; exact c
  · intro m v w r q x y
    exact h3 m v w r q (hsl _ _ _ x).2 (hsl _ _ _ y).2
  · intro f hf x
    rw [hd] at hf
    obtain ⟨e, he, rfl⟩ := List.mem_map.1 hf
    rcases key e he with ⟨a, _⟩ | ⟨a, _⟩ <;> rw [a] at x ⊢
    · rfl
    · exact h4 e he x
  · intro f hf x
    rw [hd] at hf
    obtain ⟨e, he, rfl⟩ := List.mem_map.1 hf
    obtain ⟨a, b⟩ := hidle e he x
    rw [a] at x ⊢
    rw [hn _ b]; exact h5 e he x
  · intro m x
    by_cases hml : m = l
    · subst hml
      rw [ha, hb]
      exact ⟨hno, rfl, rfl, (by intro h; cases h)⟩
    · rw [hn m hml] at x ⊢
      obtain ⟨a, b⟩ := h6 m x
      exact ⟨fun v r y => a v r (hsl _ _ _ y).2, b⟩
  · intro m y x
    by_cases hml : m = l
    · rw [hml, ha] at x; cases x
    · rw [hn m hml] at x
      obtain ⟨a, b⟩ := h7 m y x
      exact ⟨a, fun r z => b r (hsl _ _ _ z).2⟩
  · intro m x
    by_cases hml : m = l
    · rw [hml, hs] at x; cases x
    · rw [hn m hml] at x ⊢; exact h8 m x

theorem State.ordered_trip (s : State) (l : LaneId) : s.ordered (s.trip l) := by
  unfold State.trip
  simp only []
  refine State.ordered.trans ?_ (State.ordered_reportFinished _ _)
  obtain ⟨h1, h2, h3, h4, _⟩ := s.tripSequence_spec l
    ({ s.modLane l Lane.tripped with draws := (s.modLane l Lane.tripped).draws + 1 }, [])
  generalize ((s.tripSequence l).foldl (fun x f => f x)
    ({ s.modLane l Lane.tripped with draws := (s.modLane l Lane.tripped).draws + 1 }, [])).1 = t at *
  have hl : State.lane { s.modLane l Lane.tripped with draws := (s.modLane l Lane.tripped).draws + 1 } l = (s.lane l).tripped :=
    State.lane_modLane_self s l _
  have hm : ∀ m, m ≠ l → State.lane { s.modLane l Lane.tripped with draws := (s.modLane l Lane.tripped).draws + 1 } m = s.lane m :=
    fun m hm => State.lane_modLane_ne s l m _ hm
  obtain ⟨k1, _, _, k4⟩ := h1.lane l
  simp only [hl] at h4 k1 k4
  exact State.ordered_loss (l := l) (by rw [h1.mate]; rfl) h1.rest.2.2.1 h2 (fun m x => (h3 m x).trans (hm m x)) (h4 rfl) k4
    (k1.survey) (by rw [k1.state]; rfl)

theorem State.ordered_restartLane (s : State) (l : LaneId) : s.ordered (s.restartLane l) := by
  obtain ⟨h1, h2, h3, _, h5, h6⟩ := s.restartLane_spec l
  exact State.ordered_loss (l := l) (by rw [h3]) h2.2.2.1 h6 h5 (by rw [h1]; rfl) (by rw [h1]; rfl) (by rw [h1]; rfl) (by rw [h1]; rfl)

/-! ### calm and ordered -/

/-- Calm, with the bounds of the directory and the in-service tables kept in order. -/
structure State.settled (s t : State) : Prop where
  calm : s.calm t
  ordered : s.ordered t

theorem State.settled.refl (s : State) : s.settled s := ⟨.refl s, .refl s⟩

theorem State.settled.trans {s t u : State} (h : s.settled t) (k : t.settled u) : s.settled u :=
  ⟨h.calm.trans k.calm, h.ordered.trans k.ordered⟩

theorem State.settled_of {s t : State} (h1 : t.mate = s.mate) (h2 : t.lanes = s.lanes) (h3 : t.link = s.link)
    (h4 : t.dir = s.dir) (h5 : t.missLimit = s.missLimit := by rfl) : s.settled t :=
  ⟨State.calm_of h1 h2 h3 h4, State.ordered_of h1 h2 h4 h5⟩

theorem State.settled_modLane (s : State) (l : LaneId) (f : Lane → Lane) (h : (s.lane l).calm (f (s.lane l)))
    (k : (f (s.lane l)).attention.heed = (s.lane l).attention.heed
      ∧ (f (s.lane l)).attention.slots = (s.lane l).attention.slots
      ∧ (f (s.lane l)).arbiter.standing.attention = (s.lane l).arbiter.standing.attention := by exact ⟨rfl, rfl, rfl⟩)
    (g : (f (s.lane l)).arbiter.grant = (s.lane l).arbiter.grant ∨ (f (s.lane l)).arbiter.grant ≠ some .attention := by
      exact .inl rfl) : s.settled (s.modLane l f) :=
  ⟨s.calm_modLane l f h, s.ordered_lane l f ⟨h.state, h.survey, k⟩ g⟩

theorem State.settled_post (s : State) (n : Notice) : s.settled (s.post n) := ⟨s.calm_post n, s.ordered_post n⟩
theorem State.settled_replyThen (s : State) (r : Reply) (a : Option ResetKind) : s.settled (s.replyThen r a) :=
  ⟨s.calm_replyThen r a, s.ordered_replyThen r a⟩
theorem State.settled_ok (s : State) (q : Request) (p : List Byte) : s.settled (s.ok q p) := s.settled_replyThen _ _
theorem State.settled_refuse (s : State) (q : Request) (st : Status) : s.settled (s.refuse q st) := s.settled_replyThen _ _
theorem State.settled_answer (s : State) (q : Request) (st : Status) (p : List Byte) : s.settled (s.answer q st p) :=
  s.settled_replyThen _ _
theorem State.settled_sendAccessReply (s : State) (r : Reply) : s.settled (s.sendAccessReply r) :=
  ⟨s.calm_sendAccessReply r, s.ordered_sendAccessReply r⟩
theorem State.settled_postLane (s : State) (l : LaneId) (c : Option FaultCause) : s.settled (s.postLane l c) := s.settled_post _
theorem State.settled_postAll (ns : List Notice) (s : State) : s.settled (s.postAll ns) := ⟨s.calm_postAll ns, s.ordered_postAll ns⟩
theorem State.settled_writeFault (s : State) (l : LaneId) (r : FaultRecord) : s.settled (s.writeFault l r) :=
  ⟨s.calm_writeFault l r, s.ordered_writeFault l r⟩
theorem State.settled_arbitrate (s : State) (l : LaneId) : s.settled (s.arbitrate l) := ⟨s.calm_arbitrate l, s.ordered_arbitrate l⟩
theorem State.settled_recomputeFrom (s : State) (b) : s.settled (s.recomputeFrom b) :=
  ⟨s.calm_recomputeFrom b, s.ordered_recomputeFrom b⟩
theorem State.settled_recompute (s : State) : s.settled s.recompute := ⟨s.calm_recompute, s.ordered_recompute⟩
theorem State.settled_fullResolution (s : State) : s.settled s.fullResolution := ⟨s.calm_fullResolution, s.ordered_fullResolution⟩
theorem State.settled_initialResolution (s : State) : s.settled s.initialResolution :=
  ⟨s.calm_initialResolution, s.ordered_initialResolution⟩
theorem State.settled_resolveIfResolved (s : State) : s.settled s.resolveIfResolved :=
  ⟨s.calm_resolveIfResolved, s.ordered_resolveIfResolved⟩
theorem State.settled_reportFinished (s : State) (l : LaneId) : s.settled (s.reportFinished l) :=
  ⟨s.calm_reportFinished l, s.ordered_reportFinished l⟩
theorem State.settled_takeReport (s : State) (r : Report) : s.settled (s.takeReport r) := ⟨s.calm_takeReport r, s.ordered_takeReport r⟩
theorem State.settled_pollRound (s : State) (l : LaneId) : s.settled (s.pollRound l) := ⟨s.calm_pollRound l, s.ordered_pollRound l⟩
theorem State.settled_pollOutcome (s : State) (l : LaneId) (t : Target) (o : TelegramOutcome) : s.settled (s.pollOutcome l t o) :=
  ⟨s.calm_pollOutcome l t o, s.ordered_pollOutcome l t o⟩
theorem State.settled_expireSlot (s : State) (l : LaneId) (r : InService) : s.settled (s.expireSlot l r) :=
  ⟨s.calm_expireSlot l r, s.ordered_expireSlot l r⟩
theorem State.settled_startAccess (s : State) (q : Request) (e : Entry) (r : Run) : s.settled (s.startAccess q e r) :=
  ⟨s.calm_startAccess q e r, s.ordered_startAccess q e r⟩
theorem State.settled_abandonRun (s : State) (l : LaneId) : s.settled (s.modLane l Lane.abandonRun) :=
  ⟨s.calm_modLane _ _ (Lane.calm_abandonRun _), s.ordered_abandonRun l⟩
theorem State.settled_attentionOutcome (s : State) (l : LaneId) (t : Telegram) (o : TelegramOutcome)
    (h : (s.lane l).arbiter.grant = some .attention) : s.settled (s.attentionOutcome l t o) :=
  ⟨s.calm_attentionOutcome l t o, s.ordered_attentionOutcome l t o h⟩
theorem State.settled_accessOutcome (s : State) (l : LaneId) (o : TelegramOutcome)
    (h : ∃ b, (s.lane l).arbiter.grant = some (.access b)) : s.settled (s.accessOutcome l o) :=
  ⟨s.calm_accessOutcome l o h, s.ordered_accessOutcome l o⟩
theorem State.settled_finishAttention {s : State} {e : Entry} (h : e ∈ s.dir.entries) : s.settled (s.finishAttention e) :=
  ⟨State.calm_finishAttention (State.knows_of_mem h), State.ordered_finishAttention h⟩

end Sys2Proof.Machine
end

