-- ==== Sys2Proof/Laws/Calls.lean ====
section
/-! SUPPORT. The commands that are settled, and the operations they share. -/

namespace Sys2Proof.Machine

theorem State.settled_took {s : State} {q : Request} {rest : List Request} (h : s.link.requests = q :: rest) :
    s.settled { s with link := { s.link with requests := rest } } := by
  refine ⟨⟨rfl, fun _ => .refl _, fun k => ?_, id, rfl, fun _ => rfl⟩, State.ordered_of rfl rfl rfl rfl⟩
  rw [h] at k
  exact Nat.le_of_succ_le k

/-- R187: a request whose row's rule is calm. -/
theorem State.settled_take (s : State) (mine : Request → Bool) (serve : Request → State → State)
    (h : ∀ q (t : State), t.settled (serve q t)) : s.settled (s.take mine serve) := by
  unfold State.take
  split
  · split
    · exact .refl s
    · rename_i q rest hq
      split
      · simp only []
        split
        · exact (State.settled_took hq).trans (h _ _)
        · exact (State.settled_took hq).trans (State.settled_refuse _ _ _)
      · exact .refl s
  · exact .refl s

/-- R187: what every state that a request leaves has, if the state without the request has it. -/
theorem State.take_of {P : State → Prop} (s : State) (mine : Request → Bool) (serve : Request → State → State)
    (hc : ∀ {a b : State}, a.settled b → P a → P b) (hs : P s) (h : ∀ q (t : State), P t → P (serve q t)) :
    P (s.take mine serve) := by
  unfold State.take
  split
  · split
    · exact hs
    · rename_i q rest hq
      split
      · simp only []
        split
        · exact h _ _ (hc (State.settled_took hq) hs)
        · exact hc (State.settled_refuse _ _ _) (hc (State.settled_took hq) hs)
      · exact hs
  · exact hs

theorem settled_receive (s : State) (bs : List Byte) : s.settled (s.receive bs) := by
  have hb : ∀ (k : Link) (b : Byte) (d : Timer), (k.byte b d).notices = k.notices
      ∧ (k.requests.length ≤ Config.requestPlaces → (k.byte b d).requests.length ≤ Config.requestPlaces) := by
    intro k b d
    unfold Link.byte
    split
    · split <;> exact ⟨rfl, id⟩
    · unfold Link.inside
      simp only []
      split
      · exact ⟨rfl, id⟩
      · split
        · unfold Link.judge
          simp only []
          split
          · split
            · rename_i h
              refine ⟨rfl, fun _ => ?_⟩
              simp [Link.accept]; exact h
            · exact ⟨rfl, id⟩
          · exact ⟨rfl, id⟩
        · exact ⟨rfl, id⟩
  have hf : ∀ (bs : List Byte) (k : Link) (d : Timer), (bs.foldl (fun k b => k.byte b d) k).notices = k.notices
      ∧ (k.requests.length ≤ Config.requestPlaces →
          (bs.foldl (fun k b => k.byte b d) k).requests.length ≤ Config.requestPlaces) := by
    intro bs
    induction bs with
    | nil => intro k d; exact ⟨rfl, id⟩
    | cons b bs ih =>
      intro k d
      exact ⟨(ih _ d).1.trans (hb k b d).1, fun x => (ih _ d).2 ((hb k b d).2 x)⟩
  unfold State.receive
  split
  · exact .refl s
  · refine ⟨⟨rfl, fun _ => .refl _, (hf bs s.link _).2, ?_, rfl, fun _ => rfl⟩, State.ordered_of rfl rfl rfl rfl⟩
    intro h
    change List.length (Link.notices (bs.foldl _ s.link)) ≤ _
    rw [(hf bs s.link _).1]; exact h

theorem settled_status (q : Request) (s : State) : s.settled (serveStatus q s) := by
  unfold serveStatus
  simp only []
  split
  · exact s.settled_refuse _ _
  · refine State.settled.trans ?_ (State.settled_ok _ _ _)
    split
    · exact ⟨⟨rfl, fun _ => .refl _, id, id, rfl, fun _ => rfl⟩, State.ordered_of rfl rfl rfl rfl⟩
    · exact State.settled_of rfl rfl rfl rfl

theorem settled_ite {s a b : State} {p : Prop} [Decidable p] (h : s.settled a) (k : s.settled b)
    : s.settled (if p then a else b) := by
  split
  · exact h
  · exact k

theorem settled_configureWith (c : Byte) (serve : Request → State → State) (h : ∀ q (t : State), t.settled (serve q t))
    (q : Request) (s : State) :
    s.settled (configureWith c serve q s) := settled_ite (h q s) (s.settled_refuse _ _)

theorem settled_wholePart (ok) (store : Nat → State → State) (h : ∀ v (t : State), t.settled (store v t)) (q : Request)
    (s : State) :
    s.settled (wholePart ok store q s) := settled_ite ((h _ s).trans (State.settled_ok _ _ _)) (s.settled_refuse _ _)

theorem settled_whileDisabled (ok) (store : Nat → State → State) (h : ∀ v (t : State), t.settled (store v t))
    (q : Request) (s : State) :
    s.settled (whileDisabled ok store q s) :=
  settled_ite (settled_ite (s.settled_refuse _ _) ((h _ s).trans (State.settled_ok _ _ _))) (s.settled_refuse _ _)

theorem settled_perLane (ok) (store : LaneId → Nat → State → State) (h : ∀ l v (t : State), t.settled (store l v t))
    (q : Request) (s : State) :
    s.settled (perLane ok store q s) := by
  unfold perLane
  split
  · exact s.settled_refuse _ _
  · exact settled_ite ((h _ _ s).trans (State.settled_ok _ _ _)) (s.settled_refuse _ _)

theorem settled_noticeMask (q : Request) (s : State) : s.settled (serveNoticeMask q s) := by
  unfold serveNoticeMask
  split
  · exact s.settled_refuse _ _
  · split
    · refine State.settled.trans ?_ (State.settled_ok _ _ _)
      exact ⟨⟨rfl, fun _ => .refl _, id, id, rfl, fun _ => rfl⟩, State.ordered_of rfl rfl rfl rfl⟩
    · exact s.settled_refuse _ _

theorem settled_faults (q : Request) (s : State) : s.settled (serveFaults q s) := by
  unfold serveFaults
  split
  · exact s.settled_refuse _ _
  · split
    · exact s.settled_refuse _ _
    · refine State.settled.trans ?_ (State.settled_ok _ _ _)
      exact settled_ite (s.settled_modLane _ _ (Lane.calm_of ⟨rfl, rfl, rfl, rfl, rfl, rfl, rfl, rfl⟩ rfl rfl)) (.refl s)

theorem settled_lookup (q : Request) (s : State) : s.settled (serveLookup q s) := by
  unfold serveLookup
  split
  · exact s.settled_refuse _ _
  · exact State.settled.trans (t := { s with draws := s.draws + 1 }) (State.settled_of rfl rfl rfl rfl) (State.settled_ok _ _ _)

theorem settled_find (q : Request) (s : State) : s.settled (serveFind q s) := by
  unfold serveFind
  split
  · split
    · exact s.settled_ok _ _
    · exact s.settled_refuse _ _
  · exact s.settled_refuse _ _

theorem settled_overrideReply (s : State) (q : Request) (h : Nat) : s.settled (s.overrideReply q h) := by
  unfold State.overrideReply
  split
  · exact State.settled_ok _ _ _
  · exact State.settled_refuse _ _ _

theorem settled_override (m : Override) (f : Entry → State → State) (h : ∀ e (s : State), e ∈ s.dir.entries → s.settled (f e s))
    (q : Request) (s : State) :
    s.settled (serveOverride m f q s) := by
  unfold serveOverride
  split
  · exact s.settled_refuse _ _
  · split
    · exact s.settled_refuse _ _
    · rename_i e he
      refine State.settled.trans (t := if e.override = m then s else f e s) (settled_ite (.refl s)
          (h e s (State.mem_of_entry? he))) ?_
      exact settled_overrideReply _ _ _

theorem settled_overrideToAuto (e : Entry) (s : State) (h : e ∈ s.dir.entries) : s.settled (overrideToAuto e s) :=
  ⟨State.calm_update (State.knows_of_mem h) (by rfl) (by rfl), ordered_overrideToAuto h⟩

theorem settled_overrideToPresent (e : Entry) (s : State) (h : e ∈ s.dir.entries) : s.settled (overrideToPresent e s) := by
  refine ⟨?_, ordered_overrideToPresent h⟩
  unfold overrideToPresent
  simp only []
  refine State.calm.trans ?_ (State.calm_reportPresence _ _ _)
  have := (State.calm_update (new := { e with override := .forcedPresent, presence := .present, miss := 0 })
    (State.knows_of_mem h) (by rfl) (by rfl)).trans (State.calm_leaveRound _ e)
  split
  · exact this.trans (State.calm_post _ _)
  · exact this

theorem settled_overrideToAbsent (e : Entry) (s : State) (h : e ∈ s.dir.entries) : s.settled (overrideToAbsent e s) :=
  ⟨(((State.calm_update (State.knows_of_mem h) (by rfl) (by rfl)).trans (State.calm_leaveRound _ _)).trans
    (State.calm_endAttention _ _ _)).trans (State.calm_arbitrate _ _), ordered_overrideToAbsent h⟩

theorem settled_readObjects (q : Request) (s : State) : s.settled (serveReadObjects q s) := by
  unfold serveReadObjects
  simp only []
  split
  · split
    · exact s.settled_refuse _ _
    · exact s.settled_startAccess _ _ _
  · exact s.settled_refuse _ _

theorem settled_writeObject (q : Request) (s : State) : s.settled (serveWriteObject q s) := by
  unfold serveWriteObject
  simp only []
  split
  · exact s.settled_refuse _ _
  · exact s.settled_startAccess _ _ _

theorem settled_attnDone (q : Request) (s : State) : s.settled (serveAttnDone q s) := by
  unfold serveAttnDone
  split
  · exact s.settled_refuse _ _
  · rename_i e he
    split
    · split
      · exact ((State.settled_finishAttention (State.mem_of_entry? he)).trans (State.settled_arbitrate _ _)).trans
          (State.settled_ok _ _ _)
      · exact s.settled_refuse _ _
    · exact s.settled_refuse _ _

theorem settled_attnMask (q : Request) (s : State) : s.settled (serveAttnMask q s) := by
  unfold serveAttnMask
  split
  · exact s.settled_refuse _ _
  · split
    · exact s.settled_refuse _ _
    · rename_i e he
      simp only []
      refine State.settled.trans ?_ (State.settled_ok _ _ _)
      refine State.settled.trans ?_ (State.settled_arbitrate _ _)
      have : s.settled (s.update e (e.maskTo (decide (at' q.payload 1 = 1)))) :=
        ⟨State.calm_update (State.knows_of_entry? he) (by rfl) (by rfl), ordered_maskTo (State.mem_of_entry? he) _⟩
      exact settled_ite (this.trans ⟨State.calm_addClear _ _, State.ordered_addClear _ _⟩) this

theorem settled_store (s : State) (st : Store) : s.settled { s with store := st } := State.settled_of rfl rfl rfl rfl

theorem settled_manifestBegin (q : Request) (s : State) : s.settled (serveManifestBegin q s) := by
  unfold serveManifestBegin
  simp only []
  split
  · exact s.settled_refuse _ _
  · exact settled_ite (settled_ite (s.settled_refuse _ _) ((settled_store s _).trans (State.settled_ok _ _ _))) (s.settled_refuse _ _)
theorem settled_manifestEntry (q : Request) (s : State) : s.settled (serveManifestEntry q s) := by
  unfold serveManifestEntry
  split
  · exact s.settled_refuse _ _
  · split
    · split
      · exact s.settled_refuse _ _
      · exact (settled_store s _).trans (State.settled_ok _ _ _)
    · exact s.settled_refuse _ _

theorem settled_manifestEnd (q : Request) (s : State) : s.settled (serveManifestEnd q s) := by
  unfold serveManifestEnd
  split
  · exact s.settled_refuse _ _
  · split
    · exact s.settled_refuse _ _
    · split
      · exact (settled_store s _).trans (State.settled_refuse _ _ _)
      · exact ((settled_store s _).trans (settled_ite (State.settled_fullResolution _) (.refl _))).trans (State.settled_ok _ _ _)

theorem settled_manifestErase (q : Request) (s : State) : s.settled (serveManifestErase q s) := by
  unfold serveManifestErase
  split
  · exact s.settled_refuse _ _
  · exact ((settled_store s _).trans (settled_ite (State.settled_fullResolution _) (.refl _))).trans (State.settled_ok _ _ _)

theorem settled_manifestRead (q : Request) (s : State) : s.settled (serveManifestRead q s) := by
  unfold serveManifestRead
  simp only []
  split
  · exact s.settled_refuse _ _
  · split
    · exact s.settled_refuse _ _
    · split
      · exact s.settled_refuse _ _
      · split
        · exact s.settled_refuse _ _
        · exact s.settled_ok _ _

theorem settled_resolve (q : Request) (s : State) : s.settled (serveResolve q s) := by
  unfold serveResolve
  split
  · simp only []
    have h := s.settled_fullResolution
    generalize s.fullResolution = t at *
    refine (h.trans ?_).trans (State.settled_ok _ _ _)
    exact State.settled_of rfl rfl rfl rfl
  · exact s.settled_refuse _ _

theorem settled_snapshot (q : Request) (s : State) : s.settled (serveSnapshot q s) := by
  unfold serveSnapshot
  split
  · exact s.settled_answer _ _ _
  · split
    · exact s.settled_ok _ _
    · exact State.settled.trans (t := { s with snap := some s.latch, draws := s.draws + 1 })
        (State.settled_of rfl rfl rfl rfl) (State.settled_ok _ _ _)

theorem settled_snapshotPage (q : Request) (s : State) : s.settled (serveSnapshotPage q s) := by
  unfold serveSnapshotPage
  split
  · exact s.settled_refuse _ _
  · simp only []
    split
    · refine State.settled.trans ?_ (State.settled_ok _ _ _)
      exact State.settled_of rfl rfl rfl rfl
    · exact s.settled_refuse _ _

theorem settled_snapshotRelease (q : Request) (s : State) : s.settled (serveSnapshotRelease q s) := by
  unfold serveSnapshotRelease
  split
  · exact s.settled_refuse _ _
  · refine State.settled.trans (t := { s with snap := none }) (State.settled_of rfl rfl rfl rfl) (State.settled_ok _ _ _)

theorem settled_reset (c k) (q : Request) (s : State) : s.settled (serveReset c k q s) := by
  unfold serveReset
  exact settled_ite (s.settled_replyThen _ _) (s.settled_refuse _ _)

theorem settled_unknown (s : State) : s.settled (if s.canTake then
      match s.link.requests with
      | [] => s
      | q :: rest =>
        if requestKinds.contains q.kind then s
        else ({ s with link := { s.link with requests := rest } } : State).replyThen q.unknownReply none
    else s) := by
  split
  · split
    · exact .refl s
    · rename_i q rest hq
      split
      · exact .refl s
      · exact (State.settled_took hq).trans (State.settled_replyThen _ _ _)
  · exact .refl s

theorem settled_begin (s : State) : s.settled s.nextFrame :=
  ⟨⟨rfl, fun _ => .refl _, by unfold State.nextFrame; simp only []; rw [Link.begin_requests]; exact id,
      fun h => Nat.le_trans (Link.begin_notices_le _) h, rfl, fun _ => rfl⟩, State.ordered_of rfl rfl rfl rfl⟩

/-- The settled commands. -/
def Instr.settled (c : Instr) : Prop := ∀ s : State, ∃ t, exec c s = .next t ∧ s.settled t

theorem Instr.settled_list : ∀ c, c ∈ [Instr.gapTimerExpiry, .unknownKind, .status, .ident,
    .configurePollGap, .configureAttentionTimeout,
   .configureRotation, .configureNoticeMask, .resetSoft, .resetFull, .faults, .lookup, .find, .overrideAuto,
       .overrideForcedPresent, .overrideForcedAbsent,
   .readObjects, .writeObject, .attnDone, .attnMask, .manifestBegin, .manifestEntry, .manifestEnd, .manifestErase,
       .manifestRead, .resolve, .snapshot, .snapshotPage, .snapshotRelease,
   .accessTimerExpiry, .nodeNamedReport] → Instr.settled c := by
  intro c hc s
  simp only [List.mem_cons, List.not_mem_nil, or_false] at hc
  rcases hc with rfl | rfl | rfl | rfl | rfl | rfl | rfl | rfl | rfl | rfl | rfl | rfl | rfl | rfl | rfl | rfl | rfl | rfl | rfl | rfl | rfl | rfl | rfl | rfl | rfl | rfl | rfl | rfl | rfl | rfl | rfl
  · refine ⟨_, rfl, settled_ite ⟨⟨rfl, fun _ => .refl _, id, id, rfl, fun _ => rfl⟩, State.ordered_of rfl rfl rfl rfl⟩ (.refl s)⟩
  · exact ⟨_, rfl, settled_unknown s⟩
  · exact ⟨_, rfl, s.settled_take _ _ settled_status⟩
  · exact ⟨_, rfl, s.settled_take _ _ (fun q t => t.settled_ok _ _)⟩
  · exact ⟨_, rfl, s.settled_take _ _ (settled_configureWith _ _ (settled_perLane _ _ (fun l v t => t.settled_modLane _ _ (Lane.calm_of ⟨rfl, rfl, rfl, rfl, rfl, rfl, rfl, rfl⟩ rfl rfl))))⟩
  · exact ⟨_, rfl, s.settled_take _ _ (settled_configureWith _ _ (settled_wholePart _ _ (fun v t => State.settled_of rfl rfl rfl rfl)))⟩
  · exact ⟨_, rfl, s.settled_take _ _ (settled_configureWith _ _ (settled_perLane _ _ (fun l v t => t.settled_modLane _ _ (Lane.calm_of ⟨rfl, rfl, rfl, rfl, rfl, rfl, rfl, rfl⟩ rfl rfl))))⟩
  · exact ⟨_, rfl, s.settled_take _ _ (settled_configureWith _ _ settled_noticeMask)⟩
  · exact ⟨_, rfl, s.settled_take _ _ (settled_reset _ _)⟩
  · exact ⟨_, rfl, s.settled_take _ _ (settled_reset _ _)⟩
  · exact ⟨_, rfl, s.settled_take _ _ settled_faults⟩
  · exact ⟨_, rfl, s.settled_take _ _ settled_lookup⟩
  · exact ⟨_, rfl, s.settled_take _ _ settled_find⟩
  · exact ⟨_, rfl, s.settled_take _ _ (settled_override _ _ settled_overrideToAuto)⟩
  · exact ⟨_, rfl, s.settled_take _ _ (settled_override _ _ settled_overrideToPresent)⟩
  · exact ⟨_, rfl, s.settled_take _ _ (settled_override _ _ settled_overrideToAbsent)⟩
  · exact ⟨_, rfl, s.settled_take _ _ settled_readObjects⟩
  · exact ⟨_, rfl, s.settled_take _ _ settled_writeObject⟩
  · exact ⟨_, rfl, s.settled_take _ _ settled_attnDone⟩
  · exact ⟨_, rfl, s.settled_take _ _ settled_attnMask⟩
  · exact ⟨_, rfl, s.settled_take _ _ settled_manifestBegin⟩
  · exact ⟨_, rfl, s.settled_take _ _ settled_manifestEntry⟩
  · exact ⟨_, rfl, s.settled_take _ _ settled_manifestEnd⟩
  · exact ⟨_, rfl, s.settled_take _ _ settled_manifestErase⟩
  · exact ⟨_, rfl, s.settled_take _ _ settled_manifestRead⟩
  · exact ⟨_, rfl, s.settled_take _ _ settled_resolve⟩
  · exact ⟨_, rfl, s.settled_take _ _ settled_snapshot⟩
  · exact ⟨_, rfl, s.settled_take _ _ settled_snapshotPage⟩
  · exact ⟨_, rfl, s.settled_take _ _ settled_snapshotRelease⟩
  · refine ⟨_, rfl, ?_⟩
    split
    · split
      · refine State.settled.trans ?_ (State.settled_arbitrate _ _)
        exact (s.settled_abandonRun _).trans (State.settled_sendAccessReply _ _)
      · exact .refl s
    · exact .refl s
  · refine ⟨_, rfl, ?_⟩
    split
    · exact .refl s
    · refine State.settled.trans ?_ (State.settled_takeReport _ _)
      exact State.settled_of rfl rfl rfl rfl

theorem Instr.settled_lane (l : LaneId) (v : LevelId) (b : Bool) : Instr.settled (.pollGapTimerExpiry l)
    ∧ Instr.settled (.rollcallGapTimerExpiry l) ∧ Instr.settled (.latnChange l b)
    ∧ Instr.settled (.attentionDeadlineExpiry l v) := by
  refine ⟨fun s => ⟨_, rfl, ?_⟩, fun s => ⟨_, rfl, ?_⟩, fun s => ⟨_, rfl, ?_⟩, fun s => ⟨_, rfl, ?_⟩⟩
  · exact settled_ite ((s.settled_pollRound l).trans (State.settled_arbitrate _ _)) (.refl s)
  · exact settled_ite ((s.settled_modLane _ _ (Lane.calm_of ⟨rfl, rfl, rfl, rfl, rfl, rfl, rfl, rfl⟩ rfl rfl)).trans
      (State.settled_arbitrate _ _)) (.refl s)
  · exact (s.settled_modLane _ _ (Lane.calm_of ⟨rfl, rfl, rfl, rfl, rfl, rfl, rfl, rfl⟩ rfl rfl)).trans
      (State.settled_arbitrate _ _)
  · split
    · exact settled_ite (s.settled_expireSlot _ _) (.refl s)
    · exact .refl s

theorem Instr.settled_bytes (b : Byte) (bs : List Byte) : Instr.settled (.byteReceived b) ∧ Instr.settled (.receiveFrame bs) :=
  ⟨fun s => ⟨_, rfl, settled_receive s [b]⟩, fun s => ⟨_, rfl, settled_receive s bs⟩⟩

end Sys2Proof.Machine
end

