-- ==== Sys2Proof/Laws/Choice.lean ====
section
/-! SUPPORT. What a grant sends (R123, R132, R133, R138, R139): the Attention Service's choice of a telegram, as the rules give
it, and what the arbiter of a lane has done to its requests when it has acted (R114). -/

namespace Sys2Proof.Machine

/-! ### The choice of the Attention Service (R132, R133, R138, R139) -/

theorem State.mem_pendingOn {s : State} {l : LaneId} {e : Entry} :
    e ∈ s.pendingOn l ↔ e ∈ s.dir.entries ∧ e.lane = l ∧ e.attention = .pending := by
  unfold State.pendingOn State.onLane
  rw [List.mem_filter, List.mem_filter]
  simp [and_assoc]

theorem State.pending_any (s : State) (l : LaneId) (v : LevelId) :
    (s.pendingOn l).any (fun e => decide (e.level = some v)) = true ↔ ∃ e, s.pendsAt l v e := by
  rw [List.any_eq_true]
  constructor
  · rintro ⟨e, h1, h2⟩
    obtain ⟨a, b, c⟩ := State.mem_pendingOn.mp h1
    exact ⟨e, a, b, c, of_decide_eq_true h2⟩
  · rintro ⟨e, a, b, c, d⟩
    exact ⟨e, State.mem_pendingOn.mpr ⟨a, b, c⟩, decide_eq_true d⟩

theorem find_levels (f : LevelId → Bool) (v : LevelId) :
    [2, 1, 0].find? f = some v ↔ f v = true ∧ ∀ w, f w = true → w ≤ v := by
  match v with
  | 0 => cases h0 : f 0 <;> cases h1 : f 1 <;> cases h2 : f 2 <;> simp [h0, h1, h2, Fin.forall_fin_succ]
  | 1 => cases h0 : f 0 <;> cases h1 : f 1 <;> cases h2 : f 2 <;> simp [h0, h1, h2, Fin.forall_fin_succ]
  | 2 => cases h0 : f 0 <;> cases h1 : f 1 <;> cases h2 : f 2 <;> simp [h0, h1, h2, Fin.forall_fin_succ]

/-- R138: the highest level of the pending set. -/
theorem State.highestPending_iff (s : State) (l : LaneId) (v : LevelId) :
    s.highestPending l = some v ↔ (∃ e, s.pendsAt l v e) ∧ ∀ w e, s.pendsAt l w e → w ≤ v := by
  unfold State.highestPending
  rw [find_levels, s.pending_any l v]
  refine and_congr_right fun _ => ⟨fun h w e he => h w ((s.pending_any l w).mpr ⟨e, he⟩), fun h w hw => ?_⟩
  obtain ⟨e, he⟩ := (s.pending_any l w).mp hw
  exact h w e he

/-- R138: the service condition, and the level it holds for. -/
theorem State.serviceLevel_iff (s : State) (l : LaneId) (v : LevelId) : s.serviceLevel l = some v ↔ s.servesLevel l v := by
  have hslot : allLevels.all (fun w => ((s.lane l).attention.slots.get w).isNone || decide (w < v)) = true
      ↔ ∀ w r, s.slot l w r → w < v := by
    unfold State.slot
    rw [List.all_eq_true]
    constructor
    · intro h w r hr
      have := h w (by unfold allLevels; clear hr; revert w; decide)
      rw [hr] at this
      simpa using this
    · intro h w _
      cases hr : (s.lane l).attention.slots.get w with
      | none => simp
      | some r => simp [h w r hr]
  unfold State.serviceLevel State.servesLevel
  rw [← and_assoc, ← s.highestPending_iff l v, ← hslot]
  cases hp : s.highestPending l with
  | none => simp
  | some w =>
    simp only []
    constructor
    · intro h
      split at h
      · rename_i hw
        cases h; exact ⟨rfl, hw⟩
      · cases h
    · rintro ⟨h1, h2⟩
      cases h1
      rw [if_pos h2]

theorem serviceLevel_none (s : State) (l : LaneId) : s.serviceLevel l = none ↔ ∀ v, ¬ s.servesLevel l v := by
  rw [Option.eq_none_iff_forall_ne_some]
  exact forall_congr' fun v => not_congr (s.serviceLevel_iff l v)

theorem find_firstHandle {es : List Entry} {p : Entry → Bool} {e : Entry} (hs : es.Pairwise (fun a b => a.handle < b.handle))
    (h : es.find? p = some e) : e ∈ es ∧ p e = true ∧ ∀ f ∈ es, p f = true → e.handle ≤ f.handle := by
  obtain ⟨h1, xs, ys, h2, h3⟩ := List.find?_eq_some_iff_append.mp h
  refine ⟨by rw [h2]; simp, h1, fun f hf hp => ?_⟩
  rw [h2] at hf hs
  rcases List.mem_append.mp hf with hf | hf
  · have := h3 f hf
    rw [hp] at this
    cases this
  · rcases List.mem_cons.mp hf with rfl | hf
    · exact Nat.le_refl _
    · exact Nat.le_of_lt ((List.pairwise_cons.mp (List.pairwise_append.mp hs).2.1).1 f hf)

/-- R139: the entry chosen at a level. -/
theorem State.chooseHeed_iff {s : State} (hd : s.directoryOk) (l : LaneId) (v : LevelId) (e : Entry) :
    s.chooseHeed l v = some e ↔ s.heedsNext l v e := by
  have hmem : ∀ x, x ∈ (s.pendingOn l).filter (fun e => decide (e.level = some v)) ↔ s.pendsAt l v x := by
    intro x
    rw [List.mem_filter, State.mem_pendingOn]
    unfold State.pendsAt Entry.level
    simp [and_assoc]
  have hsort : ((s.pendingOn l).filter (fun e => decide (e.level = some v))).Pairwise (fun a b => a.handle < b.handle) := by
    unfold State.pendingOn State.onLane
    exact ((hd.1.filter _).filter _).filter _
  have huniq : ∀ x y, s.pendsAt l v x → s.pendsAt l v y → x.handle = y.handle → x = y :=
    fun x y hx hy h => State.entry_unique hd hx.1 hy.1 h
  unfold State.chooseHeed State.heedsNext
  simp only []
  generalize (s.pendingOn l).filter (fun e => decide (e.level = some v)) = es at hmem hsort
  have hhead : es.head? = some e ↔ s.pendsAt l v e ∧ ∀ f, s.pendsAt l v f → e.handle ≤ f.handle := by
    have ht : es.head? = es.find? (fun _ => true) := by cases es <;> rfl
    rw [ht]
    constructor
    · intro h
      obtain ⟨h1, _, h3⟩ := find_firstHandle hsort h
      exact ⟨(hmem e).mp h1, fun f hf => h3 f ((hmem f).mpr hf) rfl⟩
    · rintro ⟨h1, h2⟩
      cases h : es.find? (fun _ => true) with
      | none => rw [List.find?_eq_none] at h; exact absurd rfl (h e ((hmem e).mpr h1))
      | some x =>
        obtain ⟨g1, _, g3⟩ := find_firstHandle hsort h
        rw [huniq x e ((hmem x).mp g1) h1 (Nat.le_antisymm (g3 e ((hmem e).mpr h1) rfl) (h2 x ((hmem x).mp g1)))]
  cases hr : (s.lane l).rotation with
  | fixed => simp [hhead]
  | rotating =>
    cases hl : (s.lane l).attention.lastServed.get v with
    | none => simp [hhead]
    | some h =>
      simp only [reduceCtorEq, or_self, false_implies, true_and, Option.some.injEq, true_implies, forall_eq']
      cases hf : es.find? (fun e => decide (h < e.handle)) with
      | none =>
        rw [List.find?_eq_none] at hf
        have hle : ∀ f, s.pendsAt l v f → f.handle ≤ h := fun f p => by simpa using hf f ((hmem f).mpr p)
        simp only []
        rw [hhead]
        constructor
        · rintro ⟨h1, h2⟩
          exact ⟨h1, .inr fun f p => ⟨hle f p, h2 f p⟩⟩
        · rintro ⟨h1, h2 | h2⟩
          · exact absurd (hle e h1) (by omega)
          · exact ⟨h1, fun f p => (h2 f p).2⟩
      | some x =>
        simp only []
        obtain ⟨g1, g2, g3⟩ := find_firstHandle hsort hf
        have g2 : h < x.handle := of_decide_eq_true g2
        constructor
        · intro he
          cases he
          exact ⟨(hmem e).mp g1, .inl ⟨g2, fun f p q => g3 f ((hmem f).mpr p) (decide_eq_true q)⟩⟩
        · rintro ⟨h1, ⟨h2, h3⟩ | h2⟩
          · rw [huniq x e ((hmem x).mp g1) h1
              (Nat.le_antisymm (g3 e ((hmem e).mpr h1) (decide_eq_true h2)) (h3 x ((hmem x).mp g1) g2))]
          · exact absurd (h2 x ((hmem x).mp g1)).1 (by omega)

theorem State.chooseHeed_some {s : State} {l : LaneId} {v : LevelId} (h : ∃ e, s.pendsAt l v e) : ∃ e, s.chooseHeed l v = some e := by
  obtain ⟨e, h1, h2, h3, h4⟩ := h
  have hmem : e ∈ (s.pendingOn l).filter (fun e => decide (e.level = some v)) :=
    List.mem_filter.mpr ⟨State.mem_pendingOn.mpr ⟨h1, h2, h3⟩, decide_eq_true h4⟩
  unfold State.chooseHeed
  simp only []
  generalize (s.pendingOn l).filter (fun e => decide (e.level = some v)) = es at *
  have hh : ∃ x, es.head? = some x := by
    cases es with
    | nil => cases hmem
    | cons x _ => exact ⟨x, rfl⟩
  split
  · split
    · exact ⟨_, rfl⟩
    · exact hh
  · exact hh
  · exact hh

theorem Lane.rollcallDue_iff (n : Lane) : n.rollcallDue = true ↔ n.rollcalls := by
  unfold Lane.rollcallDue Lane.rollcalls LaneState.serving
  simp [and_assoc]

/-- R132: the telegram that the service chooses. -/
theorem State.chooseAttention_iff {s : State} (hd : s.directoryOk) (l : LaneId) (m : Telegram) (h : Option Heed) :
    s.chooseAttention l = some (m, h) ↔ s.attentionSends l m h := by
  unfold State.chooseAttention State.attentionSends
  cases hc : (s.lane l).attention.clearList with
  | cons i rest =>
    simp only [Option.some.injEq, Prod.mk.injEq, reduceCtorEq, false_and, or_false, List.cons.injEq]
    constructor
    · rintro ⟨rfl, rfl⟩; exact ⟨i, rest, ⟨rfl, rfl⟩, rfl, rfl⟩
    · rintro ⟨i', r', ⟨rfl, rfl⟩, rfl, rfl⟩; exact ⟨rfl, rfl⟩
  | nil =>
    simp only [reduceCtorEq, false_and, exists_false, false_or, true_and]
    cases hv : s.serviceLevel l with
    | none =>
      have hno := (serviceLevel_none s l).mp hv
      rw [← Lane.rollcallDue_iff]
      simp only [hno, false_and, exists_false, false_or, not_false_eq_true, implies_true, true_and]
      split
      · rename_i hr
        simp only [Option.some.injEq, Prod.mk.injEq, hr, true_and, eq_comm]
      · rename_i hr
        simp [hr]
    | some v =>
      have hs := (s.serviceLevel_iff l v).mp hv
      obtain ⟨e, he⟩ := State.chooseHeed_some hs.1
      simp only [he, Option.some.injEq, Prod.mk.injEq]
      have hn := (State.chooseHeed_iff hd l v e).mp he
      constructor
      · rintro ⟨rfl, rfl⟩
        exact .inl ⟨v, e, hs, hn, rfl, rfl⟩
      · rintro (⟨w, f, h1, h2, rfl, rfl⟩ | ⟨h1, _⟩)
        · have hw := (s.serviceLevel_iff l w).mpr h1
          rw [hv] at hw
          cases hw
          have hf := (State.chooseHeed_iff hd l v f).mpr h2
          rw [he] at hf
          cases hf
          exact ⟨rfl, rfl⟩
        · exact absurd hs (h1 v)

/-- R132: the service has work where it has a telegram to send. -/
theorem State.hasAttentionWork_iff (s : State) (l : LaneId) : s.hasAttentionWork l = (s.chooseAttention l).isSome := by
  unfold State.hasAttentionWork State.chooseAttention
  cases hc : (s.lane l).attention.clearList with
  | cons i rest => simp
  | nil =>
    cases hv : s.serviceLevel l with
    | none =>
      cases hr : (s.lane l).rollcallDue <;> simp
    | some v =>
      obtain ⟨e, he⟩ := State.chooseHeed_some ((s.serviceLevel_iff l v).mp hv).1
      simp [he]

/-! ### What the arbiter has done (R114, R123, R132) -/

/-- What the choice of the Attention Service depends on is as before. -/
def State.sameChoices (l : LaneId) (s t : State) : Prop :=
  t.dir = s.dir ∧ (t.lane l).attention = (s.lane l).attention ∧ (t.lane l).state = (s.lane l).state
    ∧ (t.lane l).latn = (s.lane l).latn ∧ (t.lane l).rollcallGapTimer = (s.lane l).rollcallGapTimer
    ∧ (t.lane l).rotation = (s.lane l).rotation

theorem State.sameChoices.choose {l : LaneId} {s t : State} (h : s.sameChoices l t) : t.chooseAttention l = s.chooseAttention l := by
  obtain ⟨h1, h2, h3, h4, h5, h6⟩ := h
  unfold State.chooseAttention State.serviceLevel State.chooseHeed State.highestPending State.pendingOn State.onLane Lane.rollcallDue
  rw [h1, h2, h3, h4, h5, h6]

theorem State.sameChoices_modLane (s : State) (l : LaneId) (f : Lane → Lane) (h : ∀ n : Lane, (f n).attention = n.attention
    ∧ (f n).state = n.state ∧ (f n).latn = n.latn ∧ (f n).rollcallGapTimer = n.rollcallGapTimer ∧ (f n).rotation = n.rotation) :
    s.sameChoices l (s.modLane l f) := by
  unfold State.sameChoices
  rw [State.lane_modLane_self]
  exact ⟨rfl, h _⟩

theorem State.sameChoices.trans {l : LaneId} {s t u : State} (h : s.sameChoices l t) (k : t.sameChoices l u) : s.sameChoices l u :=
  ⟨k.1.trans h.1, k.2.1.trans h.2.1, k.2.2.1.trans h.2.2.1, k.2.2.2.1.trans h.2.2.2.1, k.2.2.2.2.1.trans h.2.2.2.2.1,
    k.2.2.2.2.2.trans h.2.2.2.2.2⟩

/-- The service's request, made where it has work. -/
theorem requestAttention_spec (s : State) (l : LaneId) (hg : (s.lane l).arbiter.grant = none) :
    ∃ b : Bool, ((s.requestAttention l).lane l).arbiter
        = { (s.lane l).arbiter with standing := { (s.lane l).arbiter.standing with attention := b } }
      ∧ s.sameChoices l (s.requestAttention l) ∧ (b = true → (s.lane l).arbiter.standing.attention = true ∨ (s.chooseAttention l).isSome)
      ∧ ((s.lane l).arbiter.standing.attention = true → b = true)
      ∧ ((s.lane l).state.serving = true → (s.chooseAttention l).isSome → b = true) := by
  unfold State.requestAttention
  simp only []
  rw [s.hasAttentionWork_iff l, show decide ((s.lane l).arbiter.grant ≠ some .attention) = true by rw [hg]; rfl, Bool.and_true]
  split
  · rename_i h
    simp only [Bool.and_eq_true] at h
    refine ⟨true, by rw [State.lane_modLane_self], State.sameChoices_modLane _ _ _ (fun _ => ⟨rfl, rfl, rfl, rfl, rfl⟩),
      fun _ => .inr h.2, fun _ => rfl, fun _ _ => rfl⟩
  · rename_i h
    refine ⟨(s.lane l).arbiter.standing.attention, rfl, ⟨rfl, rfl, rfl, rfl, rfl, rfl⟩, fun h => .inl h, id, fun h1 h2 => ?_⟩
    simpa [h1, h2] using h

/-- R114: one decision, by the requestor that it serves. -/
theorem Arbiter.grantNext_serves {a b : Arbiter} {g : Grant} (h : a.grantNext = some (g, b)) :
    b.grant = some g ∧ ∃ r, a.pick = some r ∧ a.standing.serve r = some (g, b.standing) := by
  unfold Arbiter.grantNext at h
  split at h
  · cases h
  · split at h
    · cases h
    · rename_i r hr
      cases hs : a.standing.serve r with
      | none => rw [hs] at h; cases h
      | some x =>
        obtain ⟨g', q⟩ := x
        rw [hs] at h
        simp only [Option.some.injEq, Prod.mk.injEq] at h
        obtain ⟨rfl, rfl⟩ := h
        exact ⟨rfl, r, hr, hs⟩

theorem Standing.list_serves (q : Standing) (r : Requestor) : r ∈ q.list ↔ (q.serve r).isSome := by
  unfold Standing.list Standing.serve
  obtain ⟨a, b, c, d⟩ := q
  cases a <;> cases b <;> cases c <;> cases d <;> cases r <;> simp

theorem Arbiter.pick_mem {a : Arbiter} {r : Requestor} (h : a.pick = some r) : r ∈ a.standing.list := by
  unfold Arbiter.pick at h
  split at h
  · rename_i x hx
    cases h; exact List.mem_of_find?_eq_some hx
  · exact List.mem_of_mem_head? h

theorem Arbiter.grantNext_none {a : Arbiter} (hg : a.grant = none) (h : a.grantNext = none) : a.standing.list = [] := by
  unfold Arbiter.grantNext at h
  rw [hg] at h
  simp only [] at h
  cases hp : a.pick with
  | none =>
    unfold Arbiter.pick at hp
    split at hp
    · cases hp
    · exact List.head?_eq_none_iff.mp hp
  | some r =>
    rw [hp] at h
    have := (Standing.list_serves _ _).mp (Arbiter.pick_mem hp)
    cases hs : a.standing.serve r with
    | none => rw [hs] at this; cases this
    | some x => simp only [hs] at h; cases h

/-- R114, R123, R132: what the arbiter of a lane has done, when it acted on `s` with the wire free and has come to `t`. -/
def State.arbiterMet (l : LaneId) (s t : State) : Prop :=
  ((t.lane l).arbiter.grant = none → (t.lane l).arbiter.standing.list = [])
    ∧ ((t.lane l).arbiter.grant = some .attention → ∃ m h, s.chooseAttention l = some (m, h) ∧ (t.lane l).attention.heed = h
        ∧ (t.lane l).engine = some { telegram := m, attempt := 1, phase := .sending })
    ∧ ((s.lane l).state.serving = true → (s.chooseAttention l).isSome →
        (t.lane l).arbiter.grant = some .attention ∨ (t.lane l).arbiter.standing.attention = true)
    ∧ ((s.lane l).arbiter.standing.access = none →
        (t.lane l).arbiter.standing.access = none ∧ (∀ x, (t.lane l).arbiter.grant ≠ some (.access x)) ∧ s.sameAccess l t)
    ∧ (∀ b r kind token, (s.lane l).arbiter.standing.access = some b → (s.lane l).run = some r →
        s.unit = .accessWait kind token l →
        ((t.lane l).arbiter.standing.access = some b ∧ s.sameAccess l t ∧ ∀ x, (t.lane l).arbiter.grant ≠ some (.access x))
        ∨ (t.lane l).arbiter.standing.access = none ∧
          (s.runStands r = true ∧ s.sameAccess l t ∧ (t.lane l).arbiter.grant = some (.access b)
            ∧ (t.lane l).engine = some { telegram := r.telegram, attempt := 1, phase := .sending }
          ∨ s.runStands r = false ∧ (t.lane l).run = none ∧ t.unit = .replying none ∧ t.accessTimer = none
            ∧ (∀ x, (t.lane l).arbiter.grant ≠ some (.access x))
            ∧ t.link = s.link.send { kind := kind + 0x80, token := token, status := .nodeLost, payload := r.payload }))
    ∧ ((s.lane l).arbiter.standing.attention = false → s.chooseAttention l = none → (s.lane l).arbiter.pick = some .access →
        (t.lane l).arbiter.standing.access = none)

/-- The requests of a lane that can be granted without a telegram. -/
def State.idleGrants (s : State) (l : LaneId) : Nat :=
  (if (s.lane l).arbiter.standing.attention && (s.chooseAttention l).isNone then 1 else 0)
    + (if (s.lane l).arbiter.standing.access.isSome then 1 else 0)

theorem arbitrateRounds_met (k : Nat) (l : LaneId) (s : State) (hg : (s.lane l).arbiter.grant = none) (hk : s.idleGrants l < k) :
    s.arbiterMet l (arbitrateRounds k l s) := by
  induction k generalizing s with
  | zero => omega
  | succ k ih =>
    unfold arbitrateRounds
    simp only []
    obtain ⟨b, q1, q2, q3, q4, q5⟩ := requestAttention_spec s l hg
    have q6 := sameAccess_requestAttention s l
    generalize s.requestAttention l = s1 at *
    split
    · rename_i hn
      have hl := Arbiter.grantNext_none (by rw [q1]; exact hg) hn
      have hna : ∀ r, (s1.lane l).arbiter.standing.serve r = none := by
        intro r
        have := Standing.list_serves (s1.lane l).arbiter.standing r
        rw [hl] at this
        simpa using this
      have hs1 : (s1.lane l).arbiter.grant = none := by rw [q1]; exact hg
      refine ⟨fun _ => hl, fun h => ?_, fun h1 h2 => ?_, fun h => ⟨?_, fun x hx => ?_, q6⟩, fun b' r kind token h1 h2 h3 => ?_, fun h1 h2 h3 => ?_⟩
      · rw [hs1] at h; cases h
      · have := hna .attention
        rw [q1, q5 h1 h2] at this
        cases this
      · rw [q1]; exact h
      · rw [hs1] at hx; cases hx
      · have := hna .access
        rw [q1] at this
        simp only [Standing.serve, h1, Option.map_some] at this
        cases this
      · have := hna .access
        simpa [Standing.serve] using this
    · rename_i g a hg1
      obtain ⟨b1, x, b3, b2⟩ := Arbiter.grantNext_serves hg1
      have first : (s.lane l).arbiter.standing.attention = false → s.chooseAttention l = none →
          (s.lane l).arbiter.pick = some .access → x = .access := by
        intro h1 h2 h3
        have hb : b = false := by
          cases b with
          | false => rfl
          | true =>
            rcases q3 rfl with h | h
            · rw [h1] at h; cases h
            · rw [h2] at h; cases h
        have : (s1.lane l).arbiter = (s.lane l).arbiter := by rw [q1, hb, ← h1]
        rw [this, h3] at b3
        cases b3; rfl
      have hst : (s1.lane l).arbiter.standing = { (s.lane l).arbiter.standing with attention := b } := by rw [q1]
      rw [hst] at b2
      have r1 : ((s1.modLane l (fun n => { n with arbiter := a })).lane l).arbiter = a := by rw [State.lane_modLane_self]
      have r2 : s.sameAccess l (s1.modLane l (fun n => { n with arbiter := a })) := q6.trans (sameAccess_modLane _ l _ (fun _ => rfl))
      have r3 : s.sameChoices l (s1.modLane l (fun n => { n with arbiter := a })) :=
        q2.trans (State.sameChoices_modLane _ l _ (fun _ => ⟨rfl, rfl, rfl, rfl, rfl⟩))
      generalize s1.modLane l (fun n => { n with arbiter := a }) = s2 at *
      have send : ∀ (t : State) (m : Telegram), (t.lane l).arbiter = a → s.sameAccess l t →
          ((t.startTelegram l m).lane l).arbiter = a ∧ s.sameAccess l (t.startTelegram l m)
            ∧ ((t.startTelegram l m).lane l).engine = some { telegram := m, attempt := 1, phase := .sending }
            ∧ ((t.startTelegram l m).lane l).attention = (t.lane l).attention := by
        intro t m h1 h2
        refine ⟨?_, h2.trans (sameAccess_startTelegram _ _ _), ?_, ?_⟩ <;> unfold State.startTelegram <;> rw [State.lane_modLane_self]
        exact h1
      have other : ∀ m, (∀ y, g ≠ .access y) → g ≠ .attention → a.standing.access = (s.lane l).arbiter.standing.access →
          a.standing.attention = b → x ≠ .access → s.arbiterMet l (s2.startTelegram l m) := by
        intro m n1 n2 n3 n4 n5
        obtain ⟨d1, d2, d3, _⟩ := send s2 m r1 r2
        refine ⟨fun h => ?_, fun h => ?_, fun h1 h2 => .inr ?_, fun h => ⟨?_, fun y hy => ?_, d2⟩,
          fun b' r kind token h1 h2 h3 => .inl ⟨?_, d2, fun y hy => ?_⟩, fun h1 h2 h3 => absurd (first h1 h2 h3) n5⟩
        · rw [d1, b1] at h; cases h
        · rw [d1, b1] at h; cases h; exact absurd rfl n2
        · rw [d1, n4]; exact q5 h1 h2
        · rw [d1, n3]; exact h
        · rw [d1, b1] at hy; cases hy; exact n1 y rfl
        · rw [d1, n3]; exact h1
        · rw [d1, b1] at hy; cases hy; exact n1 y rfl
      cases x with
      | survey =>
        simp only [Standing.serve, Option.map_eq_some_iff, Prod.mk.injEq] at b2
        obtain ⟨w, _, rfl, hq⟩ := b2
        exact other _ (fun _ h => by cases h) (fun h => by cases h) (by rw [← hq]) (by rw [← hq]) (fun h => by cases h)
      | poll =>
        simp only [Standing.serve, Option.map_eq_some_iff, Prod.mk.injEq] at b2
        obtain ⟨w, _, rfl, hq⟩ := b2
        exact other _ (fun _ h => by cases h) (fun h => by cases h) (by rw [← hq]) (by rw [← hq]) (fun h => by cases h)
      | access =>
        simp only [Standing.serve, Option.map_eq_some_iff, Prod.mk.injEq] at b2
        obtain ⟨y, hy, rfl, hq⟩ := b2
        simp only []
        have hrun : (s2.lane l).run = (s.lane l).run := r2.2.2.2
        have hstand : ∀ r, s2.runStands r = s.runStands r := by
          intro r
          unfold State.runStands State.target?
          rw [r3.1]
        -- a grant that ends without a telegram
        have null : ∀ u : State, (u.lane l).arbiter = { a with grant := none } → s.sameChoices l u →
            (∀ r kind token, (s.lane l).run = some r → s.unit = .accessWait kind token l → s.runStands r = false
              ∧ (u.lane l).run = none ∧ u.unit = .replying none ∧ u.accessTimer = none
              ∧ u.link = s.link.send { kind := kind + 0x80, token := token, status := .nodeLost, payload := r.payload }) →
            s.arbiterMet l (arbitrateRounds k l u) := by
          intro u hu hc hx
          obtain ⟨m1, m2, m3, m4, _⟩ := ih u (by rw [hu]) (by
            unfold State.idleGrants at *
            rw [hc.choose, hu]
            simp only []
            rw [← hq]
            simp only [Option.isSome_none, Bool.false_eq_true, if_false]
            rw [hy] at hk
            simp only [Option.isSome_some, if_true] at hk
            cases b with
            | false => simp; omega
            | true =>
              rcases q3 rfl with h | h
              · rw [h] at hk; omega
              · cases hc' : s.chooseAttention l with
                | none => rw [hc'] at h; cases h
                | some _ => simp; omega)
          rw [hc.choose] at m2 m3
          rw [hc.2.2.1] at m3
          obtain ⟨n1, n2, n3⟩ := m4 (by rw [hu]; simp only []; rw [← hq])
          refine ⟨m1, m2, m3, fun h => ?_, fun b' r kind token h1 h2 h3 => .inr ⟨n1, .inr ?_⟩, fun _ _ _ => n1⟩
          · rw [hy] at h; cases h
          · obtain ⟨x1, x2, x3, x4, x5⟩ := hx r kind token h2 h3
            exact ⟨x1, n3.2.2.2.trans x2, n3.2.1.trans x3, n3.2.2.1.trans x4, n2, n3.1.trans x5⟩
        split
        · rename_i r hr
          rw [hrun] at hr
          rw [hstand]
          split
          · rename_i hs
            obtain ⟨d1, d2, d3, _⟩ := send s2 r.telegram r1 r2
            refine ⟨fun h => ?_, fun h => ?_, fun h1 h2 => .inr ?_, fun h => ?_,
              fun b' r' kind token h1 h2 h3 => .inr ⟨?_, .inl ?_⟩, fun _ _ _ => by rw [d1, ← hq]⟩
            · rw [d1, b1] at h; cases h
            · rw [d1, b1] at h; cases h
            · rw [d1, ← hq]; exact q5 h1 h2
            · rw [hy] at h; cases h
            · rw [d1, ← hq]
            · rw [hr] at h2; cases h2
              rw [hy] at h1; cases h1
              exact ⟨hs, d2, by rw [d1, b1], d3⟩
          · rename_i hs
            refine null _ ?_ ?_ ?_
            · unfold State.releaseGrant
              rw [State.lane_modLane_self]
              simp only []
              have : ((s2.endAccess l .nodeLost).lane l).arbiter = (s2.lane l).arbiter := by
                unfold State.endAccess
                split
                · split
                  · rw [State.lane_replyThen]
                    change ((s2.modLane l (fun n => { n with run := none })).lane l).arbiter = _
                    rw [State.lane_modLane_self]
                  · rfl
                · rfl
              rw [this, r1]
            · refine r3.trans (State.sameChoices.trans ?_ (State.sameChoices_modLane _ l _ (fun _ => ⟨rfl, rfl, rfl, rfl, rfl⟩)))
              unfold State.endAccess
              split
              · split
                · exact State.sameChoices_modLane s2 l (fun n => { n with run := none }) (fun _ => ⟨rfl, rfl, rfl, rfl, rfl⟩)
                · exact ⟨rfl, rfl, rfl, rfl, rfl, rfl⟩
              · exact ⟨rfl, rfl, rfl, rfl, rfl, rfl⟩
            · intro r' kind token h1 h2
              rw [hr] at h1; cases h1
              have he : s2.endAccess l .nodeLost = ({ s2.modLane l (fun n => { n with run := none }) with accessTimer := none } : State).replyThen
                  { kind := kind + 0x80, token := token, status := .nodeLost, payload := r.payload } none := by
                unfold State.endAccess
                rw [r2.2.1, h2, hrun, hr]
                simp
              refine ⟨by simpa using hs, ?_, ?_, ?_, ?_⟩
              · unfold State.releaseGrant
                rw [State.lane_modLane_self]
                simp only []
                rw [he, State.lane_replyThen]
                change ((s2.modLane l (fun n => { n with run := none })).lane l).run = none
                rw [State.lane_modLane_self]
              · rw [he]; rfl
              · rw [he]; rfl
              · rw [he, ← r2.1]; rfl
        · rename_i hr
          rw [hrun] at hr
          refine null _ ?_ (r3.trans (State.sameChoices_modLane _ l _ (fun _ => ⟨rfl, rfl, rfl, rfl, rfl⟩))) ?_
          · unfold State.releaseGrant
            rw [State.lane_modLane_self]
            simp only []
            rw [r1]
          · intro r kind token h1
            rw [hr] at h1; cases h1
      | attention =>
        simp only [Standing.serve] at b2
        split at b2
        · rename_i hb
          simp only [Option.some.injEq, Prod.mk.injEq] at b2
          obtain ⟨rfl, hq⟩ := b2
          simp only []
          rw [r3.choose]
          split
          · rename_i m h hc
            obtain ⟨d1, d2, d3, d4⟩ := send (s2.modLane l (fun n => { n with attention := { n.attention with heed := h } })) m
              (by rw [State.lane_modLane_self]; exact r1) (r2.trans (sameAccess_modLane _ l _ (fun _ => rfl)))
            refine ⟨fun h => ?_, fun _ => ⟨m, h, hc, ?_, d3⟩, fun _ _ => .inl (by rw [d1, b1]), fun h => ⟨?_, fun y hy => ?_, d2⟩,
              fun b' r kind token h1 h2 h3 => .inl ⟨?_, d2, fun y hy => ?_⟩, fun h1 h2 h3 => by cases first h1 h2 h3⟩
            · rw [d1, b1] at h; cases h
            · rw [d4, State.lane_modLane_self]
            · rw [d1, ← hq]; exact h
            · rw [d1, b1] at hy; cases hy
            · rw [d1, ← hq]; exact h1
            · rw [d1, b1] at hy; cases hy
          · rename_i hc
            have u1 : ((s2.releaseGrant l).lane l).arbiter = { a with grant := none } := by
              unfold State.releaseGrant
              rw [State.lane_modLane_self]
              simp only []
              rw [r1]
            have u2 : s.sameChoices l (s2.releaseGrant l) :=
              r3.trans (State.sameChoices_modLane _ l _ (fun _ => ⟨rfl, rfl, rfl, rfl, rfl⟩))
            have u3 : s.sameAccess l (s2.releaseGrant l) := r2.trans (sameAccess_releaseGrant _ _)
            have u4 : (s2.releaseGrant l).runStands = s.runStands := by
              funext r
              unfold State.runStands State.target?
              rw [u2.1]
            have u5 : ((s2.releaseGrant l).lane l).arbiter.standing.access = (s.lane l).arbiter.standing.access := by
              rw [u1]; simp only []; rw [← hq]
            obtain ⟨m1, m2, m3, m4, m5, _⟩ := ih (s2.releaseGrant l) (by rw [u1]) (by
              unfold State.idleGrants at *
              rw [u2.choose, u5, u1]
              simp only []
              rw [← hq]
              have hsa : (s.lane l).arbiter.standing.attention = true := by
                rcases q3 (by simpa using hb) with h | h
                · exact h
                · rw [hc] at h; cases h
              rw [hsa, hc] at hk
              simp only [Option.isNone_none, Bool.and_self, if_true] at hk
              simp only [Bool.false_and, Bool.false_eq_true, if_false]
              omega)
            rw [u2.choose] at m2 m3
            rw [u2.2.2.1] at m3
            rw [u5] at m4 m5
            rw [u3.2.2.2, u3.2.1, u4, u3.1] at m5
            refine ⟨m1, m2, m3, fun h => ?_, fun b' r kind token h1 h2 h3 => ?_, fun h1 h2 h3 => by cases first h1 h2 h3⟩
            · obtain ⟨n1, n2, n3⟩ := m4 h
              exact ⟨n1, n2, u3.trans n3⟩
            · rcases m5 b' r kind token h1 h2 h3 with ⟨n1, n2, n3⟩ | ⟨n1, ⟨n2, n3, n4⟩ | n2⟩
              · exact .inl ⟨n1, u3.trans n2, n3⟩
              · exact .inr ⟨n1, .inl ⟨n2, u3.trans n3, n4⟩⟩
              · exact .inr ⟨n1, .inr n2⟩
        · cases b2

/-- R114: what the arbiter of a lane does with the wire free. -/
theorem arbitrate_met (s : State) (l : LaneId) (hg : (s.lane l).arbiter.grant = none) : s.arbiterMet l (s.arbitrate l) :=
  arbitrateRounds_met _ l s hg (by
    unfold State.idleGrants arbiterRounds
    split <;> split <;> omega)

theorem State.runStands_iff (s : State) (r : Run) : s.runStands r = true ↔ s.holdsRun r := by
  unfold State.runStands State.holdsRun
  cases h : s.target? r.target with
  | none => simp
  | some e => simp

theorem Run.telegram_asked (r : Run) : r.asksFor r.telegram := by
  unfold Run.asksFor Run.telegram
  cases r.kind <;> simp

theorem Arbiter.pick_access {a : Arbiter} (h1 : a.standing.attention = false) (h2 : a.standing.access.isSome)
    (h3 : ∀ x, a.passed.of x < 8) : a.pick = some .access := by
  unfold Arbiter.pick
  have : a.standing.list.find? (fun r => decide (Config.dueCount ≤ a.passed.of r)) = none := by
    rw [List.find?_eq_none]
    intro x _
    have := h3 x
    simp only [Config.dueCount, decide_eq_true_eq]
    omega
  rw [this]
  unfold Standing.list
  rw [h1, h2]
  rfl

theorem State.chooseAttention_none {s : State} {l : LaneId} (h1 : (s.lane l).attention.clearList = []) (h2 : ∀ v, ¬ s.servesLevel l v)
    (h3 : ¬ (s.lane l).rollcalls) : s.chooseAttention l = none := by
  unfold State.chooseAttention
  rw [h1, (serviceLevel_none s l).mpr h2]
  rw [← Lane.rollcallDue_iff] at h3
  simp [h3]

/-- R123, R132: the next grant after one that has ended, and what it sends. -/
theorem State.endGrant_met (s : State) (l : LaneId) (he : (s.lane l).engine = none) :
    s.accessMet l (s.endGrant l) ∧ s.attentionMet l (s.endGrant l) := by
  have ht : s.endGrant l = (s.releaseGrant l).arbitrate l := by
    unfold State.endGrant
    rw [he]; rfl
  have hl : (s.releaseGrant l).lane l = { s.lane l with arbiter := { (s.lane l).arbiter with grant := none } } := by
    unfold State.releaseGrant
    rw [State.lane_modLane_self]
  have hc : s.sameChoices l (s.releaseGrant l) := State.sameChoices_modLane _ _ _ (fun _ => ⟨rfl, rfl, rfl, rfl, rfl⟩)
  obtain ⟨m1, m2, m3, m4, m5, m6⟩ := arbitrate_met (s.releaseGrant l) l (by rw [hl])
  rw [← ht, hc.choose] at m2 m3 m6
  rw [← ht] at m1 m4 m5
  rw [hl] at m3 m4 m5 m6
  simp only [] at m3 m4 m5 m6
  have hr : ∀ r, (s.releaseGrant l).runStands r = s.runStands r := fun r => rfl
  refine ⟨fun b r kind token h1 h2 h3 => ?_, fun hd => ⟨fun h => ?_, fun h1 h2 => ?_⟩⟩
  · obtain m5 := m5 b r kind token h1 h3 h2
    rw [hr] at m5
    have hacc : ∀ t : State, (s.releaseGrant l).sameAccess l t →
        (t.lane l).run = some r ∧ t.unit = s.unit ∧ t.accessTimer = s.accessTimer ∧ t.link = s.link := by
      intro t h
      obtain ⟨a1, a2, a3, a4⟩ := h
      rw [hl] at a4
      exact ⟨a4.trans h3, a2, a3, a1⟩
    refine ⟨fun h => ?_, fun h => ⟨fun hs => ?_, fun hs => ?_⟩, fun hf h => ?_⟩
    · rcases m5 with ⟨_, n2, n3⟩ | ⟨n1, _⟩
      · obtain ⟨a1, a2, a3, a4⟩ := hacc _ n2
        refine ⟨a1, a2, a3, a4, ?_⟩
        cases hg : ((s.endGrant l).lane l).arbiter.grant with
        | none =>
          have := (Standing.list_serves ((s.endGrant l).lane l).arbiter.standing .access)
          rw [m1 hg] at this
          simp [Standing.serve, h] at this
        | some g =>
          refine ⟨g, rfl, fun hx => ?_⟩
          cases g <;> simp only [Grant.requestor, reduceCtorEq] at hx
          exact n3 _ hg
      · rw [n1] at h; cases h
    · rw [← State.runStands_iff] at hs
      rcases m5 with ⟨n1, _⟩ | ⟨_, ⟨_, n2, n3, n4⟩ | ⟨n1, _⟩⟩
      · exact absurd n1 h
      · obtain ⟨a1, a2, a3, a4⟩ := hacc _ n2
        exact ⟨a1, a2, a3, a4, n3, _, Run.telegram_asked r, n4⟩
      · rw [hs] at n1; cases n1
    · rw [← State.runStands_iff] at hs
      rcases m5 with ⟨n1, _⟩ | ⟨_, ⟨n1, _⟩ | ⟨_, n2, n3, n4, n5, n6⟩⟩
      · exact absurd n1 h
      · exact absurd n1 hs
      · exact ⟨n2, n3, n4, n5, n6⟩
    · obtain ⟨f1, f2, f3, f4, f5⟩ := hf
      have := m6 f1 (State.chooseAttention_none f2 f3 f4) (Arbiter.pick_access f1 (by simp [h1]) f5)
      rw [this] at h; cases h
  · obtain ⟨m, x, n1, n2, n3⟩ := m2 h
    exact ⟨m, x, (State.chooseAttention_iff hd l m x).mp n1, n2, n3⟩
  · obtain ⟨m, x, n1⟩ := h2
    refine m3 ?_ ?_
    · rcases h1 with h | h <;> rw [h] <;> rfl
    · rw [(State.chooseAttention_iff hd l m x).mpr n1]; rfl

/-- R114, R132: where nothing else is asked of a serving lane, its Attention Service sends what it chooses, or the lane idles. -/
theorem arbitrate_alone {s : State} {l : LaneId} (hs : (s.lane l).state.serving = true) (ha : (s.lane l).arbiter = Arbiter.cold) :
    (∀ m h, s.chooseAttention l = some (m, h) → s.arbitrate l = s.modLane l (fun n => { n with
        arbiter := { Arbiter.cold with grant := some .attention }, attention := { n.attention with heed := h }
        engine := some { telegram := m, attempt := 1, phase := .sending } }))
      ∧ (s.chooseAttention l = none → s.arbitrate l = s) := by
  refine ⟨fun m h hc => ?_, fun hc => ?_⟩
  · unfold State.arbitrate arbiterRounds arbitrateRounds State.requestAttention
    simp only []
    rw [s.hasAttentionWork_iff l, hc, hs, ha]
    simp only [Arbiter.cold, Bool.not_false, Bool.and_true, Option.isSome_some, ne_eq, reduceCtorEq, not_false_eq_true, decide_true,
      if_true, State.lane_modLane_self]
    rw [ha]
    have hg : ({ Arbiter.cold with standing := { Arbiter.cold.standing with attention := true } } : Arbiter).grantNext
        = some (.attention, { Arbiter.cold with grant := some .attention }) := by decide
    unfold Arbiter.cold at hg ⊢
    simp only [hg]
    simp only [State.modLane_modLane]
    split
    · rename_i m' h' hc'
      have hc' := hc'.symm.trans (State.sameChoices.choose (State.sameChoices_modLane s l _ (by exact fun _ => ⟨rfl, rfl, rfl, rfl, rfl⟩)))
      rw [hc] at hc'
      cases hc'
      simp only [State.startTelegram, State.modLane_modLane]
    · rename_i hc'
      have hc' := hc'.symm.trans (State.sameChoices.choose (State.sameChoices_modLane s l _ (by exact fun _ => ⟨rfl, rfl, rfl, rfl, rfl⟩)))
      rw [hc] at hc'
      cases hc'
  · unfold State.arbitrate arbiterRounds arbitrateRounds State.requestAttention
    simp only []
    rw [s.hasAttentionWork_iff l, hc, hs, ha]
    have hg : Arbiter.cold.grantNext = none := by decide
    simp [ha, hg]

end Sys2Proof.Machine
end

