-- ==== Sys2Proof/Laws/Node.lean ====
section
/-! SUPPORT. The node's side: a telegram's bytes are read as that telegram, bytes that fail their CRC-8 are ignored, and a
node stays within its bounds. -/

namespace Sys2Proof.Machine

/-! ### Telegrams (R198) -/

theorem byteDigits_pack (a b c d : Digit) : byteDigits (byteOf (64 * a.val + 16 * b.val + 4 * c.val + d.val)) = [a, b, c, d] := by
  revert a b c d; decide

theorem packDigits_length : ∀ p : Digits, (packDigits p).length = (2 * p.length + 7) / 8
  | [] => rfl
  | [_] => by simp [packDigits]
  | [_, _] => by simp [packDigits]
  | [_, _, _] => by simp [packDigits]
  | a :: b :: c :: d :: rest => by
    have := packDigits_length rest
    simp only [packDigits, List.length_cons, this]; omega

/-- The digits packed are the first of those unpacked. -/
theorem take_unpack : ∀ p : Digits, ((packDigits p).flatMap byteDigits).take p.length = p
  | [] => rfl
  | [a] => by revert a; decide
  | [a, b] => by revert a b; decide
  | [a, b, c] => by revert a b c; decide
  | a :: b :: c :: d :: rest => by
    have := take_unpack rest
    simp [packDigits, byteDigits_pack, this]

/-- R198: a prefix is read back from its packed bytes. -/
theorem readPrefix_pack (p : Digits) (h : p.length ≤ 20) : readPrefix (2 * p.length) (packDigits p) = some p := by
  unfold readPrefix
  rw [if_pos ⟨by omega, by omega, packDigits_length p⟩, show 2 * p.length / 2 = p.length by omega, take_unpack]

/-- What a telegram's fields are on the wire: addresses of 1..30, object numbers in a byte, prefixes of at most 40 bits; of
DESCRIBE the address alone is sent. -/
def Telegram.sendable : Telegram → Prop
  | .forget => True
  | .survey p => p.length ≤ Config.tagDigits
  | .assign _ a => 1 ≤ a ∧ a ≤ Config.maxOnLane
  | .describe a identity => a ≤ Config.maxOnLane ∧ identity = false
  | .ping a => a ≤ Config.maxOnLane
  | .read a o => a ≤ Config.maxOnLane ∧ o < 256
  | .write a o _ => a ≤ Config.maxOnLane ∧ o < 256
  | .rollcall => True
  | .heed a => a ≤ Config.maxOnLane
  | .clear a => a ≤ Config.maxOnLane

theorem byteOf_small {n : Nat} (h : n < 256) : (byteOf n).toNat = n := by simp [byteOf, Nat.mod_eq_of_lt h]

/-- R198: the bytes of a telegram are read as that telegram. -/
theorem readTelegram_bytes (t : Telegram) (h : t.sendable) : readTelegram t.bytes = some t := by
  have key : readTelegram t.bytes = spellTelegram t.kindCode t.addressByte t.payload := by
    simp [readTelegram, Telegram.bytes]
  rw [key]
  cases t <;> simp only [Telegram.sendable, Config.maxOnLane, Config.tagDigits] at h
  case survey p =>
    change (readPrefix (byteOf (2 * p.length)).toNat (packDigits p)).map Telegram.survey = _
    rw [byteOf_small (by omega), readPrefix_pack p h]; rfl
  case assign tag a =>
    change (if 1 ≤ (byteOf a).toNat ∧ (byteOf a).toNat ≤ 30 then some (Telegram.assign (mkTag _ (word32 _ _ _ _)) (byteOf a).toNat)
      else none) = _
    rw [byteOf_small (by omega), mkTag_be40, if_pos h]
  case write a o v =>
    change some (Telegram.write (byteOf a).toNat (byteOf o).toNat (word32 _ _ _ _)) = _
    rw [byteOf_small (by omega), byteOf_small (by omega), word32_be32]
  case describe a i =>
    obtain ⟨h, rfl⟩ := h
    change some (Telegram.describe (byteOf a).toNat false) = _
    rw [byteOf_small (by omega)]
  case read a o =>
    change some (Telegram.read (byteOf a).toNat (byteOf o).toNat) = _
    rw [byteOf_small (by omega), byteOf_small (by omega)]
  case ping a => exact congrArg (fun x => some (Telegram.ping x)) (byteOf_small (by omega))
  case heed a => exact congrArg (fun x => some (Telegram.heed x)) (byteOf_small (by omega))
  case clear a => exact congrArg (fun x => some (Telegram.clear x)) (byteOf_small (by omega))
  all_goals rfl

/-- R30: bytes that fail their CRC-8 do nothing at a node. -/
theorem Node.hear_failed (n : Node) (kind addr : Byte) (p : List Byte) (check : Byte) (d : Bool)
    (h : check ≠ crc8 (kind :: addr :: p)) : n.hear (0xB4 :: kind :: addr :: (p ++ [check])) d = (n, .silent) := by
  unfold Node.hear readTelegram
  simp [h]

/-- R30: the bytes of a telegram act as that telegram. -/
theorem Node.hear_bytes (n : Node) (t : Telegram) (d : Bool) (h : t.sendable) : n.hear t.bytes d = n.receive t d := by
  unfold Node.hear; rw [readTelegram_bytes t h]

theorem Node.fits_unnamed {n : Node} (h : n.fits = true) : ({ n with addr := 0, condition := none } : Node).fits = true := by
  simp_all [Node.fits]

/-- A node stays within its bounds whatever telegram reaches it. -/
theorem Node.fits_receive (n : Node) (t : Telegram) (d : Bool) (h : n.fits = true) (ht : t.sendable) :
    (n.receive t d).1.fits = true := by
  have hw : ∀ o v, (n.writeAt o v d).1.fits = true := by
    intro o v
    unfold Node.writeAt
    split
    · simp_all [Node.fits, Node.named]
    · exact h
  cases t <;> simp only [Node.receive, Telegram.sendable, Config.maxOnLane] at ht ⊢ <;> try exact h
  case forget => exact Node.fits_unnamed h
  case assign tag a =>
    split
    · simp only [Node.fits, Node.named, Bool.and_eq_true, decide_eq_true_eq, Bool.or_eq_true] at h ⊢
      obtain ⟨⟨⟨⟨⟨⟨h1, h2⟩, h3⟩, h4⟩, h5⟩, h6⟩, h7⟩ := h
      exact ⟨⟨⟨⟨⟨⟨h1, h2⟩, h3⟩, h4⟩, ht.2⟩, .inr (by omega)⟩, h7⟩
    · exact h
  case write a o v =>
    split
    · exact hw o v
    · exact h
  case clear a =>
    split
    · simp_all [Node.fits]
    · exact h

theorem Node.fits_raise (n : Node) (c : Condition) (h : n.fits = true) : (n.raise c).fits = true := by
  unfold Node.raise
  split
  · simp_all [Node.fits, Node.named]
  · exact h

end Sys2Proof.Machine
end

