-- ==== Sys2Proof/Laws/Survey.lean ====
section
/-! SUPPORT. What the Survey Engine can do: each of its operations keeps a property that the
primitive changes keep, with the queue bounds, the power law and the order of the directory as examples. -/

namespace Sys2Proof.Machine

structure SurveyKeeps (D : Prop) (P : State → Prop) : Prop where
  settled : ∀ {s t : State}, s.settled t → P s → P t
  surv : ∀ (s : State) (l : LaneId) (f : Survey → Survey), (f (s.lane l).survey).pass = (s.lane l).survey.pass →
    (f (s.lane l).survey).naming = (s.lane l).survey.naming ∨ (f (s.lane l).survey).naming = none → P s →
        P (s.modSurvey l f)
  req : ∀ (s : State) (l : LaneId) (w : SurveyWork), P s → P (s.requestSurvey l w)
  done : ∀ (s : State) (l : LaneId) (f : Lane → Lane), (s.lane l).survey.pass.isSome →
    (f (s.lane l)).state = .supervising → (f (s.lane l)).survey = Survey.cold →
        (f (s.lane l)).enabled = (s.lane l).enabled →
    (f (s.lane l)).power = (s.lane l).power → (f (s.lane l)).settleTimer = (s.lane l).settleTimer →
    (f (s.lane l)).restartTimer = (s.lane l).restartTimer → (f (s.lane l)).arbiter = (s.lane l).arbiter →
    (f (s.lane l)).attention = (s.lane l).attention ∨ (s.lane l).survey.pass = some .initial
      ∧ (f (s.lane l)).attention = Attention.cold → P s → P (s.modLane l f)
  startOld : ∀ (s : State) (l : LaneId) (t : Tag) (k : NamingKind) (h a : Nat), k ≠ .new →
    (∃ e ∈ s.dir.entries, e.handle = h ∧ e.lane = l ∧ e.addr = a) ∨ s.freeAddr l = some a → P s → P (s.startNaming l t k h a)
  startNew : ∀ (s : State) (l : LaneId) (t : Tag) (h a : Nat), s.freeHandle = some h → s.freeAddr l = some a →
      s.byTag? t = none → s.newElsewhere l t = false → P s → P (s.startNaming l t .new h a)
  named : ∀ (s : State) (l : LaneId) (n : Naming), (s.lane l).survey.naming = some n → n.kind = .new →
    (D → n.stage = .assign ∧ (s.lane l).state.surveying = true) → P s →
    P ((s.create (newEntry l n)).modSurvey l (fun v => { v with naming := some { n with stage := .describe } }))
  back : ∀ (s : State) (l : LaneId) (n : Naming) (e new : Entry), (s.lane l).survey.naming = some n → n.kind ≠ .new →
    (D → n.stage = .assign ∧ (s.lane l).state.surveying = true) → s.heldEntry? n = some e →
    new = e.rejoined ∨ new = e.reclaimed l n.addr → P s → P (s.comeBack e new)

variable {D : Prop} {P : State → Prop}

theorem calm_comeBackTo {s : State} {e new : Entry} (k : s.knows e) (hh : new.handle = e.handle)
    (ht : new.tag = e.tag) : s.calm (s.comeBackTo e new) := by
  unfold State.comeBackTo
  split
  · exact State.calm_update k hh ht
  · exact (State.calm_leaveRound s e).trans (State.calm_update k hh ht)

theorem calm_comeBack {s : State} {e new : Entry} (k : s.knows e) (hh : new.handle = e.handle)
    (ht : new.tag = e.tag) : s.calm (s.comeBack e new) := by
  unfold State.comeBack
  simp only []
  refine State.calm.trans ?_ (State.calm_reportPresence _ _ _)
  have := (calm_comeBackTo k hh ht).trans (State.calm_post _ (.node e.handle .rejoined))
  split
  · exact this
  · exact (this.trans (State.calm_endAttention _ _ _)).trans (State.calm_arbitrate _ _)

theorem calm_comeBack_held {s : State} {l : LaneId} {n : Naming} {e new : Entry} (he : s.heldEntry? n = some e)
    (hn : new = e.rejoined ∨ new = e.reclaimed l n.addr) : s.calm (s.comeBack e new) := by
  rcases hn with rfl | rfl
  · exact calm_comeBack (State.knows_of_heldEntry? he) rfl rfl
  · exact calm_comeBack (State.knows_of_heldEntry? he) rfl rfl

theorem settled_report (s : State) (h : Nat) (g : Tag) : s.settled (s.report h g) := State.settled_of rfl rfl rfl rfl

theorem SurveyKeeps.endPass (E : SurveyKeeps D P) (s : State) (l : LaneId) (h : P s) : P (s.endPass l) := by
  unfold State.endPass
  split
  · rename_i hp
    unfold State.endInitialPass
    refine E.settled (State.settled_reportFinished _ _) (E.settled (State.settled_pollRound _ _)
        (E.settled (State.settled_postLane _ _ _) ?_))
    exact E.done s l _ (by rw [hp]; rfl) rfl rfl rfl rfl rfl rfl rfl (.inr ⟨hp, rfl⟩) h
  · rename_i hp
    exact E.done s l _ (by rw [hp]; rfl) rfl rfl rfl rfl rfl rfl rfl (.inl rfl) h
  · exact h

theorem SurveyKeeps.walkNext (E : SurveyKeeps D P) (s : State) (l : LaneId) (h : P s) : P (s.walkNext l) := by
  unfold State.walkNext
  split
  · exact E.endPass s l h
  · exact E.req _ _ _ (E.surv _ _ _ rfl (.inl rfl) h)

theorem SurveyKeeps.beginWalk (E : SurveyKeeps D P) (s : State) (l : LaneId) (h : P s) : P (s.beginWalk l) :=
  E.walkNext _ _ (E.surv _ _ _ rfl (.inl rfl) h)

theorem SurveyKeeps.describeNext (E : SurveyKeeps D P) (s : State) (l : LaneId) (h : P s) : P (s.describeNext l) := by
  unfold State.describeNext
  split
  · exact E.req _ _ _ (E.surv _ _ _ rfl (.inl rfl) h)
  · exact E.beginWalk _ _ h

theorem SurveyKeeps.recallNext (E : SurveyKeeps D P) (s : State) (l : LaneId) (h : P s) : P (s.recallNext l) := by
  unfold State.recallNext
  split
  · exact E.req _ _ _ (E.surv _ _ _ rfl (.inl rfl) h)
  · exact E.describeNext _ _ (E.surv _ _ _ rfl (.inl rfl) h)

theorem SurveyKeeps.surveyNext (E : SurveyKeeps D P) (s : State) (l : LaneId) (h : P s) : P (s.surveyNext l) := by
  unfold State.surveyNext
  split
  · exact E.recallNext _ _ h
  · exact E.describeNext _ _ h
  · exact E.walkNext _ _ h
  · exact h
  · exact h

theorem settled_duplicate (s : State) (l : LaneId) (r : FaultRecord)
    : s.settled ((s.writeFault l r).modLane l (fun n => { n with duplicateSeen := true })) :=
  (s.settled_writeFault _ _).trans (State.settled_modLane _ _ _ (Lane.calm_of ⟨rfl, rfl, rfl, rfl, rfl, rfl, rfl,
      rfl⟩ rfl rfl))

theorem SurveyKeeps.surveyCollided (E : SurveyKeeps D P) (s : State) (l : LaneId) (p : Digits) (h : P s)
    : P (s.surveyCollided l p) := by
  unfold State.surveyCollided
  split
  · exact h
  · split
    · exact E.surveyNext _ _ (E.surv _ _ _ rfl (.inl rfl) h)
    · split
      · exact E.req _ _ _ (E.surv _ _ _ rfl (.inl rfl) h)
      · refine E.surveyNext _ _ ?_
        unfold State.duplicateFound
        refine E.surv _ _ _ rfl (.inl rfl) ?_
        have := E.settled (settled_duplicate s l { cause := .duplicateTag, addr := none, tag := some (digitsTag p) }) h
        split
        · exact this
        · exact E.settled (State.settled_recompute _) this

theorem SurveyKeeps.refuseNaming (E : SurveyKeeps D P) (s : State) (l : LaneId) (t : Tag) (c : FaultCause) (h : P s)
    : P (s.refuseNaming l t c) :=
  E.surveyNext _ _ (E.settled (State.settled_writeFault _ _ _) h)

theorem SurveyKeeps.nameReclaim (E : SurveyKeeps D P) (s : State) (l : LaneId) (t : Tag) (e : Entry)
    (he : e ∈ s.dir.entries) (h : P s) : P (s.nameReclaim l t e) := by
  unfold State.nameReclaim
  split
  · rename_i hl
    exact E.startOld _ _ _ _ _ _ (by decide) (.inl ⟨e, he, rfl, hl, rfl⟩) h
  · split
    · exact E.refuseNaming _ _ _ _ h
    · split
      · rename_i ha
        exact E.startOld _ _ _ _ _ _ (by decide) (.inr ha) h
      · exact E.refuseNaming _ _ _ _ h

/-- R50: the entry of a REJOIN decision is on the lane. -/
theorem State.decideNaming_rejoin {s : State} {l : LaneId} {t : Tag} {e : Entry} (h : s.decideNaming l t = .rejoin e) :
    e ∈ s.dir.entries ∧ e.lane = l := by
  unfold State.decideNaming at h
  split at h
  · rename_i x hx
    split at h
    · cases h
    · split at h
      · cases h
      · split at h
        · rename_i hl; cases h; exact ⟨List.mem_of_find?_eq_some hx, hl⟩
        · cases h
  · split at h <;> cases h

theorem State.decideNaming_reclaim {s : State} {l : LaneId} {t : Tag} {e : Entry} (h : s.decideNaming l t = .reclaim e) :
    e ∈ s.dir.entries := by
  unfold State.decideNaming at h
  split at h
  · rename_i x hx
    split at h
    · cases h
    · split at h
      · cases h; exact List.mem_of_find?_eq_some hx
      · split at h <;> cases h
  · split at h <;> cases h

theorem SurveyKeeps.surveyClean (E : SurveyKeeps D P) (s : State) (l : LaneId) (t : Tag) (h : P s)
    : P (s.surveyClean l t) := by
  unfold State.surveyClean
  simp only []
  have h1 : P (s.dropCurrent l) := E.surv _ _ _ rfl (.inl rfl) h
  generalize s.dropCurrent l = u at *
  split
  · rename_i e hd
    obtain ⟨h2, h3⟩ := State.decideNaming_rejoin hd
    exact E.startOld _ _ _ _ _ _ (by decide) (.inl ⟨e, h2, rfl, h3, rfl⟩) h1
  · rename_i e hd
    exact E.nameReclaim _ _ _ _ (State.decideNaming_reclaim hd) h1
  · exact E.refuseNaming _ _ _ _ h1
  · rename_i hd
    have hd : u.byTag? t = none ∧ u.newElsewhere l t = false := by
      unfold State.decideNaming at hd
      split at hd
      · split at hd
        · cases hd
        · split at hd
          · cases hd
          · split at hd <;> cases hd
      · rename_i hb
        split at hd
        · cases hd
        · rename_i hn
          exact ⟨hb, by simpa using hn⟩
    unfold State.nameNew
    split
    · exact E.refuseNaming _ _ _ _ h1
    · split
      · exact E.refuseNaming _ _ _ _ h1
      · split
        · rename_i ha hh
          exact E.startNew _ _ _ _ _ hh ha hd.1 hd.2 h1
        · exact E.refuseNaming _ _ _ _ h1
        · exact E.refuseNaming _ _ _ _ h1

theorem SurveyKeeps.endNaming (E : SurveyKeeps D P) (s : State) (l : LaneId) (h : P s) : P (s.endNaming l)
    := E.surv _ _ _ rfl (.inr rfl) h

theorem SurveyKeeps.assigned (E : SurveyKeeps D P) (s : State) (l : LaneId) (n : Naming)
    (hn : (s.lane l).survey.naming = some n) (hd : D → n.stage = .assign ∧ (s.lane l).state.surveying = true)
    (h : P s) : P (s.assigned l n) := by
  unfold State.assigned
  split
  · rename_i hk
    unfold State.assignedNew
    exact E.req _ _ _ (E.settled (settled_report _ _ _) (E.settled (State.settled_post _ _) (E.named s l n hn hk hd h)))
  · rename_i hk
    refine E.surveyNext _ _ (E.endNaming _ _ ?_)
    split
    · rename_i e he
      exact E.back s l n e _ hn (by rw [hk]; decide) hd he (.inl rfl) h
    · exact h
  · rename_i hk
    refine E.surveyNext _ _ (E.endNaming _ _ ?_)
    split
    · rename_i e he
      exact E.back s l n e _ hn (by rw [hk]; decide) hd he (.inr rfl) h
    · exact h

theorem calm_storeDescriptor (s : State) (t : Target) (d : Descriptor) : s.calm (s.storeDescriptor t d) := by
  unfold State.storeDescriptor
  split
  · rename_i e he
    simp only []
    have := State.calm_update (new := { e with descriptor := some d }) (State.knows_of_target? he) (by rfl) (by rfl)
    split
    · exact this.trans (State.calm_resolveIfResolved _)
    · exact this
  · exact .refl s

theorem calm_recallAnswered (s : State) (t : Target) (f : Bool) : s.calm (s.recallAnswered t f) := by
  unfold State.recallAnswered
  split
  · rename_i e he
    split
    · simp only []
      exact (((State.calm_update (State.knows_of_target? he) (by rfl) (by rfl)).trans (State.calm_post _ _)).trans
        (State.calm_postFault _ _ _)).trans (State.calm_reportPresence _ _ _)
    · exact .refl s
  · exact .refl s

theorem settled_storeDescriptor (s : State) (t : Target) (d : Descriptor) : s.settled (s.storeDescriptor t d) :=
  ⟨calm_storeDescriptor s t d, s.ordered_storeDescriptor t d⟩

theorem settled_recallAnswered (s : State) (t : Target) (f : Bool) : s.settled (s.recallAnswered t f) :=
  ⟨calm_recallAnswered s t f, s.ordered_recallAnswered t f⟩

theorem SurveyKeeps.describeOutcome (E : SurveyKeeps D P) (s : State) (l : LaneId) (t : Target)
    (o : TelegramOutcome) (h : P s) : P (s.describeOutcome l t o) := by
  unfold State.describeOutcome
  simp only []
  refine E.surveyNext _ _ (E.endNaming _ _ ?_)
  split
  · exact E.settled (settled_storeDescriptor _ _ _) h
  · exact E.settled (State.settled_writeFault _ _ _) h
  · exact h

theorem SurveyKeeps.recallOutcome (E : SurveyKeeps D P) (s : State) (l : LaneId) (t : Target) (o : TelegramOutcome)
    (h : P s) : P (s.recallOutcome l t o) := by
  unfold State.recallOutcome
  simp only []
  refine E.surveyNext _ _ ?_
  split
  · exact E.settled (settled_recallAnswered _ _ _) h
  · exact h

theorem SurveyKeeps.surveyOutcome (E : SurveyKeeps D P) (s : State) (l : LaneId) (w : SurveyWork) (o : TelegramOutcome)
    (hd : D → ∀ t a, w = .assign t a → (s.lane l).survey.naming.map (·.stage) = some .assign
      ∧ (s.lane l).state.surveying = true) (h : P s)
        : P (s.surveyOutcome l w o) := by
  unfold State.surveyOutcome
  split
  · exact E.beginWalk _ _ h
  · split
    · exact E.surveyNext _ _ (E.surv _ _ _ rfl (.inl rfl) h)
    · exact E.surveyCollided _ _ _ h
    · exact E.surveyClean _ _ _ h
    · exact h
  · rename_i t a
    split
    · rename_i n hn
      split
      · refine E.assigned _ _ _ hn (fun d => ?_) h
        obtain ⟨x, y⟩ := hd d t a rfl
        rw [hn] at x
        exact ⟨by simpa using x, y⟩
      · unfold State.assignSilent
        exact E.surveyNext _ _ (E.endNaming _ _ (E.settled (State.settled_writeFault _ _ _) h))
      · exact h
    · exact h
  · exact E.describeOutcome _ _ _ _ h
  · exact E.recallOutcome _ _ _ _ h

/-- R33, R116: the end of the wait for quiet. -/
theorem SurveyKeeps.quietWait (E : SurveyKeeps D P)
    (he : ∀ (s : State) (l : LaneId) (x : Option Underway), P s → P (s.modLane l (fun n => { n with engine := x })))
    (hr : ∀ (s : State) (l : LaneId), P s → P (s.releaseGrant l)) (s : State) (l : LaneId)
    (hd : D → ∀ w, (s.lane l).arbiter.grant = some (.survey w) → ∀ t a, w = .assign t a →
      (s.lane l).survey.naming.map (·.stage) = some .assign ∧ (s.lane l).state.surveying = true)
    (hs : P s) : P (s.quietWait l) := by
  unfold State.quietWait
  split
  · split
    · rename_i u hu _ r _
      unfold State.quietDone
      split
      · exact he _ _ _ hs
      · have h1 := he s l none hs
        have hsv : ((s.modLane l (fun n => { n with engine := none })).lane l).survey = (s.lane l).survey := by
          rw [State.lane_modLane_self]
        have hst : ((s.modLane l (fun n => { n with engine := none })).lane l).state = (s.lane l).state := by
          rw [State.lane_modLane_self]
        have hgr : ((s.modLane l (fun n => { n with engine := none })).lane l).arbiter = (s.lane l).arbiter := by
          rw [State.lane_modLane_self]
        generalize s.modLane l (fun n => { n with engine := none }) = t at *
        have hfin : ∀ x : State, P x → P (x.endGrant l) := by
          intro x hx
          unfold State.endGrant
          split
          · exact E.settled (State.settled_arbitrate _ _) (hr _ _ hx)
          · exact hx
        refine hfin _ ?_
        unfold State.deliver
        split
        · rename_i hg
          exact E.settled (State.settled_attentionOutcome _ _ _ _ hg) h1
        · rename_i b hb
          exact E.settled (State.settled_accessOutcome _ _ _ ⟨b, hb⟩) h1
        · rename_i w hw
          refine E.surveyOutcome _ _ _ _ (fun d => ?_) h1
          rw [hsv, hst]
          exact hd d w (hgr ▸ hw)
        · exact E.settled (State.settled_pollOutcome _ _ _ _) h1
        · exact h1
    all_goals exact hs
  · exact hs

/-! ### The queue bounds and the power law -/

theorem easy_queues : SurveyKeeps False State.queuesFit where
  settled h k := h.calm.queuesFit k
  surv _ _ _ _ _ h := h
  req _ _ _ h := h
  done _ _ _ _ _ _ _ _ _ _ _ _ h := h
  startOld _ _ _ _ _ _ _ _ h := h
  startNew _ _ _ _ _ _ _ _ _ h := h
  named _ _ _ _ _ _ h := h
  back _ _ _ _ _ _ _ _ he hn h := (calm_comeBack_held he hn).queuesFit h

theorem powerLaw_modLane {s : State} (l : LaneId) (f : Lane → Lane) (h : s.powerLaw)
    (hf : (f (s.lane l)).powerOk s.mate.session = true) :
    (s.modLane l f).powerLaw := by
  refine ⟨h.1, fun m => ?_⟩
  rw [State.lane_modLane]
  split
  · exact hf
  · exact h.2 m

theorem power_req (s : State) (l : LaneId) (w : SurveyWork) (h : s.powerLaw) : (s.requestSurvey l w).powerLaw :=
  powerLaw_modLane l _ h (h.2 l)

theorem power_surv (s : State) (l : LaneId) (f : Survey → Survey)
    (hp : (f (s.lane l).survey).pass = (s.lane l).survey.pass)
    (h : s.powerLaw) : (s.modSurvey l f).powerLaw := by
  refine powerLaw_modLane l _ h ?_
  have := h.2 l
  unfold Lane.powerOk at *
  simp only [hp] at *
  exact this

theorem easy_power : SurveyKeeps False State.powerLaw where
  settled h k := h.calm.powerLaw k
  surv s l f hp _ h := power_surv s l f hp h
  req := power_req
  done s l f hp h1 h2 h3 h4 h5 h6 _ _ h := by
    refine powerLaw_modLane l _ h ?_
    have := h.2 l
    unfold Lane.powerOk at *
    rw [h1, h2, h3, h4, h5, h6]
    revert this
    cases hst : (s.lane l).state <;> simp [hp, LaneState.powered, LaneState.working,
        Survey.cold] <;> intros <;> simp_all
  startOld s l t k a b hk _ h := power_req _ _ _ (power_surv s l _ rfl h)
  startNew s l t a b _ _ _ _ h := power_req _ _ _ (power_surv s l _ rfl h)
  named s l n hn hk hd h := power_surv (s.create (newEntry l n)) l _ rfl h
  back _ _ _ _ _ _ _ _ he hn h := (calm_comeBack_held he hn).powerLaw h

/-! ### The order of the directory -/

theorem reservation_modLane (s : State) (l m : LaneId) (f : Lane → Lane) :
    ((s.modLane l f).lane m).reservation = if m = l then (f (s.lane l)).reservation else (s.lane m).reservation := by
  rw [State.lane_modLane]; split
  · rfl
  · rfl

/-- What a change of a lane does to the order of the directory. -/
theorem dir_modLane {s : State} (h : s.directoryOk) (l : LaneId) (f : Lane → Lane)
    (hf : ∀ n, (f (s.lane l)).reservation = some n → (s.lane l).reservation = some n) : (s.modLane l f).directoryOk
        := by
  refine State.directoryOk_of h rfl (fun m n hn => ?_)
  rw [reservation_modLane] at hn
  split at hn
  · subst m; exact hf n hn
  · exact hn

theorem res_of_naming {n : Lane} {x : Naming} (h : n.survey.naming = some x) : n.reservation = if x.kind = .new
    ∧ x.stage = .assign then some x else none := by
  unfold Lane.reservation
  rw [h]
  by_cases a : x.kind = .new <;> by_cases b : x.stage = .assign <;> simp [a, b, Option.filter]

theorem mem_lanes : ∀ m : LaneId, m ∈ allLanes := by decide

theorem mem_reserved {s : State} {m : LaneId} {k : Naming} (h : (s.lane m).reservation = some k)
    : k.handle ∈ s.reserved := by
  unfold State.reserved
  rw [List.mem_filterMap]
  refine ⟨m, mem_lanes m, ?_⟩
  unfold Lane.reservation at h
  cases hn : (s.lane m).survey.naming with
  | none => rw [hn] at h; cases h
  | some x =>
    have h2 := res_of_naming hn
    unfold Lane.reservation at h2
    rw [h] at h2
    simp only []
    split at h2
    · rename_i hx; cases h2; rw [if_pos hx]
    · cases h2

theorem newElsewhere_of {s : State} {l m : LaneId} {t : Tag} {k : Naming} (hl : l ≠ m)
    (h : (s.lane m).reservation = some k) (ht : k.tag = t) :
    s.newElsewhere l t = true := by
  unfold State.newElsewhere
  rw [List.any_eq_true]
  refine ⟨m, mem_lanes m, ?_⟩
  unfold Lane.reservation at h
  cases hn : (s.lane m).survey.naming with
  | none => rw [hn] at h; cases h
  | some x =>
    have h2 := res_of_naming hn
    unfold Lane.reservation at h2
    rw [h] at h2
    split at h2
    · rename_i hx; cases h2; simp [hx, ht, Ne.symm hl]
    · cases h2

theorem mem_keys_entry {s : State} {k : Nat × Tag} (h : k ∈ s.keys) : ∃ e ∈ s.dir.entries, e.handle = k.1
    ∧ e.tag = k.2 := by
  obtain ⟨e, he, rfl⟩ := List.mem_map.1 h
  exact ⟨e, he, rfl, rfl⟩

theorem dir_startNew (s : State) (l : LaneId) (t : Tag) (h a : Nat) (hh : s.freeHandle = some h)
    (hb : s.byTag? t = none)
    (hn : s.newElsewhere l t = false) (k : s.directoryOk) : (s.startNaming l t .new h a).directoryOk := by
  unfold State.freeHandle at hh
  have h1 := List.mem_of_find?_eq_some hh
  have h2 := List.find?_some hh
  simp only [Bool.and_eq_true, Option.isNone_iff_eq_none, Bool.not_eq_true'] at h2
  obtain ⟨h2, h3⟩ := h2
  have hr : 1 ≤ h ∧ h ≤ Config.maxEntries := by
    rw [List.mem_range'_1] at h1; omega
  have hres : ∀ m, ((s.startNaming l t .new h a).lane m).reservation
      = if m = l then some { tag := t, kind := .new, handle := h, addr := a, stage := .assign } else (s.lane m).reservation := by
    intro m
    unfold State.startNaming State.requestSurvey State.modSurvey
    rw [reservation_modLane]
    split
    · subst m; exact res_of_naming (n := _) (x
        := { tag := t, kind := .new, handle := h, addr := a, stage := .assign }) (by rw [State.lane_modLane_self])
    · rw [reservation_modLane, if_neg (by assumption)]
  rw [State.directoryOk_iff] at *
  obtain ⟨k1, k2, k3, k4, k5⟩ := k
  have hkey : ∀ x ∈ s.keys, x.1 ≠ h ∧ x.2 ≠ t := by
    intro x hx
    obtain ⟨e, he, e1, e2⟩ := mem_keys_entry hx
    constructor
    · intro c
      have := List.find?_eq_none.1 h2 e he
      simp [e1, c] at this
    · intro c
      have := List.find?_eq_none.1 hb e he
      simp [e2, c] at this
  have hother : ∀ m k, l ≠ m → (s.lane m).reservation = some k → k.handle ≠ h ∧ k.tag ≠ t := by
    intro m k hm hk
    constructor
    · intro c
      have := mem_reserved hk
      rw [c] at this
      have h3' : s.reserved.contains h = true := by simpa using this
      rw [h3] at h3'; cases h3'
    · intro c
      rw [newElsewhere_of hm hk c] at hn; cases hn
  refine ⟨k1, k2, k3, ?_, ?_⟩
  · intro m n hmn
    rw [hres] at hmn
    split at hmn
    · cases hmn; exact ⟨hr.1, hr.2, hkey⟩
    · exact k4 m n hmn
  · intro i j n k hij hi hj
    rw [hres] at hi hj
    split at hi
    · rename_i hil; subst hil
      rw [if_neg (Ne.symm hij)] at hj
      cases hi
      have := hother j k hij hj
      exact ⟨this.1.symm, this.2.symm⟩
    · split at hj
      · rename_i hjl; subst hjl
        cases hj
        exact hother i n (Ne.symm hij) hi
      · exact k5 i j n k hij hi hj

theorem insertEntry_perm (e : Entry) (xs : List Entry) : (insertEntry e xs).Perm (e :: xs) := by
  induction xs with
  | nil => exact .refl _
  | cons x xs ih =>
    unfold insertEntry
    split
    · exact .refl _
    · exact (ih.cons x).trans (.swap _ _ _)

theorem insertEntry_sorted (e : Entry) (xs : List Entry) (h : xs.Pairwise (fun a b => a.handle < b.handle))
    (hn : ∀ x ∈ xs, x.handle ≠ e.handle) :
    (insertEntry e xs).Pairwise (fun a b => a.handle < b.handle) := by
  induction xs with
  | nil => simp [insertEntry]
  | cons x xs ih =>
    unfold insertEntry
    obtain ⟨h1, h2⟩ := List.pairwise_cons.1 h
    split
    · rename_i hlt
      refine List.pairwise_cons.2 ⟨fun y hy => ?_, h⟩
      rcases List.mem_cons.1 hy with rfl | hy
      · exact hlt
      · exact hlt.trans (h1 y hy)
    · rename_i hnlt
      refine List.pairwise_cons.2 ⟨fun y hy => ?_, ih h2 (fun y hy => hn y (List.mem_cons_of_mem _ hy))⟩
      rcases List.mem_cons.1 ((insertEntry_perm e xs).mem_iff.1 hy) with rfl | hy
      · have := hn x (List.mem_cons_self ..); omega
      · exact h1 y hy

theorem dir_named (s : State) (l : LaneId) (n : Naming) (hn : (s.lane l).survey.naming = some n)
    (hk : n.kind = .new) (hs : n.stage = .assign)
    (h : s.directoryOk) : ((s.create (newEntry l n)).modSurvey l (fun v => { v with naming := some { n with stage := .describe } })).directoryOk := by
  obtain ⟨k1, k2, k3, k4, k5⟩ := h
  have hres := res_of_naming hn
  rw [if_pos ⟨hk, hs⟩] at hres
  obtain ⟨a1, a2, a3⟩ := k4 l n hres
  have hr : ∀ m, (((s.create (newEntry l n)).modSurvey l (fun v => { v with naming := some { n with stage := .describe } })).lane m).reservation
      = if m = l then none else (s.lane m).reservation := by
    intro m
    unfold State.modSurvey
    rw [reservation_modLane]
    split
    · refine (res_of_naming (x := { n with stage := .describe }) rfl).trans ?_
      simp
    · rfl
  have hmem : ∀ x, x ∈ (s.create (newEntry l n)).dir.entries ↔ x = newEntry l n ∨ x ∈ s.dir.entries := by
    intro x
    change x ∈ insertEntry _ _ ↔ _
    rw [(insertEntry_perm _ _).mem_iff, List.mem_cons]
  refine ⟨insertEntry_sorted _ _ k1 (fun x hx => (a3 x hx).1), ?_, ?_, ?_, ?_⟩
  · change (insertEntry _ _).Pairwise _
    rw [(insertEntry_perm _ _).pairwise_iff (fun h => h.symm)]
    exact List.pairwise_cons.2 ⟨fun x hx => Ne.symm (a3 x hx).2, k2⟩
  · intro e he
    rcases (hmem e).1 he with rfl | he
    · exact ⟨a1, a2⟩
    · exact k3 e he
  · intro m k hm
    rw [hr] at hm
    split at hm
    · cases hm
    · obtain ⟨b1, b2, b3⟩ := k4 m k hm
      refine ⟨b1, b2, fun e he => ?_⟩
      rcases (hmem e).1 he with rfl | he
      · exact k5 l m n k (by rename_i x; exact Ne.symm x) hres hm
      · exact b3 e he
  · intro i j a b hij hi hj
    rw [hr] at hi hj
    split at hi
    · cases hi
    · split at hj
      · cases hj
      · exact k5 i j a b hij hi hj

theorem easy_dir : SurveyKeeps True State.directoryOk where
  settled h k := h.calm.directoryOk k
  surv s l f _ hf h := dir_modLane h l _ (fun n hn => by
    unfold Lane.reservation at *
    rcases hf with hf | hf
    · rw [← hf]; exact hn
    · have : (none : Option Naming).filter (fun x => decide (x.kind = .new) && decide (x.stage = .assign)) = some n
        := hf ▸ hn
      cases this)
  req s l w h := dir_modLane h l _ (fun n hn => hn)
  done s l f _ _ hs _ _ _ _ _ _ h := dir_modLane h l _ (fun n hn => by
    unfold Lane.reservation at hn; rw [hs] at hn; cases hn)
  startOld s l t k a b hk _ h := by
    refine dir_modLane (s := s.modSurvey l _) (dir_modLane h l _ (fun n hn => ?_)) l _ (fun n hn => hn)
    rw [res_of_naming rfl] at hn
    simp [hk] at hn
  startNew s l t h a hh _ hb hn k := dir_startNew s l t h a hh hb hn k
  named s l n hn hk hd h := dir_named s l n hn hk (hd trivial).1 h
  back _ _ _ _ _ _ _ _ he hn h := (calm_comeBack_held he hn).directoryOk h

end Sys2Proof.Machine
end

