-- ==== Sys2Proof/Laws/Walk.lean ====
section
/-! SUPPORT. The walk stays in order through the outcome of a survey telegram. -/

namespace Sys2Proof.Machine

/-- The lane with its grant left out of account. -/
def Lane.free (n : Lane) : Lane := { n with arbiter := { n.arbiter with grant := none } }

/-- In the midst of a survey outcome (or of the start of a pass): lane l is in order without its grant,
    has no request, and runs a pass. -/
structure Surveying (l : LaneId) (g : Option SurveyWork) (s : State) : Prop where
  others : ∀ m, m ≠ l → (s.lane m).surveyOk
  own : (s.lane l).free.surveyOk
  grant : Grant.surveyWork? (s.lane l).arbiter.grant = g
  engine : g ≠ none → (s.lane l).engine = none
  quiet : (s.lane l).arbiter.standing.survey = none
  runs : (s.lane l).state.surveying = true

structure Surveyed (l : LaneId) (g : Option SurveyWork) (s : State) : Prop where
  others : ∀ m, m ≠ l → (s.lane m).surveyOk
  own : (s.lane l).free.surveyOk
  grant : Grant.surveyWork? (s.lane l).arbiter.grant = g
  engine : g ≠ none → (s.lane l).engine = none

theorem Surveying.toEnd {l g s} (h : Surveying l g s) : Surveyed l g s := ⟨h.others, h.own, h.grant, h.engine⟩

theorem calm_free {n m : Lane} (h : n.calm m) (hq : n.arbiter.standing.survey = none) : n.free.calm m.free ∧
    m.arbiter.standing.survey = none ∧ Grant.surveyWork? m.arbiter.grant = Grant.surveyWork? n.arbiter.grant := by
  rcases h.work with ⟨h1, h2⟩ | ⟨w, h1, _⟩
  · exact ⟨⟨h.state, h.enabled, h.power, h.settle, h.restart, h.rescan, h.survey, .inl ⟨h1, rfl⟩,
      (fun w hw => by cases hw), h.counts⟩, h1.trans hq, h2⟩
  · rw [hq] at h1; cases h1

theorem Surveying.calm {l g} {s t : State} (h : Surveying l g s) (c : s.calm t) : Surveying l g t := by
  obtain ⟨a, b, d⟩ := calm_free (c.lane l) h.quiet
  refine ⟨fun m hm => (c.lane m).surveyOk (h.others m hm), a.surveyOk h.own, d.trans h.grant, fun hg => ?_, b, ?_⟩
  · obtain ⟨w, rfl⟩ := Option.ne_none_iff_exists'.1 hg
    exact ((c.lane l).held w h.grant).trans (h.engine hg)
  · rw [(c.lane l).state]; exact h.runs

theorem Surveyed.calm {l g} {s t : State} (h : Surveyed l g s) (hq : (s.lane l).arbiter.standing.survey = none)
    (c : s.calm t) : Surveyed l g t := by
  obtain ⟨a, b, d⟩ := calm_free (c.lane l) hq
  refine ⟨fun m hm => (c.lane m).surveyOk (h.others m hm), a.surveyOk h.own, d.trans h.grant, fun hg => ?_⟩
  obtain ⟨w, rfl⟩ := Option.ne_none_iff_exists'.1 hg
  exact ((c.lane l).held w h.grant).trans (h.engine hg)

/-- What a change of the survey needs. -/
def goodSurvey (v : Survey) : Prop := stackOk v.stack ∧ currentOk v ∧ (v.step ≠ some .walk → v.stack = [])

theorem Surveying.good {l g} {s : State} (h : Surveying l g s) : goodSurvey (s.lane l).survey := ⟨h.own.1, h.own.2.1,
    h.own.2.2.1⟩

theorem own_mod {n : Lane} (h : n.free.surveyOk) (hr : n.state.surveying = true) (v : Survey)
    (w : Option SurveyWork) (hv : goodSurvey v)
    (hw : ∀ x, w = some x → workOk v x) :
    ({ n with survey := v, arbiter := { n.arbiter with standing := { n.arbiter.standing with survey := w } } } : Lane).free.surveyOk := by
  obtain ⟨k1, k2, k3, k4, k5, k6, k7, k8, k9⟩ := h
  refine ⟨hv.1, hv.2.1, hv.2.2, hw, ?_, ?_, k7, k8, k9⟩
  · intro x hx; cases hx
  · intro hs
    have : n.state.surveying = false := hs
    rw [hr] at this; cases this

theorem Surveying.mod {l g} {s : State} (h : Surveying l g s) (f : Survey → Survey)
    (hv : goodSurvey (f (s.lane l).survey)) : Surveying l g (s.modSurvey l f) := by
  unfold State.modSurvey
  refine ⟨fun m hm => by rw [State.lane_modLane_ne _ _ _ _ hm]; exact h.others m hm, ?_, ?_, ?_, ?_,
      ?_⟩ <;> rw [State.lane_modLane_self]
  · have := own_mod h.own h.runs (f (s.lane l).survey) none hv (by intro x hx; cases hx)
    convert this using 2
    have := h.quiet
    rcases hn : (s.lane l).arbiter with ⟨a, b, c⟩
    rw [hn] at this
    rcases b with ⟨b1, b2, b3, b4⟩
    simp at this; subst this; rfl
  · exact h.grant
  · exact h.engine
  · exact h.quiet
  · exact h.runs

theorem Surveying.req {l g} {s : State} (h : Surveying l g s) (w : SurveyWork) (hw : workOk (s.lane l).survey w)
    : Surveyed l g (s.requestSurvey l w) := by
  unfold State.requestSurvey
  refine ⟨fun m hm => by rw [State.lane_modLane_ne _ _ _ _ hm]; exact h.others m hm, ?_, ?_,
      ?_⟩ <;> rw [State.lane_modLane_self]
  · exact own_mod h.own h.runs (s.lane l).survey (some w) h.good (by intro x hx; cases hx; exact hw)
  · exact h.grant
  · exact h.engine

theorem survey_self (s : State) (l : LaneId) (f : Survey → Survey)
    : ((s.modSurvey l f).lane l).survey = f (s.lane l).survey := by
  unfold State.modSurvey; rw [State.lane_modLane_self]

theorem surveyOk_cold : stackOk Survey.cold.stack ∧ currentOk Survey.cold :=
  ⟨⟨(by intro p hp; cases hp), .nil, fun k => Nat.zero_le _⟩, (by intro c hc; cases hc)⟩

/-- A lane without a pass, without a survey request and without a survey grant is in order. -/
theorem surveyOk_rest {n : Lane} (h1 : n.survey = Survey.cold) (h2 : n.arbiter.standing.survey = none)
    (h3 : Grant.surveyWork? n.arbiter.grant = none) (h4 : n.settleTimer.isSome → n.state = .settling)
    (h5 : n.rescanTimer.isSome → n.state = .supervising)
    (h6 : n.restartTimer.isSome → n.state = .settling ∧ n.settleTimer = none) : n.surveyOk := by
  refine ⟨by rw [h1]; exact surveyOk_cold.1, by rw [h1]; exact surveyOk_cold.2, by rw [h1]; intro; rfl, ?_, ?_,
    fun _ => ⟨h1, h2, h3⟩, h4, h5, h6⟩
  · intro w hw; rw [h2] at hw; cases hw
  · intro w hw; rw [h3] at hw; cases hw

theorem goodCold (v : Survey) (h1 : v.stack = []) (h2 : v.current = none) : goodSurvey v := by
  refine ⟨?_, ?_, fun _ => h1⟩
  · rw [h1]; exact surveyOk_cold.1
  · intro c hc; rw [h2] at hc; cases hc

/-- The end of a pass. -/
theorem Surveying.done {l g} {s : State} (h : Surveying l g s) (f : Lane → Lane)
    (h1 : (f (s.lane l)).state = .supervising) (h2 : (f (s.lane l)).survey = Survey.cold)
    (h3 : (f (s.lane l)).arbiter = (s.lane l).arbiter) (h4 : (f (s.lane l)).engine = (s.lane l).engine)
        (h5 : (f (s.lane l)).settleTimer = (s.lane l).settleTimer)
    (h6 : (f (s.lane l)).restartTimer = (s.lane l).restartTimer) : Surveyed l g (s.modLane l f)
        ∧ ((s.modLane l f).lane l).arbiter.standing.survey = none := by
  obtain ⟨k1, k2, k3, k4, k5, k6, k7, k8, k9⟩ := h.own
  have hns : (s.lane l).state ≠ .settling := by intro c; have := h.runs; rw [c] at this; cases this
  refine ⟨⟨fun m hm => by rw [State.lane_modLane_ne _ _ _ _ hm]; exact h.others m hm, ?_, ?_, ?_⟩,
      ?_⟩ <;> rw [State.lane_modLane_self]
  · refine ⟨?_, ?_, ?_, ?_, ?_, ?_, ?_, ?_, ?_⟩
    · change stackOk (f _).survey.stack; rw [h2]; exact surveyOk_cold.1
    · change currentOk (f _).survey; rw [h2]; exact surveyOk_cold.2
    · change (f _).survey.step ≠ _ → (f _).survey.stack = []; rw [h2]; intro; rfl
    · change ∀ w, (f _).arbiter.standing.survey = some w → _; rw [h3, h.quiet]; intro w hw; cases hw
    · intro w hw; cases hw
    · intro _; exact ⟨h2, by change (f _).arbiter.standing.survey = none; rw [h3, h.quiet], rfl⟩
    · change (f _).settleTimer.isSome → _; rw [h5]; intro c; exact absurd (k7 c) hns
    · intro _; exact h1
    · change (f _).restartTimer.isSome → _; rw [h6]; intro c; exact absurd (k9 c).1 hns
  · rw [h3]; exact h.grant
  · rw [h4]; exact h.engine
  · rw [h3]; exact h.quiet

theorem Surveying.endPass {l g} {s : State} (h : Surveying l g s) : Surveyed l g (s.endPass l) := by
  unfold State.endPass
  split
  · unfold State.endInitialPass
    obtain ⟨a, b⟩ := h.done (fun n => { n with survey := Survey.cold, state := .supervising, rescanTimer := s.rescanDeadline l, attention := Attention.cold, rollcallGapTimer := none })
      rfl rfl rfl rfl rfl rfl
    exact a.calm b ((State.calm_postLane _ _ _).trans ((State.calm_pollRound _ _).trans
        (State.calm_reportFinished _ _)))
  · exact (h.done _ rfl rfl rfl rfl rfl rfl).1
  · exact h.toEnd

theorem pop_good {v : Survey} {p : Digits} {rest : List Digits} (h : goodSurvey v) (hs : v.stack = p :: rest) :
    goodSurvey { v with stack := rest, current := some { digits := p, attempt := 1 } } ∧ v.step = some .walk := by
  obtain ⟨⟨a, b, c⟩, d, e⟩ := h
  rw [hs] at a b c
  obtain ⟨b1, b2⟩ := List.pairwise_cons.1 b
  have hw : v.step = some .walk := by
    by_contra hne
    have := e hne
    rw [hs] at this; cases this
  refine ⟨⟨⟨fun q hq => a q (List.mem_cons_of_mem _ hq), b2, fun k => ?_⟩, ?_, fun hne => absurd hw hne⟩, hw⟩
  · refine Nat.le_trans (List.Sublist.length_le ?_) (c k)
    exact (List.sublist_cons_self p rest).filter _
  · intro x hx
    cases hx
    exact ⟨(a p (List.mem_cons_self ..)).2, b1⟩

theorem Surveying.walkNext {l g} {s : State} (h : Surveying l g s) : Surveyed l g (s.walkNext l) := by
  unfold State.walkNext
  split
  · exact h.endPass
  · rename_i p rest hs
    obtain ⟨a, b⟩ := pop_good h.good hs
    refine (h.mod (fun v => { v with stack := rest, current := some { digits := p, attempt := 1 } }) a).req _ ?_
    rw [survey_self]
    refine ⟨?_, (by intro c; cases c), (by intro t a c; cases c)⟩
    intro q hq; cases hq; exact ⟨rfl, b⟩

theorem Surveying.beginWalk {l g} {s : State} (h : Surveying l g s) (hs : (s.lane l).survey.stack = [])
    : Surveyed l g (s.beginWalk l) := by
  unfold State.beginWalk State.walkNext
  rw [survey_self, hs]
  simp only []
  have e : State.modSurvey (s.modSurvey l (fun v => { v with step := some .walk, position := none, stack := [] :: v.stack })) l
      (fun v => { v with stack := [], current := some { digits := [], attempt := 1 } })
      = s.modSurvey l (fun v => { v with step := some .walk, position := none, stack := [], current := some { digits := [], attempt := 1 } }) :=
    State.modLane_modLane _ _ _ _
  rw [e]
  have hm := h.mod (fun v => { v with step := some .walk, position := none, stack := [], current := some { digits := [], attempt := 1 } }) (by
      refine ⟨surveyOk_cold.1, ?_, fun _ => rfl⟩
      intro c hc; cases hc
      exact ⟨Nat.zero_le _, fun p hp => by cases hp⟩)
  refine hm.req _ ?_
  rw [survey_self]
  refine ⟨?_, (by intro c; cases c), (by intro t a c; cases c)⟩
  intro q hq; cases hq; exact ⟨rfl, rfl⟩

theorem work_other {v : Survey} {t : Target} : workOk v (.describe t) ∧ workOk v (.recall t) :=
  ⟨⟨(by intro p c; cases c), (by intro c; cases c), (by intro a b c; cases c)⟩, ⟨(by intro p c; cases c),
      (by intro c; cases c), (by intro a b c; cases c)⟩⟩

theorem Surveying.describeNext {l g} {s : State} (h : Surveying l g s) (hs : (s.lane l).survey.stack = [])
    : Surveyed l g (s.describeNext l) := by
  unfold State.describeNext
  split
  · rename_i e _
    exact (h.mod (fun v => { v with position := some e.addr }) h.good).req _ work_other.1
  · exact h.beginWalk hs

theorem Surveying.recallNext {l g} {s : State} (h : Surveying l g s) (hs : (s.lane l).survey.stack = [])
    : Surveyed l g (s.recallNext l) := by
  unfold State.recallNext
  split
  · rename_i e _
    exact (h.mod (fun v => { v with position := some e.addr }) h.good).req _ work_other.2
  · refine (h.mod (fun v => { v with step := some .describe, position := none }) ?_).describeNext ?_
    · exact ⟨h.good.1, h.good.2.1, fun _ => hs⟩
    · rw [survey_self]; exact hs

theorem Surveying.surveyNext {l g} {s : State} (h : Surveying l g s) : Surveyed l g (s.surveyNext l) := by
  unfold State.surveyNext
  split
  · rename_i hp; exact h.recallNext (h.good.2.2 (by rw [hp]; decide))
  · rename_i hp; exact h.describeNext (h.good.2.2 (by rw [hp]; decide))
  · exact h.walkNext
  · exact h.toEnd
  · exact h.toEnd

theorem Surveying.drop {l g} {s : State} (h : Surveying l g s) : Surveying l g (s.dropCurrent l) :=
  h.mod _ ⟨h.good.1, (by intro c hc; cases hc), h.good.2.2⟩

theorem Surveying.refuseNaming {l g} {s : State} (h : Surveying l g s) (t : Tag) (c : FaultCause)
    : Surveyed l g (s.refuseNaming l t c) :=
  (h.calm (State.calm_writeFault _ _ _)).surveyNext

theorem Surveying.startNaming {l g} {s : State} (h : Surveying l g s) (t k a b)
    : Surveyed l g (s.startNaming l t k a b) := by
  refine Surveying.req (s := s.modSurvey l _) (h.mod _ h.good) _ ?_
  rw [survey_self]
  exact ⟨(by intro p c; cases c), (by intro c; cases c), (by intro x y c; rfl)⟩

/-- R46: the split -/
theorem split_good {v : Survey} {p : Digits} {a : Nat} (h : goodSurvey v)
    (hc : v.current = some { digits := p, attempt := a }) (hw : v.step = some .walk)
    (hl : p.length < Config.tagDigits) :
    goodSurvey { v with stack := [p ++ [1], p ++ [2], p ++ [3]] ++ v.stack, current := some { digits := p ++ [0], attempt := 1 } } := by
  obtain ⟨⟨s1, s2, s3⟩, d, _⟩ := h
  have hd := (d _ hc).2
  simp only at hd
  have hmem : ∀ q ∈ [p ++ [1], p ++ [2], p ++ [(3 : Fin 4)]], q.length = p.length + 1 := by
    intro q hq; simp at hq; rcases hq with rfl | rfl | rfl <;> simp
  refine ⟨⟨?_, ?_, ?_⟩, ?_, fun c => absurd hw c⟩
  · intro q hq
    rcases List.mem_append.1 hq with hq | hq
    · rw [hmem q hq]; omega
    · exact s1 q hq
  · refine List.pairwise_append.2 ⟨?_, s2, ?_⟩
    · simp
    · intro x hx y hy
      rw [hmem x hx]
      have := hd y hy; omega
  · intro k
    rw [List.filter_append, List.length_append]
    by_cases hk : k = p.length + 1
    · have : v.stack.filter (fun q => decide (q.length = k)) = [] := by
        rw [List.filter_eq_nil_iff]
        intro q hq
        have := hd q hq
        simp; omega
      rw [this]
      exact List.length_filter_le _ _
    · have : [p ++ [1], p ++ [2], p ++ [(3 : Fin 4)]].filter (fun q => decide (q.length = k)) = [] := by
        rw [List.filter_eq_nil_iff]
        intro q hq
        rw [hmem q hq]; simp; omega
      rw [this]
      simpa using s3 k
  · intro c hc
    cases hc
    refine ⟨by simp; omega, ?_⟩
    intro q hq
    rcases List.mem_append.1 hq with hq | hq
    · rw [hmem q hq]; simp
    · have := hd q hq; simp; omega

theorem Surveying.split {l g} {s : State} (h : Surveying l g s) (p : Digits) (a : Nat)
    (hc : (s.lane l).survey.current = some { digits := p, attempt := a })
    (hw : (s.lane l).survey.step = some .walk) (hl : p.length < Config.tagDigits)
        : Surveyed l g ((s.splitPrefix l p).surveyNext l) := by
  unfold State.surveyNext State.splitPrefix
  rw [survey_self, hw]
  simp only []
  unfold State.walkNext
  rw [survey_self]
  simp only [children, List.cons_append]
  have e : State.modSurvey (s.modSurvey l (fun v => { v with stack := (p ++ [0]) :: (p ++ [1]) :: (p ++ [2]) :: (p ++ [3]) :: ([] ++ v.stack), current := none })) l
      (fun v => { v with stack := (p ++ [1]) :: (p ++ [2]) :: (p ++ [3]) :: ([] ++ (s.lane l).survey.stack), current := some { digits := p ++ [0], attempt := 1 } })
      = s.modSurvey l (fun v => { v with stack := [p ++ [1], p ++ [2], p ++ [3]] ++ (s.lane l).survey.stack, current := some { digits := p ++ [0], attempt := 1 } }) :=
    State.modLane_modLane _ _ _ _
  rw [e]
  refine (h.mod _ (split_good h.good hc hw hl)).req _ ?_
  rw [survey_self]
  refine ⟨?_, (by intro c; cases c), (by intro t a c; cases c)⟩
  intro q hq; cases hq; exact ⟨rfl, hw⟩

theorem Surveying.collided {l g} {s : State} (h : Surveying l g s) (p : Digits)
    (hk : workOk (s.lane l).survey (.survey p)) : Surveyed l g (s.surveyCollided l p) := by
  obtain ⟨hp, hw⟩ := hk.1 p rfl
  unfold State.surveyCollided
  split
  · exact h.toEnd
  · rename_i c hc
    rw [hc] at hp
    simp at hp
    split
    · rename_i hl
      exact h.split p c.attempt (by rw [hc, ← hp]) hw hl
    · split
      · refine (h.mod (fun v => { v with current := some { c with attempt := c.attempt + 1 } }) ?_).req _ ?_
        · refine ⟨h.good.1, ?_, h.good.2.2⟩
          intro x hx; cases hx
          exact h.good.2.1 c hc
        · rw [survey_self]
          refine ⟨?_, (by intro c; cases c), (by intro t a c; cases c)⟩
          intro q hq; cases hq
          exact ⟨by simp [hp], hw⟩
      · refine Surveying.surveyNext ?_
        unfold State.duplicateFound
        simp only []
        have := h.calm (settled_duplicate s l { cause := .duplicateTag, addr := none, tag := some (digitsTag p) }).calm
        refine Surveying.drop ?_
        split
        · exact this
        · exact this.calm (State.calm_recompute _)

theorem Surveying.clean {l g} {s : State} (h : Surveying l g s) (t : Tag) : Surveyed l g (s.surveyClean l t) := by
  unfold State.surveyClean
  simp only []
  have h1 := h.drop
  generalize s.dropCurrent l = u at *
  split
  · exact h1.startNaming _ _ _ _
  · unfold State.nameReclaim
    split
    · exact h1.startNaming _ _ _ _
    · split
      · exact h1.refuseNaming _ _
      · split
        · exact h1.startNaming _ _ _ _
        · exact h1.refuseNaming _ _
  · exact h1.refuseNaming _ _
  · unfold State.nameNew
    split
    · exact h1.refuseNaming _ _
    · split
      · exact h1.refuseNaming _ _
      · split
        · exact h1.startNaming _ _ _ _
        · exact h1.refuseNaming _ _
        · exact h1.refuseNaming _ _

theorem Surveying.endNaming {l g} {s : State} (h : Surveying l g s) : Surveying l g (s.endNaming l) := h.mod _ h.good

theorem Surveying.create {l g} {s : State} (h : Surveying l g s) (e : Entry) : Surveying l g (s.create e)
    := ⟨h.others, h.own, h.grant, h.engine, h.quiet, h.runs⟩

theorem Surveying.assigned {l g} {s : State} (h : Surveying l g s) (n : Naming) : Surveyed l g (s.assigned l n) := by
  unfold State.assigned
  split
  · unfold State.assignedNew
    simp only []
    refine Surveying.req ?_ _ work_other.1
    refine Surveying.calm ?_ (settled_report _ _ _).calm
    refine Surveying.calm ?_ (State.calm_post _ _)
    exact Surveying.mod (h.create _) _ (h.create (newEntry l n)).good
  · refine (Surveying.endNaming ?_).surveyNext
    split
    · rename_i e he
      exact h.calm (calm_comeBack (State.knows_of_heldEntry? he) rfl rfl)
    · exact h
  · refine (Surveying.endNaming ?_).surveyNext
    split
    · rename_i e he
      exact h.calm (calm_comeBack (State.knows_of_heldEntry? he) rfl rfl)
    · exact h

theorem Surveying.outcome {l g} {s : State} (h : Surveying l g s) (w : SurveyWork) (o : TelegramOutcome)
    (hk : workOk (s.lane l).survey w) : Surveyed l g (s.surveyOutcome l w o) := by
  unfold State.surveyOutcome
  split
  · exact h.beginWalk (hk.2.1 rfl)
  · split
    · exact h.drop.surveyNext
    · exact h.collided _ hk
    · exact h.clean _
    · exact h.toEnd
  · split
    · split
      · exact h.assigned _
      · exact (h.calm (State.calm_writeFault _ _ _)).endNaming.surveyNext
      · exact h.toEnd
    · exact h.toEnd
  · unfold State.describeOutcome
    refine (Surveying.endNaming ?_).surveyNext
    split
    · exact h.calm (calm_storeDescriptor _ _ _)
    · exact h.calm (State.calm_writeFault _ _ _)
    · exact h
  · unfold State.recallOutcome
    refine Surveying.surveyNext ?_
    split
    · exact h.calm (calm_recallAnswered _ _ _)
    · exact h

theorem Surveyed.none {l} {s : State} (h : Surveyed l none s) : s.surveyOk := by
  intro m
  by_cases hm : m = l
  · subst hm
    obtain ⟨k1, k2, k3, k4, k5, k6, k7, k8, k9⟩ := h.own
    refine ⟨k1, k2, k3, k4, ?_, ?_, k7, k8, k9⟩
    · intro w hw; rw [h.grant] at hw; cases hw
    · intro hs; obtain ⟨a, b, _⟩ := k6 hs; exact ⟨a, b, h.grant⟩
  · exact h.others m hm

theorem surveyOk_engine {s : State} (h : s.surveyOk) (l : LaneId) (x : Option Underway)
    : (s.modLane l (fun n => { n with engine := x })).surveyOk := by
  intro m
  rw [State.lane_modLane]
  split
  · subst m; exact h l
  · exact h m

theorem end_release {l g} {s : State} (h : Surveyed l g s) : (s.releaseGrant l).surveyOk := by
  unfold State.releaseGrant
  intro m
  rw [State.lane_modLane]
  split
  · subst m; exact h.own
  · rename_i hm; exact h.others m hm

theorem release_ok {s : State} (h : s.surveyOk) (l : LaneId) : (s.releaseGrant l).surveyOk := by
  intro m
  unfold State.releaseGrant
  rw [State.lane_modLane]
  split
  · subst m
    obtain ⟨k1, k2, k3, k4, k5, k6, k7, k8, k9⟩ := h l
    refine ⟨k1, k2, k3, k4, ?_, ?_, k7, k8, k9⟩
    · intro w hw; cases hw
    · intro hs; obtain ⟨a, b, _⟩ := k6 hs; exact ⟨a, b, rfl⟩
  · exact h m

theorem survey_quiet (s : State) (l : LaneId) (h : s.surveyOk) : (s.quietWait l).surveyOk := by
  unfold State.quietWait
  split
  · rename_i u hu
    split
    · rename_i r hr
      unfold State.quietDone
      split
      · exact surveyOk_engine h l _
      · have h1 := surveyOk_engine h l none
        have he : ((s.modLane l (fun n => { n with engine := none })).lane l).engine = none
            := by rw [State.lane_modLane_self]
        generalize s.modLane l (fun n => { n with engine := none }) = t at *
        have hfin : ∀ x : State, x.surveyOk → (x.endGrant l).surveyOk := by
          intro x hx
          unfold State.endGrant
          split
          · exact (State.calm_arbitrate _ _).surveyOk (release_ok hx l)
          · exact hx
        unfold State.deliver
        split
        · exact hfin _ ((State.calm_attentionOutcome _ _ _ _).surveyOk h1)
        · rename_i b hb
          exact hfin _ ((State.calm_accessOutcome _ _ _ ⟨b, hb⟩).surveyOk h1)
        · rename_i w hw
          obtain ⟨k1, k2, k3, k4, k5, k6, k7, k8, k9⟩ := h1 l
          have hg : Grant.surveyWork? (t.lane l).arbiter.grant = some w := by rw [hw]; rfl
          obtain ⟨a, b⟩ := k5 w hg
          have hm : Surveying l (some w) t := by
            refine ⟨fun m _ => h1 m, ⟨k1, k2, k3, k4, ?_, ?_, k7, k8, k9⟩, hg, fun _ => he, b, ?_⟩
            · intro x hx; cases hx
            · intro hs
              obtain ⟨_, _, c⟩ := k6 hs
              rw [hg] at c; cases c
            · by_contra hs
              obtain ⟨_, _, c⟩ := k6 (by simpa using hs)
              rw [hg] at c; cases c
          have ho := hm.outcome w r.outcome a
          unfold State.endGrant
          rw [if_pos (by rw [ho.engine (by simp)]; rfl)]
          exact (State.calm_arbitrate _ _).surveyOk (end_release ho)
        · exact hfin _ ((State.calm_pollOutcome _ _ _ _).surveyOk h1)
        · exact hfin _ h1
    · exact h
    · exact h
    · exact h
    · exact h
  · exact h

end Sys2Proof.Machine
end

