-- ==== Sys2Proof/Laws/Outcomes.lean ====
section
/-! SUPPORT. What follows the outcome of a telegram: the end of its grant (R116), the next step of the Survey Engine (R41, R43,
R65 to R67), evidence (R100 to R103), the return of an entry (R55 to R57), descriptors (R54, R66) and hits (R135). -/

namespace Sys2Proof.Machine

/-! ### The end of the grant (R116) -/

theorem requestAttention_standing (s : State) (l : LaneId) :
    ((s.requestAttention l).lane l).arbiter.standing.survey = (s.lane l).arbiter.standing.survey
      ∧ ((s.requestAttention l).lane l).arbiter.standing.poll = (s.lane l).arbiter.standing.poll := by
  unfold State.requestAttention
  simp only []
  split
  · rw [State.lane_modLane_self]; exact ⟨rfl, rfl⟩
  · exact ⟨rfl, rfl⟩

/-- A decision grants the Survey Engine's request or lets it stand, and the Poller's likewise. -/
theorem Arbiter.grantNext_stands {a b : Arbiter} {g : Grant} (h : a.grantNext = some (g, b)) :
    b.grant = some g ∧ (∀ w, a.standing.survey = some w → g = .survey w ∨ b.standing.survey = some w)
      ∧ (∀ p, a.standing.poll = some p → g = .poll p ∨ b.standing.poll = some p)
      ∧ ∀ x, a.standing.access = some x → g = .access x ∨ b.standing.access = some x := by
  unfold Arbiter.grantNext at h
  split at h
  · cases h
  · split at h
    · cases h
    · rename_i r _
      cases hs : a.standing.serve r with
      | none => rw [hs] at h; cases h
      | some x =>
        obtain ⟨g', q⟩ := x
        rw [hs] at h
        simp only [Option.some.injEq, Prod.mk.injEq] at h
        obtain ⟨rfl, rfl⟩ := h
        refine ⟨rfl, ?_⟩
        cases r <;> simp only [Standing.serve, Option.map_eq_some_iff] at hs
        · split at hs
          · cases hs; exact ⟨fun w h => .inr h, fun p h => .inr h, fun x h => .inr h⟩
          · cases hs
        · obtain ⟨y, hy, hs⟩ := hs; cases hs
          exact ⟨fun w h => .inr h, fun p h => .inr h, fun x h => .inl (by rw [hy] at h; cases h; rfl)⟩
        · obtain ⟨y, hy, hs⟩ := hs; cases hs
          exact ⟨fun w h => .inl (by rw [hy] at h; cases h; rfl), fun p h => .inr h, fun x h => .inr h⟩
        · obtain ⟨y, hy, hs⟩ := hs; cases hs
          exact ⟨fun w h => .inr h, fun p h => .inl (by rw [hy] at h; cases h; rfl), fun x h => .inr h⟩

theorem arbitrate_serves (s : State) (l : LaneId) :
    (∀ w, (s.lane l).arbiter.standing.survey = some w → ((s.arbitrate l).lane l).surveys w)
      ∧ ∀ p, (s.lane l).arbiter.standing.poll = some p → ((s.arbitrate l).lane l).polls p := by
  unfold State.arbitrate
  generalize arbiterRounds = k
  induction k generalizing s with
  | zero => exact ⟨fun w h => .inl h, fun p h => .inl h⟩
  | succ k ih =>
    unfold arbitrateRounds
    simp only []
    obtain ⟨q1, q2⟩ := requestAttention_standing s l
    rw [← q1, ← q2]
    generalize s.requestAttention l = s1
    split
    · exact ⟨fun w h => .inl h, fun p h => .inl h⟩
    · rename_i g a hg
      obtain ⟨b1, b2, b3, _⟩ := Arbiter.grantNext_stands hg
      have key : ∀ t : State, (t.lane l).arbiter = { a with grant := none } →
          (∀ w, g ≠ .survey w) → (∀ p, g ≠ .poll p) →
          (∀ w, (s1.lane l).arbiter.standing.survey = some w → ((arbitrateRounds k l t).lane l).surveys w)
          ∧ ∀ p, (s1.lane l).arbiter.standing.poll = some p → ((arbitrateRounds k l t).lane l).polls p := by
        intro t ht h1 h2
        refine ⟨fun w h => (ih t).1 w ?_, fun p h => (ih t).2 p ?_⟩
        · rw [ht]; exact (b2 w h).resolve_left (h1 w)
        · rw [ht]; exact (b3 p h).resolve_left (h2 p)
      have send : ∀ (t : State) (m : Telegram), (t.lane l).arbiter = a →
          (∀ w, g = .survey w → m = w.telegram) → (∀ p, g = .poll p → m = .ping p.addr) →
          (∀ w, (s1.lane l).arbiter.standing.survey = some w → ((t.startTelegram l m).lane l).surveys w)
          ∧ ∀ p, (s1.lane l).arbiter.standing.poll = some p → ((t.startTelegram l m).lane l).polls p := by
        intro t m ht h1 h2
        unfold State.startTelegram
        rw [State.lane_modLane_self]
        refine ⟨fun w h => ?_, fun p h => ?_⟩
        · rcases b2 w h with hw | hw
          · exact .inr ⟨by simp only []; rw [ht, b1, hw], by rw [h1 w hw]⟩
          · exact .inl (by simp only []; rw [ht]; exact hw)
        · rcases b3 p h with hp | hp
          · exact .inr ⟨by simp only []; rw [ht, b1, hp], by rw [h2 p hp]⟩
          · exact .inl (by simp only []; rw [ht]; exact hp)
      have rel : ∀ t : State, (t.lane l).arbiter = a → ((t.releaseGrant l).lane l).arbiter = { a with grant := none } := by
        intro t ht
        unfold State.releaseGrant
        rw [State.lane_modLane_self]; simp only []; rw [ht]
      have hs2 : ((s1.modLane l (fun n => { n with arbiter := a })).lane l).arbiter = a := by rw [State.lane_modLane_self]
      generalize s1.modLane l (fun n => { n with arbiter := a }) = s2 at *
      have hend : ∀ st, ((s2.endAccess l st).lane l).arbiter = a := by
        intro st
        unfold State.endAccess
        split
        · split
          · rw [State.lane_replyThen]
            change ((s2.modLane l (fun n => { n with run := none })).lane l).arbiter = a
            rw [State.lane_modLane_self]; exact hs2
          · exact hs2
        · exact hs2
      split
      · exact send s2 _ hs2 (fun w h => by cases h; rfl) (fun p h => by cases h)
      · exact send s2 _ hs2 (fun w h => by cases h) (fun p h => by cases h; rfl)
      · split
        · split
          · exact send s2 _ hs2 (fun w h => by cases h) (fun p h => by cases h)
          · exact key _ (rel _ (hend _)) (fun w h => by cases h) (fun p h => by cases h)
        · exact key _ (rel _ hs2) (fun w h => by cases h) (fun p h => by cases h)
      · split
        · rename_i t h _
          refine send _ t ?_ (fun w h => by cases h) (fun p h => by cases h)
          rw [State.lane_modLane_self]; exact hs2
        · exact key _ (rel _ hs2) (fun w h => by cases h) (fun p h => by cases h)

/-- R121, R123: the request of a run whose entry stands is granted or stands on. -/
theorem arbitrate_access (s : State) (l : LaneId) (b : Bool) (r : Run) (h : (s.lane l).arbiter.standing.access = some b)
    (hr : (s.lane l).run = some r) (hs : s.runStands r = true) :
    ((s.arbitrate l).lane l).arbiter.standing.access = some b
      ∨ ((s.arbitrate l).lane l).arbiter.grant = some (.access b)
        ∧ ((s.arbitrate l).lane l).engine = some { telegram := r.telegram, attempt := 1, phase := .sending } := by
  unfold State.arbitrate
  generalize arbiterRounds = k
  induction k generalizing s with
  | zero => exact .inl h
  | succ k ih =>
    unfold arbitrateRounds
    simp only []
    have q1 : ((s.requestAttention l).lane l).arbiter.standing.access = some b := by
      unfold State.requestAttention
      simp only []
      split
      · rw [State.lane_modLane_self]; exact h
      · exact h
    have q2 : ((s.requestAttention l).lane l).run = some r := by rw [(sameAccess_requestAttention s l).2.2.2]; exact hr
    have q3 : (s.requestAttention l).runStands r = true := by
      unfold State.runStands State.target? at *
      rw [requestAttention_dir]; exact hs
    generalize s.requestAttention l = s1 at *
    split
    · exact .inl q1
    · rename_i g a hg
      obtain ⟨b1, _, _, b4⟩ := Arbiter.grantNext_stands hg
      have b4 := b4 b q1
      have r1 : ((s1.modLane l (fun n => { n with arbiter := a })).lane l).arbiter = a := by rw [State.lane_modLane_self]
      have r2 : ((s1.modLane l (fun n => { n with arbiter := a })).lane l).run = some r := by rw [State.lane_modLane_self]; exact q2
      have r3 : (s1.modLane l (fun n => { n with arbiter := a })).runStands r = true := q3
      generalize s1.modLane l (fun n => { n with arbiter := a }) = s2 at *
      have hgo : (∀ x, g ≠ .access x) → ∀ (t : State) (m : Telegram), (t.lane l).arbiter = a →
          ((t.startTelegram l m).lane l).arbiter.standing.access = some b := by
        intro hn t m ht
        unfold State.startTelegram
        rw [State.lane_modLane_self]
        simp only []
        rw [ht]; exact b4.resolve_left (hn b)
      split
      · exact .inl (hgo (fun x hx => by cases hx) _ _ r1)
      · exact .inl (hgo (fun x hx => by cases hx) _ _ r1)
      · split
        · rename_i r' hr'
          rw [r2] at hr'; cases hr'
          rw [if_pos r3]
          unfold State.startTelegram
          rw [State.lane_modLane_self]
          simp only []
          rw [r1]
          rcases b4 with hb | hb
          · cases hb; exact .inr ⟨b1, trivial⟩
          · exact .inl hb
        · rename_i hr'
          rw [r2] at hr'; cases hr'
      · split
        · rename_i t h _
          refine .inl (hgo (fun x hx => by cases hx) _ t ?_)
          rw [State.lane_modLane_self]; exact r1
        · refine ih (s2.releaseGrant l) ?_ ?_ r3
          · unfold State.releaseGrant
            rw [State.lane_modLane_self]
            simp only []
            rw [r1]; exact b4.resolve_left (fun hx => by cases hx)
          · rw [(sameAccess_releaseGrant s2 l).2.2.2]; exact r2

/-- R116: the end of a grant. -/
theorem State.endGrant_ends (s : State) (l : LaneId) : s.grantEnds l (s.endGrant l) := by
  obtain ⟨g1, g2, g3, g4, g5, g6, g7⟩ := State.endGrant_spec s l
  refine ⟨g1, g2, g3, g4, g5, g6, ?_, ?_, g7⟩
  · intro w hw
    unfold State.endGrant
    split
    · refine (arbitrate_serves (s.releaseGrant l) l).1 w ?_
      unfold State.releaseGrant
      rw [State.lane_modLane_self]; exact hw
    · exact .inl hw
  · intro p hp
    unfold State.endGrant
    split
    · refine (arbitrate_serves (s.releaseGrant l) l).2 p ?_
      unfold State.releaseGrant
      rw [State.lane_modLane_self]; exact hp
    · exact .inl hp

/-- R114: the arbiter of a lane acts where no grant ends. -/
theorem State.arbitrate_ends (s : State) (l : LaneId) : s.grantEnds l (s.arbitrate l) :=
  ⟨keepsRest_arbitrate s l, by simp, by simp, by simp, fun m hm => State.arbitrate_lane_ne _ _ _ hm, sameButWork_arbitrate _ _ _,
    (arbitrate_serves s l).1, (arbitrate_serves s l).2, sameAccess_arbitrate⟩

/-- R33, R116: an outcome that ends a telegram is delivered, and the grant ends. -/
theorem State.endsWith.gives {s : State} {c : Instr} {l : LaneId} {u : Underway} {g : Grant} {r : AttemptResult}
    (h : s.endsWith c l u g r) (ha : u.again r = false) :
    s.outcomeGives c l ((s.modLane l (fun n => { n with engine := none })).deliver l u.telegram r.outcome) := by
  obtain ⟨h1, h2, h3, _⟩ := h
  refine ⟨_, ?_, State.endGrant_ends _ l, State.endGrant_met _ l⟩
  rw [exec_quietWait h1, State.quietWait_delivers h2 h3 ha]

theorem State.endsWith.grant {s : State} {c : Instr} {l : LaneId} {u : Underway} {g : Grant} {r : AttemptResult}
    (h : s.endsWith c l u g r) : ((s.modLane l (fun n => { n with engine := none })).lane l).arbiter.grant = some g := by
  rw [State.lane_modLane_self]; exact h.2.2.2

/-! ### The start of an access (R117, R120) -/

/-- R120, R121, R122, R125: the start of an access on an entry that is there and is not LOST: the Request Unit waits, the access
timer is armed, the run is its lane's, and its request stands or its first telegram is being sent. -/
theorem State.startAccess_starts (s : State) (q : Request) (e : Entry) (r : Run) (hr : r.target = e.target)
    (ht : s.target? e.target = some e) (hp : e.presence ≠ .lost) :
    (s.startAccess q e r).unit = .accessWait q.kind q.token e.lane
      ∧ (s.startAccess q e r).accessTimer = some (s.now + Config.accessMs)
      ∧ ((s.startAccess q e r).lane e.lane).run = some r ∧ ((s.startAccess q e r).lane e.lane).accesses r.block r
      ∧ (s.startAccess q e r).dir = s.dir ∧ (s.startAccess q e r).link = s.link ∧ s.keepsRest (s.startAccess q e r)
      ∧ (s.startAccess q e r).mate = s.mate ∧ (s.startAccess q e r).resolver = s.resolver
      ∧ ∀ m, m ≠ e.lane → (s.startAccess q e r).lane m = s.lane m := by
  unfold State.startAccess State.requestAccess
  simp only [State.modLane_modLane]
  generalize hu : ({ s.modLane e.lane (fun n => { n with
    run := some r
    arbiter := { n.arbiter with standing := { n.arbiter.standing with access := some r.block } } }) with
    unit := .accessWait q.kind q.token e.lane, accessTimer := s.timer Config.accessMs } : State) = u
  have hl : ∀ m, u.lane m = (s.modLane e.lane (fun n => { n with
      run := some r
      arbiter := { n.arbiter with standing := { n.arbiter.standing with access := some r.block } } })).lane m := by
    intro m; subst hu; rfl
  have hul := (hl e.lane).trans (State.lane_modLane_self _ _ _)
  have hst : u.runStands r = true := by
    have : u.target? r.target = some e := by rw [hr]; subst hu; exact ht
    unfold State.runStands; rw [this]; simpa using hp
  have hrun : (u.lane e.lane).run = some r := by rw [hul]
  obtain ⟨h1, h2, h3, h4⟩ := sameAccess_arbitrate_holds (s := u) (l := e.lane) (by
    intro x hx
    rw [hrun] at hx; cases hx; exact hst)
  have hk := keepsRest_arbitrate u e.lane
  refine ⟨?_, ?_, h4.trans hrun, ?_, ?_, ?_, ?_, ?_, ?_, ?_⟩
  · rw [h2]; subst hu; rfl
  · rw [h3]; subst hu; rfl
  · rcases arbitrate_access u e.lane r.block r (by rw [hul]) hrun hst with h | ⟨ha, hb⟩
    · exact .inl h
    · exact .inr ⟨ha, _, Run.telegram_asked r, hb⟩
  · rw [State.arbitrate_dir]; subst hu; rfl
  · rw [h1]; subst hu; rfl
  · refine State.keepsRest.trans ?_ hk; subst hu; exact .refl s
  · rw [State.arbitrate_mate]; subst hu; rfl
  · rw [State.arbitrate_resolver]; subst hu; rfl
  · intro m hm
    rw [State.arbitrate_lane_ne _ _ _ hm, hl m, State.lane_modLane_ne _ _ _ _ hm]

/-! ### The next step of the Survey Engine (R41, R43, R65 to R67) -/

theorem State.requestSurvey_modSurvey (s : State) (l : LaneId) (f : Survey → Survey) (w : SurveyWork) :
    (s.modSurvey l f).requestSurvey l w = s.asks l f w := State.modLane_modLane _ _ _ _

theorem Four.set_get {α : Type} (x : Four α) (l : LaneId) : x.set l (x.get l) = x := by
  match l with
  | 0 => rfl
  | 1 => rfl
  | 2 => rfl
  | 3 => rfl

theorem State.resolution_into (s : State) (r : Resolver) (hp : s.resolver.phase = .resolved) (u : State)
    (hu : u = { s with resolver := { s.resolver with phase := u.resolver.phase } }) (hr : r.shown = u.resolver.shown) :
    u.resolvedInto (s.rebind.recomputeFrom r.shown).arbitrateAll := by
  obtain ⟨h1, _⟩ := s.resolution_spec r.shown
  have h2 := s.resolution_resolvesTo r hp
  have h3 : u.lane = s.lane := by funext l; rw [hu]; rfl
  have h4 : s.resolver.reports = u.resolver.reports := by rw [hu]
  refine ⟨h2.congr (by rw [hu]) (by rw [hu]) (fun l => by rw [h3]) h4.symm rfl rfl rfl rfl rfl, ?_, ?_, ?_, fun hm => ?_⟩
  · rw [h1.mate, hu]
  · have := h1.rest
    rw [hu]; exact this
  · intro m; rw [h3]; exact h1.lane m
  · have hm' : ∀ m, s.noAccess m := fun m => by have := hm m; rw [hu] at this; exact this
    refine ⟨?_, ?_⟩
    · obtain ⟨k, _⟩ := h1.access hm'
      rw [k, hu]
    · have h5 := s.resolution_told r hm'
      have h6 : u.link = s.link := by rw [hu]
      unfold Resolver.shown at hr
      simp only [Prod.mk.injEq] at hr
      unfold Link.told at *
      rw [h6, ← hr.1, ← hr.2.1, ← hr.2.2]
      exact h5

theorem State.fullResolution_into {s : State} (hp : s.resolver.phase = .resolved) : s.resolvedInto s.fullResolution :=
  State.resolution_into s s.resolver hp s rfl rfl

theorem State.initialResolution_into (s : State) : s.resolvedInto s.initialResolution :=
  State.resolution_into { s with resolver := { s.resolver with phase := .resolved } } s.resolver rfl s rfl rfl

theorem State.allFinished_iff (s : State) : s.allFinished = true ↔ ∀ m, (s.lane m).enabled = true → s.resolver.finished.get m = true := by
  unfold State.allFinished
  rw [List.all_eq_true]
  constructor
  · intro h m hm
    have := h m (all_lanes m)
    simpa [hm] using this
  · intro h m _
    cases hm : (s.lane m).enabled with
    | false => simp
    | true => simp [h m hm]

/-- R20, R24, R162: the report that a lane has finished. -/
theorem State.reportFinished_marks (s : State) (l : LaneId) : s.marksFinished l (s.reportFinished l) := by
  refine ⟨_, rfl, ?_, ?_⟩
  · intro h
    unfold State.reportFinished
    split
    · rename_i hf
      have := Four.set_get s.resolver.finished l
      rw [hf] at this
      rw [this]
    · rename_i hf
      simp only []
      rw [if_neg]
      simp only [Bool.and_eq_true, decide_eq_true_eq, not_and, State.allFinished_iff]
      rcases h with h | h | ⟨m, h1, h2⟩
      · exact absurd h hf
      · intro hp; exact absurd hp h
      · intro _ hall
        have := hall m h1
        rw [h2] at this; cases this
  · intro h1 h2 h3
    unfold State.reportFinished
    rw [if_neg (by rw [h1]; simp)]
    simp only []
    rw [if_pos (by
      simp only [Bool.and_eq_true, decide_eq_true_eq, State.allFinished_iff]
      exact ⟨h2, h3⟩)]
    exact State.initialResolution_into _

theorem findSome_range {n : Nat} {q : Nat → Bool} {f : Nat → Option Entry} {e : Entry}
    (h : ((List.range' 1 n).filter q).findSome? f = some e) :
    ∃ a, 1 ≤ a ∧ a ≤ n ∧ q a = true ∧ f a = some e ∧ ∀ b, 1 ≤ b → b < a → q b = true → f b = none := by
  obtain ⟨xs, a, ys, h1, h2, h3⟩ := List.findSome?_eq_some_iff.mp h
  have hs : ((List.range' 1 n).filter q).Pairwise (· < ·) := (List.pairwise_lt_range' : (List.range' 1 n).Pairwise (· < ·)).filter _
  have ha : a ∈ (List.range' 1 n).filter q := by rw [h1]; simp
  obtain ⟨ha1, ha2⟩ := List.mem_filter.mp ha
  rw [List.mem_range'_1] at ha1
  refine ⟨a, by omega, by omega, ha2, h2, fun b hb1 hb2 hb3 => ?_⟩
  have hb : b ∈ (List.range' 1 n).filter q := List.mem_filter.mpr ⟨by rw [List.mem_range'_1]; omega, hb3⟩
  rw [h1] at hb hs
  rcases List.mem_append.mp hb with hb | hb
  · simpa using h3 b hb
  · rcases List.mem_cons.mp hb with rfl | hb
    · omega
    · have := (List.pairwise_cons.mp (List.pairwise_append.mp hs).2.1).1 b hb
      omega

theorem above_iff (p : Option Nat) (a : Nat) : above p a = true ↔ ∀ x, p = some x → x < a := by
  cases p <;> simp [above]

theorem State.onLaneAt_addr {s : State} {l : LaneId} {a : Nat} {e : Entry} (h : s.onLaneAt? l a = some e) : e.lane = l ∧ e.addr = a := by
  have := List.find?_some h
  simpa using this

/-- R65, R66: the next entry of a step. -/
theorem State.nextOnLane_is (s : State) (l : LaneId) (test : Entry → Bool) (p : Entry → Prop) (hp : ∀ e, test e = true ↔ p e) :
    (∀ e, s.nextOnLane l test = some e → s.nextIs l p e) ∧ (s.nextOnLane l test = none → ∀ e, ¬ s.nextIs l p e) := by
  unfold State.nextOnLane
  constructor
  · intro e h
    obtain ⟨a, a1, a2, a3, a4, a5⟩ := findSome_range h
    rw [Option.filter_eq_some_iff] at a4
    obtain ⟨a4, a6⟩ := a4
    obtain ⟨_, rfl⟩ := State.onLaneAt_addr a4
    refine ⟨a4, (hp e).mp a6, a1, a2, (above_iff _ _).mp a3, fun b f b1 b2 b3 b4 => ?_⟩
    have := a5 b b1 b2 ((above_iff _ _).mpr b3)
    rw [b4] at this
    intro hf
    rw [← hp] at hf
    simp [Option.filter, hf] at this
  · intro h e he
    obtain ⟨h1, h2, h3, h4, h5, _⟩ := he
    rw [List.findSome?_eq_none_iff] at h
    have := h e.addr (List.mem_filter.mpr ⟨by rw [List.mem_range'_1]; exact ⟨h3, by simp [Config.maxOnLane]; omega⟩, (above_iff _ _).mpr h5⟩)
    rw [h1] at this
    rw [← hp] at h2
    simp [Option.filter, h2] at this

theorem State.nextIs_unique {s : State} {l : LaneId} {p : Entry → Prop} {e f : Entry} (he : s.nextIs l p e) (hf : s.nextIs l p f) : e = f := by
  obtain ⟨a1, a2, a3, a4, a5, a6⟩ := he
  obtain ⟨b1, b2, b3, b4, b5, b6⟩ := hf
  rcases Nat.lt_trichotomy e.addr f.addr with h | h | h
  · exact absurd a2 (b6 _ _ a3 h a5 a1)
  · rw [h, b1] at a1; cases a1; rfl
  · exact absurd b2 (a6 _ _ b3 h b5 b1)

theorem find_range {n : Nat} {q : Nat → Bool} {a : Nat} (h : (List.range' 1 n).find? q = some a) :
    1 ≤ a ∧ a ≤ n ∧ q a = true ∧ ∀ b, 1 ≤ b → b < a → q b = false := by
  obtain ⟨h1, xs, ys, h2, h3⟩ := List.find?_eq_some_iff_append.mp h
  have hs : (List.range' 1 n).Pairwise (· < ·) := List.pairwise_lt_range'
  have ha : a ∈ List.range' 1 n := by rw [h2]; simp
  rw [List.mem_range'_1] at ha
  refine ⟨by omega, by omega, h1, fun b hb1 hb2 => ?_⟩
  have hb : b ∈ List.range' 1 n := by rw [List.mem_range'_1]; omega
  rw [h2] at hb hs
  rcases List.mem_append.mp hb with hb | hb
  · simpa using h3 b hb
  · rcases List.mem_cons.mp hb with rfl | hb
    · omega
    · have := (List.pairwise_cons.mp (List.pairwise_append.mp hs).2.1).1 b hb
      omega

/-- R97: a poll round begins. -/
theorem State.pollRound_begins (s : State) (l : LaneId) :
    ∃ n : Lane, s.pollRound l = s.modLane l (fun _ => n) ∧ s.beginsRound l n
      ∧ n = { s.lane l with
          poller := n.poller, pollGapTimer := n.pollGapTimer, arbiter := { (s.lane l).arbiter with
            standing := { (s.lane l).arbiter.standing with poll := n.arbiter.standing.poll } } } := by
  unfold State.pollRound State.pollNext
  generalize hs1 : s.modLane l (fun n =>
    { n with poller := { phase := .round, roundSet := s.roundSet l, position := none, ping := none }, pollGapTimer := none }) = s1
  have hp : (s1.lane l).poller = { phase := .round, roundSet := s.roundSet l, position := none, ping := none } := by
    subst hs1; rw [State.lane_modLane_self]
  have hdir : ∀ a, s1.pollable l a = s.pollable l a := by intro a; subst hs1; rfl
  have hall : ∀ a, a ∈ s.roundSet l ↔ (1 ≤ a ∧ a ≤ 30) ∧ (s.pollable l a).isSome = true := by
    intro a
    unfold State.roundSet
    rw [List.mem_filter, List.mem_range'_1]
    simp only [Config.maxOnLane]
    constructor <;> rintro ⟨⟨h1, h2⟩, h3⟩ <;> exact ⟨⟨by omega, by omega⟩, h3⟩
  cases hn : s1.nextPing l with
  | none =>
    simp only []
    have he : s.roundSet l = [] := by
      rw [List.eq_nil_iff_forall_not_mem]
      intro a ha
      unfold State.nextPing at hn
      simp only [hp, List.findSome?_eq_none_iff] at hn
      have h2 := (hall a).mp ha
      have := hn a (List.mem_filter.mpr ⟨by rw [List.mem_range'_1]; simp only [Config.maxOnLane]; omega, by simp [above, ha]⟩)
      rw [hdir] at this
      rw [this] at h2; simp at h2
    refine ⟨{ (s.lane l) with poller := { phase := .gap, roundSet := [], position := none, ping := none }, pollGapTimer := s.timer (s.lane l).pollGapMs }, ?_, ⟨fun _ => ⟨rfl, rfl⟩, ?_⟩, rfl⟩
    · subst hs1
      rw [State.modLane_modLane]
      rfl
    · intro a rest h; rw [he] at h; cases h
  | some t =>
    simp only []
    unfold State.nextPing at hn
    rw [List.findSome?_eq_some_iff] at hn
    obtain ⟨xs, a, ys, h1, h2, h3⟩ := hn
    rw [hdir] at h2
    have hfil : (List.range' 1 Config.maxOnLane).filter (fun a => (s1.lane l).poller.roundSet.contains a && above (s1.lane l).poller.position a)
        = s.roundSet l := by
      unfold State.roundSet
      refine List.filter_congr (fun a ha => ?_)
      rw [hp]
      simp only [above, Bool.and_true, List.contains_eq_mem]
      rw [List.mem_range'_1] at ha
      simp only [Config.maxOnLane] at ha
      have := hall a
      cases h : (s.pollable l a).isSome
      · rw [decide_eq_false_iff_not, this, h]; simp
      · rw [decide_eq_true_eq, this]; exact ⟨by omega, h⟩
    have hxs : xs = [] := by
      rw [List.eq_nil_iff_forall_not_mem]
      intro b hb
      have h4 := h3 b hb
      have h5 : b ∈ s.roundSet l := by rw [← hfil, h1]; simp [hb]
      rw [hdir] at h4
      have := ((hall b).mp h5).2
      rw [h4] at this; cases this
    subst hxs
    rw [hfil] at h1
    obtain ⟨e, he, hj, ht⟩ : ∃ e, s.onLaneAt? l a = some e ∧ e.judged = true ∧ t = e.target := by
      unfold State.pollable at h2
      cases he : s.onLaneAt? l a with
      | none => rw [he] at h2; cases h2
      | some e =>
        rw [he] at h2
        simp only [] at h2
        split at h2
        · rename_i hj; cases h2; exact ⟨e, rfl, hj, rfl⟩
        · cases h2
    subst ht
    have hj2 : e.override = .auto ∧ e.presence ≠ .lost := by simpa [Entry.judged] using hj
    have hadd := (State.onLaneAt_addr he).2
    refine ⟨{ (s.lane l) with
        poller := { phase := .round, roundSet := s.roundSet l, position := some e.target.addr, ping := some e.target }, pollGapTimer := none
        arbiter := { (s.lane l).arbiter with standing := { (s.lane l).arbiter.standing with poll := some e.target } } }, ?_, ⟨?_, ?_⟩, rfl⟩
    · subst hs1
      rw [State.modLane_modLane]
      rfl
    · intro h; rw [h] at h1; simp at h1
    · intro b rest hb
      rw [hb] at h1
      simp only [List.nil_append, List.cons.injEq] at h1
      obtain ⟨rfl, rfl⟩ := h1
      refine ⟨rfl, hb, ?_, rfl, e, he, hj2.1, hj2.2, rfl, .inl rfl⟩
      change some e.addr = _
      rw [hadd]

theorem State.endInitialPass_begins (s : State) (l : LaneId) : s.beginsSupervision l (s.endInitialPass l) := by
  unfold State.endInitialPass
  simp only []
  obtain ⟨n, h1, h2, h3⟩ := State.pollRound_begins ((s.modLane l (fun n =>
    { n with survey := Survey.cold, state := .supervising, rescanTimer := s.rescanDeadline l,
             attention := Attention.cold, rollcallGapTimer := none })).postLane l none) l
  refine ⟨_, State.reportFinished_marks _ l, ?_, ?_, ?_, ?_⟩
  · rw [h1]
    unfold State.postLane State.post
    rw [State.lane_modLane_self]
    rfl
  · intro m hm
    rw [h1, State.lane_modLane_ne _ _ _ _ hm]
    have : ∀ (t : State) c, (t.postLane l c).lane m = t.lane m := fun _ _ => rfl
    rw [this, State.lane_modLane_ne _ _ _ _ hm]
  · rw [h1, State.lane_modLane_self, h3]
    have : ∀ (t : State) c, (t.postLane l c).lane l = t.lane l := fun _ _ => rfl
    simp only [this, State.lane_modLane_self]
    rfl
  · rw [h1, State.lane_modLane_self]
    obtain ⟨k1, k2⟩ := h2
    exact ⟨k1, k2⟩

theorem State.walkNext_walks (s : State) (l : LaneId) : s.walksOn l (s.walkNext l) := by
  unfold State.walkNext
  refine ⟨fun top rest h => ?_, fun h => ⟨fun hp => ?_, fun hp => ?_⟩⟩
  · rw [h]; exact State.requestSurvey_modSurvey _ _ _ _
  · rw [h]
    simp only []
    unfold State.endPass
    rw [hp]
    simp only []
    unfold State.endRescanPass State.modLane State.rescanDeadline
    rfl
  · rw [h]
    simp only []
    unfold State.endPass
    rw [hp]
    exact State.endInitialPass_begins s l

theorem State.describeNext_describes (s : State) (l : LaneId) : s.describesOn l (s.describeNext l) := by
  obtain ⟨h1, h2⟩ := s.nextOnLane_is l Entry.describable (fun e => e.descriptor = none ∧ e.presence ≠ .lost) (by
    intro e; simp [Entry.describable])
  unfold State.describeNext
  cases hn : s.nextOnLane l Entry.describable with
  | some e =>
    refine ⟨fun f hf => ?_, fun h => absurd (h1 e hn) (h e)⟩
    rw [State.nextIs_unique hf (h1 e hn)]
    exact State.requestSurvey_modSurvey _ _ _ _
  | none =>
    refine ⟨fun f hf => absurd hf (h2 hn f), fun _ => ?_⟩
    simp only []
    unfold State.beginWalk State.walkNext
    rw [survey_self]
    simp only []
    rw [State.requestSurvey_modSurvey]
    unfold State.asks State.modSurvey
    rw [State.modLane_modLane]
    unfold State.modLane
    rfl

theorem State.recallNext_recalls (s : State) (l : LaneId) : s.recallsOn l (s.recallNext l) := by
  obtain ⟨h1, h2⟩ := s.nextOnLane_is l Entry.recallable (fun e => e.presence = .lost ∧ e.override ≠ .forcedAbsent) (by
    intro e; simp [Entry.recallable])
  unfold State.recallNext
  cases hn : s.nextOnLane l Entry.recallable with
  | some e =>
    refine ⟨fun f hf => ?_, fun h => absurd (h1 e hn) (h e)⟩
    rw [State.nextIs_unique hf (h1 e hn)]
    exact State.requestSurvey_modSurvey _ _ _ _
  | none => exact ⟨fun f hf => absurd hf (h2 hn f), fun _ => State.describeNext_describes _ l⟩

/-- R64, R65: a rescan pass begins. -/
theorem State.beginRescan_rescans (s : State) (l : LaneId) : s.rescans l ((s.beginRescan l).arbitrate l) :=
  ⟨s.beginRescan l, State.recallNext_recalls _ l, State.arbitrate_ends _ l⟩

/-- R41: the Survey Engine goes on with its step. -/
theorem State.surveyNext_goes (s : State) (l : LaneId) : s.goesOn l (s.surveyNext l) := by
  unfold State.surveyNext
  refine ⟨fun h => ?_, fun h => ?_, fun h => ?_⟩ <;> rw [h]
  · exact State.walkNext_walks s l
  · exact State.describeNext_describes s l
  · exact State.recallNext_recalls s l

/-! ### Evidence (R100 to R103) -/

/-- R85, R171: the presence change of an update, after what it posts. -/
theorem State.reportPresence_told {s u : State} {old new : Entry} {k : Link} {ch : Prop} (hk : u.link = k)
    (hr : u.resolver = s.resolver) (hc : ch ↔ old.presence ≠ new.presence) :
    s.statusTold ch k (u.reportPresence old new) := by
  subst hk
  unfold State.reportPresence
  split
  · rename_i h
    refine ⟨fun hn => ?_, fun _ hp => ?_⟩
    · have hp : u.resolver.phase ≠ .resolved := by
        rw [hr]; exact hn.resolve_left (fun x => x (hc.mpr h))
      unfold State.recompute
      rw [if_neg hp]; exact ⟨rfl, hr⟩
    · have hp' : u.resolver.phase = .resolved := by rw [hr]; exact hp
      have := State.recompute_told hp'
      rw [hr] at this
      have h2 := u.onlyNews_recompute.resolver
      rw [hr] at h2
      exact ⟨State.recompute_statusHolds hp', this, h2⟩
  · rename_i h
    exact ⟨fun _ => ⟨rfl, hr⟩, fun hx => absurd (hc.mp hx) h⟩

theorem Entry.judged_iff (e : Entry) : e.judged = true ↔ e.override = .auto ∧ e.presence ≠ .lost := by
  simp [Entry.judged]

theorem State.applyAnswer_takes (s : State) (p : Target) (f : Option Bool) : s.takesAnswer p f (s.applyAnswer p f) := by
  have hn := s.onlyNews_applyAnswer p f
  refine ⟨hn.rest, hn.mate, hn.lanes, hn.unit, hn.accessTimer, fun e he h1 h2 => ?_, fun h => ?_⟩
  · have hj := e.judged_iff.mpr ⟨h1, h2⟩
    unfold State.applyAnswer
    simp only [he, hj, if_true]
    constructor
    · rw [State.reportPresence_dir, State.postFault_dir]
      split <;> rfl
    · refine State.reportPresence_told ?_ ?_ Iff.rfl
      · have hf : (e.answered f).nodeFault = f.getD e.nodeFault := rfl
        have hh : (e.answered f).handle = e.handle := rfl
        unfold State.postFault
        rw [hf, hh]
        by_cases h3 : e.presence = .present <;> cases h4 : e.nodeFault <;> rcases f with _ | ⟨⟨⟩⟩ <;>
          simp [h3, State.post, State.update]
      · unfold State.postFault
        split <;> split <;> rfl
  · unfold State.applyAnswer
    cases he : s.target? p with
    | none => rfl
    | some e =>
      simp only []
      rw [if_neg]
      rw [Entry.judged_iff]
      rintro ⟨h1, h2⟩
      rcases h e he with h3 | h3
      · exact h3 h1
      · exact h2 h3

theorem State.applyMiss_takes (s : State) (p : Target) : s.takesMiss p (s.applyMiss p) := by
  have hn := s.newsAndRounds_applyMiss p
  refine ⟨hn.rest, hn.mate, hn.unit, hn.accessTimer, fun e he h1 h2 => ?_, fun h => ?_⟩
  · have hj := e.judged_iff.mpr ⟨h1, h2⟩
    unfold State.applyMiss
    simp only [he, hj, if_true]
    constructor
    · intro hm
      have hmiss : e.missed s.missLimit = { e with presence := .suspect, miss := e.miss + 1 } := by
        unfold Entry.missed; rw [if_pos hm]
      rw [hmiss]
      simp only [if_neg (show ¬ Presence.suspect = Presence.lost by decide)]
      refine ⟨?_, ?_, State.reportPresence_told ?_ ?_ ?_⟩
      · rw [(State.onlyNews_reportPresence _ _ _).lanes]
        split <;> rfl
      · rw [State.reportPresence_dir]
        split <;> rfl
      · by_cases h3 : e.presence = .present <;> simp [h3, State.post, State.update]
      · split <;> rfl
      · cases h : e.presence <;> simp_all
    · intro hm
      have hmiss : e.missed s.missLimit = { e with presence := .lost, miss := s.missLimit, attention := .idle } := by
        unfold Entry.missed; rw [if_neg (by omega)]
      rw [hmiss]
      simp only [if_true]
      refine ⟨?_, fun m hne => ?_, ?_, State.reportPresence_told ?_ ?_ ?_⟩
      · rw [State.reportPresence_dir, State.endAttention_dir]
        rfl
      · rw [(State.onlyNews_reportPresence _ _ _).lane, State.endAttention_lane_ne _ _ _ _ hne, State.lane_post,
          State.leaveRound_lane, if_neg hne]
        rfl
      · rw [(State.onlyNews_reportPresence _ _ _).lane]
        unfold State.endAttention
        by_cases ha : e.attention = .inService
        · rw [if_pos ha, if_pos ha, State.lane_post, State.lane_modLane_self, State.lane_post, State.leaveRound_lane, if_pos rfl]
          rfl
        · rw [if_neg ha, if_neg ha, State.lane_post, State.leaveRound_lane, if_pos rfl]
          rfl
      · unfold State.endAttention
        split <;> rfl
      · rw [State.endAttention_resolver]; rfl
      · simp [h2]
  · unfold State.applyMiss
    cases he : s.target? p with
    | none => rfl
    | some e =>
      simp only []
      rw [if_neg]
      rw [Entry.judged_iff]
      rintro ⟨h1, h2⟩
      rcases h e he with h3 | h3
      · exact h3 h1
      · exact h2 h3

theorem State.evidence_takes (s : State) (p : Target) (r : AttemptResult) : s.takesEvidence p r (s.evidence p r.outcome) := by
  refine ⟨?_, ?_⟩
  · rintro (⟨a, rfl⟩ | rfl)
    · exact s.applyAnswer_takes p none
    · exact s.applyAnswer_takes p none
  · rintro (rfl | rfl)
    · exact s.applyMiss_takes p
    · exact s.applyMiss_takes p

/-! ### The fault record, descriptors and the return of an entry (R37, R54 to R57) -/

theorem State.writeFault_faults (s : State) (l : LaneId) (r : FaultRecord) : s.writeFault l r = s.faults l r := by
  unfold State.writeFault State.faults State.postLane State.post
  rw [State.lane_modLane_self]
  rfl

theorem State.faults_lane_self (s : State) (l : LaneId) (r : FaultRecord) : (s.faults l r).lane l = { s.lane l with fault := r } :=
  State.lane_modLane_self s l (fun n => { n with fault := r })

theorem State.faults_lane_ne (s : State) (l m : LaneId) (r : FaultRecord) (h : m ≠ l) : (s.faults l r).lane m = s.lane m :=
  State.lane_modLane_ne s l m (fun n => { n with fault := r }) h

theorem State.storeDescriptor_takes (s : State) (p : Target) (d : Descriptor) : s.takesDescriptor p d (s.storeDescriptor p d) := by
  unfold State.storeDescriptor
  refine ⟨fun h => by rw [h], fun e he => ⟨fun h => ?_, fun h1 h2 => ?_⟩⟩
  · simp only [he]
    split
    · rename_i hi
      unfold State.resolveIfResolved
      exact if_neg (h.resolve_left (by rw [hi]; simp))
    · rfl
  · simp only [he, h1, if_true]
    unfold State.resolveIfResolved
    rw [if_pos (by exact h2)]
    exact State.fullResolution_into h2

theorem Attention.release_frees (a : Attention) (h : Nat) : ∀ v r, (a.release h).slots.get v = some r → r.handle ≠ h := by
  intro v r hr
  have key : ∀ x : Option InService, (a.release h).slots.get v = x.bind (fun y => if y.handle = h then none else some y) →
      r.handle ≠ h := by
    intro x hx
    rw [hr] at hx
    cases x with
    | none => cases hx
    | some y =>
      simp only [Option.bind_some] at hx
      split at hx
      · cases hx
      · rename_i hy; cases hx; exact hy
  match v with
  | 0 => exact key a.slots.l0 (by unfold Attention.release; cases a.slots.l0 <;> rfl)
  | 1 => exact key a.slots.l1 (by unfold Attention.release; cases a.slots.l1 <;> rfl)
  | 2 => exact key a.slots.l2 (by unfold Attention.release; cases a.slots.l2 <;> rfl)

/-- R55 to R57: an entry comes back, on a state `v` that its old round has been taken out of. -/
theorem State.comeBack_comes_on (s : State) (e new : Entry) (h : new.attention = e.attention ∨ new.attention = .idle) (u : State)
    (hu : u = (let t := (s.update e new).post (.node e.handle .rejoined)
      (if new.attention = e.attention then t else (t.endAttention e .lost).arbitrate e.lane).reportPresence e new)) :
    s.keepsRest u ∧ u.mate = s.mate ∧ u.dir = (s.update e new).dir ∧ (∀ m, m ≠ e.lane → u.lane m = s.lane m)
    ∧ (s.lane e.lane).sameButService (u.lane e.lane)
    ∧ (e.attention = .inService → new.attention = .idle →
        ∀ v r, (u.lane e.lane).attention.slots.get v = some r → r.handle ≠ e.handle)
    ∧ (s.noAccess e.lane → u.unit = s.unit ∧ s.statusTold (e.presence ≠ new.presence)
        ((Notice.node e.handle .rejoined
          :: if e.attention = .inService ∧ new.attention = .idle then [.attentionEnded e.handle .lost] else []).foldl
            Link.post s.link) u) := by
  subst hu
  simp only []
  generalize ht : (s.update e new).post (.node e.handle .rejoined) = t
  have h1 : s.onlyNews t := by subst ht; exact (s.onlyNews_update e new).trans (State.onlyNews_post _ _)
  have htl : t.link = s.link.post (.node e.handle .rejoined) := by subst ht; rfl
  have htd : t.dir = (s.update e new).dir := by subst ht; rfl
  have htr : t.resolver = s.resolver := by subst ht; rfl
  have hna : s.noAccess e.lane → t.noAccess e.lane := by
    intro h; unfold State.noAccess at *; rw [h1.lane, h1.unit]; exact h
  by_cases ha : new.attention = e.attention
  · rw [if_pos ha]
    have h3 := t.onlyNews_reportPresence e new
    have hw : ¬ (e.attention = .inService ∧ new.attention = .idle) := by
      rintro ⟨a, b⟩; rw [a, b] at ha; cases ha
    refine ⟨h1.rest.trans h3.rest, h3.mate.trans h1.mate, ?_, fun m _ => by rw [h3.lane, h1.lane], ?_, fun a b => absurd ⟨a, b⟩ hw, fun hm => ?_⟩
    · rw [State.reportPresence_dir, htd]
    · rw [h3.lane, h1.lane]; exact .refl _
    · refine ⟨h3.unit.trans h1.unit, State.reportPresence_told ?_ htr Iff.rfl⟩
      rw [if_neg hw]; exact htl
  · rw [if_neg ha]
    have hidle := h.resolve_left ha
    have h2 := t.newsAndClears_endAttention e .lost
    generalize hv : t.endAttention e .lost = v at *
    have hvd : v.dir = t.dir := by subst hv; exact State.endAttention_dir _ _ _
    have hvr : v.resolver = t.resolver := by subst hv; exact State.endAttention_resolver _ _ _
    have hvl : v.link = ((if e.attention = .inService then [Notice.attentionEnded e.handle .lost] else []).foldl Link.post t.link) := by
      subst hv; unfold State.endAttention; split <;> rfl
    have hvn : ∀ m, m ≠ e.lane → v.lane m = t.lane m := by
      intro m hm; subst hv; exact State.endAttention_lane_ne _ _ _ _ hm
    have hvs : e.attention = .inService → (v.lane e.lane).attention = ((t.lane e.lane).attention).release e.handle := by
      intro hs; subst hv; unfold State.endAttention
      rw [if_pos hs, State.lane_post, State.lane_modLane_self]
    have h3 := (v.arbitrate e.lane).onlyNews_reportPresence e new
    have hsw := sameButWork_arbitrate v e.lane e.lane
    refine ⟨h1.rest.trans (h2.rest.trans ((keepsRest_arbitrate v e.lane).trans h3.rest)), ?_, ?_, fun m hm => ?_, ?_, fun a _ v' r hr => ?_, fun hm => ?_⟩
    · rw [h3.mate, State.arbitrate_mate, h2.mate, h1.mate]
    · rw [State.reportPresence_dir, State.arbitrate_dir, hvd, htd]
    · rw [h3.lane, State.arbitrate_lane_ne _ _ _ hm, hvn m hm, h1.lane]
    · rw [h3.lane]
      have := (h2.lane e.lane).1.trans hsw.service
      rw [h1.lane] at this
      exact this
    · rw [h3.lane] at hr
      unfold Lane.sameButWork at hsw
      rw [hsw] at hr
      simp only [] at hr
      rw [hvs a] at hr
      exact Attention.release_frees _ _ v' r hr
    · have hsa := sameAccess_arbitrate (s := v) (l := e.lane) (by
        have := hna hm
        unfold State.noAccess at *
        rw [(h2.lane e.lane).2.1, h2.unit]; exact this)
      refine ⟨?_, State.reportPresence_told ?_ ?_ Iff.rfl⟩
      · rw [h3.unit, hsa.2.1, h2.unit, h1.unit]
      · rw [hsa.1, hvl, htl]
        by_cases hs : e.attention = .inService
        · rw [if_pos hs, if_pos ⟨hs, hidle⟩]; rfl
        · rw [if_neg hs, if_neg (fun x => hs x.1)]; rfl
      · rw [State.arbitrate_resolver, hvr, htr]

/-- R55 to R57: an entry comes back. -/
theorem State.comeBack_comes (s : State) (e new : Entry) (h : new.attention = e.attention ∨ new.attention = .idle) :
    s.comesBack e new (s.comeBack e new) := by
  unfold State.comeBack State.comeBackTo
  by_cases hl : new.lane = e.lane
  · rw [if_pos hl]
    unfold State.comesBack
    rw [if_pos hl]
    exact s.comeBack_comes_on e new h _ rfl
  · rw [if_neg hl]
    unfold State.comesBack
    rw [if_neg hl]
    obtain ⟨h1, h2, h3, h4, h5, h6, h7⟩ := (s.leaveRound e).comeBack_comes_on e new h _ rfl
    refine ⟨h1, h2, h3, fun m hm => ?_, ?_, h6, fun hn => h7 ?_⟩
    · rw [h4 m hm, State.leaveRound_lane, if_neg hm]
    · rw [State.leaveRound_lane, if_pos rfl] at h5
      exact h5
    · unfold State.noAccess at *
      rw [State.leaveRound_lane, if_pos rfl]
      exact hn

/-! ### Tags and digits (R46, R48) -/

theorem natDigits_fold (p : Digits) :
    natDigits p.length (p.foldl (fun a d => 4 * a + d.val) 0) = p ∧ p.foldl (fun a d => 4 * a + d.val) 0 < 4 ^ p.length := by
  induction p using List.reverseRecOn with
  | nil => exact ⟨rfl, by simp⟩
  | append_singleton p d ih =>
    obtain ⟨h1, h2⟩ := ih
    rw [List.foldl_append, List.length_append]
    simp only [List.foldl_cons, List.foldl_nil, List.length_singleton]
    generalize p.foldl (fun a d => 4 * a + d.val) 0 = n at *
    have hd := d.isLt
    constructor
    · unfold natDigits
      rw [show (4 * n + d.val) / 4 = n by omega, h1]
      congr 2
      exact Fin.ext (by simp [Fin.ofNat])
    · rw [Nat.pow_succ]; omega

/-- R48: the tag of a prefix of 20 digits begins with it. -/
theorem digitsTag_begins {p : Digits} (h : p.length = 20) : tagBegins p (digitsTag p) = true := by
  obtain ⟨h1, h2⟩ := natDigits_fold p
  unfold tagBegins tagDigits digitsTag
  rw [BitVec.toNat_ofNat, Nat.mod_eq_of_lt (by rw [h] at h2; exact Nat.lt_of_lt_of_eq h2 (by norm_num))]
  rw [show Config.tagDigits = p.length by rw [h], h1]
  simp

/-! ### The next PING of a round, and a recalled entry (R65, R98, R102) -/

theorem State.pingIs_unique {s : State} {l : LaneId} {e f : Entry} (he : s.pingIs l e) (hf : s.pingIs l f) : e = f := by
  obtain ⟨a1, a2, a3, a4, a5, a6, a7, a8⟩ := he
  obtain ⟨b1, b2, b3, b4, b5, b6, b7, b8⟩ := hf
  rcases Nat.lt_trichotomy e.addr f.addr with h | h | h
  · rcases b8 _ _ a4 h a6 a7 a1 with x | x
    · exact absurd a2 x
    · exact absurd x a3
  · rw [h, b1] at a1; cases a1; rfl
  · rcases a8 _ _ b4 h b6 b7 b1 with x | x
    · exact absurd b2 x
    · exact absurd x b3

theorem State.pollable_iff {s : State} {l : LaneId} {a : Nat} {t : Target} :
    s.pollable l a = some t ↔ ∃ e, s.onLaneAt? l a = some e ∧ (e.override = .auto ∧ e.presence ≠ .lost) ∧ t = e.target := by
  unfold State.pollable
  cases s.onLaneAt? l a with
  | none => simp
  | some e =>
    simp only [← Entry.judged_iff]
    split
    · rename_i hj
      constructor
      · intro h; cases h; exact ⟨e, rfl, hj, rfl⟩
      · rintro ⟨f, hf, _, rfl⟩; cases hf; rfl
    · rename_i hj
      refine ⟨fun h => (by cases h), ?_⟩
      rintro ⟨f, hf, hj', _⟩; cases hf; exact absurd hj' hj

theorem State.pollNext_polls (s : State) (l : LaneId) : s.pollsOn l (s.pollNext l) := by
  have hsome : ∀ t, s.nextPing l = some t → ∃ e, s.pingIs l e ∧ t = e.target := by
    intro t ht
    unfold State.nextPing at ht
    obtain ⟨xs, a, ys, h1, h2, h3⟩ := List.findSome?_eq_some_iff.mp ht
    generalize hq : (fun a => (s.lane l).poller.roundSet.contains a && above (s.lane l).poller.position a) = q at *
    have hs : ((List.range' 1 Config.maxOnLane).filter q).Pairwise (· < ·) :=
      (List.pairwise_lt_range' : (List.range' 1 Config.maxOnLane).Pairwise (· < ·)).filter _
    have ha : a ∈ (List.range' 1 Config.maxOnLane).filter q := by rw [h1]; simp
    obtain ⟨ha1, ha2⟩ := List.mem_filter.mp ha
    rw [List.mem_range'_1] at ha1
    simp only [Config.maxOnLane] at ha1
    have hqs : ∀ b, q b = true ↔ b ∈ (s.lane l).poller.roundSet ∧ ∀ p, (s.lane l).poller.position = some p → p < b := by
      intro b; subst hq
      simp only [Bool.and_eq_true, List.contains_eq_mem, decide_eq_true_eq, above_iff]
    obtain ⟨e, he, hj, rfl⟩ := State.pollable_iff.mp h2
    obtain ⟨_, rfl⟩ := State.onLaneAt_addr he
    obtain ⟨q1, q2⟩ := (hqs _).mp ha2
    refine ⟨e, ⟨he, hj.1, hj.2, by omega, by omega, q1, q2, fun b f b1 b2 b3 b4 b5 => ?_⟩, rfl⟩
    have hb : b ∈ (List.range' 1 Config.maxOnLane).filter q :=
      List.mem_filter.mpr ⟨by rw [List.mem_range'_1]; simp only [Config.maxOnLane]; omega, (hqs b).mpr ⟨b3, b4⟩⟩
    rw [h1] at hb hs
    rcases List.mem_append.mp hb with hb | hb
    · have := h3 b hb
      by_contra hc
      rw [not_or, not_not] at hc
      rw [State.pollable_iff.mpr ⟨f, b5, hc, rfl⟩] at this
      cases this
    · rcases List.mem_cons.mp hb with rfl | hb
      · omega
      · have := (List.pairwise_cons.mp (List.pairwise_append.mp hs).2.1).1 b hb
        omega
  have hnone : s.nextPing l = none → ∀ e, ¬ s.pingIs l e := by
    intro h e he
    obtain ⟨a1, a2, a3, a4, a5, a6, a7, a8⟩ := he
    unfold State.nextPing at h
    rw [List.findSome?_eq_none_iff] at h
    have := h e.addr (List.mem_filter.mpr ⟨by rw [List.mem_range'_1]; simp only [Config.maxOnLane]; omega, by
      simp only [Bool.and_eq_true, List.contains_eq_mem, decide_eq_true_eq, above_iff]; exact ⟨a6, a7⟩⟩)
    rw [State.pollable_iff.mpr ⟨e, a1, ⟨a2, a3⟩, rfl⟩] at this
    cases this
  unfold State.pollNext
  cases hn : s.nextPing l with
  | some t =>
    obtain ⟨e, he, rfl⟩ := hsome t hn
    refine ⟨fun f hf => ?_, fun h => absurd he (h e)⟩
    rw [State.pingIs_unique hf he]
    rfl
  | none =>
    refine ⟨fun f hf => absurd hf (hnone hn f), fun _ => ?_⟩
    simp only []
    unfold State.modLane
    rfl

theorem State.recallAnswered_takes (s : State) (p : Target) (f : Bool) : s.takesRecall p f (s.recallAnswered p f) := by
  unfold State.recallAnswered
  cases he : s.target? p with
  | none =>
    refine ⟨.refl s, rfl, rfl, rfl, rfl, fun e h => ?_, fun _ => rfl⟩
    rw [he] at h; cases h
  | some e =>
    simp only []
    split
    · rename_i hl
      generalize ht : ((s.update e (e.answered (some f))).post (.node e.handle .rejoined)).postFault e (e.answered (some f)) = t
      have h1 : s.onlyNews t := by
        subst ht
        exact ((s.onlyNews_update _ _).trans (State.onlyNews_post _ _)).trans (State.onlyNews_postFault _ _ _)
      have h2 := t.onlyNews_reportPresence e (e.answered (some f))
      have h3 := h1.trans h2
      refine ⟨h3.rest, h3.mate, h3.lanes, h3.unit, h3.accessTimer, fun x hx hp => ?_, fun h => ?_⟩
      · rw [he] at hx; cases hx
        constructor
        · rw [State.reportPresence_dir]
          subst ht
          rw [State.postFault_dir]; rfl
        · refine State.reportPresence_told ?_ ?_ ?_
          · subst ht
            unfold State.postFault
            have hf : (e.answered (some f)).nodeFault = f := rfl
            have hh : (e.answered (some f)).handle = e.handle := rfl
            rw [hf, hh]
            cases h4 : e.nodeFault <;> cases f <;> rfl
          · subst ht
            unfold State.postFault
            split <;> rfl
          · rw [hl]; simp [Entry.answered, Entry.withFault]
      · exact absurd hl (h e he)
    · rename_i hl
      refine ⟨.refl s, rfl, rfl, rfl, rfl, fun x hx hp => ?_, fun _ => rfl⟩
      rw [he] at hx; cases hx
      exact absurd hp hl

/-! ### Free addresses and handles (R79, R80) -/

theorem State.freeAddr_lowest {s : State} {l : LaneId} {a : Nat} : s.freeAddr l = some a ↔ s.lowestAddr l a := by
  have key : ∀ a, s.freeAddr l = some a → s.lowestAddr l a := by
    intro a h
    obtain ⟨h1, h2, h3, h4⟩ := find_range h
    refine ⟨h1, h2, by simpa using h3, fun b b1 b2 => ?_⟩
    have := h4 b b1 b2
    intro hn; rw [hn] at this; cases this
  refine ⟨key a, fun h => ?_⟩
  obtain ⟨h1, h2, h3, h4⟩ := h
  cases hf : s.freeAddr l with
  | none =>
    unfold State.freeAddr at hf
    rw [List.find?_eq_none] at hf
    have := hf a (by rw [List.mem_range'_1]; simp only [Config.maxOnLane]; omega)
    rw [h3] at this; simp at this
  | some b =>
    obtain ⟨k1, k2, k3, k4⟩ := key b hf
    rcases Nat.lt_trichotomy a b with h | h | h
    · exact absurd h3 (k4 a h1 h)
    · rw [h]
    · exact absurd k3 (h4 b k1 h)

theorem State.freeHandle_lowest {s : State} {h : Nat} : s.freeHandle = some h ↔ s.lowestHandle h := by
  have key : ∀ h, s.freeHandle = some h → s.lowestHandle h := by
    intro a h
    obtain ⟨h1, h2, h3, h4⟩ := find_range h
    simp only [Bool.and_eq_true, Option.isNone_iff_eq_none, Bool.not_eq_true', List.contains_eq_mem, decide_eq_false_iff_not] at h3
    refine ⟨h1, h2, h3.1, h3.2, fun b b1 b2 => ?_⟩
    have := h4 b b1 b2
    simp only [Bool.and_eq_false_iff, Bool.not_eq_false', List.contains_eq_mem, decide_eq_true_eq] at this
    rcases this with h | h
    · exact .inl (fun hn => by rw [hn] at h; cases h)
    · exact .inr h
  refine ⟨key h, fun hl => ?_⟩
  obtain ⟨h1, h2, h3, h4, h5⟩ := hl
  cases hf : s.freeHandle with
  | none =>
    unfold State.freeHandle at hf
    rw [List.find?_eq_none] at hf
    have := hf h (by rw [List.mem_range'_1]; simp only [Config.maxEntries]; omega)
    rw [h3] at this; simp [h4] at this
  | some b =>
    obtain ⟨k1, k2, k3, k4, k5⟩ := key b hf
    rcases Nat.lt_trichotomy h b with hl | hl | hl
    · rcases k5 h h1 hl with x | x
      · exact absurd h3 x
      · exact absurd x h4
    · rw [hl]
    · rcases h5 b k1 hl with x | x
      · exact absurd k3 x
      · exact absurd x k4

/-! ### The notices of a lane loss (R87, R149, R168) -/

theorem State.losers_eq (s : State) (l : LaneId) : s.losers l = s.toLose l := by
  unfold State.losers State.toLose State.onLane
  rw [List.filter_filter]
  congr 1
  funext e
  simp [Bool.and_comm]

theorem State.refresh_statusHolds (s : State) (b) : (s.refresh b).1.statusHolds := by
  have h : ({ s with resolver := { s.resolver with status := s.computeStatus, counts := s.computeCounts } } : State).statusHolds :=
    State.statusHolds_of rfl rfl
  unfold State.refresh
  simp only []
  split
  · exact State.statusHolds_congr h rfl rfl rfl rfl (fun _ => rfl)
  · exact h

/-- R168: the TOOL notices that are due so far in an event: `toolsTell`, but for the counts of the last one, which are those of its
own recomputation until it is posted. -/
def toolsDue (old new : Resolver) (tools : List Notice) : Prop :=
  ∃ xs : List (ToolStatus × Counts × Nat), tools = xs.map (fun x => .tool x.1 new.toolId new.applied x.2.1 x.2.2)
    ∧ (old.status :: xs.map (·.1)).IsChain (fun a b => a ≠ b) ∧ (old.status :: xs.map (·.1)).getLast? = some new.status

theorem toolsDue.nil {r t : Resolver} (h : t.status = r.status) : toolsDue r t [] :=
  ⟨[], rfl, by simp, by simp [h]⟩

theorem toolsDue.append {r t v : Resolver} {xs ys : List Notice} (h : toolsDue r t xs) (k : toolsDue t v ys)
    (hc : v.toolId = t.toolId ∧ v.applied = t.applied) : toolsDue r v (xs ++ ys) := by
  obtain ⟨a, rfl, a2, a3⟩ := h
  obtain ⟨b, rfl, b2, b3⟩ := k
  refine ⟨a ++ b, by rw [List.map_append, hc.1, hc.2], ?_⟩
  revert a2 a3
  generalize r.status = q
  induction a generalizing q with
  | nil => simp; rintro rfl; exact ⟨b2, by simpa using b3⟩
  | cons x a ih =>
    simp only [List.map_cons, List.cons_append, List.isChain_cons_cons, List.getLast?_cons_cons]
    rintro ⟨h1, h2⟩ h3
    obtain ⟨g1, g2⟩ := ih x.1 h2 h3
    exact ⟨⟨h1, g1⟩, g2⟩

/-- R168: what `Resolver.lastShows` leaves of the notices that are due. -/
theorem toolsDue.tell {r t : Resolver} {ts : List Notice} (h : toolsDue r t ts) : toolsTell r t (t.lastShows ts) := by
  obtain ⟨xs, rfl, h2, h3⟩ := h
  revert h2 h3
  generalize hq : r.status = q
  unfold toolsTell
  rw [hq]
  clear hq
  induction xs generalizing q with
  | nil => exact fun h2 h3 => ⟨[], rfl, h2, h3, fun x hx => nomatch hx⟩
  | cons x xs ih =>
    intro h2 h3
    cases xs with
    | nil =>
      refine ⟨[(x.1, t.counts, x.2.2)], ?_, h2, h3, fun y hy => ?_⟩
      · have : x.1 = t.status := by simpa using h3
        simp [Resolver.lastShows, Notice.showing, this]
      · cases hy; rfl
    | cons y ys =>
      simp only [List.map_cons, List.isChain_cons_cons, List.getLast?_cons_cons] at h2 h3 ih
      obtain ⟨zs, z1, z2, z3, z4⟩ := ih x.1 h2.2 h3
      refine ⟨x :: zs, ?_, ?_, ?_, ?_⟩
      · simp only [List.map_cons, Resolver.lastShows]
        rw [← z1]
      · exact List.isChain_cons_cons.mpr ⟨h2.1, z2⟩
      · rw [List.map_cons, List.getLast?_cons_cons]; exact z3
      · cases zs with
        | nil => cases ys <;> simp [Resolver.lastShows] at z1
        | cons z zs => rw [List.getLast?_cons_cons]; exact z4

/-- R98 to R103: the outcome of a PING leaves the engine, the run and the access request of its lane, and the Request Unit. -/
theorem State.pollOutcome_kept (s : State) (l : LaneId) (p : Target) (o : TelegramOutcome) :
    ((s.pollOutcome l p o).lane l).engine = (s.lane l).engine ∧ ((s.pollOutcome l p o).lane l).run = (s.lane l).run
      ∧ ((s.pollOutcome l p o).lane l).arbiter.standing.access = (s.lane l).arbiter.standing.access
      ∧ (s.pollOutcome l p o).unit = s.unit ∧ (s.pollOutcome l p o).accessTimer = s.accessTimer := by
  have key : ∀ a : State, s.newsAndRounds a →
      (((a.modLane l (fun n => { n with poller := { n.poller with ping := none } })).pollNext l).lane l).engine = (s.lane l).engine
      ∧ (((a.modLane l (fun n => { n with poller := { n.poller with ping := none } })).pollNext l).lane l).run = (s.lane l).run
      ∧ (((a.modLane l (fun n => { n with poller := { n.poller with ping := none } })).pollNext l).lane l).arbiter.standing.access
        = (s.lane l).arbiter.standing.access
      ∧ ((a.modLane l (fun n => { n with poller := { n.poller with ping := none } })).pollNext l).unit = s.unit
      ∧ ((a.modLane l (fun n => { n with poller := { n.poller with ping := none } })).pollNext l).accessTimer = s.accessTimer := by
    intro a hn
    obtain ⟨_, h2, h3, h4⟩ := hn.lane l
    unfold State.pollNext
    split <;> simp only [State.modLane_modLane, State.lane_modLane_self] <;>
      exact ⟨h3, h2, congrArg (·.standing.access) h4, hn.unit, hn.accessTimer⟩
  unfold State.pollOutcome
  split
  · exact key _ (State.onlyNews_applyAnswer _ _ _).clears.rounds
  · exact key _ (State.newsAndRounds_applyMiss _ _)
  · exact key _ (State.onlyNews.refl s).clears.rounds

/-- What the losses of a lane do to the notices, the generation and the Resolver, from `x` to `y`. -/
structure LossNews (x y : State × List Notice) (ns : List Notice) (k : Nat) : Prop where
  link : y.1.link = ns.foldl Link.post x.1.link
  due : ∃ ts, y.2 = x.2 ++ ts ∧ toolsDue x.1.resolver y.1.resolver ts
  generation : y.1.dir.generation = x.1.dir.generation + BitVec.ofNat 16 k
  phase : y.1.resolver.phase = x.1.resolver.phase
  choice : x.1.resolver.sameChoice y.1.resolver
  absorbed : x.1.resolver.phase ≠ .resolved → y.1.resolver = x.1.resolver
  status : x.1.resolver.phase = .resolved → x.1.statusHolds → y.1.statusHolds

theorem LossNews.refl (x : State × List Notice) : LossNews x x [] 0 :=
  ⟨rfl, ⟨[], by simp, .nil rfl⟩, by simp, rfl, .refl _, fun _ => rfl, fun _ h => h⟩

theorem LossNews.trans {x y z : State × List Notice} {ns ms : List Notice} {j k : Nat} (h : LossNews x y ns j)
    (g : LossNews y z ms k) : LossNews x z (ns ++ ms) (j + k) := by
  obtain ⟨t1, h1, h2⟩ := h.due
  obtain ⟨t2, g1, g2⟩ := g.due
  refine ⟨?_, ⟨t1 ++ t2, by rw [g1, h1, List.append_assoc], h2.append g2 ?_⟩, ?_, g.phase.trans h.phase,
    h.choice.trans g.choice, fun hp => ?_, fun hp hs => ?_⟩
  · rw [g.link, h.link, List.foldl_append]
  · exact ⟨g.choice.2.2.2.1, g.choice.2.2.1⟩
  · rw [g.generation, h.generation, BitVec.add_assoc]
    congr 1
    simp [BitVec.ofNat_add]
  · rw [g.absorbed (by rw [h.phase]; exact hp), h.absorbed hp]
  · exact g.status (by rw [h.phase]; exact hp) (h.status hp hs)

theorem recomputeLater_news (s : State) (due : List Notice) : LossNews (s, due) (s.recomputeLater due) [] 0
    ∧ (s.resolver.phase = .resolved → (s.recomputeLater due).1.statusHolds) := by
  obtain ⟨hn, hd⟩ := State.onlyNews_recomputeLater s due
  have hl : (s.recomputeLater due).1.link = s.link := by
    unfold State.recomputeLater State.refresh
    simp only []
    split <;> try split
    all_goals rfl
  have hs : s.resolver.phase = .resolved → (s.recomputeLater due).1.statusHolds := by
    intro hp
    unfold State.recomputeLater
    rw [if_pos hp]
    exact State.refresh_statusHolds _ _
  refine ⟨⟨hl, ?_, by rw [hd]; simp, hn.resolver.1, hn.resolver, fun hp => ?_, fun hp _ => hs hp⟩, hs⟩
  · unfold State.recomputeLater State.refresh
    simp only []
    split
    · split
      · rename_i h
        refine ⟨_, rfl, [(s.computeStatus, s.computeCounts, _)], rfl, ?_, rfl⟩
        simp only [List.map_cons, List.map_nil, List.isChain_cons_cons, List.isChain_singleton, and_true]
        intro heq
        unfold Resolver.shown at h
        simp only [heq] at h
        exact h rfl
      · rename_i h
        refine ⟨[], by simp, .nil ?_⟩
        unfold Resolver.shown at h
        simpa using h
    · exact ⟨[], by simp, .nil rfl⟩
  · unfold State.recomputeLater
    rw [if_neg hp]

theorem loseEntry_news (x : State × List Notice) (e : Entry) (h : e.presence ≠ .lost) :
    LossNews x (loseEntry x e) (if e.attention = .inService then [.attentionEnded e.handle .laneFault] else []) 1 := by
  unfold loseEntry
  generalize hv : (x.1.update e (e.laneLost x.1.missLimit)).endAttention e .laneFault = v
  obtain ⟨h1, h2⟩ := recomputeLater_news v x.2
  have hvd : v.dir = (x.1.update e (e.laneLost x.1.missLimit)).dir := by subst hv; exact State.endAttention_dir _ _ _
  have hvr : v.resolver = x.1.resolver := by subst hv; rw [State.endAttention_resolver]; rfl
  have hvl : v.link = (if e.attention = .inService then [Notice.attentionEnded e.handle .laneFault] else []).foldl Link.post x.1.link := by
    subst hv; unfold State.endAttention; split <;> rfl
  have hc : e.counted (e.laneLost x.1.missLimit) = true := by
    unfold Entry.counted Entry.laneLost; simp [h]
  refine ⟨h1.link.trans hvl, by have := h1.due; simp only [hvr] at this; exact this, ?_, h1.phase.trans (by rw [hvr]), ?_, fun hp => ?_, fun hp _ => ?_⟩
  · rw [h1.generation, hvd]
    unfold State.update Directory.advance
    rw [hc]
    simp
  · have := h1.choice; simp only [hvr] at this; exact this
  · rw [h1.absorbed (by simp only [hvr]; exact hp)]; exact hvr
  · exact h2 (by rw [hvr]; exact hp)

theorem loseEntries_news (es : List Entry) (h : ∀ e ∈ es, e.presence ≠ .lost) (x : State × List Notice) :
    LossNews x ((es.map (fun e x => loseEntry x e)).foldl (fun x f => f x) x)
      ((es.filter (fun e => decide (e.attention = .inService))).map (fun e => .attentionEnded e.handle .laneFault)) es.length := by
  induction es generalizing x with
  | nil => exact .refl x
  | cons e es ih =>
    have h1 := loseEntry_news x e (h e (by simp))
    have h2 := h1.trans (ih (fun f hf => h f (by simp [hf])) (loseEntry x e))
    simp only [List.map_cons, List.foldl_cons, List.length_cons]
    rw [Nat.add_comm]
    refine Eq.mp ?_ h2
    congr 1
    rw [List.filter_cons]
    by_cases ha : e.attention = .inService <;> simp [ha]

/-- R168: the notices that are due are posted. -/
theorem postAll_link (ns : List Notice) (s : State) : (s.postAll ns).link = ns.foldl Link.post s.link := by
  induction ns generalizing s with
  | nil => rfl
  | cons n ns ih => exact ih (s.post n)

/-- What a sequence of losses leaves when its TOOL notices have been posted. -/
structure LossDone (s u : State) (l : LaneId) (first : Notice) : Prop where
  generation : u.dir.generation = s.dir.generation + BitVec.ofNat 16 (s.losers l).length
  choice : s.resolver.sameChoice u.resolver
  status : s.resolver.phase = .resolved → s.statusHolds → u.statusHolds
  absorbed : s.resolver.phase ≠ .resolved → u.resolver = s.resolver
  link : ∃ tools : List Notice, toolsTell s.resolver u.resolver tools
    ∧ u.link = (first :: (s.lossNotices l ++ tools)).foldl Link.post s.link

/-- The losses of a lane, from a pair that has posted `first` and may have recomputed once. -/
theorem losses_done {s : State} {l : LaneId} {first : Notice} {x : State × List Notice} (hd : x.1.dir = s.dir)
    (hl : x.1.link = s.link.post first) (hp : x.1.resolver.phase = s.resolver.phase) (hc : s.resolver.sameChoice x.1.resolver)
    (ha : s.resolver.phase ≠ .resolved → x.1.resolver = s.resolver)
    (hs : s.resolver.phase = .resolved → s.statusHolds → x.1.statusHolds)
    (ht : toolsDue s.resolver x.1.resolver x.2) :
    LossDone s (postDue ((s.lossActs l).foldl (fun x f => f x) x)).1 l first := by
  have hne : ∀ e ∈ s.toLose l, e.presence ≠ .lost := fun e he => ((State.mem_toLose s l e).mp he).2.2
  have h := loseEntries_news (s.toLose l) hne x
  unfold State.lossActs
  generalize ((s.toLose l).map (fun e x => loseEntry x e)).foldl (fun x f => f x) x = y at *
  have e1 : (postDue y).1 = y.1.postAll (y.1.resolver.lastShows y.2) := rfl
  rw [e1]
  obtain ⟨ts, t1, t2⟩ := h.due
  refine ⟨?_, ?_, fun hp' hs' => ?_, fun hp' => ?_, y.1.resolver.lastShows y.2, ?_, ?_⟩
  · rw [State.postAll_dir, h.generation, hd, State.losers_eq]
  · rw [State.postAll_resolver]; exact hc.trans h.choice
  · exact State.statusHolds_congr (h.status (by rw [hp]; exact hp') (hs hp' hs')) (by simp) (by simp) (by simp) (by simp) (by simp)
  · rw [State.postAll_resolver, h.absorbed (by rw [hp]; exact hp'), ha hp']
  · rw [State.postAll_resolver]
    refine toolsDue.tell ?_
    rw [t1]
    exact ht.append t2 ⟨h.choice.2.2.2.1, h.choice.2.2.1⟩
  · rw [postAll_link, h.link, hl, State.lossNotices, State.losers_eq]
    simp only [List.foldl_cons, List.foldl_append]

/-- R69: the notices, the generation and the Resolver of a lane restart. -/
theorem State.restartLane_done (s : State) (l : LaneId) : LossDone s (s.restartLane l) l (.lane l .settling none) := by
  unfold State.restartLane
  simp only []
  generalize ht : (s.modLane l (fun n => n.restarted (s.timer Config.restartMs))).postLane l none = t
  have e1 : t.dir = s.dir := by subst ht; rfl
  have e2 : t.link = s.link.post (.lane l .settling none) := by
    subst ht; unfold State.postLane; rw [State.lane_modLane_self]; rfl
  have e3 : t.resolver = s.resolver := by subst ht; rfl
  obtain ⟨r1, r2⟩ := recomputeLater_news t []
  obtain ⟨r3, r4⟩ := State.onlyNews_recomputeLater t []
  by_cases hdup : (s.lane l).duplicateSeen = true
  · rw [if_pos hdup]
    refine losses_done (r4.trans e1) (r1.link.trans e2) (r1.phase.trans (by rw [e3])) ?_ (fun hp => ?_) (fun hp _ => ?_) ?_
    · have := r1.choice; simp only [e3] at this; exact this
    · rw [r1.absorbed (by simp only [e3]; exact hp)]; exact e3
    · exact r2 (by rw [e3]; exact hp)
    · obtain ⟨ts, t1, t2⟩ := r1.due
      rw [t1, List.nil_append, ← e3]; exact t2
  · rw [if_neg hdup]
    refine losses_done e1 e2 (by rw [e3]) (by rw [e3]; exact .refl _) (fun _ => e3) (fun _ hs => ?_) (.nil (by rw [e3]))
    refine State.statusHolds_congr hs (by subst ht; rfl) e3 e1 (by subst ht; rfl) (fun m => ?_)
    subst ht
    unfold State.postLane
    rw [State.lane_post, State.lane_modLane]
    split
    · rename_i hm; subst hm
      simp only [Lane.restarted]
      simpa using hdup
    · rfl

/-- R20, R149: the notices, the generation and the Resolver of a trip on a lane where no access waits, before its report. -/
theorem State.trip_done (s : State) (l : LaneId) (h : s.noAccess l) :
    ∃ u : State, u.marksFinished l (s.trip l) ∧ u.unit = s.unit ∧ LossDone s u l (.lane l .faulted (some .overcurrent)) := by
  have hr : s.tripReply? l = none := by
    unfold State.tripReply? State.accessReply?
    cases hu : s.unit with
    | free => rfl
    | replying _ => rfl
    | accessWait kind token m =>
      simp only []
      cases hrun : (s.lane m).run with
      | none => rfl
      | some r =>
        simp only []
        rw [if_neg]
        rintro rfl
        rcases h with h | h
        · rw [h] at hrun; cases hrun
        · exact h _ _ hu
  unfold State.trip
  simp only []
  refine ⟨_, State.reportFinished_marks _ l, ?_, ?_⟩
  · rw [(State.tripSequence_spec s l _).2.2.2.2.1 hr]; rfl
  · unfold State.tripSequence
    rw [hr]
    simp only [State.tripActs, List.foldl_cons, List.foldl_append, List.foldl_nil]
    generalize hu : ({ s.modLane l Lane.tripped with draws := (s.modLane l Lane.tripped).draws + 1 } : State) = u
    have hul : u.lane l = (s.lane l).tripped := by subst hu; exact State.lane_modLane_self _ _ _
    refine losses_done (x := (u.postLane l (some .overcurrent), [])) ?_ ?_ ?_ ?_ (fun _ => ?_) (fun _ hs => ?_) (.nil ?_)
    · subst hu; rfl
    · unfold State.postLane; rw [hul]; subst hu; rfl
    · subst hu; rfl
    · subst hu; exact .refl _
    · subst hu; rfl
    · refine State.statusHolds_congr hs (by subst hu; rfl) (by subst hu; rfl) (by subst hu; rfl) (by subst hu; rfl) (fun m => ?_)
      unfold State.postLane
      rw [State.lane_post]
      by_cases hm : m = l
      · subst hm; rw [hul]; rfl
      · subst hu
        exact congrArg Lane.duplicateSeen (State.lane_modLane_ne s l m Lane.tripped hm)
    · subst hu; rfl

/-! ### Hits (R135) -/

theorem State.classifyHit_takes (s : State) (l : LaneId) (k : Nat) : s.takesHit l k (s.classifyHit l k) := by
  unfold State.classifyHit
  refine ⟨fun h => ?_, fun e he => ⟨fun h => ?_, fun h1 h2 => ?_, fun h1 h2 h3 h4 h5 h6 => ?_⟩⟩
  · rw [h]
    simp only []
    unfold State.strayHit
    rw [State.writeFault_faults]
  · rw [he]
    simp only []
    cases ha : e.attention with
    | idle => exact absurd ha h
    | pending => rfl
    | inService => rfl
  · rw [he]
    simp only []
    split
    · rename_i h; rw [h1] at h; cases h
    · rename_i h; rw [h1] at h; cases h
    · rw [if_pos]
      · rfl
      · unfold Entry.hitDiscarded Entry.level
        simp only [Bool.or_eq_true, decide_eq_true_eq, Option.isNone_iff_eq_none, Bool.not_eq_true']
        tauto
  · rw [he]
    simp only []
    split
    · rename_i h; rw [h1] at h; cases h
    · rename_i h; rw [h1] at h; cases h
    · rw [if_neg]
      unfold Entry.hitDiscarded Entry.level
      simp [h2, h3, h4, h5, h6]

end Sys2Proof.Machine
end

