-- ==== Sys2Proof/Laws/Steps.lean ====
section
/-! SUPPORT. What the lane losses, the session and each command that is not calm do to a property. -/

namespace Sys2Proof.Machine

/-- An act of a lane loss. -/
def CalmAct (es : List Entry) (f : State × List Notice → State × List Notice) : Prop :=
  ∀ x : State × List Notice, ((x.1.dir.entries.map (·.handle)).Nodup → ∀ e ∈ es, x.1.knows e) → x.1.calm (f x).1

theorem calm_acts (es : List Entry) (fs : List (State × List Notice → State × List Notice)) (h : ∀ f ∈ fs,
    CalmAct es f) (x : State × List Notice)
    (hx : (x.1.dir.entries.map (·.handle)).Nodup → ∀ e ∈ es, x.1.knows e)
        : x.1.calm (fs.foldl (fun x f => f x) x).1 := by
  induction fs generalizing x with
  | nil => exact .refl _
  | cons f fs ih =>
    have h1 := h f (List.mem_cons_self ..) x hx
    refine h1.trans (ih (fun g hg => h g (List.mem_cons_of_mem _ hg)) (f x) (fun hn e he => ?_))
    rw [h1.handles] at hn
    exact h1.knows hn (hx hn e he)

theorem calm_lossActs (s : State) (l : LaneId) : ∀ f ∈ s.lossActs l, CalmAct (s.toLose l) f := by
  intro f hf
  obtain ⟨e, he, rfl⟩ := List.mem_map.1 hf
  exact fun x hx => calm_loseEntry (fun hn => hx hn e he)

theorem toLose_mem {s : State} {l : LaneId} {e : Entry} (h : e ∈ s.toLose l) : e ∈ s.dir.entries := by
  unfold State.toLose State.onLane at h
  exact (List.mem_filter.1 (List.mem_filter.1 h).1).1

theorem calm_postDue (es : List Entry) : CalmAct es postDue := fun x _ => x.1.calm_postAll _

theorem calm_trip (s : State) (l : LaneId) : (s.modLane l Lane.tripped).calm (s.trip l) := by
  unfold State.trip
  simp only []
  refine State.calm.trans ?_ (State.calm_reportFinished _ _)
  have h0 : (s.modLane l Lane.tripped).calm { s.modLane l Lane.tripped with draws := (s.modLane l Lane.tripped).draws + 1 } := State.calm_of rfl rfl rfl rfl
  refine h0.trans ?_
  have hacts : ∀ f ∈ s.tripActs l, CalmAct (s.toLose l) f := by
    intro f hf
    unfold State.tripActs at hf
    rcases List.mem_cons.1 hf with rfl | hf
    · exact fun x _ => x.1.calm_postLane _ _
    · rcases List.mem_append.1 hf with hf | hf
      · exact calm_lossActs s l f hf
      · rw [List.mem_singleton] at hf; subst hf; exact calm_postDue _
  refine calm_acts (s.toLose l) (s.tripSequence l) ?_ (_, []) (fun _ e he => State.knows_of_mem (toLose_mem he))
  intro f hf
  unfold State.tripSequence at hf
  split at hf
  · simp only [] at hf
    rcases List.mem_append.1 hf with hf | hf
    · exact hacts f (List.mem_of_mem_take hf)
    · rcases List.mem_cons.1 hf with rfl | hf
      · exact fun x _ => x.1.calm_sendAccessReply _
      · exact hacts f (List.mem_of_mem_drop hf)
  · exact hacts f hf

theorem calm_restartLane (s : State) (l : LaneId)
    : (s.modLane l (fun n => n.restarted (s.timer Config.restartMs))).calm (s.restartLane l) := by
  unfold State.restartLane
  simp only []
  generalize ht : s.modLane l (fun n => n.restarted (s.timer Config.restartMs)) = t
  have hd : t.dir = s.dir := by subst ht; rfl
  have h1 := t.calm_postLane l none
  generalize hu : t.postLane l none = u at *
  have hud : u.dir = s.dir := by subst hu; exact hd
  have h2 : u.calm (if (s.lane l).duplicateSeen then u.recomputeLater [] else (u, [])).1 := by
    split
    · exact u.calm_recomputeLater _
    · exact .refl u
  have hk2 : (u.dir.entries.map (·.handle)).Nodup → ∀ e ∈ s.toLose l, u.knows e := fun _ e he =>
    State.knows_of_mem (by rw [hud]; exact toLose_mem he)
  generalize (if (s.lane l).duplicateSeen then u.recomputeLater [] else (u, [])) = x at *
  refine (h1.trans h2).trans ?_
  refine State.calm.trans (calm_acts (s.toLose l) (s.lossActs l) (calm_lossActs s l) x (fun hn e he => ?_))
      (State.calm_postAll _ _)
  rw [h2.handles] at hn
  exact h2.knows hn (hk2 hn e he)

theorem settled_closeReply (s : State) (r) : s.settled (s.closeReply r) := by
  unfold State.closeReply
  split
  · exact s.settled_sendAccessReply _
  · exact .refl s

theorem settled_close (s : State) (h : s.mate.session = true) : s.closeBlocks.settled s.closeSession := by
  unfold State.closeSession
  rw [if_pos h]
  simp only []
  split
  · exact (settled_closeReply _ _).trans (State.settled_recomputeFrom _ _)
  · exact (State.settled_recomputeFrom _ _).trans (settled_closeReply _ _)

/-- The state in which an opening session stands. -/
def State.opening (s : State) : State := { s with
      mate := { s.mate with session := true }
      lanes := s.lanes.map (fun n => n.opened (s.timer Config.settleMs))
      resolver := Resolver.opened }

theorem settled_open (s : State) (h : s.mate.session = false) : s.opening.settled s.openSession := by
  unfold State.openSession
  rw [if_neg (by rw [h]; simp)]
  simp only []
  change State.settled s.opening (if (s.opening.recomputeFrom s.resolver.shown).allFinished = true then (s.opening.recomputeFrom s.resolver.shown).initialResolution else s.opening.recomputeFrom s.resolver.shown)
  exact settled_ite ((State.settled_recomputeFrom _ _).trans (State.settled_initialResolution _)) (State.settled_recomputeFrom _ _)

/-! ### What one property needs -/

structure Kept (P : State → Prop) : Prop where
  settled : ∀ {s t : State}, s.settled t → P s → P t
  engine : ∀ (s : State) (l : LaneId) (x : Option Underway), P s → P (s.modLane l (fun n => { n with engine := x }))
  quiet : ∀ (s : State) (l : LaneId), P s → P (s.quietWait l)
  trip : ∀ (s : State) (l : LaneId), (s.lane l).power = true → P s → P (s.trip l)
  restart : ∀ (s : State) (l : LaneId), (s.lane l).state ≠ .off → (s.lane l).state ≠ .disabled → P s → P (s.restartLane l)
  settle : ∀ (s : State) (l : LaneId), (s.lane l).settleTimer.isSome → P s → P (s.beginInitialPass l)
  rescan : ∀ (s : State) (l : LaneId), (s.lane l).state = .supervising ∨ (s.lane l).rescanTimer.isSome → P s →
      P (s.beginRescan l)
  powerUp : ∀ (s : State) (l : LaneId) (d : Nat), (s.lane l).restartTimer.isSome → P s →
      P (s.modLane l (fun n => n.powerUp (some d)))
  rescanTimer : ∀ (s : State) (l : LaneId) (d : Timer), (s.lane l).state = .supervising → P s →
      P (s.modLane l (fun n => { n with rescanTimer := d }))
  mask : ∀ (s : State) (v : Nat), s.mate.enabled = false → P s → P (storeMask v s)
  missLimit : ∀ (s : State) (v : Nat), s.mate.enabled = false → 1 ≤ v → v ≤ 15 → P s → P { s with missLimit := v }
  remove : ∀ (s : State) (e : Entry), e ∈ s.dir.entries → e.presence = .lost → P s → P (s.remove e.handle)

/-- What a property needs for the commands of the Mate Monitor and the resets. -/
structure KeptMate (P : State → Prop) : Prop where
  settled : ∀ {s t : State}, s.settled t → P s → P t
  cold : ∀ (s : State) (c r), P (s.cold c r)
  mate : ∀ (s : State) (m : Mate), m.session = s.mate.session → P s → P { s with mate := m }
  close : ∀ (s : State), P s → P s.closeBlocks
  opening : ∀ (s : State), s.mate.session = false → P s → P s.opening
  fault : ∀ (s : State), P s → P { s with lanes := s.lanes.map (fun n => { n with fault := FaultRecord.empty }) }

variable {P : State → Prop}

theorem Kept.lane_cmds (K : Kept P) (s : State) (hs : P s) (l : LaneId) (b : Bool) (bs : List Byte) (hits : BitVec 30) :
    ∀ c ∈ [Instr.telegramSent l, .answerTimeout l, .carrierBegins l, .answerEnd l b bs, .carrierLimitExpiry l,
        .rollcallSlotsEnd l hits,
      .quietWaitEnd l, .quietWaitLimitExpiry l, .overcurrentTrip l, .settleTimerExpiry l, .restartTimerExpiry l,
          .rescanTimerExpiry l],
      ∃ t, exec c s = .next t ∧ P t := by
  have he : ∀ (f : Underway → Bool) (g : Underway → EnginePhase), P (match (s.lane l).engine with
      | some u => if f u then s.setPhase l u (g u) else s
      | none => s) := by
    intro f g
    split
    · split
      · exact K.engine _ _ _ hs
      · exact hs
    · exact hs
  have hp : ∀ (ph : EnginePhase) (g : Underway → EnginePhase), P (match (s.lane l).engine with
      | some u => if u.phase = ph then s.setPhase l u (g u) else s
      | none => s) := by
    intro f g
    split
    · split
      · exact K.engine _ _ _ hs
      · exact hs
    · exact hs
  intro c hc
  simp only [List.mem_cons, List.not_mem_nil, or_false] at hc
  rcases hc with rfl | rfl | rfl | rfl | rfl | rfl | rfl | rfl | rfl | rfl | rfl | rfl
  · exact ⟨_, rfl, hp _ _⟩
  · exact ⟨_, rfl, hp _ (fun u => .quiet u.telegram.noCarrier)⟩
  · exact ⟨_, rfl, hp _ (fun u => .receiving)⟩
  · exact ⟨_, rfl, hp _ (fun u => .quiet (judgeAnswer u.telegram b bs))⟩
  · exact ⟨_, rfl, hp _ (fun u => .quiet u.telegram.overrun)⟩
  · exact ⟨_, rfl, hp _ (fun u => .quiet (.hits hits))⟩
  · exact ⟨_, rfl, K.quiet _ _ hs⟩
  · exact ⟨_, rfl, K.quiet _ _ hs⟩
  · refine ⟨_, rfl, ?_⟩
    split
    · rename_i h; exact K.trip _ _ h hs
    · exact hs
  · refine ⟨_, rfl, ?_⟩
    split
    · rename_i h; exact K.settled (State.settled_arbitrate _ _) (K.settle _ _ h hs)
    · exact hs
  · refine ⟨_, rfl, ?_⟩
    split
    · rename_i h; exact K.powerUp _ _ _ h hs
    · exact hs
  · refine ⟨_, rfl, ?_⟩
    split
    · rename_i h; exact K.settled (State.settled_arbitrate _ _) (K.rescan _ _ (.inr h) hs)
    · exact hs

theorem inRange_of {lo hi v : Nat} (h : inRange lo hi v = true) : lo ≤ v ∧ v ≤ hi := by
  unfold inRange at h
  simpa using h

theorem Kept.requests (K : Kept P) (s : State) (hs : P s) :
    ∀ c ∈ [Instr.configureLaneEnableMask, .configureMissLimit, .configureRescanInterval, .rescan, .laneRestart, .purge], ∃ t,
        exec c s = .next t ∧ P t := by
  intro c hc
  simp only [List.mem_cons, List.not_mem_nil, or_false] at hc
  rcases hc with rfl | rfl | rfl | rfl | rfl | rfl
  · refine ⟨_, rfl, State.take_of s _ _ K.settled hs (fun q t ht => ?_)⟩
    unfold configureWith
    split
    · unfold whileDisabled
      split
      · split
        · exact K.settled (t.settled_refuse _ _) ht
        · rename_i he
          exact K.settled (State.settled_ok _ _ _) (K.mask _ _ (by simpa using he) ht)
      · exact K.settled (t.settled_refuse _ _) ht
    · exact K.settled (t.settled_refuse _ _) ht
  · refine ⟨_, rfl, State.take_of s _ _ K.settled hs (fun q t ht => ?_)⟩
    unfold configureWith
    split
    · unfold whileDisabled
      split
      · rename_i hv
        split
        · exact K.settled (t.settled_refuse _ _) ht
        · rename_i he
          exact K.settled (State.settled_ok _ _ _) (K.missLimit _ _ (by simpa using he) (inRange_of hv.2).1 (inRange_of hv.2).2 ht)
      · exact K.settled (t.settled_refuse _ _) ht
    · exact K.settled (t.settled_refuse _ _) ht
  · refine ⟨_, rfl, State.take_of s _ _ K.settled hs (fun q t ht => ?_)⟩
    unfold configureWith
    split
    · unfold perLane
      split
      · exact K.settled (t.settled_refuse _ _) ht
      · rename_i l _
        split
        · refine K.settled (State.settled_ok _ _ _) ?_
          unfold storeRescanInterval
          simp only []
          have hc : t.settled (t.modLane l (fun n => { n with rescanSeconds := q.value }))
              := t.settled_modLane _ _ (Lane.calm_of ⟨rfl, rfl, rfl, rfl, rfl, rfl, rfl, rfl⟩ rfl rfl)
          split
          · rename_i hst
            exact K.rescanTimer _ _ _ (by rw [State.lane_modLane_self]; exact hst) (K.settled hc ht)
          · exact K.settled hc ht
        · exact K.settled (t.settled_refuse _ _) ht
    · exact K.settled (t.settled_refuse _ _) ht
  · refine ⟨_, rfl, State.take_of s _ _ K.settled hs (fun q t ht => ?_)⟩
    unfold serveRescan
    split
    · exact K.settled (t.settled_refuse _ _) ht
    · rename_i l _
      split
      · rename_i hst
        exact K.settled (State.settled_ok _ _ _) (K.settled (State.settled_arbitrate _ _) (K.rescan _ _ (.inl hst) ht))
      · exact K.settled (t.settled_ok _ _) ht
      all_goals exact K.settled (t.settled_refuse _ _) ht
  · refine ⟨_, rfl, State.take_of s _ _ K.settled hs (fun q t ht => ?_)⟩
    unfold serveLaneRestart
    split
    · exact K.settled (t.settled_refuse _ _) ht
    · rename_i l _
      split
      · exact K.settled (t.settled_refuse _ _) ht
      · exact K.settled (t.settled_refuse _ _) ht
      all_goals
        rename_i hst
        exact K.settled (State.settled_ok _ _ _) (K.restart _ _ (by rw [hst]; decide)
            (by rw [hst]; decide) ht)
  · refine ⟨_, rfl, State.take_of s _ _ K.settled hs (fun q t ht => ?_)⟩
    unfold servePurge
    split
    · exact K.settled (t.settled_refuse _ _) ht
    · rename_i e he
      split
      · exact K.settled (t.settled_refuse _ _) ht
      · rename_i hp
        have hp : e.presence = .lost := by simpa using hp
        split
        · exact K.settled (t.settled_refuse _ _) ht
        · refine K.settled (State.settled_ok _ _ _) ?_
          unfold State.afterRemoval
          split
          · exact K.settled (State.settled_resolveIfResolved _) (K.settled (State.settled_post _ _) (K.remove t _ (State.mem_of_entry? he) hp ht))
          · exact K.settled (State.settled_recompute _) (K.settled (State.settled_post _ _) (K.remove t _ (State.mem_of_entry? he) hp ht))

/-! ### the mate commands of the three that do not speak of the Mate Monitor -/

theorem KeptMate.closeSession (K : KeptMate P) (s : State) (hs : P s) : P s.closeSession := by
  by_cases h : s.mate.session = true
  · exact K.settled (settled_close s h) (K.close s hs)
  · unfold State.closeSession; rw [if_neg h]; exact hs

theorem KeptMate.openSession (K : KeptMate P) (s : State) (hs : P s) : P s.openSession := by
  by_cases h : s.mate.session = true
  · unfold State.openSession; rw [if_pos h]; exact hs
  · exact K.settled (settled_open s (by simpa using h)) (K.opening s (by simpa using h) hs)

theorem Mate.record_session (m : Mate) (pin : SensePin) (level : Contact) : (m.record pin level).session = m.session := by
  cases pin <;> rfl

theorem KeptMate.setPlug (K : KeptMate P) (s : State) (p) (hs : P s) : P (s.setPlug p) := by
  unfold State.setPlug
  split
  · exact hs
  · exact K.settled (State.settled_post _ _) (K.mate _ _ rfl hs)

theorem KeptMate.sense (K : KeptMate P) (s : State) (pin level) (hs : P s) : P (s.sense pin level) := by
  unfold State.sense
  simp only []
  have h1 : P { s with mate := s.mate.record pin level } := K.mate _ _ (s.mate.record_session pin level) hs
  split
  · split
    · exact K.setPlug _ _ (K.mate _ _ rfl h1)
    · exact h1
  · exact K.mate _ _ rfl h1
  · exact K.mate _ _ rfl h1
  · split
    · exact K.closeSession _ (K.setPlug _ _ (K.mate _ _ rfl h1))
    · exact h1

theorem KeptMate.reevaluate (K : KeptMate P) (s : State) (hs : P s) : P s.reevaluate := by
  have h1 : ∀ (t : State) pin, P t → P (t.reevaluateOne pin) := by
    intro t pin ht
    unfold State.reevaluateOne
    split
    · exact K.sense _ _ _ ht
    · exact ht
  exact h1 _ _ (h1 _ _ hs)

theorem KeptMate.mates (K : KeptMate P) (s : State) (hs : P s) (pin : SensePin) (level : Contact) (r1 r0 : Bool) :
    ∀ c ∈ [Instr.senseEvent pin level, .debounceExpiry, .partialExpiry, .plugEnable, .plugDisable, .resetNAssert,
        .powerOn r1, .resetRelease r1 r0, .transmitFrameEnd r1 r0],
      ∃ t, exec c s = .next t ∧ P t := by
  have hrestart : ∀ (t : State) c r, P (t.restart c r) := fun t c r => K.reevaluate _ (K.settled (State.settled_post _ _)
      (K.cold _ _ _))
  intro c hc
  simp only [List.mem_cons, List.not_mem_nil, or_false] at hc
  rcases hc with rfl | rfl | rfl | rfl | rfl | rfl | rfl | rfl | rfl
  · refine ⟨_, rfl, ?_⟩
    split
    · exact hs
    · split
      · exact K.mate _ _ (s.mate.record_session pin level) hs
      · exact K.sense _ _ _ hs
  · refine ⟨_, rfl, ?_⟩
    split
    · unfold State.settlePlug
      split
      · simp only []
        have := K.setPlug _ .attached (K.mate s { s.mate with debounce := none, partialTimer := none } rfl hs)
        split
        · exact K.openSession _ this
        · exact this
      · exact K.setPlug _ _ (K.mate _ _ rfl hs)
      · exact K.mate _ _ rfl hs
      · exact K.mate _ _ rfl hs
    · exact hs
  · refine ⟨_, rfl, ?_⟩
    split
    · exact K.setPlug _ _ (K.mate _ _ rfl hs)
    · exact hs
  · refine ⟨_, rfl, State.take_of s _ _ K.settled hs (fun q t ht => ?_)⟩
    unfold servePlugEnable
    simp only []
    refine K.settled (State.settled_ok _ _ _) ?_
    have := K.mate t { t.mate with enabled := true } rfl ht
    split
    · exact K.openSession _ this
    · exact this
  · refine ⟨_, rfl, State.take_of s _ _ K.settled hs (fun q t ht => ?_)⟩
    exact K.settled (State.settled_ok _ _ _) (K.closeSession _ (K.mate _ _ rfl ht))
  · exact ⟨_, rfl, K.cold _ _ _⟩
  · exact ⟨_, rfl, K.cold _ _ _⟩
  · refine ⟨_, rfl, ?_⟩
    split
    · exact hrestart _ _ _
    · exact hs
  · refine ⟨_, rfl, ?_⟩
    have htx : s.settled { s with link := { s.link with tx := none } } := ⟨⟨rfl, fun _ => .refl _, id, id, rfl,
        fun _ => rfl⟩, State.ordered_of rfl rfl rfl rfl⟩
    have h1 := K.settled htx hs
    generalize ({ s with link := { s.link with tx := none } } : State) = t at *
    split
    · exact hs
    · exact K.settled (settled_begin _) h1
    · unfold State.replySent
      have hu0 : t.settled { t with unit := .free } := State.settled_of rfl rfl rfl rfl
      have hu : P { t with unit := .free } := K.settled hu0 h1
      generalize ({ t with unit := .free } : State) = v at *
      split
      · exact hrestart _ _ _
      · refine K.settled (settled_begin _) (K.reevaluate _ (K.settled (State.settled_post _ _) ?_))
        have hcs : P v.closeSoft := by
          unfold State.closeSoft
          split
          · exact K.settled (settled_closeReply _ _) (K.close _ hu)
          · exact hu
        generalize v.closeSoft = w at *
        have := K.fault _ (K.mate w { w.mate with plug := .detached, debounce := none, partialTimer := none } rfl hcs)
        refine K.settled ?_ this
        exact State.settled_of rfl rfl rfl rfl
      · exact K.settled (settled_begin _) hu
      · exact K.settled (settled_begin _) h1
      · exact K.settled (settled_begin _) h1

variable {P : State → Prop}

theorem Kept.exec (K : Kept P) (hm : ∀ s, P s → ∀ pin level r1 r0, ∀ c ∈ [Instr.senseEvent pin level,
    .debounceExpiry, .partialExpiry, .plugEnable, .plugDisable, .resetNAssert, .powerOn r1, .resetRelease r1 r0,
    .transmitFrameEnd r1 r0],
      ∃ t, exec c s = .next t ∧ P t) (c : Instr) (s : State) (hs : P s) : ∃ t, Machine.exec c s = .next t ∧ P t := by
  have hc : Instr.settled c → ∃ t, Machine.exec c s = .next t ∧ P t := by
    intro h
    obtain ⟨t, h1, h2⟩ := h s
    exact ⟨t, h1, K.settled h2 hs⟩
  have hl := K.lane_cmds s hs
  have hr := K.requests s hs
  cases c with
  | senseEvent a b => exact hm s hs a b false false _ (by simp)
  | debounceExpiry => exact hm s hs .lead .opened false false _ (by simp)
  | partialExpiry => exact hm s hs .lead .opened false false _ (by simp)
  | plugEnable => exact hm s hs .lead .opened false false _ (by simp)
  | plugDisable => exact hm s hs .lead .opened false false _ (by simp)
  | resetNAssert => exact hm s hs .lead .opened false false _ (by simp)
  | powerOn a => exact hm s hs .lead .opened a false _ (by simp)
  | resetRelease a b => exact hm s hs .lead .opened a b _ (by simp)
  | transmitFrameEnd a b => exact hm s hs .lead .opened a b _ (by simp)
  | receiveFrame bs => exact hc (Instr.settled_bytes 0 bs).2
  | byteReceived b => exact hc (Instr.settled_bytes b []).1
  | pollGapTimerExpiry l => exact hc (Instr.settled_lane l 0 false).1
  | rollcallGapTimerExpiry l => exact hc (Instr.settled_lane l 0 false).2.1
  | latnChange l b => exact hc (Instr.settled_lane l 0 b).2.2.1
  | attentionDeadlineExpiry l v => exact hc (Instr.settled_lane l v false).2.2.2
  | configureLaneEnableMask => exact hr _ (by simp)
  | configureMissLimit => exact hr _ (by simp)
  | configureRescanInterval => exact hr _ (by simp)
  | rescan => exact hr _ (by simp)
  | laneRestart => exact hr _ (by simp)
  | purge => exact hr _ (by simp)
  | telegramSent l => exact hl l false [] 0 _ (by simp)
  | answerTimeout l => exact hl l false [] 0 _ (by simp)
  | carrierBegins l => exact hl l false [] 0 _ (by simp)
  | answerEnd l b bs => exact hl l b bs 0 _ (by simp)
  | carrierLimitExpiry l => exact hl l false [] 0 _ (by simp)
  | rollcallSlotsEnd l h => exact hl l false [] h _ (by simp)
  | quietWaitEnd l => exact hl l false [] 0 _ (by simp)
  | quietWaitLimitExpiry l => exact hl l false [] 0 _ (by simp)
  | overcurrentTrip l => exact hl l false [] 0 _ (by simp)
  | settleTimerExpiry l => exact hl l false [] 0 _ (by simp)
  | restartTimerExpiry l => exact hl l false [] 0 _ (by simp)
  | rescanTimerExpiry l => exact hl l false [] 0 _ (by simp)
  | _ => exact hc (Instr.settled_list _ (by simp))

theorem Kept.step (K : Kept P) (hm : ∀ s, P s → ∀ pin level r1 r0, ∀ c ∈ [Instr.senseEvent pin level,
    .debounceExpiry, .partialExpiry, .plugEnable, .plugDisable, .resetNAssert, .powerOn r1, .resetRelease r1 r0,
    .transmitFrameEnd r1 r0],
      ∃ t, Machine.exec c s = .next t ∧ P t) (s t : State) (hs : P s) (h : Machine.step s = .next t) : P t := by
  have h0 : ∀ x, P { s with pending := x } := fun x => by
    refine K.settled ?_ hs
    exact State.settled_of rfl rfl rfl rfl
  unfold Machine.step at h
  split at h
  · cases h
    refine K.settled ?_ hs
    exact State.settled_of rfl rfl rfl rfl
  · obtain ⟨u, h1, h2⟩ := K.exec hm _ _ (h0 _)
    rw [h1] at h; cases h; exact h2

end Sys2Proof.Machine
end

