-- ==== Sys2Proof/Laws/Service.lean ====
section
/-! SUPPORT. What each command that is not settled does to the bounds of the directory and to the in-service tables: the Survey
Engine's operations, the lane timers, the Mate Monitor and the resets keep `orderly`. -/

namespace Sys2Proof.Machine

/-! ### Changes of lanes -/

/-- The place of a naming step: held by no entry of its lane but the one that the step brings back. -/
def State.freeFor (s : State) (l : LaneId) (n : Naming) : Prop :=
  1 ≤ n.addr ∧ n.addr ≤ 30 ∧ ∀ e ∈ s.dir.entries, e.lane = l → e.addr = n.addr → n.kind ≠ .new ∧ e.handle = n.handle

/-- What a change of lanes, the directory staying as it is, needs to keep the order. -/
theorem State.orderly.lanes {s t : State} (h : s.orderly) (hm : t.mate.session = s.mate.session) (hk : t.missLimit = s.missLimit)
    (hd : t.dir.entries = s.dir.entries) (hs : s.sameSlots t)
    (hh : ∀ l x, (t.lane l).attention.heed = some x → (s.lane l).attention.heed = some x)
    (hq : ∀ l, (t.lane l).state.serving = false → (s.lane l).state.serving = false
      ∧ ((s.lane l).attention.heed = none → (t.lane l).attention.heed = none)
      ∧ ((s.lane l).arbiter.standing.attention = false → (s.lane l).arbiter.grant ≠ some .attention →
        (t.lane l).arbiter.standing.attention = false ∧ (t.lane l).arbiter.grant ≠ some .attention))
    (hn : ∀ l n, (t.lane l).survey.naming = some n → n.stage = .assign → (s.lane l).survey.naming = some n ∨ s.freeFor l n)
    (hp : ∀ l, (t.lane l).survey.pass = some .initial → (t.lane l).state = .enumerating) : t.orderly := by
  obtain ⟨b1, b2, b3, b4, b5, b6⟩ := h.bounds
  obtain ⟨h1, h2, h3, h4, h5, h6, h7, h8⟩ := h.service
  refine ⟨by rw [hd]; exact h.handles, ?_, ?_⟩
  · unfold State.boundsOk
    rw [hk, hm, hd]
    refine ⟨b1, b2, b3, b4, b5, fun l n k1 k2 => ?_⟩
    rcases hn l n k1 k2 with k | k
    · exact b6 l n k k2
    · exact k
  · unfold State.serviceOk
    rw [hd]
    refine ⟨fun l v r x => h1 l v r ((hs l v r).1 x), ?_, fun l v w r q x y => h3 l v w r q ((hs _ _ _).1 x) ((hs _ _ _).1 y), h4, ?_,
      ?_, ?_, hp⟩
    · intro e he x
      obtain ⟨v, r, a, b⟩ := h2 e he x
      exact ⟨v, r, (hs _ _ _).2 a, b⟩
    · intro e he x
      by_contra hc
      have := h5 e he x
      rw [(hq _ (by simpa using hc)).1] at this; cases this
    · intro l x
      obtain ⟨q1, q2, q3⟩ := hq l x
      obtain ⟨a, b, c, d⟩ := h6 l q1
      exact ⟨fun v r y => a v r ((hs _ _ _).1 y), q2 b, q3 c d⟩
    · intro l x k
      obtain ⟨a, b⟩ := h7 l x (hh l x k)
      exact ⟨a, fun r y => b r ((hs _ _ _).1 y)⟩

/-- A change of one lane's survey, state and timers. -/
theorem State.orderly.survey {s : State} (h : s.orderly) (l : LaneId) (f : Lane → Lane)
    (ha : (f (s.lane l)).attention.slots = (s.lane l).attention.slots ∧ (f (s.lane l)).attention.heed = (s.lane l).attention.heed)
    (hb : (f (s.lane l)).arbiter.standing.attention = (s.lane l).arbiter.standing.attention
      ∧ (f (s.lane l)).arbiter.grant = (s.lane l).arbiter.grant)
    (hq : (f (s.lane l)).state.serving = false → (s.lane l).state.serving = false)
    (hn : ∀ n, (f (s.lane l)).survey.naming = some n → n.stage = .assign → (s.lane l).survey.naming = some n ∨ s.freeFor l n)
    (hp : (f (s.lane l)).survey.pass = some .initial → (f (s.lane l)).state = .enumerating) : (s.modLane l f).orderly := by
  have hcase : ∀ (C : LaneId → Lane → Prop), C l (f (s.lane l)) → (∀ m, C m (s.lane m)) → ∀ m, C m ((s.modLane l f).lane m) := by
    intro C c1 c2 m
    rw [State.lane_modLane]
    split
    · rename_i hm; subst hm; exact c1
    · exact c2 m
  refine h.lanes rfl rfl rfl ?_ ?_ ?_ ?_ ?_
  · intro m v r
    unfold State.slot
    rw [State.lane_modLane]
    split
    · rename_i hm; subst hm; rw [ha.1]
    · rfl
  · exact hcase (fun m n => ∀ x, n.attention.heed = some x → (s.lane m).attention.heed = some x) (fun x k => ha.2 ▸ k) (fun m x k => k)
  · refine hcase (fun m n => n.state.serving = false → (s.lane m).state.serving = false
      ∧ ((s.lane m).attention.heed = none → n.attention.heed = none)
      ∧ ((s.lane m).arbiter.standing.attention = false → (s.lane m).arbiter.grant ≠ some .attention →
        n.arbiter.standing.attention = false ∧ n.arbiter.grant ≠ some .attention)) ?_ ?_
    · intro x
      exact ⟨hq x, fun k => ha.2.trans k, fun k1 k2 => ⟨hb.1.trans k1, by rw [hb.2]; exact k2⟩⟩
    · exact fun m x => ⟨x, id, fun k1 k2 => ⟨k1, k2⟩⟩
  · exact hcase (fun m n => ∀ k, n.survey.naming = some k → k.stage = .assign → (s.lane m).survey.naming = some k ∨ s.freeFor m k)
      hn (fun m k x _ => .inl x)
  · exact hcase (fun _ n => n.survey.pass = some .initial → n.state = .enumerating) hp (fun m => h.service.2.2.2.2.2.2.2 m)

theorem State.ordered_requestSurvey (s : State) (l : LaneId) (w : SurveyWork) : s.ordered (s.requestSurvey l w) :=
  s.ordered_lane _ _ ⟨rfl, rfl, rfl, rfl, rfl⟩ (.inl rfl)

/-! ### The Survey Engine -/

/-- The power law, the order of the directory, its bounds and the in-service tables. -/
def State.served (s : State) : Prop := s.powerLaw ∧ s.directoryOk ∧ s.orderly

/-- R18: a lane that runs a pass does so in a session. -/
theorem State.powerLaw.session {s : State} (h : s.powerLaw) {l : LaneId} (k : (s.lane l).state.working = true) : s.mate.session = true := by
  have := h.2 l
  unfold Lane.powerOk at this
  rw [k] at this
  simp only [Bool.and_eq_true] at this
  have := this.1.1.1.1.1.2
  simp only [Bool.not_true, Bool.false_or, Bool.and_eq_true] at this
  exact this.1

theorem State.orderly.startNaming {s : State} (h : s.orderly) (l : LaneId) (t : Tag) (k : NamingKind) (x a : Nat)
    (hf : s.freeFor l { tag := t, kind := k, handle := x, addr := a, stage := .assign }) : (s.startNaming l t k x a).orderly := by
  refine State.ordered_requestSurvey _ _ _ ?_
  unfold State.modSurvey
  refine h.survey l _ ⟨rfl, rfl⟩ ⟨rfl, rfl⟩ id (fun n hn _ => ?_) (h.service.2.2.2.2.2.2.2 l)
  cases hn
  exact .inr hf

theorem State.freeAddr_spec {s : State} {l : LaneId} {a : Nat} (h : s.freeAddr l = some a) :
    1 ≤ a ∧ a ≤ 30 ∧ ∀ e ∈ s.dir.entries, e.lane = l → e.addr ≠ a := by
  unfold State.freeAddr at h
  have h1 := List.mem_of_find?_eq_some h
  have h2 := List.find?_some h
  rw [List.mem_range'_1] at h1
  refine ⟨h1.1, by have := h1.2; change a < 1 + 30 at this; omega, fun e he hl ha => ?_⟩
  rw [Option.isNone_iff_eq_none] at h2
  have := List.find?_eq_none.1 h2 e he
  simp [hl, ha] at this

theorem State.orderly.named {s : State} (h : s.orderly) (hm : s.mate.session = true) {l : LaneId} {n : Naming}
    (hn : (s.lane l).survey.naming = some n) (hk : n.kind = .new) (hs : n.stage = .assign)
    (hd : (((s.create (newEntry l n)).modSurvey l (fun v => { v with naming := some { n with stage := .describe } })).dir.entries.map
      (·.handle)).Nodup) :
    ((s.create (newEntry l n)).modSurvey l (fun v => { v with naming := some { n with stage := .describe } })).orderly := by
  obtain ⟨b1, b2, b3, b4, b5, b6⟩ := h.bounds
  obtain ⟨h1, h2, h3, h4, h5, h6, h7, h8⟩ := h.service
  obtain ⟨a1, a2, a3⟩ := b6 l n hn hs
  have a3 : ∀ e ∈ s.dir.entries, e.lane = l → e.addr ≠ n.addr := fun e he x y => (a3 e he x y).1 hk
  have hlane : ∀ m, (((s.create (newEntry l n)).modSurvey l (fun v => { v with naming := some { n with stage := .describe } })).lane m)
      = if m = l then { s.lane l with survey := { (s.lane l).survey with naming := some { n with stage := .describe } } }
        else s.lane m := fun m => State.lane_modLane (s.create (newEntry l n)) l m _
  have hmem : ∀ x, x ∈ ((s.create (newEntry l n)).modSurvey l
      (fun v => { v with naming := some { n with stage := .describe } })).dir.entries ↔ x = newEntry l n ∨ x ∈ s.dir.entries := by
    intro x
    change x ∈ insertEntry _ _ ↔ _
    rw [(insertEntry_perm _ _).mem_iff, List.mem_cons]
  have hst : ∀ m, (((s.create (newEntry l n)).modSurvey l
      (fun v => { v with naming := some { n with stage := .describe } })).lane m).state = (s.lane m).state := by
    intro m; rw [hlane]; split
    · rename_i x; subst x; rfl
    · rfl
  have hat : ∀ m, (((s.create (newEntry l n)).modSurvey l
      (fun v => { v with naming := some { n with stage := .describe } })).lane m).attention = (s.lane m).attention := by
    intro m; rw [hlane]; split
    · rename_i x; subst x; rfl
    · rfl
  have har : ∀ m, (((s.create (newEntry l n)).modSurvey l
      (fun v => { v with naming := some { n with stage := .describe } })).lane m).arbiter = (s.lane m).arbiter := by
    intro m; rw [hlane]; split
    · rename_i x; subst x; rfl
    · rfl
  have hpass : ∀ m, (((s.create (newEntry l n)).modSurvey l
      (fun v => { v with naming := some { n with stage := .describe } })).lane m).survey.pass = (s.lane m).survey.pass := by
    intro m; rw [hlane]; split
    · rename_i x; subst x; rfl
    · rfl
  have hnam : ∀ m k, (((s.create (newEntry l n)).modSurvey l
      (fun v => { v with naming := some { n with stage := .describe } })).lane m).survey.naming = some k → k.stage = .assign →
      m ≠ l ∧ (s.lane m).survey.naming = some k := by
    intro m k x y
    rw [hlane] at x
    split at x
    · cases x; cases y
    · rename_i hml; exact ⟨hml, x⟩
  have hss : s.mate.session = ((s.create (newEntry l n)).modSurvey l
      (fun v => { v with naming := some { n with stage := .describe } })).mate.session := rfl
  have hml : s.missLimit = ((s.create (newEntry l n)).modSurvey l
      (fun v => { v with naming := some { n with stage := .describe } })).missLimit := rfl
  have hpw : ((s.create (newEntry l n)).modSurvey l
      (fun v => { v with naming := some { n with stage := .describe } })).dir.entries.Pairwise
      (fun a b => a.lane = b.lane → a.addr ≠ b.addr) := by
    change (insertEntry _ _).Pairwise _
    rw [(insertEntry_perm _ _).pairwise_iff (fun h x y => h x.symm y.symm)]
    exact List.pairwise_cons.2 ⟨fun x hx y => fun z => a3 x hx y.symm z.symm, b5⟩
  generalize (s.create (newEntry l n)).modSurvey l (fun v => { v with naming := some { n with stage := .describe } }) = t at *
  have hslot : ∀ m v r, t.slot m v r ↔ s.slot m v r := by
    intro m v r; unfold State.slot; rw [hat]
  refine ⟨hd, ⟨hml ▸ b1, hml ▸ b2, ?_, ?_, hpw, ?_⟩, ?_, ?_, ?_, ?_, ?_, ?_, ?_, ?_⟩
  · intro x; rw [← hss, hm] at x; cases x
  · intro e he
    rcases (hmem e).1 he with rfl | he
    · exact ⟨Entry.missOk_present (hml ▸ b1) rfl rfl, a1, a2⟩
    · rw [← hml]; exact b4 e he
  · intro m k x y
    obtain ⟨x1, x2⟩ := hnam m k x y
    obtain ⟨c1, c2, c3⟩ := b6 m k x2 y
    refine ⟨c1, c2, fun e he => ?_⟩
    rcases (hmem e).1 he with rfl | he
    · exact fun z => absurd z.symm x1
    · exact c3 e he
  · intro m v r x
    obtain ⟨e, he, y⟩ := h1 m v r ((hslot m v r).1 x)
    exact ⟨e, (hmem e).2 (.inr he), y⟩
  · intro e he x
    rcases (hmem e).1 he with rfl | he
    · cases x
    · obtain ⟨v, r, a, b⟩ := h2 e he x
      exact ⟨v, r, (hslot _ _ _).2 a, b⟩
  · exact fun m v w r q x y => h3 m v w r q ((hslot _ _ _).1 x) ((hslot _ _ _).1 y)
  · intro e he
    rcases (hmem e).1 he with rfl | he
    · exact fun _ => rfl
    · exact h4 e he
  · intro e he x
    rcases (hmem e).1 he with rfl | he
    · exact absurd rfl x
    · rw [hst]; exact h5 e he x
  · intro m x
    rw [hst] at x
    obtain ⟨a, b⟩ := h6 m x
    rw [hat, har]
    exact ⟨fun v r y => a v r ((hslot _ _ _).1 y), b⟩
  · intro m x y
    rw [hat] at y
    obtain ⟨a, b⟩ := h7 m x y
    exact ⟨a, fun r z => b r ((hslot _ _ _).1 z)⟩
  · intro m x
    rw [hpass] at x
    rw [hst]; exact h8 m x

theorem State.orderly.back {s : State} (h : s.orderly) {l : LaneId} {n : Naming} {e new : Entry}
    (hn : (s.lane l).survey.naming = some n) (hk : n.kind ≠ .new) (hs : n.stage = .assign)
    (he : s.heldEntry? n = some e) (hw : new = e.rejoined ∨ new = e.reclaimed l n.addr) : (s.comeBack e new).orderly := by
  obtain ⟨b1, b2, b3, b4, b5, b6⟩ := h.bounds
  obtain ⟨a1, a2, a3⟩ := b6 l n hn hs
  have hee : e ∈ s.dir.entries ∧ e.handle = n.handle := by
    unfold State.heldEntry? at he
    obtain ⟨x, _⟩ := Option.filter_eq_some_iff.1 he
    exact ⟨State.mem_of_entry? x, by simpa using List.find?_some x⟩
  rcases hw with rfl | rfl
  · exact ordered_comeBack hee.1 rfl rfl rfl rfl (.inl rfl) (fun h => h.place hee.1 rfl rfl) h
  · refine ordered_comeBack hee.1 rfl rfl rfl rfl ?_ (fun h => ⟨a1, a2, ?_, ?_⟩) h
    · unfold Entry.reclaimed
      simp only []
      split
      · rename_i hl; exact .inr ⟨rfl, hl.symm⟩
      · exact .inl rfl
    · intro x hx y z
      rw [(a3 x hx y z).2, hee.2]
    · intro m k x y z w
      have z : l = m := z
      subst z
      rw [hn] at x; cases x
      exact ⟨hk, hee.2⟩

/-- R41 to R67: the Survey Engine's operations. -/
theorem served_survey : SurveyKeeps True State.served where
  settled h k := ⟨h.calm.powerLaw k.1, h.calm.directoryOk k.2.1, h.ordered k.2.2⟩
  surv s l f hp hn h := by
    refine ⟨easy_power.surv s l f hp hn h.1, easy_dir.surv s l f hp hn h.2.1, ?_⟩
    unfold State.modSurvey
    refine h.2.2.survey l _ ⟨rfl, rfl⟩ ⟨rfl, rfl⟩ id (fun n x _ => ?_) (fun x => ?_)
    · rcases hn with hn | hn
      · exact .inl (hn ▸ x)
      · have x : (f (s.lane l).survey).naming = some n := x
        rw [hn] at x; cases x
    · exact h.2.2.service.2.2.2.2.2.2.2 l (hp ▸ x)
  req s l w h := ⟨easy_power.req s l w h.1, easy_dir.req s l w h.2.1, s.ordered_requestSurvey l w h.2.2⟩
  done s l f h1 h2 h3 h4 h5 h6 h7 h8 h9 h := by
    refine ⟨easy_power.done s l f h1 h2 h3 h4 h5 h6 h7 h8 h9 h.1, easy_dir.done s l f h1 h2 h3 h4 h5 h6 h7 h8 h9 h.2.1, ?_⟩
    have hser : (f (s.lane l)).state.serving = true := by rw [h2]; rfl
    have hidle : (s.lane l).survey.pass = some .initial → (∀ v r, ¬ s.slot l v r) ∧ (s.lane l).attention.heed = none := by
      intro x
      have := h.2.2.service.2.2.2.2.2.1 l (by rw [h.2.2.service.2.2.2.2.2.2.2 l x]; rfl)
      exact ⟨this.1, this.2.1⟩
    have hcase : ∀ (C : LaneId → Lane → Prop), C l (f (s.lane l)) → (∀ m, C m (s.lane m)) → ∀ m, C m ((s.modLane l f).lane m) := by
      intro C c1 c2 m
      rw [State.lane_modLane]
      split
      · rename_i hm; subst hm; exact c1
      · exact c2 m
    refine h.2.2.lanes rfl rfl rfl ?_ ?_ ?_ ?_ ?_
    · intro m v r
      unfold State.slot
      rw [State.lane_modLane]
      split
      · rename_i hm
        subst hm
        rcases h9 with h9 | ⟨h9, h10⟩
        · rw [h9]
        · rw [h10]
          refine ⟨fun x => ?_, fun x => absurd x ((hidle h9).1 v r)⟩
          revert x
          fin_cases v <;> intro x <;> cases x
      · rfl
    · refine hcase (fun m n => ∀ x, n.attention.heed = some x → (s.lane m).attention.heed = some x) (fun x k => ?_) (fun m x k => k)
      rcases h9 with h9 | ⟨h9, h10⟩
      · rw [h9] at k; exact k
      · rw [h10] at k; cases k
    · refine hcase (fun m n => n.state.serving = false → (s.lane m).state.serving = false
        ∧ ((s.lane m).attention.heed = none → n.attention.heed = none)
        ∧ ((s.lane m).arbiter.standing.attention = false → (s.lane m).arbiter.grant ≠ some .attention →
          n.arbiter.standing.attention = false ∧ n.arbiter.grant ≠ some .attention)) ?_ ?_
      · intro x; rw [hser] at x; cases x
      · exact fun m x => ⟨x, id, fun k1 k2 => ⟨k1, k2⟩⟩
    · refine hcase (fun m n => ∀ k, n.survey.naming = some k → k.stage = .assign → (s.lane m).survey.naming = some k ∨ s.freeFor m k)
        ?_ (fun m k x _ => .inl x)
      intro k x; rw [h3] at x; cases x
    · refine hcase (fun _ n => n.survey.pass = some .initial → n.state = .enumerating) ?_
        (fun m => h.2.2.service.2.2.2.2.2.2.2 m)
      intro x; rw [h3] at x; cases x
  startOld s l t k x a hk hf h := by
    refine ⟨easy_power.startOld s l t k x a hk hf h.1, easy_dir.startOld s l t k x a hk hf h.2.1, h.2.2.startNaming l t k x a ?_⟩
    rcases hf with ⟨e, he, e1, e2, e3⟩ | hf
    · obtain ⟨p1, p2, p3, _⟩ := h.2.2.place he rfl rfl
      refine ⟨e3 ▸ p1, e3 ▸ p2, fun y hy y1 y2 => ⟨hk, ?_⟩⟩
      exact (p3 y hy (y1.trans e2.symm) (y2.trans e3.symm)).trans e1
    · obtain ⟨p1, p2, p3⟩ := State.freeAddr_spec hf
      exact ⟨p1, p2, fun y hy y1 y2 => absurd y2 (p3 y hy y1)⟩
  startNew s l t x a hx hf hb hn h := by
    refine ⟨easy_power.startNew s l t x a hx hf hb hn h.1, easy_dir.startNew s l t x a hx hf hb hn h.2.1,
      h.2.2.startNaming l t .new x a ?_⟩
    obtain ⟨p1, p2, p3⟩ := State.freeAddr_spec hf
    exact ⟨p1, p2, fun y hy y1 y2 => absurd y2 (p3 y hy y1)⟩
  named s l n hn hk hd h := by
    obtain ⟨hs, hw⟩ := hd trivial
    have hdir := easy_dir.named s l n hn hk hd h.2.1
    refine ⟨easy_power.named s l n hn hk (fun x => x.elim) h.1, hdir, ?_⟩
    refine h.2.2.named (h.1.session (l := l) ?_) hn hk hs hdir.nodup
    revert hw
    cases (s.lane l).state <;> simp [LaneState.surveying, LaneState.working]
  back s l n e new hn hk hd he hw h :=
    ⟨(calm_comeBack_held he hw).powerLaw h.1, (calm_comeBack_held he hw).directoryOk h.2.1, h.2.2.back hn hk (hd trivial).1 he hw⟩

/-! ### The other commands -/

theorem State.ordered_engine (s : State) (l : LaneId) (x : Option Underway) : s.ordered (s.modLane l (fun n => { n with engine := x })) :=
  s.ordered_lane _ _ ⟨rfl, rfl, rfl, rfl, rfl⟩ (.inl rfl)

theorem State.served.engine {s : State} (h : s.served) (l : LaneId) (x : Option Underway) :
    State.served (s.modLane l (fun n => { n with engine := x })) :=
  ⟨powerLaw_modLane l _ h.1 (h.1.2 l), dir_modLane h.2.1 l _ (fun _ hn => hn), s.ordered_engine l x h.2.2⟩

theorem State.served.release {s : State} (h : s.served) (l : LaneId) : (s.releaseGrant l).served :=
  ⟨powerLaw_modLane l _ h.1 (h.1.2 l), dir_modLane h.2.1 l _ (fun _ hn => hn), s.ordered_releaseGrant l h.2.2⟩

/-- R33: the end of the wait for quiet. -/
theorem State.served.quiet {s : State} (h : s.served) (hv : s.surveyOk) (l : LaneId) : (s.quietWait l).served := by
  refine served_survey.quietWait (fun s l x h => State.served.engine h l x) (fun s l h => State.served.release h l) s l ?_ h
  intro _ w hw t a ht
  obtain ⟨_, _, _, _, k5, k6, _⟩ := hv l
  refine ⟨(k5 w (by rw [hw]; rfl)).1.2.2 t a ht, ?_⟩
  by_contra hc
  have := (k6 (by simpa using hc)).2.2
  rw [hw] at this; cases this

/-- R23: an initial pass begins. -/
theorem State.orderly.settle {s : State} (h : s.orderly) (l : LaneId) (hs : (s.lane l).state.serving = false) :
    (s.beginInitialPass l).orderly := by
  unfold State.beginInitialPass
  refine State.ordered_requestSurvey _ _ _ ?_
  exact h.survey l _ ⟨rfl, rfl⟩ ⟨rfl, rfl⟩ (fun _ => hs) (fun n hn => by cases hn) (fun _ => rfl)

/-- R27: a rescan pass begins. -/
theorem State.orderly.rescan {s : State} (h : s.orderly) (l : LaneId) :
    (s.modLane l (fun n =>
      { n with
        rescanTimer := none
        state := .rescanning
        survey := { Survey.cold with pass := some .rescan, step := some .recall } })).orderly :=
  h.survey l _ ⟨rfl, rfl⟩ ⟨rfl, rfl⟩ (fun x => by cases x) (fun n hn => by cases hn) (fun x => by cases x)

/-- R25: power comes on. -/
theorem State.orderly.powerUp {s : State} (h : s.orderly) (l : LaneId) (d : Timer) (hs : (s.lane l).state = .settling) :
    (s.modLane l (fun n => n.powerUp d)).orderly := by
  refine h.survey l _ ⟨rfl, rfl⟩ ⟨rfl, rfl⟩ (fun _ => by rw [hs]; rfl) (fun n hn _ => .inl hn) (fun x => ?_)
  have := h.service.2.2.2.2.2.2.2 l x
  rw [hs] at this; cases this

theorem State.ordered_rescanTimer (s : State) (l : LaneId) (d : Timer) : s.ordered (s.modLane l (fun n => { n with rescanTimer := d })) :=
  s.ordered_lane _ _ ⟨rfl, rfl, rfl, rfl, rfl⟩ (.inl rfl)

/-- R17: a lane's mask place changes only the states OFF and DISABLED. -/
theorem Lane.enableTo_spec (n : Lane) (on : Bool) : (n.enableTo on).attention = n.attention ∧ (n.enableTo on).arbiter = n.arbiter
    ∧ (n.enableTo on).survey = n.survey ∧ ((n.enableTo on).state.serving = n.state.serving)
    ∧ (n.state = .enumerating → (n.enableTo on).state = .enumerating) := by
  unfold Lane.enableTo
  split
  · exact ⟨rfl, rfl, rfl, rfl, id⟩
  · refine ⟨rfl, rfl, rfl, ?_, ?_⟩
    · cases on <;> cases h : n.state <;> rfl
    · intro h
      cases on <;> simp only [h]

/-- What a change of every lane needs to keep the order. -/
theorem State.orderly.all {s t : State} (h : s.orderly) (hm : t.mate.session = s.mate.session) (hk : t.missLimit = s.missLimit)
    (hd : t.dir.entries = s.dir.entries) (hl : ∀ l, (t.lane l).attention = (s.lane l).attention
      ∧ (t.lane l).arbiter = (s.lane l).arbiter ∧ (t.lane l).survey = (s.lane l).survey
      ∧ ((t.lane l).state.serving = (s.lane l).state.serving) ∧ ((s.lane l).state = .enumerating → (t.lane l).state = .enumerating)) :
    t.orderly := by
  refine h.lanes hm hk hd (fun l v r => ?_) (fun l x k => (hl l).1 ▸ k) (fun l x => ?_) (fun l n x _ => .inl ((hl l).2.2.1 ▸ x))
    (fun l x => ?_)
  · unfold State.slot; rw [(hl l).1]
  · obtain ⟨a, b, _, d, _⟩ := hl l
    rw [a, b]
    exact ⟨d ▸ x, id, fun k1 k2 => ⟨k1, k2⟩⟩
  · obtain ⟨_, _, c, _, e⟩ := hl l
    exact e (h.service.2.2.2.2.2.2.2 l (c ▸ x))

theorem State.ordered_storeMask (s : State) (v : Nat) : s.ordered (storeMask v s) := by
  intro h
  refine h.all rfl rfl rfl (fun l => ?_)
  fin_cases l
  · exact Lane.enableTo_spec s.lanes.a0 _
  · exact Lane.enableTo_spec s.lanes.a1 _
  · exact Lane.enableTo_spec s.lanes.a2 _
  · exact Lane.enableTo_spec s.lanes.a3 _

/-- R106: the miss limit changes only while the directory is empty. -/
theorem State.orderly.missLimit {s : State} (h : s.orderly) (hs : s.mate.session = false) (v : Nat) (h1 : 1 ≤ v) (h15 : v ≤ 15) :
    State.orderly { s with missLimit := v } := by
  obtain ⟨b1, b2, b3, b4, b5, b6⟩ := h.bounds
  refine ⟨h.handles, ⟨h1, h15, b3, fun e he => ?_, b5, b6⟩, h.service⟩
  have he : e ∈ s.dir.entries := he
  rw [b3 hs] at he; cases he

/-- R91: a LOST entry is removed. -/
theorem State.orderly.remove {s : State} (h : s.orderly) {e : Entry} (he : e ∈ s.dir.entries) (hp : e.presence = .lost) :
    (s.remove e.handle).orderly := by
  obtain ⟨b1, b2, b3, b4, b5, b6⟩ := h.bounds
  obtain ⟨h1, h2, h3, h4, h5, h6, h7, h8⟩ := h.service
  have hmem : ∀ x, x ∈ (s.remove e.handle).dir.entries ↔ x ∈ s.dir.entries ∧ x.handle ≠ e.handle := by
    intro x
    change x ∈ s.dir.entries.filter _ ↔ _
    rw [List.mem_filter]
    simp
  refine ⟨h.handles.sublist (List.filter_sublist.map _), ⟨b1, b2, fun x => ?_, fun x hx => b4 x ((hmem x).1 hx).1,
    b5.sublist List.filter_sublist, fun l n k1 k2 => ⟨(b6 l n k1 k2).1, (b6 l n k1 k2).2.1,
      fun x hx => (b6 l n k1 k2).2.2 x ((hmem x).1 hx).1⟩⟩, ?_⟩
  · change s.dir.entries.filter _ = []
    rw [b3 x]; rfl
  · refine ⟨fun l v r x => ?_, fun x hx => h2 x ((hmem x).1 hx).1, h3, fun x hx => h4 x ((hmem x).1 hx).1,
      fun x hx => h5 x ((hmem x).1 hx).1, h6, h7, h8⟩
    obtain ⟨y, hy, a, b, c⟩ := h1 l v r x
    refine ⟨y, (hmem y).2 ⟨hy, fun d => ?_⟩, a, b, c⟩
    rw [h.unique hy he d, h4 e he (.inl hp)] at c
    cases c

/-! ### The Mate Monitor and the resets -/

/-- Without an entry, a slot, a heed or a request of the service. -/
theorem State.orderly.empty {s : State} (h1 : 1 ≤ s.missLimit) (h15 : s.missLimit ≤ 15) (hd : s.dir.entries = [])
    (hl : ∀ l, (∀ v r, ¬ s.slot l v r) ∧ (s.lane l).attention.heed = none ∧ (s.lane l).arbiter.standing.attention = false
      ∧ (s.lane l).arbiter.grant ≠ some .attention)
    (hn : ∀ l n, (s.lane l).survey.naming = some n → n.stage = .assign → 1 ≤ n.addr ∧ n.addr ≤ 30)
    (hp : ∀ l, (s.lane l).survey.pass = some .initial → (s.lane l).state = .enumerating) : s.orderly := by
  refine ⟨by rw [hd]; exact .nil, ?_, ?_⟩
  · unfold State.boundsOk
    rw [hd]
    exact ⟨h1, h15, fun _ => rfl, (by intro e he; cases he), .nil, fun l n a b => ⟨(hn l n a b).1, (hn l n a b).2, by intro e he; cases he⟩⟩
  · unfold State.serviceOk
    rw [hd]
    exact ⟨fun l v r x => absurd x ((hl l).1 v r), (by intro e he; cases he), fun l v w r q x => absurd x ((hl l).1 v r),
      (by intro e he; cases he), (by intro e he; cases he), fun l _ => hl l,
      (by intro l x y; rw [(hl l).2.1] at y; cases y), hp⟩

theorem slot_cold {s : State} {l : LaneId} (h : (s.lane l).attention = Attention.cold) (v : LevelId) (r : InService) : ¬ s.slot l v r := by
  unfold State.slot
  rw [h]
  fin_cases v <;> intro x <;> cases x

theorem orderly_cold (s : State) (c r) : (s.cold c r).orderly := by
  have hl : ∀ l, (s.cold c r).lane l = Lane.cold := fun l => by fin_cases l <;> rfl
  refine State.orderly.empty (show 1 ≤ 3 by decide) (show 3 ≤ 15 by decide) rfl (fun l => ⟨slot_cold (by rw [hl]; rfl), ?_⟩) ?_ ?_
  · rw [hl]; exact ⟨rfl, rfl, by intro h; cases h⟩
  · intro l n h; rw [hl] at h; cases h
  · intro l h; rw [hl] at h; cases h

theorem orderly_close {s : State} (h : s.orderly) : s.closeBlocks.orderly := by
  have hl : ∀ l, s.closeBlocks.lane l = (s.lane l).closed := fun l => Four.get_map _ _ _
  have hd : s.closeBlocks.dir.entries = [] := by
    change s.dir.emptied.entries = []
    unfold Directory.emptied
    split
    · rename_i h; simpa using h
    · rfl
  have hc : ∀ l, s.closeBlocks.lane l = s.lane l ∧ (s.lane l).state = .disabled ∨ s.closeBlocks.lane l = { (s.lane l).quench .off with duplicateSeen := false } := by
    intro l
    rw [hl]
    unfold Lane.closed
    split
    · rename_i x; exact .inl ⟨rfl, x⟩
    · exact .inr rfl
  obtain ⟨b1, b2, b3, b4, b5, b6⟩ := h.bounds
  refine State.orderly.empty b1 b2 hd (fun l => ?_) (fun l n a b => ?_) (fun l a => ?_)
  · rcases hc l with ⟨x, y⟩ | x
    · have := h.service.2.2.2.2.2.1 l (by rw [y]; rfl)
      unfold State.slot at *
      rw [x]; exact this
    · refine ⟨slot_cold (by rw [x]; rfl), ?_⟩
      rw [x]; exact ⟨rfl, rfl, by intro h; cases h⟩
  · rcases hc l with ⟨x, _⟩ | x
    · rw [x] at a; exact ⟨(b6 l n a b).1, (b6 l n a b).2.1⟩
    · rw [x] at a; cases a
  · rcases hc l with ⟨x, _⟩ | x
    · rw [x] at a ⊢; exact h.service.2.2.2.2.2.2.2 l a
    · rw [x] at a; cases a

theorem Lane.opened_order (n : Lane) (d : Timer) : (n.opened d).attention = n.attention ∧ (n.opened d).arbiter = n.arbiter
    ∧ (n.opened d).survey = n.survey ∧ ((n.opened d).state.serving = n.state.serving)
    ∧ (n.state = .enumerating → (n.opened d).state = .enumerating) := by
  unfold Lane.opened
  split
  · rename_i h
    exact ⟨rfl, rfl, rfl, (by rw [h]; rfl), (by rw [h]; intro x; cases x)⟩
  · exact ⟨rfl, rfl, rfl, rfl, id⟩

theorem orderly_opening {s : State} (h : s.orderly) (hs : s.mate.session = false) : s.opening.orderly := by
  have hl : ∀ l, s.opening.lane l = (s.lane l).opened (s.timer Config.settleMs) := fun l => Four.get_map _ _ _
  have hd : s.dir.entries = [] := h.bounds.2.2.1 hs
  have h2 : State.orderly { s with lanes := s.opening.lanes } :=
    h.all rfl rfl rfl (fun l => by rw [show State.lane { s with lanes := s.opening.lanes } l = s.opening.lane l from rfl, hl]; exact Lane.opened_order _ _)
  obtain ⟨b1, b2, b3, b4, b5, b6⟩ := h2.bounds
  exact ⟨h2.handles, ⟨b1, b2, fun _ => hd, b4, b5, b6⟩, h2.service⟩

/-- R1 to R15, R193 to R196: the commands of the Mate Monitor and the resets keep the order. -/
theorem orderly_mate : KeptMate State.orderly where
  settled h := h.ordered
  cold := orderly_cold
  mate s m hm h := by
    obtain ⟨b1, b2, b3, b4, b5, b6⟩ := h.bounds
    exact ⟨h.handles, ⟨b1, b2, fun x => b3 (hm ▸ x), b4, b5, b6⟩, h.service⟩
  close _ h := orderly_close h
  opening _ hs h := orderly_opening h hs
  fault s h := by
    refine h.all rfl rfl rfl (fun l => ?_)
    have : State.lane { s with lanes := s.lanes.map (fun n => { n with fault := FaultRecord.empty }) } l
        = { s.lane l with fault := FaultRecord.empty } := Four.get_map _ _ _
    rw [this]
    exact ⟨rfl, rfl, rfl, rfl, id⟩

end Sys2Proof.Machine
end

