-- ==== Sys2Proof/WellFormed.lean ====
section
/-! DEFINITION. Which commands are well formed: the operands that the lines and the frame format can bring. -/

namespace Sys2Proof

/-- R183: a frame is START, LEN, LEN bytes and two CHECK bytes, so at most 254 bytes. -/
abbrev maxFrameBytes : Nat := 254

/-- R16 and R32: a byte occupies 20 µs of the pair and the answer window is over 1 ms after the telegram, so at
most 50 bytes are received in it (DEDUCED, log entry 13). -/
abbrev maxAnswerBytes : Nat := 50

/-- A RECEIVE_FRAME brings at least the byte that ends the frame and at most one frame (R183, R184); an
ANSWER_END brings no more bytes than its window can hold (R16, R32). Every other command's operands are
within their ranges by their types. -/
def Instr.wf : Instr → Bool
  | .receiveFrame bytes => decide (1 ≤ bytes.length) && decide (bytes.length ≤ maxFrameBytes)
  | .answerEnd _ _ bytes => decide (bytes.length ≤ maxAnswerBytes)
  | .senseEvent _ _ | .debounceExpiry | .partialExpiry | .plugEnable | .plugDisable | .resetNAssert
  | .powerOn _ | .resetRelease _ _ | .gapTimerExpiry | .transmitFrameEnd _ _ | .unknownKind | .status | .ident
  | .configureLaneEnableMask | .configureMissLimit | .configurePollGap | .configureRescanInterval
  | .configureAttentionTimeout | .configureRotation | .configureNoticeMask | .resetSoft | .resetFull
  | .faults | .rescan | .laneRestart | .lookup | .find | .purge | .overrideAuto | .overrideForcedPresent
  | .overrideForcedAbsent | .readObjects | .writeObject | .attnDone | .attnMask | .manifestBegin
  | .manifestEntry | .manifestEnd | .manifestErase | .manifestRead | .resolve | .snapshot | .snapshotPage
  | .snapshotRelease | .overcurrentTrip _ | .settleTimerExpiry _ | .restartTimerExpiry _
  | .rescanTimerExpiry _ | .pollGapTimerExpiry _ | .rollcallGapTimerExpiry _ | .latnChange _ _
  | .attentionDeadlineExpiry _ _ | .accessTimerExpiry | .telegramSent _ | .answerTimeout _
  | .carrierLimitExpiry _ | .rollcallSlotsEnd _ _ | .quietWaitEnd _ | .quietWaitLimitExpiry _
  | .nodeNamedReport | .byteReceived _ | .carrierBegins _ => true

end Sys2Proof
end

