-- ==== Sys2Proof/Tests/Slice0.lean ====
section
/-! SUPPORT. Tests of the model on small states, and a witness for the hypotheses of each statement. -/

namespace Sys2Proof.Tests

open Sys2Proof.Machine

-- Each `decide +kernel` waits for all the declarations before it, so these theorems are elaborated one by one.
set_option Elab.async false

/-! ### Small states -/

/-- The part at its cold values, with nothing on TXD. -/
def bench : State := State.coldValues

/-- The state that a command leaves. -/
def after (c : Instr) (s : State) : State :=
  match exec c s with
  | .next t => t
  | _ => s

/-- A request with token 7. -/
def asked (kind : Byte) (payload : List Byte) : Request := { kind := kind, token := 7, payload := payload }

/-- The request is the only one in the queue. -/
def asks (kind : Byte) (payload : List Byte) (s : State) : State :=
  { s with link := { s.link with requests := [asked kind payload] } }

/-- The status and the payload of the reply that is being sent. -/
def replied (s : State) : Option (Byte × Status × List Byte) :=
  s.link.currentReply.map (fun r => (r.kind, r.status, r.payload))

theorem queued_asks (kind : Byte) (payload : List Byte) {s : State} (h : s.canTake = true) :
    (asks kind payload s).queued (asked kind payload) [] := ⟨h, rfl⟩

/-- A node on lane 0: a motor with three objects, bound to the role "A" at level 1 with access RW. -/
def motor : Entry :=
  { handle := 1, lane := 0, addr := 1, tag := 0x0200000001, identity := false, presence := .present, miss := 0,
    override := .auto, nodeFault := false,
    descriptor := some { maker := 1, revision := 1, objectCount := 3, attnCapable := true, label := [], toolId := none },
    binding := some { index := 0, role := [0x41], level := some 1, access := .rw, required := true },
    attention := .idle, masked := false, discarded := 0 }

/-- A LOST node on lane 0, without a binding. -/
def absentee : Entry :=
  { motor with handle := 2, addr := 2, tag := 0x0300000002, presence := .lost, miss := 3, binding := none }

/-- A manifest whose one binding fits the motor. -/
def manifest : Manifest :=
  { toolId := 0x0102,
    bindings := [{ role := [0x41], lane := none, cls := 2, serial := none, required := true, level := some 1, access := .rw }] }

/-- A lane in SUPERVISING with power on. -/
def serving : Lane := { Lane.cold with state := .supervising, power := true }

/-- A serving lane with a telegram under way for a grant. -/
def sending (t : Telegram) (attempt : Nat) (p : EnginePhase) (g : Grant) : Lane :=
  { serving with engine := some { telegram := t, attempt := attempt, phase := p }
                 arbiter := { Arbiter.cold with grant := some g } }

/-- A tool on the plug in an open session: lane 0 as given, and a directory. -/
def tool (n : Lane) (es : List Entry) : State :=
  { bench with
    mate := { lead := .closed, seat := .closed, plug := .attached, enabled := true, debounce := none,
              partialTimer := none, session := true }
    lanes := { bench.lanes with a0 := n }
    dir := { entries := es, generation := 5 } }

/-- The usual tool. -/
def usual : State := tool serving [motor, absentee]

theorem usual_takes : usual.canTake = true := by decide +kernel
theorem bench_takes : bench.canTake = true := by decide +kernel

/-! ### Which commands are well formed -/

theorem test_wf_frame_without_bytes : (Instr.receiveFrame []).wf = false := by decide +kernel
theorem test_wf_frame_too_long : (Instr.receiveFrame (List.replicate 255 0)).wf = false := by decide +kernel
theorem test_wf_frame_longest : (Instr.receiveFrame (List.replicate 254 0)).wf = true := by decide +kernel
theorem test_wf_answer_too_long : (Instr.answerEnd 0 false (List.replicate 51 0)).wf = false := by decide +kernel
theorem test_wf_answer_longest : (Instr.answerEnd 0 false (List.replicate 50 0)).wf = true := by decide +kernel

/-! ### Checks and byte forms -/

/-- R183: the CRC-16 over the nine characters "123456789". -/
theorem test_crc16 : crc16 [0x31, 0x32, 0x33, 0x34, 0x35, 0x36, 0x37, 0x38, 0x39] = 0x29B1 := by decide +kernel
/-- R198: the CRC-8 over the nine characters "123456789". -/
theorem test_crc8 : crc8 [0x31, 0x32, 0x33, 0x34, 0x35, 0x36, 0x37, 0x38, 0x39] = 0x20 := by decide +kernel
/-- R198: a READ telegram is 5 bytes and an ASSIGN is 10 bytes. -/
theorem test_telegram_lengths : (Telegram.read 3 1).bytes.length = 5 ∧ (Telegram.assign 0x0200000001 1).bytes.length = 10 := by
  decide +kernel
/-- R198: prefix 1.2.3 of SURVEY, packed in one byte. -/
theorem test_survey_bytes : (Telegram.survey [1, 2, 3]).bytes.take 4 = [0xB4, 2, 6, 0x6C] := by decide +kernel
/-- Section 10.14: the flag bytes of the motor's record. -/
theorem test_entry_flags : motor.flags8 = 0xC6 ∧ motor.flags9 = 0x40 := by decide +kernel
theorem test_tag_digits : tagBegins [0, 0, 0, 2, 0] 0x0200000001 = true ∧ tagBegins [0, 0, 1] 0x0200000001 = false := by decide +kernel

/-! ### Characters (R182, R198) -/

/-- R182: the byte 0x05, least significant bit first, between its start and its stop bit. -/
theorem test_character : character 0x05
    = [.start, .data true, .data false, .data true, .data false, .data false, .data false, .data false, .data false, .stop] := by
  decide +kernel
/-- R182, R184: the receiver takes the byte whatever it finds in place of the stop bit. -/
theorem test_sampled : sampledByte [true, false, true, false, false, false, false, false] false = 0x05 := by decide +kernel
/-- R16, R198: a READ telegram of 5 bytes is 50 bit times, and so is the shortest answer's frame of 5 bytes. -/
theorem test_bits : (Telegram.read 3 1).bits.length = 50 := by decide +kernel

/-! ### The node's side (R29 to R31) against the engine's judgement (R32, R34) -/

def node : Node :=
  { tag := 0x0200000001, addr := 1, objects := [5, 6], maker := 1, revision := 1, attnCapable := true, label := [0x41],
    toolId := 0, fault := true, condition := some { cause := 9, data := [1] } }

/-- The judgement of a node's answer to the bytes of a telegram. -/
def heard (n : Node) (t : Telegram) : Option AttemptResult :=
  match (n.hear t.bytes false).2 with
  | .answer bytes => some (judgeAnswer t false bytes)
  | _ => none

theorem test_node_fits : node.fits = true ∧ { node with objects := [] }.fits = false ∧ node.restart.fits = true := by
  decide +kernel
theorem test_node_ping : heard node (.ping 1) = some (.valid (.status true)) := by decide +kernel
theorem test_node_read : heard node (.read 1 1) = some (.valid (.value 6)) ∧ heard node (.read 1 2) = some .refused := by decide +kernel
theorem test_node_write : heard node (.write 1 0 7) = some (.valid .ack) := by decide +kernel
theorem test_node_heed : heard node (.heed 1) = some (.valid (.cause 9 [1])) := by decide +kernel
theorem test_node_describe : heard node (.describe 1 false) = some (.valid (.descriptor node.descriptor)) := by decide +kernel
/-- R30: only a node of class 0x01 reports its tool ID. -/
theorem test_node_identity :
    heard { node with tag := 0x0100000001, toolId := 7 } (.describe 1 true)
      = some (.valid (.descriptor { node.descriptor with toolId := some 7 })) := by decide +kernel
theorem test_node_survey : heard node.restart (.survey []) = some (.clean 0x0200000001) ∧ heard node (.survey []) = none := by
  decide +kernel
/-- R30: the last byte of a PING to address 1 is changed, and the node ignores it. -/
theorem test_node_check : (node.hear [0xB4, 5, 1, crc8 [5, 1] ^^^ 1] false).2 = .silent := by decide +kernel

/-! ### One step of each family -/

/-- Section 1.7: the first contact. -/
theorem test_senseEvent : (after (.senseEvent .lead .closed) bench).mate.plug = .mating
    ∧ (after (.senseEvent .lead .closed) bench).mate.debounce = some 20
    ∧ (after (.senseEvent .lead .closed) bench).link.tx = some (.notice (.plug .mating)) := by decide +kernel
/-- Section 1.7: what the parting closes. -/
theorem test_parting : usual.closeBlocks.mate.session = false ∧ usual.closeBlocks.dir = { entries := [], generation := 6 }
    ∧ (usual.closeBlocks.lane 0).power = false := by decide +kernel
/-- R195: IDENT's reply. -/
theorem test_ident : replied (after .ident (asks 0x02 [] bench)) = some (0x82, .ok, [0x51, 0x03, 0x40, 0x02, 4, 64, 8, 24]) := by
  decide +kernel
theorem test_unknownKind : replied (after .unknownKind (asks 0x7F [1] bench)) = some (0x80, .unknownKind, [0x7F]) := by decide +kernel
theorem test_plugEnable : replied (after .plugEnable (asks 0x08 [] bench)) = some (0x88, .ok, [0, 0]) := by decide +kernel
/-- A detach closes the session: the directory is emptied and the lane loses its power. -/
theorem test_detach : (after (.senseEvent .seat .opened) usual).mate.session = false
    ∧ (after (.senseEvent .seat .opened) usual).dir = { entries := [], generation := 6 }
    ∧ ((after (.senseEvent .seat .opened) usual).lane 0).state = .off
    ∧ ((after (.senseEvent .seat .opened) usual).lane 0).power = false
    ∧ (after (.senseEvent .seat .opened) usual).link.tx = some (.notice (.plug .detached)) := by decide +kernel
/-- PLUG_DISABLE on a worn tool: the plug stays ATTACHED and the session is closed. -/
theorem test_plugDisable_worn : replied (after .plugDisable (asks 0x09 [] usual)) = some (0x89, .ok, [3, 0]) := by decide +kernel
theorem test_plugDisable : replied (after .plugDisable (asks 0x09 [] bench)) = some (0x89, .ok, [0, 0]) := by decide +kernel
/-- R189: the reply is TXD's frame when nothing stands before it. -/
theorem test_reply_begins : (after .ident (asks 0x02 [] bench)).link.tx.isSome = true := by decide +kernel
theorem test_configureLaneEnableMask :
    (after .configureLaneEnableMask (asks 0x03 [1, 0, 0, 5] bench)).lanes.map (·.state)
      = { a0 := .off, a1 := .disabled, a2 := .off, a3 := .disabled } := by decide +kernel
theorem test_configure_not_now : replied (after .configureMissLimit (asks 0x03 [2, 0, 0, 4] usual)) = some (0x83, .notNow, []) := by
  decide +kernel
theorem test_configure_unknown : replied (after .configurePollGap (asks 0x03 [9, 0, 0, 4] usual)) = some (0x83, .badArgument, []) := by
  decide +kernel
theorem test_faults : replied (after .faults (asks 0x10 [0, 0] usual)) = some (0x90, .ok, [0, 0, 0xFF, 0, 0, 0, 0, 0, 0]) := by
  decide +kernel
theorem test_rescan : replied (after .rescan (asks 0x11 [0] usual)) = some (0x91, .ok, [0, 5])
    ∧ ((after .rescan (asks 0x11 [0] usual)).lane 0).engine
        = some { telegram := .ping 2, attempt := 1, phase := .sending } := by decide +kernel
theorem test_laneRestart : replied (after .laneRestart (asks 0x12 [0] usual)) = some (0x92, .ok, [0, 2])
    ∧ (after .laneRestart (asks 0x12 [0] usual)).dir.entries.map (·.presence) = [.lost, .lost] := by decide +kernel
theorem test_find : replied (after .find (asks 0x19 [0x41] usual)) = some (0x99, .ok, [1, 0, 0]) := by decide +kernel
theorem test_purge : replied (after .purge (asks 0x1A [2] usual)) = some (0x9A, .ok, [2, 0, 6]) := by decide +kernel
theorem test_override : replied (after .overrideForcedPresent (asks 0x1B [2, 1] usual)) = some (0x9B, .ok, [2, 1, 0, 0, 0, 6]) := by
  decide +kernel
theorem test_readObjects : ((after .readObjects (asks 0x20 [1, 0, 2, 1] usual)).lane 0).engine
    = some { telegram := .read 1 0, attempt := 1, phase := .sending } := by decide +kernel
theorem test_writeObject : ((after .writeObject (asks 0x21 [1, 2, 0, 0, 0, 9] usual)).lane 0).engine
    = some { telegram := .write 1 2 9, attempt := 1, phase := .sending } := by decide +kernel
theorem test_accessTimer :
    replied (after .accessTimerExpiry (after .readObjects (asks 0x20 [1, 0, 2, 1] usual))) = some (0xA0, .timeout, [1, 0, 0]) := by
  decide +kernel
theorem test_attnMask : replied (after .attnMask (asks 0x25 [1, 1] usual)) = some (0xA5, .ok, [1, 1, 0]) := by decide +kernel
theorem test_manifestBegin : replied (after .manifestBegin (asks 0x28 [7, 1, 2, 24] bench)) = some (0xA8, .ok, [7, 1, 2, 24]) := by
  decide +kernel
theorem test_manifestRead :
    replied (after .manifestRead (asks 0x2C [0, 0]
        { bench with store := { slots := bench.store.slots.set 0 (some manifest), load := none } }))
      = some (0xAC, .ok, [1, 2, 1, 0, 0xFF, 2, 6, 1, 0, 0, 0, 0, 1, 0x41]) := by decide +kernel
theorem test_snapshot : replied (after .snapshot (asks 0x30 [] usual)) = some (0xB0, .ok, [0, 5, 2, 1]) := by decide +kernel
/-- R183: a whole frame, written out: IDENT with token 7. -/
theorem test_receiveFrame : (after (.receiveFrame ([0xE7, 2, 2, 7] ++ be16 (crc16 [2, 2, 7]))) bench).link.requests = [asked 2 []] := by
  decide +kernel
theorem test_receiveFrame_check : (after (.receiveFrame [0xE7, 2, 2, 7, 0, 0]) bench).link.fault = .check := by decide +kernel
theorem test_trip_lane : ((after (.settleTimerExpiry 0) (tool { Lane.cold with state := .settling, power := true, settleTimer := some 0 } [])).lane 0).engine
    = some { telegram := .forget, attempt := 1, phase := .sending } := by decide +kernel
theorem test_latnChange : ((after (.latnChange 0 true) usual).lane 0).engine
    = some { telegram := .rollcall, attempt := 1, phase := .sending } := by decide +kernel
theorem test_rollcall_hit :
    (after (.quietWaitEnd 0) (tool (sending .rollcall 1 (.quiet (.hits 1)) .attention) [motor])).dir.entries.map (·.attention)
      = [.pending] := by decide +kernel
theorem test_poll_answer :
    ((after (.answerEnd 0 false [0x65, 0, crc8 [0x65, 0]]) (tool (sending (.ping 1) 1 .receiving (.poll motor.target)) [motor])).lane
      0).engine = some { telegram := .ping 1, attempt := 1, phase := .quiet (.valid (.status false)) } := by decide +kernel

/-! ### Witnesses: states and operands that meet the hypotheses of each statement -/

/-- With this request at the head of its queue, a state meets a condition. -/
def Meets (kind : Byte) (payload : List Byte) (s : State) (c : State → Prop) : Prop :=
  (asks kind payload s).queued (asked kind payload) [] ∧ (asked kind payload).kind = kind
    ∧ (asked kind payload).payload = payload ∧ c (asks kind payload s)

theorem meets {kind : Byte} {payload : List Byte} {s : State} {c : State → Prop} (h : s.canTake = true)
    (hc : c (asks kind payload s)) : Meets kind payload s c := ⟨queued_asks _ _ h, rfl, rfl, hc⟩

/-- EmptyQueueTicks. -/
theorem witness_EmptyQueueTicks : usual.pending = [] := rfl

/-- StepKeepsQueueBounds: the queues full to their bounds. -/
theorem witness_StepKeepsQueueBounds :
    State.queuesFit { usual with link := { usual.link with
      requests := List.replicate 4 (asked 1 [0]), notices := List.replicate 16 (.plug .mating) } } := by
  unfold State.queuesFit; decide

/-- StepKeepsPowerLaw: an open session with a lane that has power. -/
theorem witness_StepKeepsPowerLaw : usual.powerLaw ∧ (usual.lane 0).power = true := by
  unfold State.powerLaw; decide +kernel

/-- StepKeepsSurveyBounds, StepKeepsDirectoryOrder: a lane at work and two entries. -/
theorem witness_StepKeepsSurveyBounds : usual.surveyOk := by
  intro l
  refine surveyOk_rest ?_ ?_ ?_ ?_ ?_ ?_ <;> revert l <;> decide +kernel

/-- StepKeepsSurveyBounds: a walk under way, with three prefixes stacked and the first child of the root surveyed. -/
def walking : Lane :=
  { sending (.survey [0]) 1 (.quiet .collided) (.survey (.survey [0])) with
    state := .enumerating
    survey := { pass := some .initial, step := some .walk, stack := [[1], [2], [3]],
                current := some { digits := [0], attempt := 1 }, naming := none, position := none } }

theorem witness_walk_in_order : walking.surveyOk := by
  refine ⟨⟨by decide, by decide, ?_⟩, ?_, ?_, ?_, ?_, ?_, ?_, ?_, ?_⟩
  · intro k
    exact List.length_filter_le _ _
  · intro c hc; cases hc; decide
  · intro h; exact absurd rfl h
  · intro w hw; cases hw
  · intro w hw; cases hw
    refine ⟨⟨?_, ?_, ?_⟩, rfl⟩
    · intro p hp; cases hp; exact ⟨rfl, rfl⟩
    · intro h; cases h
    · intro t a h; cases h
  · intro h; cases h
  · intro h; cases h
  · intro h; cases h
  · intro h; cases h

theorem witness_StepKeepsDirectoryOrder : usual.directoryOk := by
  have h : ∀ l, (usual.lane l).reservation = none := by decide +kernel
  refine ⟨by decide, by decide, by decide, ?_, ?_⟩
  · intro l n hn; rw [h] at hn; cases hn
  · intro l m n k _ hn; rw [h] at hn; cases hn

/-- ReleaseRestartsPart: both clauses on the senses. -/
theorem witness_ReleaseRestartsPart :
    ({ bench with hold := some .power } : State).hold = some .power ∧ bench.mate.lead = .opened ∧ bench.mate.seat = .opened
      ∧ usual.mate.lead = .closed := by decide

/-- FramesAreJudged: the shortest and the longest body. -/
theorem witness_FramesAreJudged : bench.hold = none ∧ bench.link.receiver = .hunting
    ∧ 2 ≤ ([1, 2] : List Byte).length ∧ (List.replicate 250 (0 : Byte)).length ≤ 250 := by decide +kernel

/-- ReceiverTakesBytes: each clause. -/
theorem witness_ReceiverTakesBytes :
    ({ bench with hold := some .pin } : State).hold ≠ none ∧ bench.hold = none ∧ bench.link.receiver = .hunting
      ∧ ({ bench with link := { bench.link with receiver := .inFrame [] } } : State).link.receiver = .inFrame []
      ∧ (1 : Byte).toNat < 2 ∧ 250 < (251 : Byte).toNat ∧ 2 ≤ (2 : Byte).toNat ∧ (250 : Byte).toNat ≤ 250
      ∧ ([2] : List Byte).length + 1 < (at' [2] 0).toNat + 3 ∧ ([2, 1, 1] : List Byte).length + 1 < (at' [2, 1, 1] 0).toNat + 3
      ∧ ({ bench with link := { bench.link with gapTimer := some 5 } } : State).link.gapTimer ≠ none := by decide

/-- TransmitterChoosesNextFrame: a notice, and a reply with one notice ahead of the next or none. -/
theorem witness_TransmitterChoosesNextFrame :
    State.reset.link.tx = some (.notice (.restarted .power)) ∧ (after .ident (asks 0x02 [] bench)).unit = .replying none
      ∧ (after .ident (asks 0x02 [] bench)).link.tx.isSome = true ∧ State.reset.link.reply = none ∧ State.reset.link.notices = [] := by
  decide +kernel

/-- SoftResetTakesEffect, FullResetTakesEffect: the reply of a RESET on TXD. -/
theorem witness_ResetTakesEffect :
    (after .resetSoft (asks 0x04 [1] usual)).link.tx.isSome = true ∧ (after .resetSoft (asks 0x04 [1] usual)).unit = .replying (some .soft)
      ∧ (after .resetFull (asks 0x04 [2] usual)).link.tx.isSome = true
      ∧ (after .resetFull (asks 0x04 [2] usual)).unit = .replying (some .full)
      ∧ usual.mate.session = true ∧ bench.mate.session = false := by decide +kernel

/-- ReplyIsBuilt: TXD busy, and TXD free with no notice. -/
theorem witness_ReplyIsBuilt : State.reset.link.tx = some (.notice (.restarted .power)) ∧ bench.link.tx = none
    ∧ bench.link.notices = [] := by decide

/-- UnfitRequestsAreRefused: an unknown kind, and a payload one byte too long. -/
theorem witness_UnfitRequestsAreRefused :
    (asks 0x7F [] bench).queued (asked 0x7F []) [] ∧ (0x7F : Byte) ∉ requestKinds
      ∧ (asks 0x02 [0] bench).queued (asked 0x02 [0]) [] ∧ lengthAllowed 0x02 [0] = false :=
  ⟨queued_asks _ _ bench_takes, by decide, queued_asks _ _ bench_takes, by decide⟩

/-- IdentReportsPart, ManifestReadReturnsBinding and every other statement on a request whose payload is free. -/
theorem witness_queued (kind : Byte) (payload : List Byte) : Meets kind payload usual (fun _ => True) :=
  meets usual_takes trivial

/-- StatusReports: the clear flag at 0, 1 and 2. -/
theorem witness_StatusReports : Meets 0x01 [0] usual (fun _ => (0 : Byte) ≠ 1) ∧ Meets 0x01 [1] usual (fun _ => True)
    ∧ Meets 0x01 [2] usual (fun _ => (2 : Byte) ≠ 0 ∧ (2 : Byte) ≠ 1) :=
  ⟨meets usual_takes (by decide), meets usual_takes trivial, meets usual_takes (by decide)⟩

/-- FaultsReadsAndClears: lane 3 with both flags, lane 4, and a flag of 2. -/
theorem witness_FaultsReadsAndClears : Meets 0x10 [byteOf (3 : LaneId).val, 0] usual (fun _ => True)
    ∧ Meets 0x10 [byteOf (3 : LaneId).val, 1] usual (fun _ => True) ∧ Meets 0x10 [4, 0] usual (fun _ => 3 < (4 : Byte).toNat)
    ∧ Meets 0x10 [0, 2] usual (fun _ => 1 < (2 : Byte).toNat) :=
  ⟨meets usual_takes trivial, meets usual_takes trivial, meets usual_takes (by decide), meets usual_takes (by decide)⟩

/-- ConfigureNeedsDisabledPlug: the masks 1, 15 and 16, the limits 0, 1, 15 and 16, with the plug disabled and enabled, and a
wrong selector; a lane that keeps its place, one that leaves it and one that comes back. -/
theorem witness_ConfigureNeedsDisabledPlug :
    Meets 0x03 [1, 0, 0, 1] bench (fun s => (word16 0 1).toNat ≤ 15 ∧ s.mate.enabled = false
      ∧ (s.lane 0).enabled = (word16 0 1).toNat.testBit 0 ∧ (s.lane 1).enabled ≠ (word16 0 1).toNat.testBit 1
      ∧ (s.lane 1).enabled = true ∧ (s.lane 1).state = .off)
    ∧ Meets 0x03 [1, 0, 0, 15] { bench with lanes := { bench.lanes with a3 := { Lane.cold with enabled := false, state := .disabled } } }
      (fun s => (word16 0 15).toNat ≤ 15 ∧ s.mate.enabled = false ∧ (s.lane 3).enabled ≠ (word16 0 15).toNat.testBit 3
        ∧ (s.lane 3).enabled = false ∧ (s.lane 3).state = .disabled)
    ∧ Meets 0x03 [1, 0, 0, 15] usual (fun s => (word16 0 15).toNat ≤ 15 ∧ s.mate.enabled = true)
    ∧ Meets 0x03 [1, 0, 0, 16] bench (fun _ => 15 < (word16 0 16).toNat) ∧ Meets 0x03 [1, 1, 0, 0] bench (fun _ => (1 : Byte) ≠ 0)
    ∧ Meets 0x03 [2, 0, 0, 1] bench (fun s => 1 ≤ (word16 0 1).toNat ∧ (word16 0 1).toNat ≤ 15 ∧ s.mate.enabled = false)
    ∧ Meets 0x03 [2, 0, 0, 15] usual (fun s => 1 ≤ (word16 0 15).toNat ∧ (word16 0 15).toNat ≤ 15 ∧ s.mate.enabled = true)
    ∧ Meets 0x03 [2, 0, 0, 0] bench (fun _ => (word16 0 0).toNat = 0) ∧ Meets 0x03 [2, 0, 0, 16] bench (fun _ => 15 < (word16 0 16).toNat) :=
  ⟨meets bench_takes (by decide +kernel), meets (by decide) (by decide +kernel), meets usual_takes (by decide +kernel),
    meets bench_takes (by decide), meets bench_takes (by decide), meets bench_takes (by decide), meets usual_takes (by decide +kernel),
    meets bench_takes (by decide), meets bench_takes (by decide)⟩

/-- ConfigureStoresLaneParameter: the ends of each range and the first values past them, on lane 3 and on lane 4. -/
theorem witness_ConfigureStoresLaneParameter :
    Meets 0x03 [3, byteOf (3 : LaneId).val, 0, 1] usual (fun _ => 1 ≤ (word16 0 1).toNat ∧ (word16 0 1).toNat ≤ 255)
    ∧ Meets 0x03 [3, byteOf (3 : LaneId).val, 0, 255] usual (fun _ => 1 ≤ (word16 0 255).toNat ∧ (word16 0 255).toNat ≤ 255)
    ∧ Meets 0x03 [3, 4, 0, 1] usual (fun _ => 3 < (4 : Byte).toNat) ∧ Meets 0x03 [3, 0, 0, 0] usual (fun _ => (word16 0 0).toNat = 0)
    ∧ Meets 0x03 [3, 0, 1, 0] usual (fun _ => 255 < (word16 1 0).toNat)
    ∧ Meets 0x03 [4, byteOf (0 : LaneId).val, 0, 0] usual (fun s => (word16 0 0).toNat ≤ 255 ∧ (s.lane 0).state = .supervising)
    ∧ Meets 0x03 [4, byteOf (1 : LaneId).val, 0, 255] usual (fun s => (word16 0 255).toNat ≤ 255 ∧ (s.lane 1).state ≠ .supervising)
    ∧ Meets 0x03 [4, 0, 1, 0] usual (fun _ => 255 < (word16 1 0).toNat)
    ∧ Meets 0x03 [6, byteOf (3 : LaneId).val, 0, 0] usual (fun _ => (word16 0 0).toNat = 0)
    ∧ Meets 0x03 [6, byteOf (3 : LaneId).val, 0, 1] usual (fun _ => (word16 0 1).toNat = 1)
    ∧ Meets 0x03 [6, 0, 0, 2] usual (fun _ => 1 < (word16 0 2).toNat) :=
  ⟨meets usual_takes (by decide), meets usual_takes (by decide), meets usual_takes (by decide), meets usual_takes (by decide),
    meets usual_takes (by decide), meets usual_takes (by decide +kernel), meets usual_takes (by decide +kernel),
    meets usual_takes (by decide), meets usual_takes (by decide), meets usual_takes (by decide), meets usual_takes (by decide)⟩

/-- ConfigureTimeoutAndNoticeMask: the timeouts 0, 255 and 256, the selectors 0xC0, 0xC1, 0xC6 and 0xC7, the value 2. -/
theorem witness_ConfigureTimeoutAndNoticeMask :
    Meets 0x03 [5, 0, 0, 0] usual (fun _ => (word16 0 0).toNat ≤ 255) ∧ Meets 0x03 [5, 0, 0, 255] usual (fun _ => (word16 0 255).toNat ≤ 255)
    ∧ Meets 0x03 [5, 0, 1, 0] usual (fun _ => 255 < (word16 1 0).toNat) ∧ Meets 0x03 [5, 1, 0, 0] usual (fun _ => (1 : Byte) ≠ 0)
    ∧ Meets 0x03 [7, 0xC1, 0, 0] usual (fun _ => (word16 0 0).toNat ≤ 1 ∧ 0xC1 ≤ (0xC1 : Byte).toNat ∧ (0xC1 : Byte).toNat ≤ 0xC6)
    ∧ Meets 0x03 [7, 0xC6, 0, 1] usual (fun _ => (word16 0 1).toNat ≤ 1 ∧ 0xC1 ≤ (0xC6 : Byte).toNat ∧ (0xC6 : Byte).toNat ≤ 0xC6)
    ∧ Meets 0x03 [7, 0xC1, 0, 2] usual (fun _ => 1 < (word16 0 2).toNat) ∧ Meets 0x03 [7, 0xC0, 0, 0] usual (fun _ => (0xC0 : Byte).toNat < 0xC1)
    ∧ Meets 0x03 [7, 0xC7, 0, 0] usual (fun _ => 0xC6 < (0xC7 : Byte).toNat) :=
  ⟨meets usual_takes (by decide), meets usual_takes (by decide), meets usual_takes (by decide), meets usual_takes (by decide),
    meets usual_takes (by decide), meets usual_takes (by decide), meets usual_takes (by decide), meets usual_takes (by decide),
    meets usual_takes (by decide)⟩

/-- ResetIsAnsweredFirst: the kinds 1, 2 and 3. -/
theorem witness_ResetIsAnsweredFirst : Meets 0x04 [1] usual (fun _ => True) ∧ Meets 0x04 [2] usual (fun _ => True)
    ∧ Meets 0x04 [3] usual (fun _ => (3 : Byte) ≠ 1 ∧ (3 : Byte) ≠ 2) :=
  ⟨meets usual_takes trivial, meets usual_takes trivial, meets usual_takes (by decide)⟩

/-- RescanStartsPass: a lane in SUPERVISING, in RESCANNING, in another state, lane 4, and the rescan timer. -/
theorem witness_RescanStartsPass :
    Meets 0x11 [byteOf (0 : LaneId).val] usual (fun s => (s.lane 0).state = .supervising)
    ∧ Meets 0x11 [byteOf (0 : LaneId).val] (tool { serving with state := .rescanning } []) (fun s => (s.lane 0).state = .rescanning)
    ∧ Meets 0x11 [byteOf (1 : LaneId).val] usual (fun s => (s.lane 1).state ≠ .supervising ∧ (s.lane 1).state ≠ .rescanning)
    ∧ Meets 0x11 [4] usual (fun _ => 3 < (4 : Byte).toNat)
    ∧ ((tool { serving with rescanTimer := some 9 } []).lane 0).rescanTimer = some 9 :=
  ⟨meets usual_takes (by decide), meets (by decide) (by decide), meets usual_takes (by decide), meets usual_takes (by decide), by decide⟩

/-- LaneRestartHoldsLane: a lane at work, one that is OFF, and lane 4; an entry that is lost, one LOST already. -/
theorem witness_LaneRestartHoldsLane :
    Meets 0x12 [byteOf (0 : LaneId).val] usual (fun s => (s.lane 0).state ≠ .off ∧ (s.lane 0).state ≠ .disabled
      ∧ motor ∈ s.dir.entries ∧ motor.lane = 0 ∧ motor.presence ≠ .lost ∧ absentee ∈ s.dir.entries ∧ absentee.presence = .lost)
    ∧ Meets 0x12 [byteOf (1 : LaneId).val] usual (fun s => (s.lane 1).state = .off) ∧ Meets 0x12 [4] usual (fun _ => 3 < (4 : Byte).toNat) :=
  ⟨meets usual_takes (by decide), meets usual_takes (by decide), meets usual_takes (by decide)⟩

/-- TripFaultsLane: a lane with and one without power, and the access that waits on it. -/
theorem witness_TripFaultsLane :
    (usual.lane 0).power = true ∧ (usual.lane 1).power = false
      ∧ (after .readObjects (asks 0x20 [1, 0, 2, 1] usual)).unit = .accessWait 0x20 7 0
      ∧ ((after .readObjects (asks 0x20 [1, 0, 2, 1] usual)).lane 0).run.isSome = true
      ∧ ((after .readObjects (asks 0x20 [1, 0, 2, 1] usual)).lane 0).power = true := by decide +kernel

/-- LaneTimersExpire. -/
theorem witness_LaneTimersExpire :
    ({ Lane.cold with state := .settling, power := true, settleTimer := some 50 } : Lane).settleTimer = some 50
      ∧ Lane.cold.arbiter = Arbiter.cold
      ∧ ({ Lane.cold with state := .settling, restartTimer := some 100 } : Lane).restartTimer = some 100 := by decide

/-- EnginePhasesFollow: each phase, with a directed telegram, a SURVEY and a ROLLCALL. -/
theorem witness_EnginePhasesFollow :
    ((tool (sending (.ping 1) 1 .sending (.poll motor.target)) []).lane 0).engine
        = some { telegram := .ping 1, attempt := 1, phase := .sending }
      ∧ ((tool (sending (.survey []) 1 .window (.survey (.survey []))) []).lane 0).engine
        = some { telegram := .survey [], attempt := 1, phase := .window }
      ∧ ((tool (sending .rollcall 1 .slots .attention) []).lane 0).engine = some { telegram := .rollcall, attempt := 1, phase := .slots }
      ∧ (Telegram.ping 1).directed = true := by decide +kernel

/-- AnswersAreJudged: contention and a wrong check. -/
theorem witness_AnswersAreJudged : (Telegram.clear 30).directed = true ∧ answerCheck [] = false ∧ answerCheck [0x61, 0] = false
    ∧ ([1, 2, 3, 4] : List Byte).length ≤ 4 := by decide +kernel

/-- UnansweredTelegramIsRetried: attempts 1 and 2. -/
theorem witness_UnansweredTelegramIsRetried :
    ((tool (sending (.ping 1) 2 (.quiet .noAnswer) (.poll motor.target)) []).lane 0).engine
      = some { telegram := .ping 1, attempt := 2, phase := .quiet .noAnswer } ∧ 2 < 3 ∧ (Telegram.ping 1).directed = true := by
  decide +kernel

/-- WalkFollowsOutcome: a COLLIDED prefix; a SILENT one with prefixes stacked; the longest prefix that still splits. -/
theorem witness_WalkFollowsOutcome :
    ((tool walking []).lane 0).engine = some { telegram := .survey [0], attempt := 1, phase := .quiet .collided }
      ∧ walking.arbiter.grant = some (.survey (.survey [0])) ∧ walking.survey.step = some .walk ∧ walking.survey.naming = none
      ∧ walking.survey.current = some { digits := [0], attempt := 1 } ∧ walking.survey.stack = [1] :: [[2], [3]]
      ∧ (List.replicate 19 (0 : Fin 4)).length < 20 := by decide +kernel

/-- NamingIsDecided: a known tag on its own lane and on another, a LOST one, one held elsewhere, a new one, and one that
another lane has reserved. -/
def naming (kind : NamingKind) (handle : Nat) (tag : Tag) (stage : NamingStage) : Lane :=
  { serving with
    state := .enumerating
    survey := { pass := some .initial, step := some .walk, stack := [], current := none, position := none
                naming := some { tag := tag, kind := kind, handle := handle, addr := 3, stage := stage } } }

theorem witness_NamingIsDecided :
    usual.byTag? motor.tag = some motor ∧ usual.heldElsewhere 0 1 = false ∧ motor.lane = 0 ∧ motor.lane ≠ 1 ∧ motor.presence ≠ .lost
      ∧ usual.byTag? absentee.tag = some absentee ∧ absentee.presence = .lost
      ∧ (tool (naming .reclaim 2 absentee.tag .assign) [motor, absentee]).heldElsewhere 1 2 = true
      ∧ usual.byTag? 0x0400000001 = none ∧ usual.newElsewhere 0 0x0400000001 = false
      ∧ (tool (naming .new 3 0x0400000001 .assign) []).newElsewhere 1 0x0400000001 = true := by decide +kernel

/-- NamedNodeIsCreated: the ASSIGN of a NEW step has been answered. -/
def assigning : State :=
  tool { naming .new 3 0x0400000001 .assign with
    engine := some { telegram := .assign 0x0400000001 3, attempt := 1, phase := .quiet (.valid .ack) }
    arbiter := { Arbiter.cold with grant := some (.survey (.assign 0x0400000001 3)) } } [motor]

theorem witness_NamedNodeIsCreated :
    (assigning.lane 0).engine = some { telegram := .assign 0x0400000001 3, attempt := 1, phase := .quiet (.valid .ack) }
      ∧ (assigning.lane 0).arbiter.grant = some (.survey (.assign 0x0400000001 3))
      ∧ (assigning.lane 0).survey.naming = some { tag := 0x0400000001, kind := .new, handle := 3, addr := 3, stage := .assign }
      ∧ (assigning.lane 0).run = none := by decide +kernel

/-- LookupReturnsRecord: a handle that is held and one that is not. -/
theorem witness_LookupReturnsRecord : Meets 0x18 [1] usual (fun s => s.entry? (1 : Byte).toNat = some motor)
    ∧ Meets 0x18 [64] usual (fun s => s.entry? (64 : Byte).toNat = none) :=
  ⟨meets usual_takes (by decide +kernel), meets usual_takes (by decide +kernel)⟩

/-- FindReturnsRole: a role that is bound, one of the longest that is not, and a character below the printable ones, in a session
and without one. -/
theorem witness_FindReturnsRole :
    Meets 0x19 [0x41] usual (fun s => roleOk [0x41] = true
      ∧ s.byRole? [0x41] = some (motor, { index := 0, role := [0x41], level := some 1, access := .rw, required := true }))
    ∧ Meets 0x19 (List.replicate 12 0x7E) usual (fun s => roleOk (List.replicate 12 0x7E) = true
      ∧ ∀ e ∈ s.dir.entries, e.binding.map (·.role) ≠ some (List.replicate 12 0x7E))
    ∧ Meets 0x19 [0x1F] usual (fun _ => roleOk [0x1F] = false)
    ∧ Meets 0x19 [0x1F] bench (fun s => s.mate.session = false ∧ roleOk [0x1F] = false) :=
  ⟨meets usual_takes (by decide +kernel), meets usual_takes (by decide +kernel), meets usual_takes (by decide),
    meets bench_takes (by decide)⟩

/-- PurgeRemovesLostEntry: a LOST entry without and with a binding, no entry, an entry that is not LOST, and a held one. -/
theorem witness_PurgeRemovesLostEntry :
    Meets 0x1A [2] usual (fun s => s.entry? 2 = some absentee ∧ absentee.presence = .lost ∧ s.held 2 = false ∧ absentee.binding = none)
    ∧ Meets 0x1A [1] (tool serving [{ motor with presence := .lost }])
      (fun s => s.entry? 1 = some { motor with presence := .lost } ∧ s.held 1 = false ∧ motor.binding ≠ none)
    ∧ Meets 0x1A [3] usual (fun s => s.entry? 3 = none)
    ∧ Meets 0x1A [1] usual (fun s => s.entry? 1 = some motor ∧ motor.presence ≠ .lost)
    ∧ Meets 0x1A [2] (tool (naming .reclaim 2 absentee.tag .assign) [motor, absentee])
      (fun s => s.entry? 2 = some absentee ∧ s.held 2 = true) :=
  ⟨meets usual_takes (by decide +kernel), meets (by decide) (by decide +kernel), meets usual_takes (by decide +kernel),
    meets usual_takes (by decide +kernel), meets (by decide) (by decide +kernel)⟩

/-- OverrideSetsMode: each mode not held and held, no entry, and the mode 3. -/
theorem witness_OverrideSetsMode :
    (∀ m : Fin 3, Meets 0x1B [3, byteOf m.val] usual (fun s => s.entry? 3 = none))
    ∧ Meets 0x1B [1, 0] usual (fun s => s.entry? 1 = some motor ∧ motor.override = .auto)
    ∧ Meets 0x1B [1, 1] usual (fun s => s.entry? 1 = some motor ∧ motor.override ≠ .forcedPresent)
    ∧ Meets 0x1B [1, 2] usual (fun s => s.entry? 1 = some motor ∧ motor.override ≠ .forcedAbsent)
    ∧ Meets 0x1B [1, 0] (tool serving [{ motor with override := .forcedAbsent }])
      (fun s => s.entry? 1 = some { motor with override := .forcedAbsent })
    ∧ Meets 0x1B [1, 2] (tool serving [{ motor with override := .forcedAbsent }])
      (fun s => s.entry? 1 = some { motor with override := .forcedAbsent })
    ∧ Meets 0x1B [1, 1] (tool serving [{ motor with override := .forcedPresent }])
      (fun s => s.entry? 1 = some { motor with override := .forcedPresent })
    ∧ Meets 0x1B [1, 3] usual (fun _ => 2 < (3 : Byte).toNat) :=
  have unknown : usual.entry? 3 = none := by decide +kernel
  ⟨fun _ => meets usual_takes unknown, meets usual_takes (by decide +kernel), meets usual_takes (by decide +kernel),
    meets usual_takes (by decide +kernel), meets (by decide) (by decide +kernel), meets (by decide) (by decide +kernel),
    meets (by decide) (by decide +kernel), meets usual_takes (by decide)⟩

/-- PollMissIsCounted: the third attempt at a PING, below the miss limit and at it. -/
def polling (e : Entry) : State := tool (sending (.ping 1) 3 (.quiet .noAnswer) (.poll motor.target)) [e]

theorem witness_PollMissIsCounted : ∀ e ∈ [motor, { motor with miss := 2, presence := .suspect }],
    ((polling e).lane 0).engine = some { telegram := .ping motor.target.addr, attempt := 3, phase := .quiet .noAnswer }
      ∧ ((polling e).lane 0).arbiter.grant = some (.poll motor.target) ∧ motor.target.lane = 0
      ∧ (polling e).target? motor.target = some e ∧ e.override = .auto ∧ e.presence ≠ .lost
      ∧ (e.miss + 1 < (polling e).missLimit ↔ e = motor) := by decide +kernel

/-- PollGapStartsRound: with an entry to poll and without one. -/
theorem witness_PollGapStartsRound :
    ((tool { serving with pollGapTimer := some 1 } [motor]).lane 0).pollGapTimer = some 1
      ∧ (tool serving [motor]).roundSet 0 = [1] ∧ (tool serving [absentee]).roundSet 0 = [] := by decide +kernel

/-- GrantFollowsPriority: nobody due, and a due requestor of the lowest priority. -/
theorem witness_GrantFollowsPriority :
    ({ Arbiter.cold with standing := { attention := true, access := none, survey := none, poll := some motor.target } } : Arbiter).grantNext.isSome
        = true
      ∧ ({ Arbiter.cold with
            standing := { attention := true, access := none, survey := none, poll := some motor.target }
            passed := { attention := 0, access := 0, survey := 0, poll := 8 } } : Arbiter).grantNext.map (·.1)
          = some (.poll motor.target) := by decide +kernel

/-- AccessIsCheckedInOrder: the ends of each range, and an entry for each test that fails. -/
theorem witness_AccessIsCheckedInOrder :
    Meets 0x20 [1, 0, 0, 0] usual (fun _ => True) ∧ Meets 0x20 [1, 0, 17, 0] usual (fun _ => 16 < (17 : Byte).toNat)
    ∧ Meets 0x20 [1, 0, 1, 2] usual (fun _ => 1 < (2 : Byte).toNat)
    ∧ Meets 0x20 [1, 0, 4, 1] usual (fun s => s.accessCheck 1 0 4 false = .error .outOfRange)
    ∧ Meets 0x20 [2, 0, 16, 0] usual (fun s => s.accessCheck 2 0 16 false = .error .nodeLost)
    ∧ Meets 0x20 [3, 0, 1, 0] usual (fun s => s.accessCheck 3 0 1 false = .error .noSuchHandle)
    ∧ Meets 0x20 [1, 0, 1, 0] (tool Lane.cold [motor]) (fun s => s.accessCheck 1 0 1 false = .error .notNow)
    ∧ Meets 0x20 [1, 0, 1, 0] (tool serving [{ motor with override := .forcedAbsent }])
      (fun s => s.accessCheck 1 0 1 false = .error .isolated)
    ∧ Meets 0x20 [1, 0, 1, 0] (tool serving [{ motor with descriptor := none }])
      (fun s => s.accessCheck 1 0 1 false = .error .noDescriptor)
    ∧ Meets 0x21 [1, 0, 0, 0, 0, 0] (tool serving [{ motor with binding := none }])
      (fun s => s.accessCheck 1 0 1 true = .error .denied) :=
  ⟨meets usual_takes trivial, meets usual_takes (by decide), meets usual_takes (by decide), meets usual_takes rfl,
    meets usual_takes rfl, meets usual_takes rfl, meets (by decide) rfl, meets (by decide) rfl, meets (by decide) rfl,
    meets (by decide) rfl⟩

/-- AccessStartsRun: a READ of all three objects and a WRITE of the last one. -/
theorem witness_AccessStartsRun :
    Meets 0x20 [1, 0, 3, 1] usual (fun s => 1 ≤ (3 : Byte).toNat ∧ (3 : Byte).toNat ≤ 16 ∧ (1 : Byte).toNat ≤ 1
      ∧ s.accessCheck (1 : Byte).toNat (0 : Byte).toNat (3 : Byte).toNat false = .ok motor)
    ∧ Meets 0x21 [1, 2, 0, 0, 0, 9] usual (fun s => s.accessCheck (1 : Byte).toNat (2 : Byte).toNat 1 true = .ok motor) :=
  ⟨meets usual_takes ⟨by decide, by decide, by decide, rfl⟩, meets usual_takes rfl⟩

/-- A READ run of one object, and the state that waits on it. -/
def run : Run :=
  { kind := .read, block := false, target := motor.target, first := 0, count := 1, completed := 0, values := [], abandoned := false }
def reading (x : AttemptResult) : State :=
  { tool { sending (.read 1 0) 3 (.quiet x) (.access false) with run := some run } [motor] with
    unit := .accessWait 0x20 7 0, accessTimer := some 250 }

/-- AccessOutcomeEndsRun: a value, REFUSED and no answer on the third attempt. -/
theorem witness_AccessOutcomeEndsRun : ∀ x ∈ [AttemptResult.valid (.value 5), .refused, .noAnswer, .invalid],
    ((reading x).lane 0).engine = some { telegram := .read 1 0, attempt := 3, phase := .quiet x }
      ∧ ((reading x).lane 0).arbiter.grant = some (.access false) ∧ (reading x).unit = .accessWait 0x20 7 0
      ∧ ((reading x).lane 0).run = some run ∧ run.abandoned = false ∧ run.kind = .read ∧ (Telegram.read 1 0).directed = true
      ∧ run.completed + 1 = run.count := by decide +kernel

/-- AccessTimerEndsAccess: with a telegram under way, and with a request that still stands. -/
theorem witness_AccessTimerEndsAccess :
    ((reading .noAnswer).accessTimer = some 250 ∧ (reading .noAnswer).unit = .accessWait 0x20 7 0
      ∧ ((reading .noAnswer).lane 0).run = some run ∧ ((reading .noAnswer).lane 0).engine.isSome = true
      ∧ ((reading .noAnswer).lane 0).arbiter.grant = some (.access false))
    ∧ ({ tool { serving with run := some run } [motor] with unit := .accessWait 0x20 7 0, accessTimer := some 250 } : State).accessTimer
      = some 250 ∧ ∀ b, serving.arbiter.grant ≠ some (.access b) := by decide +kernel

/-- ServiceEndsByHostOrDeadline: an attention in service, none, and no entry. -/
def attended : State :=
  tool { serving with attention := { Attention.cold with slots := { l0 := none, l1 := some { handle := 1, deadline := some 10000 }, l2 := none } } }
    [{ motor with attention := .inService }]

theorem witness_ServiceEndsByHostOrDeadline :
    Meets 0x24 [1] attended (fun s => s.entry? 1 = some { motor with attention := .inService } ∧ (s.lane 0).attention.slotOf 1 = some 1)
    ∧ Meets 0x24 [1] usual (fun s => s.entry? 1 = some motor ∧ motor.attention ≠ .inService)
    ∧ Meets 0x24 [2] attended (fun s => s.entry? 2 = none)
    ∧ (attended.lane 0).attention.slots.get 1 = some { handle := 1, deadline := some 10000 }
    ∧ attended.entry? 1 = some { motor with attention := .inService } ∧ motor.lane = 0 :=
  ⟨meets (by decide) (by decide +kernel), meets usual_takes (by decide +kernel), meets (by decide) (by decide +kernel), by decide,
    by decide +kernel, rfl⟩

/-- AttnMaskSetsMask: a pending entry masked, another one masked and unmasked, no entry, and the value 2. -/
theorem witness_AttnMaskSetsMask :
    Meets 0x25 [1, 1] (tool serving [{ motor with attention := .pending }]) (fun s => s.entry? 1 = some { motor with attention := .pending })
    ∧ Meets 0x25 [1, 1] usual (fun s => s.entry? 1 = some motor ∧ motor.attention ≠ .pending)
    ∧ Meets 0x25 [1, 0] usual (fun s => s.entry? 1 = some motor) ∧ Meets 0x25 [3, 1] usual (fun s => s.entry? 3 = none)
    ∧ Meets 0x25 [1, 2] usual (fun _ => 1 < (2 : Byte).toNat) :=
  ⟨meets (by decide) (by decide +kernel), meets usual_takes (by decide +kernel), meets usual_takes (by decide +kernel),
    meets usual_takes (by decide +kernel), meets usual_takes (by decide)⟩

/-- RollcallIsSentWhenDue. -/
theorem witness_RollcallIsSentWhenDue :
    (usual.lane 0).state = .supervising ∧ (usual.lane 0).arbiter = Arbiter.cold ∧ (usual.lane 0).attention.clearList = []
      ∧ usual.serviceLevel 0 = none ∧ (usual.lane 0).power = true ∧ (usual.lane 0).rollcallGapTimer = none
      ∧ ((tool { serving with rollcallGapTimer := some 3, latn := true } []).lane 0).rollcallGapTimer = some 3
      ∧ ((tool { serving with rollcallGapTimer := some 3, latn := true } []).lane 0).latn = true
      ∧ (tool { serving with rollcallGapTimer := some 3, latn := true } []).serviceLevel 0 = none
      ∧ ((tool { serving with rollcallGapTimer := some 3, latn := true } []).lane 0).arbiter = Arbiter.cold
      ∧ ((tool { serving with rollcallGapTimer := some 3, latn := true } []).lane 0).state = .supervising
      ∧ ((tool { serving with rollcallGapTimer := some 3, latn := true } []).lane 0).attention.clearList = [] := by decide +kernel

/-- HeedEntersService: the causes 0 and 9. -/
def heeding (cause : Byte) : State :=
  tool { sending (.heed 1) 1 (.quiet (.valid (.cause cause [1]))) .attention with
    attention := { Attention.cold with heed := some { target := motor.target, level := 1 } } } [{ motor with attention := .pending }]

theorem witness_HeedEntersService : ∀ c ∈ [(0 : Byte), 9],
    ((heeding c).lane 0).engine = some { telegram := .heed motor.target.addr, attempt := 1, phase := .quiet (.valid (.cause c [1])) }
      ∧ ((heeding c).lane 0).arbiter.grant = some .attention
      ∧ ((heeding c).lane 0).attention.heed = some { target := motor.target, level := 1 }
      ∧ (heeding c).target? motor.target = some { motor with attention := .pending } ∧ motor.presence = .present ∧ motor.miss = 0
      ∧ ((heeding c).lane 0).run = none := by
  decide +kernel

/-- A part with a manifest in slot 0 and a load of another one. -/
def stocked (load : Option Load) : State :=
  { usual with
    store := { slots := bench.store.slots.set 0 (some manifest), load := load }
    resolver := { Resolver.cold with phase := .resolved, applied := some 0, toolId := some 0x0102 } }

/-- A load for slot 1, with room for `count` bindings and `got` received. -/
def loading (count : Nat) (got : List ManifestBinding) : Load := { slot := 1, toolId := 0x0103, count := count, received := got }

/-- ManifestBeginOpensLoad: slots 7 and 8, counts 0, 1, 24 and 25, a tool ID held elsewhere and one that is not. -/
theorem witness_ManifestBeginOpensLoad :
    Meets 0x28 [8, 1, 3, 1] (stocked none) (fun _ => 7 < (8 : Byte).toNat) ∧ Meets 0x28 [0, 1, 3, 0] (stocked none) (fun _ => True)
    ∧ Meets 0x28 [0, 1, 3, 25] (stocked none) (fun _ => 24 < (25 : Byte).toNat)
    ∧ Meets 0x28 [byteOf (7 : Fin 8).val, 1, 2, 1] (stocked none) (fun s => 1 ≤ (1 : Byte).toNat ∧ (1 : Byte).toNat ≤ 24
      ∧ (0 : Fin 8) ≠ 7 ∧ (s.store.slots[(0 : Fin 8)]).map (·.toolId) = some (word16 1 2))
    ∧ Meets 0x28 [byteOf (7 : Fin 8).val, 1, 3, 24] (stocked none) (fun s => 1 ≤ (24 : Byte).toNat ∧ (24 : Byte).toNat ≤ 24
      ∧ ∀ j : Fin 8, j ≠ 7 → (s.store.slots[j]).map (·.toolId) ≠ some (word16 1 3)) :=
  ⟨meets (by decide) (by decide), meets (by decide) trivial, meets (by decide) (by decide), meets (by decide) (by decide +kernel),
    meets (by decide) (by decide +kernel)⟩

/-- ManifestEntryAddsBinding: no load, a wrong index, a full load, a bad field and a good binding. -/
theorem witness_ManifestEntryAddsBinding :
    Meets 0x29 [0, 0xFF, 2, 6, 1, 0, 0, 0, 0, 1, 0x41] (stocked none)
      (fun s => lengthAllowed 0x29 [0, 0xFF, 2, 6, 1, 0, 0, 0, 0, 1, 0x41] = true ∧ s.store.load = none)
    ∧ Meets 0x29 [1, 0xFF, 2, 6, 1, 0, 0, 0, 0, 1, 0x41] (stocked (some (loading 2 [])))
      (fun s => lengthAllowed 0x29 [1, 0xFF, 2, 6, 1, 0, 0, 0, 0, 1, 0x41] = true ∧ s.store.load = some (loading 2 [])
        ∧ (at' [1] 0).toNat ≠ (loading 2 []).received.length)
    ∧ Meets 0x29 [1, 0xFF, 2, 6, 1, 0, 0, 0, 0, 1, 0x41] (stocked (some (loading 1 manifest.bindings)))
      (fun s => s.store.load = some (loading 1 manifest.bindings)
        ∧ (loading 1 manifest.bindings).count ≤ (loading 1 manifest.bindings).received.length)
    ∧ Meets 0x29 [0, 0xFF, 1, 6, 1, 0, 0, 0, 0, 1, 0x41] (stocked (some (loading 2 [])))
      (fun s => s.store.load = some (loading 2 []) ∧ (at' [0] 0).toNat = (loading 2 []).received.length
        ∧ (loading 2 []).received.length < (loading 2 []).count ∧ ¬ bindingFits [0, 0xFF, 1, 6, 1, 0, 0, 0, 0, 1, 0x41])
    ∧ Meets 0x29 [0, 0xFF, 2, 6, 1, 0, 0, 0, 0, 1, 0x41] (stocked (some (loading 2 [])))
      (fun s => s.store.load = some (loading 2 []) ∧ bindingFits [0, 0xFF, 2, 6, 1, 0, 0, 0, 0, 1, 0x41]
        ∧ (at' [0] 0).toNat = (loading 2 []).received.length) :=
  ⟨meets (by decide) (by decide +kernel), meets (by decide) (by decide +kernel), meets (by decide) (by decide +kernel),
    meets (by decide) (by decide +kernel), meets (by decide) (by decide +kernel)⟩

/-- ManifestIsCommittedOrErased: each clause of END (no load; a binding missing; a role twice; a commit for the session's
tool, for the default, for the applied slot, for another tool, before the resolution) and of ERASE. -/
theorem witness_ManifestIsCommittedOrErased :
    Meets 0x2A [] (stocked none) (fun s => s.store.load = none)
    ∧ Meets 0x2A [] (stocked (some (loading 2 manifest.bindings))) (fun s => s.store.load = some (loading 2 manifest.bindings)
      ∧ (loading 2 manifest.bindings).received.length < (loading 2 manifest.bindings).count)
    ∧ Meets 0x2A [] (stocked (some (loading 2 (manifest.bindings ++ manifest.bindings))))
      (fun _ => ¬ (((loading 2 (manifest.bindings ++ manifest.bindings)).received.map (·.role)).Nodup))
    ∧ Meets 0x2A [] (stocked (some { loading 1 manifest.bindings with toolId := 0x0102 })) (fun s => s.resolver.phase = .resolved
      ∧ s.resolver.toolId = some 0x0102 ∧ ((loading 1 manifest.bindings).received.map (·.role)).Nodup)
    ∧ Meets 0x2A [] (stocked (some { loading 1 manifest.bindings with toolId := 0 })) (fun s => s.resolver.phase = .resolved)
    ∧ Meets 0x2A [] (stocked (some { loading 1 manifest.bindings with slot := 0 })) (fun s => s.resolver.phase = .resolved
      ∧ s.resolver.applied = some 0)
    ∧ Meets 0x2A [] (stocked (some (loading 1 manifest.bindings))) (fun s => s.resolver.toolId ≠ some (loading 1 []).toolId
      ∧ (loading 1 []).toolId ≠ 0 ∧ s.resolver.applied ≠ some (loading 1 []).slot)
    ∧ Meets 0x2A [] { stocked (some (loading 1 manifest.bindings)) with resolver := Resolver.cold } (fun s => s.resolver.phase ≠ .resolved)
    ∧ Meets 0x2B [byteOf (0 : Fin 8).val] (stocked none) (fun s => s.resolver.phase = .resolved ∧ s.resolver.applied = some 0)
    ∧ Meets 0x2B [byteOf (7 : Fin 8).val] (stocked none) (fun s => s.resolver.applied ≠ some 7)
    ∧ Meets 0x2B [8] (stocked none) (fun _ => 7 < (8 : Byte).toNat) :=
  ⟨meets (by decide) (by decide), meets (by decide) (by decide), meets (by decide) (by decide), meets (by decide) (by decide),
    meets (by decide) (by decide), meets (by decide) (by decide), meets (by decide) (by decide), meets (by decide) (by decide),
    meets (by decide) (by decide), meets (by decide) (by decide), meets (by decide) (by decide)⟩

/-- ManifestReadReturnsBinding: an index of the manifest, one past it, 23 and 24, slots 7 and 8. -/
theorem witness_ManifestReadReturnsBinding :
    Meets 0x2C [8, 0] (stocked none) (fun _ => 7 < (8 : Byte).toNat) ∧ Meets 0x2C [0, 24] (stocked none) (fun _ => 23 < (24 : Byte).toNat)
    ∧ Meets 0x2C [byteOf (7 : Fin 8).val, 23] (stocked none) (fun s => (23 : Byte).toNat ≤ 23 ∧ s.store.slots[(7 : Fin 8)] = none)
    ∧ Meets 0x2C [byteOf (0 : Fin 8).val, 1] (stocked none) (fun s => s.store.slots[(0 : Fin 8)] = some manifest
      ∧ manifest.bindings.length ≤ (1 : Byte).toNat)
    ∧ Meets 0x2C [byteOf (0 : Fin 8).val, 0] (stocked none) (fun s => s.store.slots[(0 : Fin 8)] = some manifest
      ∧ (manifest.bindings[(0 : Byte).toNat]?).isSome = true) :=
  ⟨meets (by decide) (by decide), meets (by decide) (by decide), meets (by decide) (by decide +kernel),
    meets (by decide) (by decide +kernel), meets (by decide) (by decide +kernel)⟩

/-- An identity node that gives the tool ID of the manifest. -/
def identity : Entry :=
  { motor with handle := 3, addr := 3, tag := 0x0100000001, identity := true, binding := none
               descriptor := some { maker := 1, revision := 1, objectCount := 1, attnCapable := false, label := []
                                    toolId := some 0x0102 } }

/-- ResolveRunsResolution: no session; a resolved one with no identity entry, with one, and with two. -/
theorem witness_ResolveRunsResolution :
    Meets 0x2D [] bench (fun s => s.mate.session = false)
    ∧ Meets 0x2D [] usual (fun s => s.mate.session = true ∧ s.resolver.phase ≠ .resolved)
    ∧ Meets 0x2D [] (stocked none) (fun s => s.mate.session = true ∧ s.resolver.phase = .resolved
      ∧ s.dir.entries.filter (·.identity) = [])
    ∧ Meets 0x2D [] { stocked none with dir := { entries := [motor, identity], generation := 5 } } (fun s => s.resolver.phase = .resolved
      ∧ s.dir.entries.filter (·.identity) = [identity] ∧ (identity.descriptor.map (·.toolId)) = some (some 0x0102)
      ∧ s.store.slotOf 0x0102 = some 0)
    ∧ Meets 0x2D [] { stocked none with dir := { entries := [identity, { identity with handle := 4 }], generation := 5 } }
      (fun s => s.resolver.phase = .resolved ∧ 2 ≤ (s.dir.entries.filter (·.identity)).length) :=
  ⟨meets bench_takes (by decide), meets usual_takes (by decide), meets (by decide) (by decide +kernel),
    meets (by decide) (by decide +kernel), meets (by decide) (by decide +kernel)⟩

/-- NodeNamedReportIsTaken: a report before the initial resolution, one of a node that can be bound, one of a bound node, and
one of an identity node. -/
def reported (e : Entry) (r : Report) : State :=
  { stocked none with
    dir := { entries := [e], generation := 5 }
    resolver := { (stocked none).resolver with reports := [r] } }

theorem witness_NodeNamedReportIsTaken :
    (reported motor { handle := 1, tag := motor.tag, phase := .resolved }).resolver.reports = { handle := 1, tag := motor.tag, phase := .resolved } :: []
      ∧ (reported motor { handle := 1, tag := motor.tag, phase := .resolved }).entry? 1 = some motor ∧ Tag.isIdentity motor.tag = false
      ∧ Tag.isIdentity identity.tag = true ∧ motor.binding ≠ none
      ∧ ((reported { motor with binding := none } { handle := 1, tag := motor.tag, phase := .resolved }).incrementalChoice
          { motor with binding := none }).isSome = true ∧ Resolver.cold.phase ≠ .resolved := by decide +kernel

/-- SnapshotIsLatchedReadReleased: with and without a snapshot, an empty directory, the last page and the first one past it. -/
def latched : State := { usual with snap := some usual.latch }

theorem witness_SnapshotIsLatchedReadReleased :
    Meets 0x30 [] latched (fun s => s.snap = some usual.latch) ∧ Meets 0x30 [] bench (fun s => s.snap = none ∧ s.dir.entries = [])
    ∧ Meets 0x30 [] usual (fun s => s.snap = none ∧ s.dir.entries ≠ []) ∧ Meets 0x31 [0] usual (fun s => s.snap = none)
    ∧ Meets 0x31 [1] latched (fun s => s.snap = some usual.latch ∧ usual.latch.marks.length ≤ (1 : Byte).toNat)
    ∧ Meets 0x31 [0] latched (fun s => s.snap = some usual.latch ∧ (0 : Byte).toNat < usual.latch.marks.length)
    ∧ Meets 0x32 [] usual (fun s => s.snap = none) ∧ Meets 0x32 [] latched (fun s => s.snap = some usual.latch) :=
  ⟨meets (by decide) rfl, meets bench_takes (by decide), meets usual_takes (by decide), meets usual_takes rfl,
    meets (by decide) ⟨rfl, by decide⟩, meets (by decide) ⟨rfl, by decide⟩, meets usual_takes rfl, meets (by decide) rfl⟩

/-- SenseEventMovesPlug: each plug state. -/
theorem witness_SenseEventMovesPlug :
    bench.hold = none ∧ bench.mate.level .lead = .opened ∧ bench.mate.plug = .detached ∧ usual.mate.plug = .attached
      ∧ usual.mate.level .seat ≠ .opened ∧ (after (.senseEvent .lead .closed) bench).mate.plug = .mating
      ∧ (after (.senseEvent .lead .closed) bench).mate.level .seat ≠ .closed := by decide +kernel

/-- PlugTimersExpire: a running debounce timer with both senses open, one, and both closed; and the partial timer. -/
def mating (lead seat : Contact) (on : Bool) : State :=
  { bench with mate := { bench.mate with
      lead := lead, seat := seat, plug := .mating, enabled := on, debounce := some 20, partialTimer := some 500 } }

theorem witness_PlugTimersExpire :
    (mating .closed .closed true).mate.debounce = some 20 ∧ (mating .closed .closed true).mate.plug = .mating
      ∧ (mating .closed .opened true).mate.lead ≠ (mating .closed .opened true).mate.seat
      ∧ (mating .opened .opened false).mate.lead = .opened ∧ (mating .closed .closed false).mate.enabled = false
      ∧ (mating .closed .closed true).mate.session = false ∧ (mating .closed .closed true).mate.partialTimer = some 500 := by decide

/-- PlugEnableRulesSession: an ATTACHED plug with its session closed and open, and another plug state. -/
theorem witness_PlugEnableRulesSession :
    Meets 0x08 [] bench (fun s => s.mate.plug ≠ .attached)
    ∧ Meets 0x08 [] { bench with mate := { usual.mate with enabled := false, session := false } }
      (fun s => s.mate.plug = .attached ∧ s.mate.session = false ∧ (s.lane 3).state = .off)
    ∧ Meets 0x08 [] usual (fun s => s.mate.plug = .attached ∧ s.mate.session = true)
    ∧ Meets 0x09 [] usual (fun s => s.mate.session = true ∧ (s.lane 0).state ≠ .disabled) :=
  ⟨meets bench_takes (by decide), meets (by decide) (by decide), meets usual_takes (by decide), meets usual_takes (by decide)⟩

/-! ### Witnesses of the clauses on frames, notices and refused requests -/

/-- ReceiverTakesBytes: the last byte of a frame, with a check that matches and one that does not. -/
def lastByte (c1 : Byte) : State :=
  { bench with link := { bench.link with receiver := .inFrame (byteOf ([2, 7] : List Byte).length :: ([2, 7] ++ [c1])) } }

theorem test_lastByte :
    (after (.byteReceived ((crc16 [2, 2, 7]).setWidth 8)) (lastByte ((crc16 [2, 2, 7] >>> 8).setWidth 8))).link.requests = [asked 2 []]
      ∧ (after (.byteReceived 0) (lastByte 0)).link.fault = .check ∧ (lastByte 0).hold = none := by decide +kernel

/-- SoftResetTakesEffect: with no notice standing, with one, and with the queue full. -/
def resetting (notices : List Notice) : State :=
  { usual with
    unit := .replying (some .soft)
    link := { usual.link with
      notices := notices, tx := some (.reply { kind := 0x84, token := 7, status := .ok, payload := [1] }) } }

theorem witness_SoftResetTakesEffect : ∀ k ∈ [0, 1, 15, 16],
    (resetting (List.replicate k (.plug .attached))).link.tx.isSome = true
      ∧ (resetting (List.replicate k (.plug .attached))).unit = .replying (some .soft)
      ∧ (resetting (List.replicate k (.plug .attached))).link.reply = none
      ∧ (resetting (List.replicate k (.plug .attached))).link.notices.length = k := by decide +kernel

/-- R15: of the notices PLUG and RESTARTED(SOFT), the one that stood before goes out. -/
theorem test_soft_reset_order :
    (after (.transmitFrameEnd false false) (resetting [.plug .attached])).link.tx = some (.notice (.plug .attached))
      ∧ (after (.transmitFrameEnd false false) (resetting [.plug .attached])).link.notices = [.restarted .soft, .plug .mating] := by
  decide +kernel

/-- ReplyIsBuilt, the clauses on a notice: masked, at a full queue, on a busy TXD and on an idle one. -/
theorem witness_notice_is_posted :
    ({ NoticeMask.all with plug := false } : NoticeMask).passes (.plug .mating) = false
      ∧ NoticeMask.all.passes (.plug .mating) = true
      ∧ 16 ≤ ({ bench.link with notices := List.replicate 16 (.plug .mating) } : Link).notices.length
      ∧ State.reset.link.tx = some (.notice (.restarted .power)) ∧ State.reset.link.notices.length < 16
      ∧ bench.link.tx = none ∧ bench.link.reply = none ∧ bench.link.notices = []
      ∧ ({ bench.link with notices := List.replicate 15 (.plug .mating) } : Link).notices.tail.length < 15 := by decide +kernel

/-- UnfitRequestsAreRefused, the kinds that several rows share: a wrong length and a code of no row. -/
theorem witness_shared_kinds :
    Meets 0x03 [1, 0, 0] usual (fun _ => ([1, 0, 0] : List Byte).head? = some 1 ∧ ([1, 0, 0] : List Byte).length ≠ 4)
    ∧ Meets 0x03 [8, 0, 0, 0] usual (fun _ => ∀ x, ([8, 0, 0, 0] : List Byte).head? = some x → x = 0 ∨ 7 < x.toNat)
    ∧ Meets 0x03 [] usual (fun _ => ∀ x, ([] : List Byte).head? = some x → x = 0 ∨ 7 < x.toNat)
    ∧ Meets 0x04 [2, 0] usual (fun _ => ([2, 0] : List Byte).head? = some 2 ∧ ([2, 0] : List Byte).length ≠ 1)
    ∧ Meets 0x04 [0] usual (fun _ => ∀ x, ([0] : List Byte).head? = some x → x ≠ 1 ∧ x ≠ 2)
    ∧ Meets 0x1B [1, 2, 0] usual (fun _ => ([1, 2, 0] : List Byte)[1]? = some 2 ∧ ([1, 2, 0] : List Byte).length ≠ 2)
    ∧ Meets 0x1B [1] usual (fun _ => ∀ x, ([1] : List Byte)[1]? = some x → 2 < x.toNat) :=
  ⟨meets usual_takes (by decide), meets usual_takes (by intro x h; cases h; decide), meets usual_takes (by intro x h; cases h),
    meets usual_takes (by decide), meets usual_takes (by intro x h; cases h; decide), meets usual_takes (by decide),
    meets usual_takes (by intro x h; cases h)⟩

/-- AnswersAreJudged: a descriptor at the bounds of its fields, and the ACK of another address. -/
theorem witness_answer_forms :
    (Telegram.describe 1 true).answerForm
        (.descriptor { maker := 1, revision := 2, objectCount := 255, attnCapable := true, label := List.replicate 12 0x41, toolId := some 7 })
        ([0x64, 0, 1, 2, 255, 3, 0, 7, 12] ++ List.replicate 12 0x41)
      ∧ (Telegram.describe 1 false).answerForm
        (.descriptor { maker := 1, revision := 2, objectCount := 1, attnCapable := false, label := [], toolId := none }) [0x64, 0, 1, 2, 1, 0, 0]
      ∧ (2 : Byte) ≠ byteOf 1 := by
  refine ⟨⟨?_, ?_, ?_, ?_, ?_⟩, ⟨?_, ?_, ?_, ?_, ?_⟩, ?_⟩ <;> decide +kernel

/-! ### Witnesses of the clauses on outcomes -/

/-- Lane 0 waits for quiet after an attempt with result `r` under the grant `g`. -/
def quiet (n : Lane) (t : Telegram) (k : Nat) (g : Grant) (r : AttemptResult) (es : List Entry) : State :=
  tool { n with engine := some { telegram := t, attempt := k, phase := .quiet r }, arbiter := { Arbiter.cold with grant := some g } } es

theorem quiet_ends (n : Lane) (t : Telegram) (k : Nat) (g : Grant) (r : AttemptResult) (es : List Entry) :
    (quiet n t k g r es).endsWith (.quietWaitEnd 0) 0 { telegram := t, attempt := k, phase := .quiet r } g r :=
  ⟨Or.inl rfl, rfl, rfl, rfl⟩

/-- A lane in a walk of the given pass. -/
def pass (p : PassKind) (current : Option Current) (stack : List Digits) : Lane :=
  { serving with
    state := if p = .initial then .enumerating else .rescanning
    survey := { pass := some p, step := some .walk, stack := stack, current := current, naming := none, position := none } }

/-- WalkFollowsOutcome: the last SILENT prefix of each pass, and a prefix of 40 bits on each attempt. -/
theorem witness_walk_ends :
    (∀ p ∈ [PassKind.initial, .rescan],
      let s := quiet (pass p (some { digits := [3], attempt := 1 }) []) (.survey [3]) 1 (.survey (.survey [3])) .silent [motor]
      (s.lane 0).survey.step = some .walk ∧ (s.lane 0).survey.naming = none ∧ (s.lane 0).survey.stack = []
        ∧ (s.lane 0).survey.pass = some p)
    ∧ ∀ k ∈ [1, 2, 3],
      let d : Digits := List.replicate 20 3
      let s := quiet (pass .initial (some { digits := d, attempt := k }) [[1]]) (.survey d) 1 (.survey (.survey d)) .collided []
      (s.lane 0).survey.current = some { digits := d, attempt := k } ∧ 20 ≤ d.length ∧ (s.lane 0).duplicateSeen = false := by
  decide +kernel

/-- Entries at the addresses 1 to `k` of a lane, with handles from `h`. -/
def crowd (l : LaneId) (h k : Nat) : List Entry :=
  (List.range k).map (fun i => { motor with handle := h + i, lane := l, addr := i + 1, tag := BitVec.ofNat 40 (0x0500000000 + h + i) })

/-- The walk of lane 0 has singled out a tag. -/
def singled (t : Tag) (es : List Entry) : State :=
  quiet (pass .initial (some { digits := [], attempt := 1 }) []) (.survey []) 1 (.survey (.survey [])) (.clean t) es

/-- NamingIsDecided, the clauses on a CLEAN outcome: a rejoin; a reclaim on its own lane, from another one and to a full one; a
duplicate; a new node with the lowest address 2 and handle 3, on a full lane, and in a full directory. -/
theorem witness_clean_outcome :
    (singled motor.tag [motor]).decideNaming 0 motor.tag = .rejoin motor
      ∧ (singled absentee.tag [motor, absentee]).decideNaming 0 absentee.tag = .reclaim absentee ∧ absentee.lane = 0
      ∧ (singled absentee.tag [motor, { absentee with lane := 1 }]).decideNaming 0 absentee.tag = .reclaim { absentee with lane := 1 }
      ∧ ((singled absentee.tag [motor, { absentee with lane := 1 }]).onLane 0).length < 30
      ∧ ((singled absentee.tag (crowd 0 1 30 ++ [{ absentee with handle := 31, lane := 1 }])).onLane 0).length = 30
      ∧ (singled absentee.tag (crowd 0 1 30 ++ [{ absentee with handle := 31, lane := 1 }])).decideNaming 0 absentee.tag
        = .reclaim { absentee with handle := 31, lane := 1 }
      ∧ (singled motor.tag [{ motor with lane := 1 }]).decideNaming 0 motor.tag = .duplicate
      ∧ (singled 0x0400000001 [motor]).decideNaming 0 0x0400000001 = .new
      ∧ (singled 0x0400000001 (crowd 0 1 30)).decideNaming 0 0x0400000001 = .new
      ∧ ((singled 0x0400000001 (crowd 0 1 30)).onLane 0).length = 30
      ∧ (singled 0x0400000001 (crowd 0 1 10 ++ crowd 1 11 27 ++ crowd 2 38 27)).decideNaming 0 0x0400000001 = .new
      ∧ ((singled 0x0400000001 (crowd 0 1 10 ++ crowd 1 11 27 ++ crowd 2 38 27)).onLane 0).length < 30
      ∧ (singled 0x0400000001 (crowd 0 1 10 ++ crowd 1 11 27 ++ crowd 2 38 27)).dir.entries.length = 64 := by decide +kernel

theorem witness_lowest :
    (singled 0x0400000001 [motor, { absentee with lane := 1 }]).lowestAddr 0 2
      ∧ (singled 0x0400000001 [motor, { absentee with lane := 1 }]).lowestHandle 3 := by
  have addr : ∀ b, b < 2 → 1 ≤ b → (singled 0x0400000001 [motor, { absentee with lane := 1 }]).onLaneAt? 0 b ≠ none := by
    decide +kernel
  have handle : ∀ k, k < 3 → 1 ≤ k → (singled 0x0400000001 [motor, { absentee with lane := 1 }]).entry? k ≠ none := by
    decide +kernel
  exact ⟨⟨by decide, by decide, by decide +kernel, fun b h1 h2 => addr b h2 h1⟩,
    ⟨by decide, by decide, by decide +kernel, by decide +kernel, fun k h1 h2 => Or.inl (handle k h2 h1)⟩⟩

/-- NamedNodeIsCreated, the outcomes of ASSIGN: no answer on the third attempt, and an answer of a rejoin and of a reclaim, whose
entry stands or is gone. -/
def assigned (k : NamingKind) (r : AttemptResult) (es : List Entry) : State :=
  quiet (naming k 1 motor.tag .assign) (.assign motor.tag 3) 3 (.survey (.assign motor.tag 3)) r es

theorem witness_assign_outcomes :
    ∀ k ∈ [NamingKind.new, .rejoin, .reclaim], ∀ r ∈ [AttemptResult.noAnswer, .valid .ack],
      ((assigned k r [motor]).lane 0).survey.naming = some { tag := motor.tag, kind := k, handle := 1, addr := 3, stage := .assign }
        ∧ (Telegram.assign motor.tag 3).directed = true ∧ (assigned k r [motor]).entry? 1 = some motor
        ∧ (assigned k r []).entry? 1 = none := by decide +kernel

/-- NamedNodeIsCreated, the outcomes of DESCRIBE: a descriptor of an entry that stands, of an identity entry in a resolved
session, of an entry that is gone, and none. -/
def described (r : AttemptResult) (e : Entry) (p : Target) : State :=
  { quiet (naming .new 1 motor.tag .describe) (.describe 1 false) 3 (.survey (.describe p)) r [e] with
    resolver := (stocked none).resolver }

theorem witness_describe_outcomes :
    (described (.valid (.descriptor node.descriptor)) motor motor.target).target? motor.target = some motor
      ∧ motor.identity = false ∧ identity.identity = true
      ∧ (described (.valid (.descriptor node.descriptor)) identity identity.target).target? identity.target = some identity
      ∧ (described (.valid (.descriptor node.descriptor)) identity identity.target).resolver.phase = .resolved
      ∧ (described (.valid (.descriptor node.descriptor)) motor identity.target).target? identity.target = none
      ∧ (Telegram.describe 1 false).directed = true := by decide +kernel

/-- PollMissIsCounted, an answered PING (with a fault and without one) and a third attempt without an answer; a recall PING of
an entry that is still LOST, and of one that is not. -/
theorem witness_ping_outcomes :
    (∀ r ∈ [AttemptResult.valid (.status true), .valid (.status false), .noAnswer],
      (quiet serving (.ping 1) 3 (.poll motor.target) r [motor]).target? motor.target = some motor ∧ motor.override = .auto
        ∧ motor.presence ≠ .lost)
    ∧ (∀ r ∈ [AttemptResult.valid (.status true), .noAnswer],
      (quiet { pass .rescan none [] with survey := { (pass .rescan none []).survey with step := some .recall, position := some 2 } }
        (.ping 2) 3 (.survey (.recall absentee.target)) r [motor, absentee]).target? absentee.target = some absentee)
    ∧ absentee.presence = .lost ∧ (Telegram.ping 1).directed = true := by decide +kernel

/-- A run of two objects in either mode, a WRITE, and the state that waits on a run. -/
def run2 (block : Bool) : Run := { run with block := block, count := 2 }
def write1 : Run := { run with kind := .write 9 }
def waiting (r : Run) (b : Bool) (t : Telegram) (k : Nat) (x : AttemptResult) (es : List Entry) : State :=
  { quiet { serving with run := some r } t k (.access b) x es with unit := .accessWait 0x20 7 0, accessTimer := some 250 }

theorem waiting_ends (r : Run) (b : Bool) (t : Telegram) (k : Nat) (x : AttemptResult) (es : List Entry) :
    (waiting r b t k x es).endsWith (.quietWaitEnd 0) 0 { telegram := t, attempt := k, phase := .quiet x } (.access b) x
      ∧ (waiting r b t k x es).unit = .accessWait 0x20 7 0 ∧ ((waiting r b t k x es).lane 0).run = some r :=
  ⟨⟨Or.inl rfl, rfl, rfl, rfl⟩, rfl, rfl⟩

/-- AccessOutcomeEndsRun: REFUSED on attempt 1; a run that goes on, SINGLE and BLOCK, with its entry there and gone; the ACK of a
WRITE; an abandoned run. -/
theorem witness_access_outcomes :
    (∀ b, (run2 b).after (.value 5) { run2 b with completed := 1, values := [5] } ∧ (run2 b).abandoned = false
      ∧ (run2 b).kind = .read ∧ ({ run2 b with completed := 1, values := [5] } : Run).completed < (run2 b).count)
    ∧ (∀ b, (waiting (run2 b) b (.read 1 0) 1 (.valid (.value 5)) [motor]).holdsRun { run2 b with completed := 1, values := [5] })
    ∧ ¬ (waiting (run2 true) true (.read 1 0) 1 (.valid (.value 5)) []).holdsRun { run2 true with completed := 1, values := [5] }
    ∧ write1.after .ack { write1 with completed := 1 } ∧ write1.count ≤ 1
    ∧ ({ run with abandoned := true } : Run).abandoned = true := by
  refine ⟨fun b => ⟨⟨?_, ?_⟩, rfl, rfl, Nat.lt_succ_self 1⟩, fun b => ⟨motor, ?_, ?_⟩, ?_, ⟨?_, ?_⟩, ?_, rfl⟩
  · intro v _ h; cases h; rfl
  · intro x h; cases h
  · cases b <;> decide +kernel
  · decide
  · rintro ⟨e, h, _⟩; cases h
  · intro v h; cases h
  · intro x _ _; rfl
  · decide

/-- RollcallIsSentWhenDue, the hits: one without an entry, one of a PENDING entry, one of a masked entry, and one that is taken. -/
theorem witness_hits :
    (tool serving [motor]).onLaneAt? 0 3 = none ∧ (tool serving [motor]).onLaneAt? 0 1 = some motor ∧ motor.attention = .idle
      ∧ motor.presence ≠ .lost ∧ motor.override ≠ .forcedAbsent ∧ motor.masked = false ∧ motor.binding.bind (·.level) ≠ none
      ∧ (motor.descriptor.map (·.attnCapable)).getD false = true
      ∧ (tool serving [{ motor with masked := true }]).onLaneAt? 0 1 = some { motor with masked := true }
      ∧ (tool serving [{ motor with attention := .pending }]).onLaneAt? 0 1 = some { motor with attention := .pending } := by
  decide +kernel

/-- R135, R136: the bits 1 and 3 of a ROLLCALL, a motor that is masked and a stray one. -/
theorem test_hits :
    ((after (.quietWaitEnd 0) (quiet serving .rollcall 1 .attention (.hits 5) [{ motor with masked := true }])).lane 0).attention.clearList
      = [{ addr := 1, owner := some (1, motor.tag) }, { addr := 3, owner := none }] := by decide +kernel

/-- RollcallIsSentWhenDue, a CLEAR: of an item with an owner and without one, answered and on its third attempt. -/
def clearing (i : ClearItem) (r : AttemptResult) : State :=
  quiet { serving with attention := { Attention.cold with clearList := [i] } } (.clear i.addr) 3 .attention r [motor]

theorem witness_clear_outcomes : ∀ r ∈ [AttemptResult.valid .ack, .noAnswer],
    ∀ i ∈ [{ addr := 1, owner := some (1, motor.tag) }, ({ addr := 1, owner := none } : ClearItem)],
      ((clearing i r).lane 0).attention.clearList = [i]
        ∧ (clearing i r).target? { handle := 1, lane := 0, addr := i.addr, tag := motor.tag } = some motor := by decide +kernel

/-! ### Witnesses of the clauses on lanes, the Resolver and the session -/

/-- TripFaultsLane: no access on the lane, before the initial resolution (the last lane to finish) and after it. -/
theorem witness_trip_without_access : (usual.lane 0).power = true ∧ (usual.lane 0).run = none ∧ Resolver.begun.phase = .enumerating
    ∧ (∀ m : LaneId, (Four.mk true true true true).get m = true) ∧ (stocked none).resolver.phase = .resolved
    ∧ ((stocked none).lane 0).power = true ∧ ((stocked none).lane 0).run = none := by decide +kernel

/-- LaneRestartHoldsLane: a resolved session whose status and counts hold, with an attention that is ended. -/
theorem witness_restart_of_resolved :
    Meets 0x12 [byteOf (0 : LaneId).val] { attended with resolver := (stocked none).resolver }
      (fun s => s.resolver.phase = .resolved ∧ (s.lane 0).state ≠ .off ∧ (s.lane 0).state ≠ .disabled ∧ s.losers 0 ≠ []
        ∧ s.lossNotices 0 = [.attentionEnded 1 .laneFault]) :=
  meets (by decide) (by decide +kernel)

/-- PurgeRemovesLostEntry: after the initial resolution, an entry without a binding and one with a binding. -/
theorem witness_purge_in_resolved :
    Meets 0x1A [2] (stocked none) (fun s => s.resolver.phase = .resolved ∧ s.entry? 2 = some absentee ∧ s.held 2 = false)
    ∧ Meets 0x1A [1] { stocked none with dir := { entries := [{ motor with presence := .lost }], generation := 5 } }
      (fun s => s.resolver.phase = .resolved ∧ s.entry? 1 = some { motor with presence := .lost } ∧ s.held 1 = false) :=
  ⟨meets (by decide) (by decide +kernel), meets (by decide) (by decide +kernel)⟩

/-- ResolveRunsResolution, the passes: of two motors without a binding the one that is PRESENT takes it, not the LOST one before
it. -/
def unbound (e : Entry) : Entry := { e with binding := none }

theorem test_passes :
    (after .resolve (asks 0x2D [] { stocked none with dir :=
      { entries := [unbound { motor with handle := 1, presence := .lost }, unbound { motor with handle := 2, addr := 2, tag := 0x0200000002 },
          { identity with handle := 4 }], generation := 5 } })).dir.entries.map (fun e => e.binding.map (·.index)) = [none, some 0, none]
      ∧ (after .resolve (asks 0x2D [] { stocked none with dir :=
        { entries := [unbound motor, { identity with handle := 4 }], generation := 5 } })).dir.generation = 6 := by decide +kernel

/-- NodeNamedReportIsTaken: the binding that a new entry takes, an entry that no binding fits, and a report whose entry is gone. -/
theorem witness_report_outcomes :
    (reported (unbound motor) { handle := 1, tag := motor.tag, phase := .resolved }).incrementalChoice (unbound motor)
        = some (manifest.bindings.headD { role := [], lane := none, cls := 0, serial := none, required := false, level := none, access := .ro }, 0)
      ∧ (reported (unbound { motor with tag := 0x0300000001 }) { handle := 1, tag := 0x0300000001, phase := .resolved }).incrementalChoice
          (unbound { motor with tag := 0x0300000001 }) = none
      ∧ (reported motor { handle := 9, tag := motor.tag, phase := .resolved }).entry? 9 = none
      ∧ (reported motor { handle := 9, tag := motor.tag, phase := .resolved }).resolver.phase = .resolved := by decide +kernel

/-- PlugTimersExpire, PlugEnableRulesSession: a session that opens with no lane enabled. -/
def laneless (m : Mate) : State :=
  let n := { Lane.cold with enabled := false, state := .disabled }
  { bench with mate := m, lanes := { a0 := n, a1 := n, a2 := n, a3 := n } }

theorem witness_no_lane_enabled :
    (∀ l, ((laneless (mating .closed .closed true).mate).lane l).enabled = false)
      ∧ (after .debounceExpiry (laneless (mating .closed .closed true).mate)).resolver.phase = .resolved
      ∧ (∃ l, ((mating .closed .closed true).lane l).enabled = true)
      ∧ (after .debounceExpiry (mating .closed .closed true)).resolver.phase = .enumerating
      ∧ Meets 0x08 [] (laneless { usual.mate with enabled := false, session := false })
        (fun s => s.mate.plug = .attached ∧ s.mate.session = false ∧ ∀ l, (s.lane l).enabled = false) :=
  ⟨by decide +kernel, by decide +kernel, ⟨0, by decide⟩, by decide +kernel, meets (by decide) (by decide +kernel)⟩

/-! ### Witnesses of the clauses on commands out of their turn -/

/-- EveryCommandAnswersNext: the row of a request while the Request Unit is busy, on an empty queue, under a request of another
kind, and under one that selects another row of its kind. -/
theorem witness_cannot_take :
    Instr.cannotTake .status (asks 0x01 [0] { usual with unit := .replying none }) ∧ Instr.cannotTake .status usual
      ∧ Instr.cannotTake .status (asks 0x02 [] usual) ∧ Instr.cannotTake .overrideAuto (asks 0x1B [1, 2] usual) :=
  ⟨⟨0x01, none, by decide, Or.inl rfl⟩, ⟨0x01, none, by decide, Or.inr (Or.inl rfl)⟩,
    ⟨0x01, none, by decide, Or.inr (Or.inr ⟨_, _, rfl, Or.inl (by decide)⟩)⟩,
    ⟨0x1B, some (1, 0), by decide,
      Or.inr (Or.inr ⟨_, _, rfl, Or.inr ⟨1, 0, 2, rfl, rfl, by decide, .overrideForcedAbsent, by decide⟩⟩)⟩⟩

theorem absent {α : Type} {o : Option α} {x : α} {p : Prop} (e : o = none) (h : o = some x) : p := by rw [e] at h; cases h

/-- EveryCommandAnswersNext: every event of a timer, a telegram, a frame, a hold or a report that the part does not wait for. -/
theorem witness_out_of_turn : ∀ c ∈ [Instr.unknownKind, .debounceExpiry, .partialExpiry, .gapTimerExpiry, .accessTimerExpiry,
    .settleTimerExpiry 0, .restartTimerExpiry 0, .rescanTimerExpiry 0, .pollGapTimerExpiry 0, .rollcallGapTimerExpiry 0,
    .attentionDeadlineExpiry 0 1, .telegramSent 0, .answerTimeout 0, .carrierBegins 0, .answerEnd 0 false [], .carrierLimitExpiry 0,
    .rollcallSlotsEnd 0 0, .quietWaitEnd 0, .quietWaitLimitExpiry 0, .overcurrentTrip 0, .transmitFrameEnd false false,
    .resetRelease false false, .nodeNamedReport], Instr.outOfTurn c bench := by
  intro c h
  simp only [List.mem_cons, List.not_mem_nil, or_false] at h
  rcases h with rfl | rfl | rfl | rfl | rfl | rfl | rfl | rfl | rfl | rfl | rfl | rfl | rfl | rfl | rfl | rfl | rfl | rfl | rfl
    | rfl | rfl | rfl | rfl <;>
    first
      | exact Or.inr rfl
      | exact Or.inr (Or.inr (Or.inl rfl))
      | exact Or.inr (fun _ h => absent (rfl : (bench.lane 0).engine = none) h)
      | exact Or.inr (fun _ _ h => absent (rfl : (bench.lane 0).engine = none) h)
      | exact Or.inr (fun _ h => absent (rfl : (bench.lane 0).attention.slots.get 1 = none) h)

/-! ### Witnesses of the invariants on bounds, tables and counts -/

/-- StepKeepsDirectoryOrder: two entries on a lane, one LOST at the miss limit, with an open session. -/
theorem witness_bounds : usual.boundsOk := by
  have h : ∀ l, (usual.lane l).survey.naming = none := by decide +kernel
  refine ⟨by decide, by decide, by decide, ?_, by decide, ?_⟩
  · unfold Entry.missOk; decide +kernel
  · intro l n hn; rw [h] at hn; cases hn

/-- StepKeepsDirectoryOrder: an attention in service at level 1 of lane 0. -/
theorem witness_service : attended.serviceOk := by
  have slot : ∀ l v r, attended.slot l v r → l = 0 ∧ v = 1 ∧ r = { handle := 1, deadline := some 10000 } := by
    have h : ∀ l v, ∀ r ∈ (attended.lane l).attention.slots.get v,
        l = 0 ∧ v = 1 ∧ r = { handle := 1, deadline := some 10000 } := by decide +kernel
    exact fun l v r hr => h l v r hr
  refine ⟨?_, ?_, ?_, by decide +kernel, by decide +kernel, ?_, ?_, by decide +kernel⟩
  · intro l v r h
    obtain ⟨rfl, rfl, rfl⟩ := slot l v r h
    exact ⟨{ motor with attention := .inService }, by decide +kernel, rfl, rfl, rfl⟩
  · intro e he _
    have h : e = { motor with attention := .inService } := List.mem_singleton.1 he
    subst h
    exact ⟨1, { handle := 1, deadline := some 10000 }, rfl, rfl⟩
  · intro l v w r q h1 h2 _
    rw [(slot l v r h1).2.1, (slot l w q h2).2.1]
  · have h : ∀ l, (attended.lane l).state.serving = false → l ≠ 0 ∧ (attended.lane l).attention.heed = none
        ∧ (attended.lane l).arbiter.standing.attention = false ∧ (attended.lane l).arbiter.grant ≠ some .attention := by
      decide +kernel
    exact fun l hl => ⟨fun v r hr => (h l hl).1 (slot l v r hr).1, (h l hl).2⟩
  · have h : ∀ l, (attended.lane l).attention.heed = none := by decide +kernel
    intro l x hx; rw [h] at hx; cases hx

theorem witness_attended : attended.surveyOk ∧ attended.powerLaw ∧ attended.directoryOk ∧ attended.boundsOk := by
  have n : ∀ l, (attended.lane l).survey.naming = none := by decide +kernel
  have h : ∀ l, (attended.lane l).reservation = none := by decide +kernel
  refine ⟨?_, by unfold State.powerLaw; decide +kernel, ⟨by decide, by decide, by decide, ?_, ?_⟩,
    ⟨by decide, by decide, by decide, by unfold Entry.missOk; decide +kernel, by decide, ?_⟩⟩
  · intro l
    refine surveyOk_rest ?_ ?_ ?_ ?_ ?_ ?_ <;> revert l <;> decide +kernel
  · intro l x hx; rw [h] at hx; cases hx
  · intro l m x k _ hx; rw [h] at hx; cases hx
  · intro l x hx; rw [n] at hx; cases hx

/-- An arbiter with every requestor standing and the given counts. -/
def passedOver (a b c d : Nat) : Arbiter :=
  { Arbiter.cold with
    standing := { attention := true, access := some false, survey := some .forget, poll := some motor.target }
    passed := { attention := a, access := b, survey := c, poll := d } }

/-- GrantFollowsPriority: each count at its bound, on a lane of a part whose other lanes are at rest. -/
theorem witness_counts :
    (∀ x ∈ [passedOver 8 0 0 0, passedOver 0 9 0 0, passedOver 0 1 10 0, passedOver 0 1 2 11], x.countsOk)
      ∧ (passedOver 8 0 0 0).grant = none ∧ (passedOver 8 0 0 0).standing.list ≠ []
      ∧ (tool { serving with arbiter := passedOver 0 1 2 11 } [motor]).countsOk := by
  have h : ∀ x ∈ [passedOver 8 0 0 0, passedOver 0 9 0 0, passedOver 0 1 10 0, passedOver 0 1 2 11], x.countsOk := by
    intro x hx
    simp only [List.mem_cons, List.not_mem_nil, or_false] at hx
    rcases hx with rfl | rfl | rfl | rfl <;>
      exact ⟨fun r => by cases r <;> decide, by decide, by decide, by decide, by decide⟩
  have cold : Arbiter.cold.countsOk :=
    ⟨fun r _ => by cases r <;> rfl, by decide, by decide, by decide, by decide⟩
  refine ⟨h, rfl, by decide, fun l => ?_⟩
  match l with
  | 0 => exact h (passedOver 0 1 2 11) (by simp)
  | 1 => exact cold
  | 2 => exact cold
  | 3 => exact cold

/-! ### Witnesses of the clauses on notices and on the poll round -/

/-- FullResetTakesEffect: a reply of RESET(FULL) on TXD with a sense closed and with both open. -/
theorem test_full_reset :
    (after (.transmitFrameEnd false false) (after .resetFull (asks 0x04 [2] usual))).link.notices = [.plug .mating]
      ∧ (after (.transmitFrameEnd false false) (after .resetFull (asks 0x04 [2] bench))).link.notices = []
      ∧ (after .resetFull (asks 0x04 [2] usual)).mate.lead = .closed
      ∧ (after .resetFull (asks 0x04 [2] bench)).mate.lead = .opened
      ∧ (after .resetFull (asks 0x04 [2] bench)).mate.seat = .opened := by decide +kernel

/-- TripFaultsLane: a lane with an attention in service, one to clear and LATNn asserted, whose LOST entries are IDLE. -/
def troubled : State :=
  tool { serving with latn := true, attention := { Attention.cold with
    clearList := [{ addr := 9, owner := none }], slots := { l0 := none, l1 := some { handle := 1, deadline := none }, l2 := none } } }
    [{ motor with attention := .inService }, absentee]

theorem test_trip_ends_attention :
    (troubled.lane 0).power = true
      ∧ (∀ e ∈ troubled.dir.entries, e.lane = 0 → e.presence = .lost → e.attention = .idle)
      ∧ ((after (.overcurrentTrip 0) troubled).lane 0).attention = Attention.cold
      ∧ ((after (.overcurrentTrip 0) troubled).lane 0).latn = false := by decide +kernel

/-- PurgeRemovesLostEntry: before the initial resolution, an entry without a binding and one with a binding. -/
theorem witness_purge_in_enumerating :
    Meets 0x1A [2] { usual with resolver := Resolver.begun } (fun s => s.resolver.phase = .enumerating
      ∧ s.entry? 2 = some absentee ∧ s.held 2 = false)
    ∧ Meets 0x1A [1] { tool serving [{ motor with presence := .lost }] with resolver := Resolver.begun }
      (fun s => s.resolver.phase = .enumerating ∧ s.entry? 1 = some { motor with presence := .lost } ∧ s.held 1 = false) :=
  ⟨meets (by decide) (by decide +kernel), meets (by decide) (by decide +kernel)⟩

/-- OverrideSetsMode: a LOST entry forced PRESENT in a resolved session, an entry in service isolated, and a bad mode without a
session. -/
theorem witness_forced :
    Meets 0x1B [2, 1] (stocked none) (fun s => s.resolver.phase = .resolved ∧ s.entry? 2 = some absentee
      ∧ absentee.override ≠ .forcedPresent ∧ absentee.presence ≠ .present)
    ∧ Meets 0x1B [1, 2] attended (fun s => s.entry? 1 = some { motor with attention := .inService }
      ∧ motor.override ≠ .forcedAbsent)
    ∧ Meets 0x1B [1, 3] bench (fun s => s.mate.session = false ∧ 2 < (3 : Byte).toNat) :=
  ⟨meets (by decide) (by decide +kernel), meets (by decide) (by decide +kernel), meets bench_takes (by decide)⟩

/-- The LOST node once it is back. -/
def returned : Entry := { absentee with presence := .present, miss := 0 }

/-- A lane in a poll round over the addresses 1 and 2. -/
def inRound (n : Lane) : Lane := { n with poller := { phase := .round, roundSet := [1, 2], position := none, ping := none } }

/-- R85, R97 (log entry 26): an entry that is forced and goes back to AUTO is not pinged in the same round, and neither is one
that has become LOST. -/
theorem test_leaves_round :
    let forced := after .overrideForcedAbsent (asks 0x1B [1, 2] (tool (inRound serving) [motor, returned]))
    (forced.lane 0).poller.roundSet = [2]
      ∧ ({ forced with dir := { forced.dir with entries := [motor, returned] } } : State).nextPing 0 = some absentee.target
      ∧ ((after (.quietWaitEnd 0) (quiet (inRound serving) (.ping 1) 3 (.poll motor.target) .noAnswer
          [{ motor with miss := 2, presence := .suspect }, returned])).lane 0).poller.roundSet
        = [2] := by decide +kernel

/-- NamedNodeIsCreated: the reclaim of an entry of another lane. -/
theorem witness_reclaim_from_lane :
    (assigned .reclaim (.valid .ack) [{ motor with lane := 1, presence := .lost, miss := 3 }]).entry? 1
      = some { motor with lane := 1, presence := .lost, miss := 3 } := by decide +kernel

/-! ### Witnesses of the clauses on a HEED -/

/-- The HEED of the motor, with an answer or without one on its third attempt, for an entry as it then stands. -/
def heedEnds (r : AttemptResult) (e : Entry) : State :=
  quiet { serving with attention := { Attention.cold with heed := some { target := motor.target, level := 1 } } }
    (.heed motor.target.addr) 3 .attention r [e]

/-- HeedEntersService: an answer of a SUSPECT entry and of one that is no longer PENDING, and no answer of either. -/
theorem witness_heed_outcomes : ∀ r ∈ [AttemptResult.valid (.cause 9 [1]), .valid (.cause 0 []), .noAnswer, .invalid],
    ((heedEnds r { motor with attention := .pending, presence := .suspect, miss := 1 }).lane 0).attention.heed
        = some { target := motor.target, level := 1 }
      ∧ (heedEnds r { motor with attention := .pending, presence := .suspect, miss := 1 }).target? motor.target
        = some { motor with attention := .pending, presence := .suspect, miss := 1 }
      ∧ (heedEnds r motor).target? motor.target = some motor ∧ motor.attention ≠ .pending := by decide +kernel

/-- R141: the entry is IDLE first, and the miss follows. R103: the answer of a SUSPECT entry makes it PRESENT. -/
theorem test_heed_outcomes :
    (after (.quietWaitEnd 0) (heedEnds .noAnswer { motor with attention := .pending })).dir.entries
        = [{ motor with presence := .suspect, miss := 1 }]
      ∧ (after (.quietWaitEnd 0)
          (heedEnds (.valid (.cause 9 [])) { motor with attention := .pending, presence := .suspect, miss := 1 })).dir.entries
        = [{ motor with attention := .inService }]
      ∧ (after (.quietWaitEnd 0) (heedEnds (.valid (.cause 9 [])) motor)).dir.entries = [motor] := by decide +kernel

/-! ### Witnesses of the clauses on the close of a session -/

/-- SenseEventMovesPlug, PlugEnableRulesSession: a resolved session without an access, and one with an access that waits. -/
theorem witness_close :
    (stocked none).mate.session = true ∧ (∀ m, ((stocked none).lane m).run = none)
      ∧ (stocked none).mate.level .lead ≠ .opened ∧ (stocked none).mate.plug = .attached
      ∧ (stocked none).resolver.applied ≠ Resolver.cold.applied
      ∧ (reading .noAnswer).mate.session = true ∧ (reading .noAnswer).unit = .accessWait 0x20 7 0
      ∧ ((reading .noAnswer).lane 0).run = some run ∧ (reading .noAnswer).mate.plug = .attached
      ∧ Meets 0x09 [] (stocked none) (fun s => s.mate.session = true)
      ∧ Meets 0x09 [] bench (fun s => s.mate.session = false) :=
  ⟨by decide, by decide +kernel, by decide, by decide, by decide, by decide, by decide, by decide, by decide, meets (by decide) rfl,
    meets bench_takes rfl⟩

/-- R173: the notices of a close: PLUG(DETACHED) is on TXD, and TOOL(NONE) stands behind it. -/
theorem test_close_notices :
    (after (.senseEvent .seat .opened) (stocked none)).link.tx = some (.notice (.plug .detached))
      ∧ (after (.senseEvent .seat .opened) (stocked none)).link.notices.map (fun n => (Notice.code n, n.payload.take 1))
        = [(0xC2, [0])] := by decide +kernel

/-! ### Witnesses of the clauses on what a grant sends -/

/-- A tool whose lane 0 is in no naming step has its directory in order. -/
theorem tool_in_order {n : Lane} {es : List Entry} (hn : n.reservation = none)
    (he : es.Pairwise (fun a b => a.handle < b.handle) ∧ es.Pairwise (fun a b => a.tag ≠ b.tag)
      ∧ ∀ e ∈ es, 1 ≤ e.handle ∧ e.handle ≤ Config.maxEntries) : (tool n es).directoryOk := by
  have h : ∀ l, ((tool n es).lane l).reservation = none := by
    intro l
    match l with
    | 0 => exact hn
    | 1 => rfl
    | 2 => rfl
    | 3 => rfl
  exact ⟨he.1, he.2.1, he.2.2, ⟨fun l x hx => (by rw [h] at hx; cases hx), fun l m x k _ hx => (by rw [h] at hx; cases hx)⟩⟩

/-- Two motors PENDING at level 1, on a lane of a rotation whose last served handle is 1. -/
def pendingTwo (r : Rotation) : State :=
  tool { serving with rotation := r, attention := { Attention.cold with lastServed := { l0 := none, l1 := some 1, l2 := none } } }
    [{ motor with attention := .pending }, { motor with handle := 2, addr := 2, tag := 0x0200000002, attention := .pending }]

theorem pendingTwo_in_order (r : Rotation) : (pendingTwo r).directoryOk := tool_in_order rfl (by decide)

/-- RollcallIsSentWhenDue, the choice of a HEED: under FIXED the lowest handle, under ROTATING the one after the last served. -/
theorem witness_choice :
    (pendingTwo .fixed).attentionSends 0 (.heed 1) (some { target := motor.target, level := 1 })
      ∧ (pendingTwo .rotating).attentionSends 0 (.heed 2)
        (some { target := { handle := 2, lane := 0, addr := 2, tag := 0x0200000002 }, level := 1 })
      ∧ (tool { serving with latn := true } []).attentionSends 0 .rollcall none
      ∧ (clearing { addr := 9, owner := none } .noAnswer).attentionSends 0 (.clear 9) none :=
  ⟨(State.chooseAttention_iff (pendingTwo_in_order _) _ _ _).mp (by decide +kernel),
    (State.chooseAttention_iff (pendingTwo_in_order _) _ _ _).mp (by decide +kernel),
    (State.chooseAttention_iff (tool_in_order rfl (by decide)) _ _ _).mp (by decide +kernel),
    (State.chooseAttention_iff (tool_in_order rfl (by decide)) _ _ _).mp (by decide +kernel)⟩

/-- RollcallIsSentWhenDue, a change of LATNn on a lane whose wire is free: with a HEED to send, and with nothing to send. -/
theorem witness_latn :
    ((pendingTwo .fixed).lane 0).state = .supervising ∧ ((pendingTwo .fixed).lane 0).arbiter = Arbiter.cold
      ∧ ((after (.latnChange 0 false) (pendingTwo .fixed)).lane 0).engine
        = some { telegram := .heed 1, attempt := 1, phase := .sending }
      ∧ (usual.chooseAttention 0).isNone = true ∧ after (.latnChange 0 false) usual = usual := by decide +kernel

/-- WalkFollowsOutcome: the FORGET of an initial pass has been sent, and the SURVEY of the empty prefix follows. -/
theorem witness_forget :
    (quiet { pass .initial none [] with survey := { (pass .initial none []).survey with step := none } } .forget 1 (.survey .forget) .sent
        []).endsWith (.quietWaitEnd 0) 0 { telegram := .forget, attempt := 1, phase := .quiet .sent } (.survey .forget) .sent
      ∧ ((after (.quietWaitEnd 0) (quiet (pass .initial none []) .forget 1 (.survey .forget) .sent [])).lane 0).engine
        = some { telegram := .survey [], attempt := 1, phase := .sending } :=
  ⟨quiet_ends _ _ _ _ _ _, by decide +kernel⟩

/-- RescanStartsPass: a LOST entry is recalled; without one, an entry without a descriptor is described; else the walk begins. -/
theorem witness_rescan_steps :
    [[motor, absentee], [{ motor with descriptor := none }], [motor]].map (fun es =>
        ((after (.rescanTimerExpiry 0) (tool { serving with rescanTimer := some 0 } es)).lane 0).engine.map (·.telegram))
      = [some (.ping 2), some (.describe 1 false), some (.survey [])] := by decide +kernel

/-- LaneRestartHoldsLane, TripFaultsLane: in a resolved session whose status is READY the loss of the motor makes it INCOMPLETE, with
one TOOL notice after the notice of the lane. -/
def ready : State := { stocked none with resolver := { (stocked none).resolver with status := .ready } }

theorem test_tools_tell :
    (after (.overcurrentTrip 0) ready).resolver.status = .incomplete
      ∧ (after (.overcurrentTrip 0) ready).link.tx = some (.notice (.lane 0 .faulted (some .overcurrent)))
      ∧ (after (.overcurrentTrip 0) ready).link.notices.map (fun n => (Notice.code n, n.payload.take 1)) = [(0xC2, [4])] := by
  decide +kernel

/-- AccessOutcomeEndsRun: a PING ends between two telegrams of a run, whose entry is answered for or becomes LOST. -/
def between (r : AttemptResult) (e : Entry) : State :=
  { quiet { serving with run := some run } (.ping 1) 3 (.poll motor.target) r [e] with
    unit := .accessWait 0x20 7 0, accessTimer := some 250
    lanes := { bench.lanes with a0 := { serving with
      run := some run, engine := some { telegram := .ping 1, attempt := 3, phase := .quiet r }
      arbiter := { Arbiter.cold with grant := some (.poll motor.target), standing := { Arbiter.cold.standing with access := some false } } } } }

/-- The state in which the arbiter makes its decision after that PING. -/
def between' (r : AttemptResult) (e : Entry) : State := ((between r e).engineFree 0).pollOutcome 0 motor.target r.outcome

theorem between_ends (r : AttemptResult) (e : Entry) :
    (between r e).endsWith (.quietWaitEnd 0) 0 { telegram := .ping 1, attempt := 3, phase := .quiet r } (.poll motor.target) r :=
  ⟨Or.inl rfl, rfl, rfl, rfl⟩

theorem witness_between :
    (∀ f, (between' (.valid (.status f)) motor).accessFirst 0) ∧ (∀ f, (between' (.valid (.status f)) motor).holdsRun run)
      ∧ (between' .noAnswer { motor with miss := 2, presence := .suspect }).accessFirst 0
      ∧ ¬ (between' .noAnswer { motor with miss := 2, presence := .suspect }).holdsRun run := by
  have no : ∀ s : State, s.serviceLevel 0 = none → ∀ v, ¬ s.servesLevel 0 v := fun s h => (serviceLevel_none s 0).mp h
  have due : ∀ s : State, (s.lane 0).latn = false → ¬ (s.lane 0).rollcalls := by
    rintro s h ⟨h1, _⟩
    rw [h] at h1
    cases h1
  refine ⟨fun f => ⟨?_, ?_, no _ ?_, due _ ?_, fun x => ?_⟩, fun f => ?_, ⟨?_, ?_, no _ ?_, due _ ?_, fun x => ?_⟩, fun h => ?_⟩
  all_goals first
    | (cases f <;> cases x <;> decide +kernel)
    | (cases f <;> decide +kernel)
    | (cases x <;> decide +kernel)
    | decide +kernel
    | (rw [← State.runStands_iff] at *; revert f; decide +kernel)
    | (rw [← State.runStands_iff] at *; revert h; decide +kernel)

theorem test_between :
    (after (.quietWaitEnd 0) (between .noAnswer { motor with miss := 2, presence := .suspect })).link.currentReply
        = some { kind := 0xA0, token := 7, status := .nodeLost, payload := run.payload }
      ∧ ((after (.quietWaitEnd 0) (between (.valid (.status false)) motor)).lane 0).engine
        = some { telegram := run.telegram, attempt := 1, phase := .sending } := by decide +kernel

/-! ### Witnesses of the clauses on resets, reports and the close of a lane -/

/-- ColdResetHoldsPart: RESET_N high and low at a power-on. -/
theorem test_power_on : (after (.powerOn false) usual).hold = some .power ∧ (after (.powerOn true) usual).hold = some .pin := by
  decide +kernel

/-- NamedNodeIsCreated, NodeNamedReportIsTaken: a report carries the phase in which it was made, and one that was made before the
initial resolution is absorbed when it is taken after it (R61). -/
theorem test_report_phase :
    (after (.quietWaitEnd 0) (assigned .new (.valid .ack) [])).resolver.reports.map (·.phase)
        = [(assigned .new (.valid .ack) []).resolver.phase]
      ∧ (after .nodeNamedReport (reported (unbound motor) { handle := 1, tag := motor.tag, phase := .enumerating })).dir.entries
        = [unbound motor]
      ∧ (after .nodeNamedReport (reported (unbound motor) { handle := 1, tag := motor.tag, phase := .resolved })).dir.entries
        = [{ motor with binding := some { index := 0, role := [0x41], level := some 1, access := .rw, required := true } }] := by
  decide +kernel

/-- SenseEventMovesPlug: at a close, a DISABLED lane and one that works. -/
def halfDisabled : State :=
  { usual with lanes := { usual.lanes with a1 := { Lane.cold with state := .disabled, enabled := false, duplicateSeen := true } } }

theorem test_close_lanes :
    (after (.senseEvent .seat .opened) halfDisabled).lane 1 = halfDisabled.lane 1
      ∧ (after (.senseEvent .seat .opened) halfDisabled).lane 0 = { Lane.cold with state := .off } := by decide +kernel

/-- AttnMaskSetsMask: the value 2 while no session is open. -/
theorem witness_mask_without_session :
    Meets 0x25 [1, 2] bench (fun s => s.mate.session = false ∧ 1 < (2 : Byte).toNat) := meets bench_takes (by decide)

/-- SenseEventMovesPlug: a change of level while RESET_N holds the part, and a session with a waiting access. -/
def heldPart : State := { bench with hold := some .pin }

theorem witness_sense_in_reset :
    heldPart.hold ≠ none ∧ heldPart.mate.level .lead ≠ .closed
      ∧ (after (.senseEvent .lead .closed) heldPart).mate = heldPart.mate.record .lead .closed
      ∧ (reading .noAnswer).mate.plug = .attached ∧ (reading .noAnswer).mate.session = true
      ∧ (reading .noAnswer).unit = .accessWait 0x20 7 0 ∧ ((reading .noAnswer).lane 0).run = some run := by decide +kernel

/-- AccessTimerEndsAccess: the access request still stands and has been passed over, while the survey holds the grant. -/
def requesting : State :=
  { tool { sending .forget 1 .sending (.survey .forget) with
      run := some run
      arbiter := { grant := some (.survey .forget), standing := { Arbiter.cold.standing with access := some false }
                   passed := { Arbiter.cold.passed with access := 3 } } } [motor] with
    unit := .accessWait 0x20 7 0, accessTimer := some 250 }

theorem witness_standing_request_is_withdrawn :
    (∀ b, (requesting.lane 0).arbiter.grant ≠ some (.access b)) ∧ (requesting.lane 0).arbiter.standing.access ≠ none
      ∧ (requesting.lane 0).arbiter.passed.access = 3
      ∧ ((after .accessTimerExpiry requesting).lane 0).arbiter.standing.access = none
      ∧ ((after .accessTimerExpiry requesting).lane 0).arbiter.passed.access = 0 := by decide +kernel

/-- AccessStartsRun: while the survey holds the grant, the request of a BLOCK run stands. -/
theorem test_access_request_stands :
    ((after .readObjects (asks 0x20 [1, 0, 2, 1] (tool (sending .forget 1 .sending (.survey .forget)) [motor]))).lane
      0).arbiter.standing.access = some true := by decide +kernel

/-- WalkFollowsOutcome, NamedNodeIsCreated, PollGapStartsRound: the request that follows is granted and sent at once. -/
theorem test_next_telegram_is_sent :
    ((after (.quietWaitEnd 0) (tool walking [])).lane 0).engine = some { telegram := .survey [0, 0], attempt := 1, phase := .sending }
      ∧ ((after (.quietWaitEnd 0) assigning).lane 0).engine = some { telegram := .describe 3 false, attempt := 1, phase := .sending }
      ∧ ((after (.pollGapTimerExpiry 0) (tool { serving with pollGapTimer := some 1 } [motor])).lane 0).engine
        = some { telegram := .ping 1, attempt := 1, phase := .sending } := by decide +kernel

/-- SoftResetTakesEffect: the generation counts the directory that the close of the session empties. -/
theorem test_soft_reset_generation :
    (after (.transmitFrameEnd false false) (resetting [])).dir = { entries := [], generation := 6 } := by decide +kernel

/-- LaneRestartHoldsLane, TripFaultsLane: two required roles are lost with their lane. The status changes at the first, and the one
TOOL notice carries the counts after the whole event (R168): both bound, both missing. -/
def twoRoles : State :=
  let m : Manifest := { manifest with bindings := manifest.bindings ++ [{ manifest.bindings[0] with role := [0x42], cls := 3 }] }
  let other : Entry := { motor with
    handle := 2, addr := 2, tag := 0x0300000002, binding := some { index := 1, role := [0x42], level := some 1, access := .rw, required := true } }
  { tool serving [motor, other] with
    store := { slots := bench.store.slots.set 0 (some m), load := none }
    resolver := { Resolver.cold with
      phase := .resolved, applied := some 0, toolId := some 0x0102, status := .ready
      counts := { bound := 2, requiredMissing := 0, optionalMissing := 0, extras := 0 } } }

theorem test_tool_after_event :
    (after (.overcurrentTrip 0) twoRoles).link.notices.map Notice.payload = [[4, 0, 1, 1, 2, 2, 2, 0, 0]]
      ∧ (after .laneRestart (asks 0x12 [0] twoRoles)).link.notices.map Notice.payload = [[4, 0, 1, 1, 2, 2, 2, 0, 0]]
      ∧ (after (.overcurrentTrip 0) twoRoles).resolver.counts
        = { bound := 2, requiredMissing := 2, optionalMissing := 0, extras := 0 } := by decide +kernel

end Sys2Proof.Tests
end

section
/-! PROOFS. The tool plug and the Mate Monitor: the power law (R8, R10, R18) through every step. -/

namespace Sys2Proof.Machine

/-! ### The power law of one lane -/

/-- Lane.powerOk as propositions. -/
structure Lane.PowerLaw (session : Bool) (n : Lane) : Prop where
  power : n.power = true → n.state.powered = true
  working : n.state.working = true → session = true ∧ n.enabled = true
  disabled : n.state = .disabled ↔ n.enabled = false
  settle : n.settleTimer.isSome = true → n.state = .settling
  restart : n.restartTimer.isSome = true → n.state = .settling ∧ n.settleTimer = none
  rescan : n.rescanTimer.isSome = true → n.state = .supervising
  pass : n.survey.pass.isSome = true → n.state = .enumerating ∨ n.state = .rescanning

theorem Lane.powerOk_iff (b : Bool) (n : Lane) : n.powerOk b = true ↔ n.PowerLaw b := by
  have himp : ∀ p q : Bool, (!p || q) = true ↔ (p = true → q = true) := by decide
  have himp2 : ∀ p q r : Bool, (!p || q || r) = true ↔ (p = true → q = true ∨ r = true) := by decide
  unfold Lane.powerOk
  simp only [Bool.and_eq_true, himp, himp2, decide_eq_true_eq, Option.isNone_iff_eq_none]
  constructor
  · rintro ⟨⟨⟨⟨⟨⟨h1, h2⟩, h3⟩, h4⟩, h5⟩, h6⟩, h7⟩
    exact ⟨h1, h2, h3, h4, h5, h6, h7⟩
  · rintro ⟨h1, h2, h3, h4, h5, h6, h7⟩
    exact ⟨⟨⟨⟨⟨⟨h1, h2⟩, h3⟩, h4⟩, h5⟩, h6⟩, h7⟩

theorem State.powerLaw.lane {s : State} (h : s.powerLaw) (l : LaneId) : (s.lane l).PowerLaw s.mate.session :=
  (Lane.powerOk_iff _ _).1 (h.2 l)

theorem LaneState.powered_iff {x : LaneState} :
    x.powered = true ↔ x = .settling ∨ x = .enumerating ∨ x = .supervising ∨ x = .rescanning := by
  cases x <;> decide

theorem LaneState.powered_working {x : LaneState} (h : x.powered = true) : x.working = true := by
  cases x <;> revert h <;> decide

/-- R26: a lane whose work has ended, in a state that its session and its mask place allow. -/
theorem Lane.quench_powerOk {b : Bool} {n : Lane} {st : LaneState} (hw : st.working = true → b = true ∧ n.enabled = true)
    (hd : st = .disabled ↔ n.enabled = false) : (n.quench st).powerOk b = true :=
  (Lane.powerOk_iff _ _).2 ⟨nofun, hw, hd, nofun, nofun, nofun, nofun⟩

/-- R20: a powered lane that trips. -/
theorem Lane.PowerLaw.tripped {b : Bool} {n : Lane} (h : n.PowerLaw b) (hp : n.power = true) : n.tripped.powerOk b = true := by
  obtain ⟨hb, he⟩ := h.working (LaneState.powered_working (h.power hp))
  exact Lane.quench_powerOk (st := .faulted) (fun _ => ⟨hb, he⟩) ⟨nofun, fun x => nomatch he.symm.trans x⟩

/-- R25: a lane that is neither OFF nor DISABLED enters its restart hold. -/
theorem Lane.PowerLaw.restarted {b : Bool} {n : Lane} (h : n.PowerLaw b) (d : Timer) (ho : n.state ≠ .off)
    (hd : n.state ≠ .disabled) : (n.restarted d).powerOk b = true := by
  have hw : n.state.working = true := by cases hs : n.state <;> simp_all [LaneState.working]
  obtain ⟨hb, he⟩ := h.working hw
  exact (Lane.powerOk_iff _ _).2 ⟨nofun, fun _ => ⟨hb, he⟩, ⟨nofun, fun x => nomatch he.symm.trans x⟩, nofun,
    fun _ => ⟨rfl, rfl⟩, nofun, nofun⟩

/-- R22, R25: power comes on in a lane that may settle, none of whose timers of other states runs. -/
theorem Lane.PowerLaw.powerUp {b : Bool} {n : Lane} (d : Timer) (hw : b = true ∧ n.enabled = true)
    (hr : n.rescanTimer.isSome = false) (hp : n.survey.pass.isSome = false) : (n.powerUp d).powerOk b = true :=
  (Lane.powerOk_iff _ _).2 ⟨fun _ => rfl, fun _ => hw, ⟨nofun, fun x => nomatch hw.2.symm.trans x⟩, fun _ => rfl, nofun,
    (fun x => nomatch hr.symm.trans x), (fun x => nomatch hp.symm.trans x)⟩

/-- A lane outside SUPERVISING, ENUMERATING and RESCANNING runs neither the rescan timer nor a pass. -/
theorem Lane.PowerLaw.unsurveyed {b : Bool} {n : Lane} (h : n.PowerLaw b) (hs : n.state = .off ∨ n.state = .settling) :
    n.rescanTimer.isSome = false ∧ n.survey.pass.isSome = false := by
  refine ⟨?_, ?_⟩ <;> rw [← Bool.not_eq_true] <;> intro hx
  · rcases hs with hs | hs <;> rw [h.rescan hx] at hs <;> cases hs
  · rcases hs with hs | hs <;> rcases h.pass hx with hx | hx <;> rw [hx] at hs <;> cases hs

/-- R22: every lane at the opening of a session. -/
theorem Lane.PowerLaw.opened {n : Lane} (h : n.PowerLaw false) (d : Timer) : (n.opened d).powerOk true = true := by
  unfold Lane.opened
  split
  · rename_i ho
    have he : n.enabled = true := by
      rw [← Bool.not_eq_false, ← h.disabled, ho]; decide
    obtain ⟨hr, hp⟩ := h.unsurveyed (.inl ho)
    exact Lane.PowerLaw.powerUp d ⟨rfl, he⟩ hr hp
  · exact (Lane.powerOk_iff _ _).2 { h with working := fun x => nomatch (h.working x).1 }

/-- R26: every lane at the close of a session. -/
theorem Lane.PowerLaw.closed {b : Bool} {n : Lane} (h : n.PowerLaw b) : n.closed.powerOk false = true := by
  unfold Lane.closed
  split
  · rename_i hd
    exact (Lane.powerOk_iff _ _).2 { h with working := fun x => by rw [hd] at x; cases x }
  · rename_i hd
    exact Lane.quench_powerOk (st := .off) nofun ⟨nofun, fun x => absurd (h.disabled.2 x) hd⟩

/-- R23, R27: a lane in which a pass begins, the timer that started it being stopped. -/
theorem Lane.PowerLaw.passBegins {b : Bool} {n m : Lane} (h : n.PowerLaw b)
    (hs : n.settleTimer.isSome = true ∧ m.state = .enumerating ∨ n.state = .supervising ∧ m.state = .rescanning)
    (he : m.enabled = n.enabled) (ht : m.settleTimer.isSome = false) (hr : m.rescanTimer.isSome = false)
    (hk : m.restartTimer = n.restartTimer) : m.powerOk b = true := by
  have hn : n.state = .settling ∨ n.state = .supervising := hs.imp (fun x => h.settle x.1) (·.1)
  obtain ⟨hb, hen⟩ := h.working (by rcases hn with hn | hn <;> rw [hn] <;> rfl)
  have hm : m.state = .enumerating ∨ m.state = .rescanning := hs.imp (·.2) (·.2)
  have hstop : n.restartTimer.isSome = false := by
    rw [← Bool.not_eq_true]
    intro x
    obtain ⟨x1, x2⟩ := h.restart x
    rcases hs with ⟨hs, _⟩ | ⟨hs, _⟩
    · rw [x2] at hs; cases hs
    · rw [x1] at hs; cases hs
  refine (Lane.powerOk_iff _ _).2 ⟨fun _ => ?_, fun _ => ⟨hb, he.trans hen⟩, ?_, (fun x => nomatch ht.symm.trans x), fun x => ?_,
    (fun x => nomatch hr.symm.trans x), fun _ => hm⟩
  · rcases hm with hm | hm <;> rw [hm] <;> rfl
  · rw [he, hen]
    rcases hm with hm | hm <;> simp [hm]
  · rw [hk, hstop] at x; cases x

/-- While no session is open a lane has no power, and no timer of its state and no pass runs. -/
theorem Lane.PowerLaw.idle {n : Lane} (h : n.PowerLaw false) : n.power = false ∧ n.settleTimer.isSome = false
    ∧ n.restartTimer.isSome = false ∧ n.rescanTimer.isSome = false ∧ n.survey.pass.isSome = false := by
  have hw : n.state.working = false := by
    rw [← Bool.not_eq_true]
    exact fun x => nomatch (h.working x).1
  simp only [← Bool.not_eq_true] at hw ⊢
  refine ⟨fun x => hw (LaneState.powered_working (h.power x)), fun x => hw ?_, fun x => hw ?_, fun x => hw ?_, fun x => hw ?_⟩
  · rw [h.settle x]; rfl
  · rw [(h.restart x).1]; rfl
  · rw [h.rescan x]; rfl
  · rcases h.pass x with hx | hx <;> rw [hx] <;> rfl

/-- R17: a lane that takes its mask place while no session is open. -/
theorem Lane.PowerLaw.enableTo {n : Lane} (h : n.PowerLaw false) (on : Bool) : (n.enableTo on).powerOk false = true := by
  unfold Lane.enableTo
  split
  · exact (Lane.powerOk_iff _ _).2 h
  · rename_i hne
    obtain ⟨hp, ht, hk, hr, hv⟩ := h.idle
    have hst : n.state = .off ∨ n.state = .disabled := by
      have hw := h.working
      cases hs : n.state <;> simp_all [LaneState.working]
    have hd := h.disabled
    refine (Lane.powerOk_iff _ _).2 ⟨(fun x => nomatch hp.symm.trans x), ?_, ?_, (fun x => nomatch ht.symm.trans x),
      (fun x => nomatch hk.symm.trans x), (fun x => nomatch hr.symm.trans x), (fun x => nomatch hv.symm.trans x)⟩
    · rcases hst with hst | hst <;> cases on <;> simp [hst, LaneState.working]
    · rcases hst with hst | hst <;> cases on <;> simp_all

/-! ### The lanes through every command -/

theorem powerLaw_beginRescan {s : State} {l : LaneId} (hr : (s.lane l).state = .supervising ∨ (s.lane l).rescanTimer.isSome)
    (h : s.powerLaw) : (s.beginRescan l).powerLaw := by
  have hs : (s.lane l).state = .supervising := hr.elim id (h.lane l).rescan
  have ht : (s.lane l).settleTimer.isSome = false := by
    rw [← Bool.not_eq_true]
    exact fun x => nomatch hs.symm.trans ((h.lane l).settle x)
  exact easy_power.recallNext _ _ (powerLaw_modLane l _ h ((h.lane l).passBegins (.inr ⟨hs, rfl⟩) rfl ht rfl rfl))

theorem Mate.sessionOk_iff (m : Mate) : m.sessionOk = true ↔ (m.session = true ↔ m.plug = .attached ∧ m.enabled = true)
    ∧ (m.plug = .attached → m.debounce = none ∧ m.partialTimer = none) := by
  unfold Mate.sessionOk
  cases m.session <;> cases m.enabled <;> by_cases hp : m.plug = .attached <;> simp [hp]

theorem powerLaw_storeMask {s : State} (v : Nat) (he : s.mate.enabled = false) (h : s.powerLaw) : (storeMask v s).powerLaw := by
  have hn : s.mate.session = false := by
    rw [← Bool.not_eq_true, ((Mate.sessionOk_iff _).1 h.1).1, he]
    exact fun x => nomatch x.2
  refine ⟨h.1, fun l => ?_⟩
  have hl := h.lane
  change ((storeMask v s).lane l).powerOk s.mate.session = true
  rw [hn] at hl ⊢
  fin_cases l
  · exact (hl 0).enableTo _
  · exact (hl 1).enableTo _
  · exact (hl 2).enableTo _
  · exact (hl 3).enableTo _

/-- The commands outside the Mate Monitor and the resets keep the power law. -/
theorem kept_powerLaw : Kept State.powerLaw where
  settled h k := h.calm.powerLaw k
  engine _ l _ h := powerLaw_modLane l _ h (h.2 l)
  quiet s l h := easy_power.quietWait (fun _ l _ h => powerLaw_modLane l _ h (h.2 l))
    (fun _ l h => powerLaw_modLane l _ h (h.2 l)) s l nofun h
  trip s l hp h := (calm_trip s l).powerLaw (powerLaw_modLane l _ h ((h.lane l).tripped hp))
  restart s l ho hd h := (calm_restartLane s l).powerLaw (powerLaw_modLane l _ h ((h.lane l).restarted _ ho hd))
  settle s l ht h := power_req _ l _ (powerLaw_modLane l _ h
    ((h.lane l).passBegins (.inl ⟨ht, rfl⟩) rfl rfl ((h.lane l).unsurveyed (.inr ((h.lane l).settle ht))).1 rfl))
  rescan _ _ hr h := powerLaw_beginRescan hr h
  powerUp s l d ht h := by
    have hs := ((h.lane l).restart ht).1
    have hu := (h.lane l).unsurveyed (.inr hs)
    exact powerLaw_modLane l _ h (Lane.PowerLaw.powerUp _ ((h.lane l).working (by rw [hs]; rfl)) hu.1 hu.2)
  rescanTimer s l d hs h := powerLaw_modLane l _ h ((Lane.powerOk_iff _ _).2 { h.lane l with rescan := fun _ => hs })
  mask _ v he h := powerLaw_storeMask v he h
  missLimit _ _ _ _ _ h := h
  remove _ _ _ _ h := h

/-! ### The lanes under the Mate Monitor and the resets -/

/-- The part of State.powerLaw that speaks of the lanes. -/
def State.lanesOk (s : State) : Prop := ∀ l, (s.lane l).powerOk s.mate.session = true

theorem State.powerLaw_iff (s : State) : s.powerLaw ↔ s.mate.sessionOk = true ∧ s.lanesOk := .rfl

theorem State.cold_lane (s : State) (c : Option RestartCause) (r : Baud) (l : LaneId) : (s.cold c r).lane l = Lane.cold := by
  fin_cases l <;> rfl

theorem keptMate_lanesOk : KeptMate State.lanesOk where
  settled h k l := by rw [h.calm.mate, (h.calm.lane l).powerOk]; exact k l
  cold s c r l := by rw [State.cold_lane]; rfl
  mate s m hm h l := by
    change (s.lane l).powerOk m.session = true
    rw [hm]; exact h l
  close s h l := by
    rw [show s.closeBlocks.lane l = (s.lane l).closed from Four.get_map _ _ _]
    exact ((Lane.powerOk_iff _ _).1 (h l)).closed
  opening s hs h l := by
    rw [show s.opening.lane l = (s.lane l).opened (s.timer Config.settleMs) from Four.get_map _ _ _]
    have hl := (Lane.powerOk_iff _ _).1 (h l)
    rw [hs] at hl
    exact hl.opened _
  fault s h l := by
    unfold State.lane
    rw [Four.get_map]
    exact h l

/-! ### The Mate Monitor's own registers -/

@[simp] theorem Mate.record_plug (m : Mate) (pin : SensePin) (c : Contact) : (m.record pin c).plug = m.plug := by cases pin <;> rfl
@[simp] theorem Mate.record_enabled (m : Mate) (pin : SensePin) (c : Contact) : (m.record pin c).enabled = m.enabled := by
  cases pin <;> rfl
@[simp] theorem Mate.record_debounce (m : Mate) (pin : SensePin) (c : Contact) : (m.record pin c).debounce = m.debounce := by
  cases pin <;> rfl
@[simp] theorem Mate.record_partialTimer (m : Mate) (pin : SensePin) (c : Contact) :
    (m.record pin c).partialTimer = m.partialTimer := by cases pin <;> rfl

theorem State.setPlug_ne {s : State} {p : PlugState} (h : s.mate.plug ≠ p) :
    s.setPlug p = { s with mate := { s.mate with plug := p }, link := s.link.post (.plug p) } := if_neg h

theorem State.setPlug_mate (s : State) (p : PlugState) : (s.setPlug p).mate = { s.mate with plug := p } := by
  unfold State.setPlug
  split
  · rename_i h; rw [← h]
  · rfl

theorem State.openSession_open {s : State} (h : s.mate.session = true) : s.openSession = s := by
  unfold State.openSession
  rw [if_pos h]

theorem State.closeSession_shut {s : State} (h : s.mate.session = false) : s.closeSession = s := by
  unfold State.closeSession
  rw [if_neg (by rw [h]; decide)]

theorem State.openSession_mate (s : State) : s.openSession.mate = { s.mate with session := true } := by
  cases h : s.mate.session with
  | true => rw [State.openSession_open h, ← h]
  | false => exact (settled_open s h).calm.mate

theorem State.closeSession_mate (s : State) : s.closeSession.mate = { s.mate with session := false } := by
  cases h : s.mate.session with
  | true => exact (settled_close s h).calm.mate
  | false => rw [State.closeSession_shut h, ← h]

theorem sessionOk_sense {s : State} (h : s.mate.sessionOk = true) (pin : SensePin) (level : Contact) :
    (s.sense pin level).mate.sessionOk = true := by
  rw [Mate.sessionOk_iff] at *
  unfold State.sense
  cases hp : s.mate.plug with
  | detached => cases level <;> simp_all [State.setPlug_mate, State.plugTimers, Mate.record_session]
  | mating => simp_all [State.plugTimers, Mate.record_session]
  | partialMate => simp_all [State.plugTimers, Mate.record_session]
  | attached => cases level <;> simp_all [State.closeSession_mate, State.setPlug_mate, Mate.record_session]

theorem sessionOk_settlePlug {s : State} (h : s.mate.sessionOk = true) (hd : s.mate.debounce.isSome = true) :
    s.settlePlug.mate.sessionOk = true := by
  rw [Mate.sessionOk_iff] at *
  have hp : s.mate.plug ≠ .attached := fun x => by rw [(h.2 x).1] at hd; cases hd
  have hs : s.mate.session = false := by simp_all
  unfold State.settlePlug
  split
  · simp only [State.setPlug_mate]
    cases he : s.mate.enabled <;> simp_all [State.plugTimers, State.openSession_mate, State.setPlug_mate]
  · simp_all [State.setPlug_mate, State.plugTimers]
  · simp_all [State.plugTimers]
  · simp_all [State.plugTimers]

theorem sessionOk_reevaluate {s : State} (h : s.mate.sessionOk = true) : s.reevaluate.mate.sessionOk = true := by
  have hone : ∀ (t : State) (pin : SensePin), t.mate.sessionOk = true → (t.reevaluateOne pin).mate.sessionOk = true := by
    intro t pin ht
    unfold State.reevaluateOne
    split
    · exact sessionOk_sense ht _ _
    · exact ht
  exact hone _ _ (hone _ _ h)

/-- R14: with the plug DETACHED and no session, nothing can break the law. -/
theorem Mate.sessionOk_detached {m : Mate} (hp : m.plug = .detached) (hs : m.session = false) : m.sessionOk = true := by
  rw [Mate.sessionOk_iff, hp, hs]; simp

theorem sessionOk_restart (s : State) (c : RestartCause) (r : Baud) : (s.restart c r).mate.sessionOk = true :=
  sessionOk_reevaluate (Mate.sessionOk_detached rfl rfl)

theorem State.closeSoft_session (s : State) : s.closeSoft.mate.session = false := by
  unfold State.closeSoft
  split
  · exact congrArg Mate.session (State.closeReply_spec s.closeBlocks _).1.mate
  · rename_i h; simpa using h

theorem sessionOk_transmitFrameEnd {s : State} (h : s.mate.sessionOk = true) (r1 r0 : Bool) :
    ∃ t, exec (.transmitFrameEnd r1 r0) s = .next t ∧ t.mate.sessionOk = true := by
  refine ⟨_, rfl, ?_⟩
  split
  · exact h
  · exact h
  · unfold State.replySent
    split
    · exact sessionOk_restart _ _ _
    · exact sessionOk_reevaluate (Mate.sessionOk_detached rfl (State.closeSoft_session _))
    · exact h
    · exact h
    · exact h

/-- R3: the partial timer runs in no session. -/
theorem sessionOk_partialExpiry {s : State} (h : s.mate.sessionOk = true) (ht : s.mate.partialTimer.isSome = true) :
    ((s.plugTimers s.mate.debounce none).setPlug .partialMate).mate.sessionOk = true := by
  rw [Mate.sessionOk_iff] at *
  have hp : s.mate.plug ≠ .attached := fun x => by rw [(h.2 x).2] at ht; cases ht
  simp_all [State.setPlug_mate, State.plugTimers]

theorem sessionOk_record {m : Mate} (h : m.sessionOk = true) (pin : SensePin) (c : Contact) : (m.record pin c).sessionOk = true := by
  rw [Mate.sessionOk_iff] at *
  simpa [Mate.record_session] using h

theorem servePlugEnable_detached {s : State} (hp : s.mate.plug ≠ .attached) (q : Request) :
    servePlugEnable q s = (s.setEnable true).mateReply q :=
  congrArg (State.mateReply · q) (if_neg hp)

theorem servePlugEnable_attached {s : State} (hp : s.mate.plug = .attached) (q : Request) :
    servePlugEnable q s = (s.setEnable true).openSession.mateReply q :=
  congrArg (State.mateReply · q) (if_pos hp)

/-- R12: the enable is set, and in ATTACHED a session is open. -/
theorem servePlugEnable_mate (q : Request) (s : State) : (servePlugEnable q s).mate
    = if s.mate.plug = .attached then { s.mate with enabled := true, session := true } else { s.mate with enabled := true } := by
  split
  · rename_i hp
    rw [servePlugEnable_attached hp]
    exact (s.setEnable true).openSession_mate
  · rename_i hp
    rw [servePlugEnable_detached hp]
    rfl

theorem sessionOk_plugEnable {s : State} (h : s.mate.sessionOk = true) (q : Request) : (servePlugEnable q s).mate.sessionOk = true := by
  rw [servePlugEnable_mate, Mate.sessionOk_iff]
  rw [Mate.sessionOk_iff] at h
  split <;> simp_all

theorem sessionOk_plugDisable {s : State} (h : s.mate.sessionOk = true) (q : Request) : (servePlugDisable q s).mate.sessionOk = true := by
  have hm : (servePlugDisable q s).mate = { s.mate with enabled := false, session := false } := (s.setEnable false).closeSession_mate
  rw [Mate.sessionOk_iff] at *
  simp_all

/-- R1 to R15, R193 to R196: the commands of the Mate Monitor and the resets keep the power law. -/
theorem powerLaw_mates (s : State) (h : s.powerLaw) (pin : SensePin) (level : Contact) (r1 r0 : Bool) :
    ∀ c ∈ [Instr.senseEvent pin level, .debounceExpiry, .partialExpiry, .plugEnable, .plugDisable, .resetNAssert,
        .powerOn r1, .resetRelease r1 r0, .transmitFrameEnd r1 r0],
      ∃ t, exec c s = .next t ∧ t.powerLaw := by
  intro c hc
  obtain ⟨t, ht, hl⟩ := keptMate_lanesOk.mates s h.2 pin level r1 r0 c hc
  suffices hm : ∃ u, exec c s = .next u ∧ u.mate.sessionOk = true by
    obtain ⟨u, hu, hm⟩ := hm
    rw [ht] at hu; cases hu
    exact ⟨t, ht, (State.powerLaw_iff t).2 ⟨hm, hl⟩⟩
  have hs : ∀ {a b : State}, a.settled b → a.mate.sessionOk = true → b.mate.sessionOk = true := fun k x => by
    rw [k.calm.mate]; exact x
  simp only [List.mem_cons, List.not_mem_nil, or_false] at hc
  rcases hc with rfl | rfl | rfl | rfl | rfl | rfl | rfl | rfl | rfl
  · refine ⟨_, rfl, ?_⟩
    split
    · exact h.1
    · split
      · exact sessionOk_record h.1 _ _
      · exact sessionOk_sense h.1 _ _
  · refine ⟨_, rfl, ?_⟩
    split
    · exact sessionOk_settlePlug h.1 ‹_›
    · exact h.1
  · refine ⟨_, rfl, ?_⟩
    split
    · exact sessionOk_partialExpiry h.1 ‹_›
    · exact h.1
  · exact ⟨_, rfl, State.take_of s _ _ hs h.1 (fun q t ht => sessionOk_plugEnable ht q)⟩
  · exact ⟨_, rfl, State.take_of s _ _ hs h.1 (fun q t ht => sessionOk_plugDisable ht q)⟩
  · exact ⟨_, rfl, rfl⟩
  · exact ⟨_, rfl, rfl⟩
  · refine ⟨_, rfl, ?_⟩
    split
    · exact sessionOk_restart _ _ _
    · exact h.1
  · exact sessionOk_transmitFrameEnd h.1 r1 r0

/-- Settles O6: the lanes and the Mate Monitor each keep their part of the law through every step. -/
theorem stepKeepsPowerLaw : Obligations.StepKeepsPowerLaw := by
  unfold Obligations.StepKeepsPowerLaw
  intro s t hs ht
  have h := kept_powerLaw.step powerLaw_mates s t hs ht
  have hm := (Mate.sessionOk_iff _).1 h.1
  refine ⟨h, hm.1, fun l hp => ?_⟩
  have hst := (h.lane l).power hp
  obtain ⟨hsession, he⟩ := (h.lane l).working (LaneState.powered_working hst)
  obtain ⟨ha, hen⟩ := hm.1.1 hsession
  exact ⟨ha, hen, he, LaneState.powered_iff.1 hst⟩

end Sys2Proof.Machine
end

section
/-! PROOFS. The resets of the part: their cold values (R14, R39, R194) and what a release, a SOFT and a FULL reset do (R193). -/

namespace Sys2Proof.Machine

/-! ### Cold values -/

/-- The reset tables, whatever becomes of the Link Unit and the Mate Monitor. -/
theorem State.cold_blocksCold (s : State) (c : Option RestartCause) (r : Baud) : (s.cold c r).blocksCold :=
  ⟨rfl, rfl, s.cold_lane c r, rfl, rfl, fun _ => Vector.getElem_replicate _, rfl, rfl, rfl, rfl, rfl⟩

theorem Link.cold_isCold (r : Baud) : (Link.cold r).isCold := ⟨rfl, rfl, rfl, rfl, rfl, rfl, rfl⟩

/-- Power-on reset is a cold reset of the part with open senses and low RATE pins, with RESTARTED(POWER) on TXD (log entries 2, 4). -/
theorem State.reset_eq : State.reset = (State.coldValues.cold none .b115200).post (.restarted .power) := rfl

theorem State.reset_lane (l : LaneId) : State.reset.lane l = Lane.cold := State.coldValues.cold_lane none .b115200 l

theorem State.reset_blocksCold : State.reset.blocksCold := State.coldValues.cold_blocksCold none .b115200

theorem Lane.cold_surveyOk : Lane.cold.surveyOk := surveyOk_rest rfl rfl rfl nofun nofun nofun

/-- Without entries and reservations the order of the directory holds. -/
theorem State.reset_directoryOk : State.reset.directoryOk := by
  have hr : ∀ l, (State.reset.lane l).reservation = none := fun l => by rw [State.reset_lane]; rfl
  have he : State.reset.dir.entries = [] := rfl
  simp [State.directoryOk, he, hr]

theorem State.reset_orderly : State.reset.orderly :=
  State.reset_eq ▸ (State.settled_post _ _).ordered (orderly_cold State.coldValues none .b115200)

/-- Settles O4: every block is at its cold values, and those meet each property. -/
theorem resetMeetsInvariants : Obligations.ResetMeetsInvariants := by
  unfold Obligations.ResetMeetsInvariants
  refine ⟨⟨by decide, by decide⟩, ⟨rfl, fun l => ?_⟩, fun l => ?_, State.reset_directoryOk, State.reset_orderly.bounds,
    State.reset_orderly.service, fun l => ?_⟩
  · rw [State.reset_lane]; rfl
  · rw [State.reset_lane]; exact Lane.cold_surveyOk
  · rw [State.reset_lane]; exact Arbiter.countsOk_cold

/-- Settles O9: the values are those of the cold state. -/
theorem resetLeavesColdValues : Obligations.ResetLeavesColdValues := by
  unfold Obligations.ResetLeavesColdValues
  refine ⟨State.reset_blocksCold, Link.cold_isCold .b115200, rfl, rfl, rfl, rfl, rfl, rfl, rfl, fun l => ?_⟩
  rw [State.reset_lane]
  exact ⟨rfl, rfl, rfl, rfl, rfl, rfl, rfl, rfl, rfl, rfl, rfl, rfl, rfl, rfl, rfl⟩

/-- Settles O10: each of the two commands is a cold reset that keeps the senses, the Timebase and the queue. -/
theorem coldResetHoldsPart : Obligations.ColdResetHoldsPart := by
  unfold Obligations.ColdResetHoldsPart
  intro s resetLow
  refine ⟨_, _, rfl, rfl, s.cold_blocksCold _ _, Link.cold_isCold _, rfl, rfl, rfl, rfl, rfl, rfl, rfl, rfl, rfl, rfl,
    s.cold_blocksCold _ _, Link.cold_isCold _, rfl, rfl, rfl, rfl, rfl, ?_, ?_, rfl, rfl, rfl, rfl, rfl, rfl, rfl, rfl⟩
  · rintro rfl; rfl
  · rintro rfl; rfl

/-! ### The reading of the senses (R14, R15) -/

theorem Mate.record_level {m : Mate} {pin : SensePin} {c : Contact} (h : m.level pin = c) : m.record pin c = m := by
  subst h; cases pin <;> rfl

/-- R5: a contact closes in DETACHED: MATING, both timers started, PLUG(MATING). -/
def State.mating (s : State) : State := { s with
  mate := { s.mate with plug := .mating, debounce := some (s.now + 20), partialTimer := some (s.now + 500) }
  link := s.link.post (.plug .mating) }

theorem State.sense_detached_closed {s : State} (hp : s.mate.plug = .detached) (pin : SensePin) :
    s.sense pin .closed = State.mating { s with mate := s.mate.record pin .closed } := by
  unfold State.sense
  simp only [hp]
  exact State.setPlug_ne (by simp [State.plugTimers, hp])

/-- R6: a sense event in MATING or PARTIAL restarts the debounce timer. -/
theorem State.sense_mating {s : State} (hp : s.mate.plug = .mating ∨ s.mate.plug = .partialMate) (pin : SensePin) (c : Contact) :
    s.sense pin c = { s with mate := { s.mate.record pin c with debounce := some (s.now + 20) } } := by
  unfold State.sense
  rcases hp with hp | hp <;> simp only [hp] <;> rfl

theorem State.reevaluateOne_opened {s : State} {pin : SensePin} (h : s.mate.level pin = .opened) : s.reevaluateOne pin = s := by
  unfold State.reevaluateOne
  rw [h]

theorem State.reevaluateOne_detached {s : State} {pin : SensePin} (hp : s.mate.plug = .detached) (h : s.mate.level pin = .closed) :
    s.reevaluateOne pin = s.mating := by
  unfold State.reevaluateOne
  rw [h]
  exact (State.sense_detached_closed hp pin).trans (by rw [Mate.record_level h])

/-- The second contact that is found closed restarts the debounce timer at the moment at which it has just been started. -/
theorem State.mating_reevaluateOne {s : State} {pin : SensePin} (h : s.mate.level pin = .closed) :
    s.mating.reevaluateOne pin = s.mating := by
  have hm : s.mating.mate.level pin = .closed := by rw [← h]; cases pin <;> rfl
  unfold State.reevaluateOne
  rw [hm]
  exact (State.sense_mating (.inl rfl) pin .closed).trans (by rw [Mate.record_level hm]; rfl)

/-- A contact is closed. -/
abbrev Mate.touched (m : Mate) : Prop := m.lead = .closed ∨ m.seat = .closed

theorem Mate.not_touched {m : Mate} (h : m.lead = .opened ∧ m.seat = .opened) : ¬ m.touched := by
  rintro (hc | hc)
  · exact nomatch h.1.symm.trans hc
  · exact nomatch h.2.symm.trans hc

/-- R14: the Mate Monitor once the senses have been read, with the plug DETACHED before. -/
def Mate.readAt (m : Mate) (now : Nat) : Mate :=
  if m.touched then { m with plug := .mating, debounce := some (now + 20), partialTimer := some (now + 500) } else m

/-- R14: PLUG(MATING), posted when a contact is closed. -/
def Link.tellMating (k : Link) (closed : Prop) [Decidable closed] : Link := if closed then k.post (.plug .mating) else k

/-- R14: with the plug DETACHED, a contact found closed takes it to MATING once; with both open nothing happens. -/
theorem State.reevaluate_eq {s : State} (hp : s.mate.plug = .detached) :
    s.reevaluate = { s with mate := s.mate.readAt s.now, link := s.link.tellMating s.mate.touched } := by
  have hcases : s.reevaluate = if s.mate.touched then s.mating else s := by
    unfold State.reevaluate
    cases hl : s.mate.level .lead with
    | opened =>
      rw [State.reevaluateOne_opened hl]
      cases hs : s.mate.level .seat with
      | opened => exact (State.reevaluateOne_opened hs).trans (if_neg (by rintro (h | h) <;> simp_all [Mate.level])).symm
      | closed => exact (State.reevaluateOne_detached hp hs).trans (if_pos (.inr hs)).symm
    | closed =>
      rw [State.reevaluateOne_detached hp hl, if_pos (.inl hl)]
      cases hs : s.mate.level .seat with
      | opened => exact State.reevaluateOne_opened hs
      | closed => exact State.mating_reevaluateOne hs
  rw [hcases]
  unfold Mate.readAt Link.tellMating
  split <;> rfl

theorem Mate.readAt_keeps (m : Mate) (now : Nat) : (m.readAt now).lead = m.lead ∧ (m.readAt now).seat = m.seat
    ∧ (m.readAt now).enabled = m.enabled ∧ (m.readAt now).session = m.session := by
  unfold Mate.readAt
  split <;> exact ⟨rfl, rfl, rfl, rfl⟩

theorem Mate.readAt_sensesRead {m : Mate} (hp : m.plug = .detached) (hs : m.session = false) (hd : m.debounce = none)
    (ht : m.partialTimer = none) (now : Nat) : (m.readAt now).sensesRead now := by
  unfold Mate.readAt
  split
  · rename_i hc
    exact ⟨hs, fun h => absurd hc (Mate.not_touched h), fun _ => ⟨rfl, rfl, rfl⟩⟩
  · rename_i hc
    exact ⟨hs, fun _ => ⟨hp, hd, ht⟩, fun h => absurd h hc⟩

/-! ### The restart after a cold or a FULL reset (R14, R193, R194) -/

/-- What a cold reset at `s`, once it ends, makes of the part. -/
structure State.restartedInto (s : State) (cause : RestartCause) (rate : Baud) (t : State) : Prop where
  hold : t.hold = none
  blocks : t.blocksCold
  link : t.link.isCold
  rate : t.link.rate = rate
  tx : t.link.tx = some (.notice (.restarted cause))
  enabled : t.mate.enabled = false
  lead : t.mate.lead = s.mate.lead
  seat : t.mate.seat = s.mate.seat
  senses : t.mate.sensesRead s.now
  quiet : s.mate.lead = .opened ∧ s.mate.seat = .opened → t.link.notices = []
  mating : s.mate.lead = .closed ∨ s.mate.seat = .closed → t.link.notices = [.plug .mating]

theorem Link.cold_post_restarted (cause : RestartCause) (rate : Baud) :
    (Link.cold rate).post (.restarted cause) = { Link.cold rate with tx := some (.notice (.restarted cause)) } := rfl

theorem Link.cold_post_mating (cause : RestartCause) (rate : Baud) :
    ((Link.cold rate).post (.restarted cause)).post (.plug .mating)
      = { Link.cold rate with tx := some (.notice (.restarted cause)), notices := [.plug .mating] } := rfl

theorem State.restart_eq (s : State) (cause : RestartCause) (rate : Baud) : s.restart cause rate = { s.cold none rate with
    mate := (Mate.cold s.mate.lead s.mate.seat).readAt s.now
    link := ((Link.cold rate).post (.restarted cause)).tellMating s.mate.touched } :=
  State.reevaluate_eq (s := (s.cold none rate).post (.restarted cause)) rfl

theorem State.restart_spec (s : State) (cause : RestartCause) (rate : Baud) : s.restartedInto cause rate (s.restart cause rate) := by
  obtain ⟨hlead, hseat, he, _⟩ := (Mate.cold s.mate.lead s.mate.seat).readAt_keeps s.now
  have hs := Mate.readAt_sensesRead (m := Mate.cold s.mate.lead s.mate.seat) rfl rfl rfl rfl s.now
  have hk : ((Link.cold rate).post (.restarted cause)).tellMating s.mate.touched = { Link.cold rate with
      tx := some (.notice (.restarted cause)), notices := if s.mate.touched then [.plug .mating] else [] } := by
    unfold Link.tellMating
    split
    · exact Link.cold_post_mating cause rate
    · exact Link.cold_post_restarted cause rate
  rw [State.restart_eq, hk]
  exact ⟨rfl, s.cold_blocksCold none rate, Link.cold_isCold rate, rfl, rfl, he, hlead, hseat, hs,
    fun ho => if_neg (Mate.not_touched ho), fun hc => if_pos hc⟩

/-- Settles O11: the release of a hold is a restart with its cause, at the rate of the pins. -/
theorem releaseRestartsPart : Obligations.ReleaseRestartsPart := by
  unfold Obligations.ReleaseRestartsPart
  refine ⟨⟨rfl, rfl, rfl, rfl⟩, fun s cause rate1 rate0 hh => ?_⟩
  have ht : exec (.resetRelease rate1 rate0) s = .next (s.restart cause (rateOf rate1 rate0)) := by
    change execResetRelease rate1 rate0 s = _
    unfold execResetRelease
    rw [hh]
  have h := s.restart_spec cause (rateOf rate1 rate0)
  exact ⟨_, ht, h.hold, h.blocks, h.link, h.rate, h.tx, h.enabled, h.lead, h.seat, h.senses, h.quiet, h.mating⟩

/-- The last CHECK byte of a reply has been sent: TXD is idle. -/
theorem exec_transmitFrameEnd_reply {s : State} {r : Reply} (h : s.link.tx = some (.reply r)) (rate1 rate0 : Bool) :
    exec (.transmitFrameEnd rate1 rate0) s
      = .next (State.replySent { s with link := { s.link with tx := none } } rate1 rate0) := by
  change execTransmitFrameEnd rate1 rate0 s = _
  unfold execTransmitFrameEnd
  rw [h]

/-- Settles O16: the FULL reset is a restart of the part that has just sent its reply. -/
theorem fullResetTakesEffect : Obligations.FullResetTakesEffect := by
  unfold Obligations.FullResetTakesEffect
  intro s r rate1 rate0 htx hu
  have ht : State.replySent { s with link := { s.link with tx := none } } rate1 rate0
      = State.restart { s with link := { s.link with tx := none } } .full (rateOf rate1 rate0) := by
    unfold State.replySent
    rw [hu]
  have h := State.restart_spec { s with link := { s.link with tx := none } } .full (rateOf rate1 rate0)
  rw [← ht] at h
  exact ⟨_, exec_transmitFrameEnd_reply htx rate1 rate0, h.blocks, h.link, h.hold, h.rate, h.tx, h.enabled, h.lead, h.seat,
    h.senses, h.quiet, h.mating⟩

/-! ### The notice queue under a SOFT reset (R189, R190, log entry 5) -/

/-- R189: TXD idle, no reply: the head notice begins. -/
theorem Link.begin_head {k : Link} {n : Notice} {ns : List Notice} (ht : k.tx = none) (hr : k.reply = none)
    (hn : k.notices = n :: ns) : k.begin = { k with notices := ns, tx := some (.notice n) } := by
  unfold Link.begin
  rw [ht, hr, hn]

theorem Link.post_room {k : Link} {n : Notice} (hm : k.mask.passes n = true) (hl : k.notices.length < Config.noticePlaces) :
    k.post n = Link.begin { k with notices := k.notices ++ [n] } := by
  unfold Link.post
  rw [if_pos hm, if_pos hl]

theorem Link.post_full {k : Link} {n : Notice} (hm : k.mask.passes n = true) (hl : Config.noticePlaces ≤ k.notices.length) :
    k.post n = { k with noticesLost := true } := by
  unfold Link.post
  rw [if_pos hm, if_neg (Nat.not_lt.2 hl)]

/-- A full queue that has lost notices already takes no more. -/
theorem Link.post_lost {k : Link} (hl : Config.noticePlaces ≤ k.notices.length) (hk : k.noticesLost = true) (n : Notice) :
    k.post n = k := by
  unfold Link.post
  rw [if_neg (Nat.not_lt.2 hl), ← hk]
  exact ite_self k

theorem Link.tellMating_busy {k : Link} (closed : Prop) [Decidable closed] (hb : k.busy) (hl : k.notices.length < Config.noticePlaces) :
    k.tellMating closed = { k with notices := k.notices ++ if closed ∧ k.mask.plug = true then [.plug .mating] else [] } := by
  unfold Link.tellMating
  by_cases hc : closed
  · by_cases hm : k.mask.plug = true
    · rw [if_pos hc, if_pos ⟨hc, hm⟩, Link.post_room (n := .plug .mating) hm hl]
      exact Link.begin_busy hb
    · rw [if_pos hc, if_neg (fun h => hm h.2), List.append_nil]
      exact if_neg hm
  · rw [if_neg hc, if_neg (fun h => hc h.1), List.append_nil]

theorem Link.tellMating_lost {k : Link} (closed : Prop) [Decidable closed] (hl : Config.noticePlaces ≤ k.notices.length)
    (hk : k.noticesLost = true) : k.tellMating closed = k := by
  unfold Link.tellMating
  rw [Link.post_lost hl hk, ite_self]

/-- R193: what a SOFT reset makes of an idle Link Unit: RESTARTED(SOFT), PLUG(MATING) when a sense is closed, and the choice of the
next frame. -/
def Link.softNews (k : Link) (closed : Prop) [Decidable closed] : Link := ((k.post (.restarted .soft)).tellMating closed).begin

theorem Link.softNews_keeps (k : Link) (closed : Prop) [Decidable closed] :
    (k.softNews closed).requests = k.requests ∧ (k.softNews closed).mask = k.mask ∧ (k.softNews closed).rate = k.rate
      ∧ (k.softNews closed).receiver = k.receiver ∧ (k.softNews closed).gapTimer = k.gapTimer
      ∧ (k.softNews closed).fault = k.fault := by
  have hpost : ∀ (j : Link) (n : Notice), (j.post n).rate = j.rate ∧ (j.post n).gapTimer = j.gapTimer ∧ (j.post n).fault = j.fault :=
    fun j n => ⟨(j.post_keeps n).1, (j.post_keeps n).2.2.1, (j.post_keeps n).2.2.2.2.2⟩
  unfold Link.softNews Link.tellMating
  split <;> simp [hpost]

theorem Link.softNews_busy {k j : Link} (closed : Prop) [Decidable closed] (h : k.post (.restarted .soft) = j) (hb : j.busy)
    (hl : j.notices.length < Config.noticePlaces) :
    k.softNews closed = { j with notices := j.notices ++ if closed ∧ j.mask.plug = true then [.plug .mating] else [] } := by
  unfold Link.softNews
  rw [h, Link.tellMating_busy closed hb hl]
  exact Link.begin_busy hb

/-- An empty queue: RESTARTED(SOFT) is on TXD. -/
theorem Link.softNews_empty {k : Link} (closed : Prop) [Decidable closed] (ht : k.tx = none) (hr : k.reply = none)
    (hn : k.notices = []) : k.softNews closed = { k with
      tx := some (.notice (.restarted .soft))
      notices := if closed ∧ k.mask.plug = true then [.plug .mating] else [] } := by
  have h1 : k.post (.restarted .soft) = { k with notices := [], tx := some (.notice (.restarted .soft)) } := by
    rw [Link.post_room rfl (by rw [hn]; decide)]
    exact Link.begin_head ht hr (by rw [hn]; rfl)
  exact Link.softNews_busy closed h1 rfl (by decide : 0 < Config.noticePlaces)

/-- A queue with a place: its head is on TXD, and RESTARTED(SOFT) at its tail. -/
theorem Link.softNews_room {k : Link} (closed : Prop) [Decidable closed] {n : Notice} {ns : List Notice} (ht : k.tx = none)
    (hr : k.reply = none) (hn : k.notices = n :: ns) (hl : ns.length < 15) : k.softNews closed = { k with
      tx := some (.notice n)
      notices := ns ++ [.restarted .soft] ++ if closed ∧ k.mask.plug = true then [.plug .mating] else [] } := by
  have h1 : k.post (.restarted .soft) = { k with notices := ns ++ [.restarted .soft], tx := some (.notice n) } := by
    rw [Link.post_room rfl (by rw [hn]; exact Nat.succ_lt_succ hl)]
    exact Link.begin_head ht hr (by rw [hn]; rfl)
  refine Link.softNews_busy closed h1 rfl ?_
  rw [List.length_append]
  exact Nat.succ_lt_succ hl

/-- A full queue: both notices are lost, and its head is on TXD. -/
theorem Link.softNews_full {k : Link} (closed : Prop) [Decidable closed] {n : Notice} {ns : List Notice} (ht : k.tx = none)
    (hr : k.reply = none) (hn : k.notices = n :: ns) (hl : 15 ≤ ns.length) :
    k.softNews closed = { k with tx := some (.notice n), notices := ns, noticesLost := true } := by
  have hf : Config.noticePlaces ≤ k.notices.length := by rw [hn]; simpa [Config.noticePlaces] using hl
  unfold Link.softNews
  rw [Link.post_full rfl hf, Link.tellMating_lost (k := { k with noticesLost := true }) closed hf rfl]
  exact Link.begin_head ht hr hn

/-! ### The SOFT reset (R15, R40, R193) -/

/-- With no access waiting, the close that a SOFT reset makes is the close of the blocks. -/
theorem State.closeSoft_free {s : State} (hu : s.unit = .free) :
    s.closeSoft = if s.mate.session = true then s.closeBlocks else s := by
  have hr : s.accessReply? .detached = none := by
    unfold State.accessReply?
    rw [hu]
  unfold State.closeSoft
  rw [hr]
  rfl

/-- R15: such a close leaves all but the session, the lanes, the directory and the Resolver. -/
theorem State.closeSoft_keeps {s : State} (hu : s.unit = .free) : s.closeSoft = { s with
    mate := { s.mate with session := false }
    lanes := s.closeSoft.lanes, dir := s.closeSoft.dir, resolver := s.closeSoft.resolver } := by
  rw [State.closeSoft_free hu]
  split
  · rfl
  · rename_i hm
    rw [← Bool.eq_false_of_not_eq_true hm]

/-- R15, R40, R193: the part after a SOFT reset, given the lanes, the directory and the Resolver that its close has left. -/
theorem State.softReset_eq {s : State} {lanes : Four Lane} {dir : Directory} {resolver : Resolver}
    (h : s.closeSoft = { s with mate := { s.mate with session := false }, lanes := lanes, dir := dir, resolver := resolver }) :
    s.softReset.nextFrame = { s with
      mate := ({ s.mate with plug := .detached, debounce := none, partialTimer := none, session := false } : Mate).readAt s.now
      link := s.link.softNews s.mate.touched
      lanes := lanes.map (fun n => { n with fault := FaultRecord.empty })
      dir := dir
      store := { s.store with load := none }
      resolver := resolver
      snap := none } := by
  have hr : s.softReset = _ := State.reevaluate_eq (s := s.closeSoft.softValues.post (.restarted .soft)) rfl
  rw [h] at hr
  exact congrArg State.nextFrame hr

theorem Lane.closed_fault_closesTo (n : Lane) : n.closesTo { { n.closed with fault := FaultRecord.empty } with fault := n.fault } := by
  have h : n.closed = { { n.closed with fault := FaultRecord.empty } with fault := n.fault } := by rw [← n.closed_spec.2.1]
  rw [← h]
  exact n.closed_closesTo

theorem Directory.emptied_entries (d : Directory) : d.emptied.entries = [] := by
  unfold Directory.emptied
  split
  · rename_i h; simpa using h
  · rfl

/-- R94: the generation counts a close that empties the directory. -/
theorem Directory.emptied_generation (d : Directory) :
    d.emptied.generation = d.generation + (if d.entries = [] then 0 else 1) := by
  unfold Directory.emptied
  by_cases h : d.entries = []
  · simp [h]
  · simp [h, Directory.advance]

/-- What a SOFT reset at `s`, where no access waits, makes of the part. -/
structure State.softFrom (s t : State) : Prop where
  unit : t.unit = s.unit
  snap : t.snap = none
  store : t.store = { s.store with load := none }
  missLimit : t.missLimit = s.missLimit
  attnTimeout : t.attnTimeout = s.attnTimeout
  hold : t.hold = s.hold
  now : t.now = s.now
  pending : t.pending = s.pending
  enabled : t.mate.enabled = s.mate.enabled
  lead : t.mate.lead = s.mate.lead
  seat : t.mate.seat = s.mate.seat
  senses : t.mate.sensesRead s.now
  link : t.link = s.link.softNews s.mate.touched
  lane : ∀ l, t.lane l = { if s.mate.session = true then (s.lane l).closed else s.lane l with fault := FaultRecord.empty }
  dir : t.dir = if s.mate.session = true then s.dir.emptied else s.dir
  resolver : t.resolver = if s.mate.session = true then Resolver.cold else s.resolver

theorem State.softReset_spec {s : State} (hu : s.unit = .free) : s.softFrom s.softReset.nextFrame := by
  have he := State.softReset_eq (State.closeSoft_keeps hu)
  have hc := State.closeSoft_free hu
  obtain ⟨klead, kseat, kenabled, _⟩ :=
    ({ s.mate with plug := .detached, debounce := none, partialTimer := none, session := false } : Mate).readAt_keeps s.now
  have hl : ∀ l, s.softReset.nextFrame.lane l = { s.closeSoft.lane l with fault := FaultRecord.empty } := fun l =>
    (congrArg (State.lane · l) he).trans (Four.get_map _ _ _)
  have hd : s.softReset.nextFrame.dir = s.closeSoft.dir := by rw [he]
  have hr : s.softReset.nextFrame.resolver = s.closeSoft.resolver := by rw [he]
  rw [he] at hl hd hr ⊢
  refine ⟨rfl, rfl, rfl, rfl, rfl, rfl, rfl, rfl, kenabled, klead, kseat, Mate.readAt_sensesRead rfl rfl rfl rfl _, rfl, fun l => ?_,
    hd.trans ?_, hr.trans ?_⟩
  · rw [hl, hc]
    split
    · rw [show s.closeBlocks.lane l = (s.lane l).closed from Four.get_map _ _ _]
    · rfl
  · rw [hc]; split <;> rfl
  · rw [hc]; split <;> rfl

/-- R15, R26: a lane of an open session after the reset, but for its fault record. -/
theorem State.softFrom.closesTo {s t : State} (h : s.softFrom t) (hs : s.mate.session = true) (l : LaneId) :
    (s.lane l).closesTo { t.lane l with fault := (s.lane l).fault } := by
  rw [h.lane, if_pos hs]
  exact Lane.closed_fault_closesTo _

theorem State.softFrom.parameters {s t : State} (h : s.softFrom t) (l : LaneId) : (s.lane l).keepsParameters (t.lane l) := by
  rw [h.lane]
  split
  · exact (s.lane l).closed_spec.1
  · exact ⟨rfl, rfl, rfl, rfl⟩

/-- Settles O15: the reset of a part whose reply has been sent and that therefore waits on no access. -/
theorem softResetTakesEffect : Obligations.SoftResetTakesEffect := by
  unfold Obligations.SoftResetTakesEffect
  intro s r rate1 rate0 htx hu
  have hsent : State.replySent { s with link := { s.link with tx := none } } rate1 rate0
      = State.nextFrame (State.softReset { s with link := { s.link with tx := none }, unit := .free }) := by
    unfold State.replySent
    rw [hu]
  have h := State.softReset_spec (s := { s with link := { s.link with tx := none }, unit := .free }) rfl
  obtain ⟨krequests, kmask, krate, kreceiver, kgap, kfault⟩ := Link.softNews_keeps { s.link with tx := none } s.mate.touched
  rw [← hsent] at h
  refine ⟨_, exec_transmitFrameEnd_reply htx rate1 rate0, ?_⟩
  generalize State.replySent { s with link := { s.link with tx := none } } rate1 rate0 = t at h
  have hl : t.link = Link.softNews { s.link with tx := none } s.mate.touched := h.link
  rw [← hl] at krequests kmask krate kreceiver kgap kfault
  refine ⟨h.unit, h.enabled, h.lead, h.seat, h.senses, h.snap, h.store, h.missLimit, h.attnTimeout, krequests, kmask, krate,
    kreceiver, kgap, kfault, h.hold, h.now, h.pending, fun l => ⟨congrArg Lane.fault (h.lane l), h.parameters l⟩, fun hs => ?_,
    fun hs => ?_, fun hn hr => ?_, fun n ns hn hr => ?_⟩
  · have hs' : ¬ s.mate.session = true := by rw [hs]; decide
    exact ⟨h.dir.trans (if_neg hs'), h.resolver.trans (if_neg hs'), fun l => (h.lane l).trans (by rw [if_neg hs']; rfl)⟩
  · have hd : t.dir = s.dir.emptied := h.dir.trans (if_pos hs)
    refine ⟨hd ▸ s.dir.emptied_entries, h.resolver.trans (if_pos hs), hd ▸ s.dir.emptied_generation,
      fun l => ⟨fun ho => ?_, h.closesTo hs l⟩⟩
    obtain ⟨hstate, hpower, _⟩ := (s.lane l).closed_spec.2.2 ho
    rw [h.lane, if_pos hs]
    exact ⟨hstate, hpower⟩
  · rw [hl.trans (Link.softNews_empty _ rfl hr hn)]
    exact ⟨rfl, rfl, rfl⟩
  · rcases Nat.lt_or_ge ns.length 15 with hlt | hge
    · rw [hl.trans (Link.softNews_room _ rfl hr hn hlt)]
      exact ⟨rfl, fun _ => ⟨rfl, rfl⟩, fun x => absurd x (Nat.not_le.2 hlt)⟩
    · rw [hl.trans (Link.softNews_full _ rfl hr hn hge)]
      exact ⟨rfl, fun x => absurd x (Nat.not_lt.2 hge), fun _ => ⟨rfl, rfl⟩⟩

end Sys2Proof.Machine
end

section
/-! PROOFS. The commands of the Mate Monitor: a sense event (R5 to R8), the two timers (R2, R3, R6, R7), PLUG_ENABLE and
PLUG_DISABLE (R12, R13), with the session that each opens or closes. -/

namespace Sys2Proof.Machine

/-! ### A session that closes (R11, R26, R94, R129, R173) -/

theorem State.accessReply?_noAccess {s : State} (h : ∀ m, s.noAccess m) (st : Status) : s.accessReply? st = none := by
  unfold State.accessReply?
  cases hu : s.unit with
  | free => rfl
  | replying a => rfl
  | accessWait kind token m =>
    have hr : (s.lane m).run = none := (h m).elim id (fun hw => absurd hu (hw kind token))
    simp only [hr]

theorem State.accessReply?_waits {s : State} {kind token : Byte} {m : LaneId} {r : Run} (hu : s.unit = .accessWait kind token m)
    (hr : (s.lane m).run = some r) (st : Status) :
    s.accessReply? st = some (m, { kind := kind + 0x80, token := token, status := st, payload := r.payload }) := by
  unfold State.accessReply?
  simp only [hu, hr]

/-- R94, R173: the directory and the Resolver after a close. -/
theorem State.closedFrom.blocks {s t : State} (h : s.closedFrom t) : t.dir.entries = [] ∧ t.resolver = Resolver.cold
    ∧ t.dir.generation = s.dir.generation + (if s.dir.entries = [] then 0 else 1) := by
  rw [h.dir]
  exact ⟨s.dir.emptied_entries, h.resolver, s.dir.emptied_generation⟩

theorem State.closedFrom.parameters {s t : State} (h : s.closedFrom t) (l : LaneId) :
    (s.lane l).keepsParameters (t.lane l) ∧ (t.lane l).fault = (s.lane l).fault := by
  rw [h.lane]
  exact ⟨(s.lane l).closed_spec.1, (s.lane l).closed_spec.2.1⟩

theorem State.closedFrom.closesTo {s t : State} (h : s.closedFrom t) (l : LaneId) : (s.lane l).closesTo (t.lane l) := by
  rw [h.lane]
  exact (s.lane l).closed_closesTo

theorem State.closedFrom.off {s t : State} (h : s.closedFrom t) (l : LaneId) (hs : (s.lane l).state ≠ .disabled) :
    (t.lane l).state = .off ∧ (t.lane l).power = false ∧ (t.lane l).engine = none := by
  rw [h.lane]
  exact (s.lane l).closed_spec.2.2 hs

/-! ### Sense events (R1, R5 to R8) -/

theorem Mate.record_level_self (m : Mate) (pin : SensePin) (c : Contact) : (m.record pin c).level pin = c := by cases pin <;> rfl

/-- R8, R11: a contact opens in ATTACHED: DETACHED with both timers stopped, and PLUG(DETACHED), before the session closes. -/
def State.unplugged (s : State) (pin : SensePin) : State := { s with
  mate := { s.mate.record pin .opened with plug := .detached, debounce := none, partialTimer := none }
  link := s.link.post (.plug .detached) }

theorem State.sense_attached_opened {s : State} (hp : s.mate.plug = .attached) (pin : SensePin) :
    s.sense pin .opened = (s.unplugged pin).closeSession := by
  unfold State.sense
  simp only [hp]
  exact congrArg State.closeSession (State.setPlug_ne (by simp [State.plugTimers, hp]))

/-- R5: a contact that opens in DETACHED is only recorded. -/
theorem State.sense_detached_opened {s : State} (hp : s.mate.plug = .detached) (pin : SensePin) :
    s.sense pin .opened = { s with mate := s.mate.record pin .opened } := by
  unfold State.sense
  simp only [hp]

theorem exec_senseEvent_sense {s : State} {pin : SensePin} {level : Contact} (hl : s.mate.level pin ≠ level) (hh : s.hold = none) :
    exec (.senseEvent pin level) s = .next (s.sense pin level) := by
  change execSenseEvent pin level s = _
  unfold execSenseEvent
  rw [if_neg hl, if_neg (by rw [hh]; decide)]

theorem State.keepsRest_unplugged (s : State) (pin : SensePin) : s.keepsRest (s.unplugged pin) := s.keepsRest_post _

/-- R129, R173: what the close of the session posts after PLUG(DETACHED) while no access waits, and with it. -/
theorem State.unplugged_told {s : State} (hs : s.mate.session = true) (pin : SensePin) :
    ((∀ m, s.noAccess m) →
      (s.link.post (.plug .detached)).told s.resolver Resolver.cold (s.unplugged pin).closeSession.link)
    ∧ ∀ kind token m r, s.unit = .accessWait kind token m → (s.lane m).run = some r → ∃ k,
        (s.link.post (.plug .detached)).told s.resolver Resolver.cold k
          ∧ (s.unplugged pin).closeSession.link
            = k.send { kind := kind + 0x80, token := token, status := .detached, payload := r.payload }
        ∨ k = (s.link.post (.plug .detached)).send
            { kind := kind + 0x80, token := token, status := .detached, payload := r.payload }
          ∧ k.told s.resolver Resolver.cold (s.unplugged pin).closeSession.link := by
  have hsu : (s.unplugged pin).mate.session = true := (s.mate.record_session pin .opened).trans hs
  obtain ⟨hquiet, hwaits⟩ := (s.unplugged pin).closeSession_told hsu
  exact ⟨fun hn => hquiet (State.accessReply?_noAccess (s := s.unplugged pin) hn _),
    fun kind token m r hu hr => hwaits m _ (State.accessReply?_waits (s := s.unplugged pin) hu hr _)⟩

/-- R8, R11: the Mate Monitor once a contact has opened in ATTACHED. -/
theorem State.unplugged_mate (s : State) (pin : SensePin) : (s.unplugged pin).closeSession.mate = { s.mate.record pin .opened with
    plug := .detached, debounce := none, partialTimer := none, session := false } := State.closeSession_mate _

/-- Settles O58: each plug state by its own lemma on State.sense; from ATTACHED, the close of the session by State.closeSession_spec. -/
theorem senseEventMovesPlug : Obligations.SenseEventMovesPlug := by
  unfold Obligations.SenseEventMovesPlug
  intro s pin level
  refine ⟨fun hl => congrArg _ (if_pos hl), fun hl hh => ?_, fun hl hh => ?_⟩
  · change execSenseEvent pin level s = _
    unfold execSenseEvent
    rw [if_neg hl, if_pos (Option.isSome_iff_ne_none.2 hh)]
  rw [exec_senseEvent_sense hl hh]
  refine ⟨?_, ?_, ?_, ?_⟩
  · rintro hp rfl
    rw [State.sense_detached_closed hp]; rfl
  · rintro hp rfl
    rw [State.sense_detached_opened hp]
  · intro hp
    rw [State.sense_mating hp]
  · rintro hp rfl
    rw [State.sense_attached_opened hp]
    refine ⟨_, rfl, ?_⟩
    have hm := s.unplugged_mate pin
    have hrec : (s.mate.record pin .opened).session = s.mate.session := s.mate.record_session pin .opened
    have hlevel : (s.unplugged pin).closeSession.mate.level pin = .opened := by
      rw [hm]; exact s.mate.record_level_self pin .opened
    have htold := fun hs => s.unplugged_told hs pin
    have henabled : (s.unplugged pin).closeSession.mate.enabled = s.mate.enabled :=
      (congrArg Mate.enabled hm).trans (s.mate.record_enabled pin .opened)
    have hrest := s.keepsRest_unplugged pin
    cases hs : s.mate.session with
    | false =>
      rw [State.closeSession_shut (s := s.unplugged pin) (hrec.trans hs)] at *
      exact ⟨rfl, hrec.trans hs, rfl, rfl, henabled, hlevel, hrest, fun l => ⟨rfl, rfl, rfl, rfl⟩, fun _ => ⟨rfl, rfl, rfl⟩,
        nofun, nofun, nofun⟩
    | true =>
      have hc := (s.unplugged pin).closeSession_spec (hrec.trans hs)
      obtain ⟨hquiet, hwaits⟩ := htold hs
      obtain ⟨hempty, hcold, hgen⟩ := hc.blocks
      refine ⟨congrArg Mate.plug hm, congrArg Mate.session hm, congrArg Mate.debounce hm, congrArg Mate.partialTimer hm, henabled,
        hlevel, hrest.trans hc.rest, fun l => (hc.parameters l).1, nofun, fun _ hn => ⟨hquiet hn, ?_⟩, fun _ => hwaits,
        fun _ => ⟨hempty, hcold, hgen, fun l ho => ?_, hc.closesTo, fun kind token m r hu hr => ?_⟩⟩
      · exact (hc.quiet (State.accessReply?_noAccess (s := s.unplugged pin) hn _)).1
      · obtain ⟨hstate, hpower, hengine⟩ := hc.off l ho
        exact ⟨hstate, hpower, hengine, (hc.parameters l).2⟩
      · obtain ⟨hunit, htimer, hreply, _⟩ := hc.reply _ (State.accessReply?_waits (s := s.unplugged pin) hu hr _)
        exact ⟨hunit, htimer, hreply⟩

/-! ### A session that opens (R10, R22, R161, R162) -/

theorem Lane.sameButService.power {n m : Lane} (h : n.sameButService m) : m.power = n.power := h.standing.2.1

theorem State.openedFrom.parameters {s t : State} (h : s.openedFrom t) (l : LaneId) :
    (s.lane l).keepsParameters (t.lane l) ∧ (t.lane l).fault = (s.lane l).fault := by
  obtain ⟨⟨he, hp, hr, ho⟩, hf, _⟩ := (s.lane l).opened_spec (s.timer Config.settleMs)
  obtain ⟨⟨ke, kp, kr, ko⟩, _, _, kf, _⟩ := (h.lane l).standing
  exact ⟨⟨ke.trans he, kp.trans hp, kr.trans hr, ko.trans ho⟩, kf.trans hf⟩

/-- R22: a lane that is OFF settles with power on. -/
theorem State.openedFrom.settles {s t : State} (h : s.openedFrom t) (l : LaneId) (ho : (s.lane l).state = .off) :
    (t.lane l).state = .settling ∧ (t.lane l).power = true ∧ (t.lane l).settleTimer = some (s.now + 50) := by
  obtain ⟨hstate, hpower, htimer⟩ := ((s.lane l).opened_spec (s.timer Config.settleMs)).2.2.1 ho
  exact ⟨(h.lane l).state.trans hstate, (h.lane l).power.trans hpower, (congrArg Lane.settleTimer (h.lane l)).trans htimer⟩

theorem State.openedFrom.others {s t : State} (h : s.openedFrom t) (l : LaneId) (ho : (s.lane l).state ≠ .off) :
    (t.lane l).state = (s.lane l).state :=
  (h.lane l).state.trans (congrArg Lane.state (((s.lane l).opened_spec (s.timer Config.settleMs)).2.2.2 ho))

/-! ### The debounce and the partial timer (R2, R3, R6, R7) -/

/-- R7: both contacts are closed at the debounce expiry: ATTACHED with both timers stopped, and PLUG(ATTACHED). -/
def State.attached (s : State) : State := { s with
  mate := { s.mate with plug := .attached, debounce := none, partialTimer := none }
  link := s.link.post (.plug .attached) }

theorem exec_debounceExpiry {s : State} {d : Nat} (h : s.mate.debounce = some d) :
    exec .debounceExpiry s = .next s.settlePlug := by
  change execDebounceExpiry s = _
  unfold execDebounceExpiry
  rw [if_pos (by rw [h]; rfl)]

theorem State.settlePlug_closed {s : State} (hp : s.mate.plug ≠ .attached) (hl : s.mate.lead = .closed) (hs : s.mate.seat = .closed) :
    s.settlePlug = if s.mate.enabled = true then s.attached.openSession else s.attached := by
  have ha : (s.plugTimers none none).setPlug .attached = s.attached := State.setPlug_ne hp
  unfold State.settlePlug
  simp only [hl, hs, ha]
  rfl

theorem State.settlePlug_opened {s : State} (hp : s.mate.plug ≠ .detached) (hl : s.mate.lead = .opened) (hs : s.mate.seat = .opened) :
    s.settlePlug = { s with
      mate := { s.mate with plug := .detached, debounce := none, partialTimer := none }, link := s.link.post (.plug .detached) } := by
  refine Eq.trans ?_ (State.setPlug_ne (s := s.plugTimers none none) hp)
  unfold State.settlePlug
  simp only [hl, hs]

theorem State.settlePlug_differ {s : State} (h : s.mate.lead ≠ s.mate.seat) :
    s.settlePlug = { s with mate := { s.mate with debounce := none } } := by
  unfold State.settlePlug
  cases hl : s.mate.lead <;> cases hs : s.mate.seat
  · exact absurd (hl.trans hs.symm) h
  · rfl
  · rfl
  · exact absurd (hl.trans hs.symm) h

/-- Settles O59: one case for each pair of levels; the session that opens is that of State.openSession_spec. -/
theorem plugTimersExpire : Obligations.PlugTimersExpire := by
  unfold Obligations.PlugTimersExpire
  intro s d
  refine ⟨fun hd hp => ?_, fun ht hp => ?_⟩
  · have hna : s.mate.plug ≠ .attached := by rcases hp with hp | hp <;> rw [hp] <;> decide
    have hnd : s.mate.plug ≠ .detached := by rcases hp with hp | hp <;> rw [hp] <;> decide
    rw [exec_debounceExpiry hd]
    refine ⟨fun hl hs => ?_, fun hne => ?_, fun hl hs he => ?_, fun hl hs he hm => ?_⟩
    · rw [State.settlePlug_opened hnd hl hs]
    · rw [State.settlePlug_differ hne]
    · rw [State.settlePlug_closed hna hl hs, if_neg (by rw [he]; decide)]; rfl
    · rw [State.settlePlug_closed hna hl hs, if_pos he]
      have hspec := s.attached.openSession_spec hm
      obtain ⟨hsome, hnone⟩ := s.attached.openSession_begins hm
      have hmate := s.attached.openSession_mate
      refine ⟨_, rfl, congrArg Mate.plug hmate, congrArg Mate.session hmate, congrArg Mate.debounce hmate,
        congrArg Mate.partialTimer hmate, (s.keepsRest_post _).trans hspec.rest, hspec.parameters, hspec.settles, fun l hl => ?_,
        hsome, fun hn => ?_⟩
      · rw [← hl]
        exact hspec.others l (fun ho => nomatch hl.symm.trans ho)
      · obtain ⟨hresolves, htold⟩ := hnone hn
        exact ⟨hresolves, htold⟩
  · change execPartialExpiry s = _
    unfold execPartialExpiry
    rw [if_pos (by rw [ht]; rfl), State.setPlug_ne (by rw [State.plugTimers, hp]; decide)]
    rfl

/-! ### PLUG_ENABLE and PLUG_DISABLE (R9, R12, R13) -/

theorem exec_plugEnable {s : State} {q : Request} {rest : List Request} (h : s.queued q rest) (hp : q.payload = [])
    (hk : q.kind = 0x08) : exec .plugEnable s = .next (servePlugEnable q (s.took rest)) :=
  take_next h (by simp [ofKind, hk]) (by rw [hk, hp]; rfl)

theorem exec_plugDisable {s : State} {q : Request} {rest : List Request} (h : s.queued q rest) (hp : q.payload = [])
    (hk : q.kind = 0x09) :
    exec .plugDisable s = .next (((s.took rest).setEnable false).closeSession.mateReply q) :=
  take_next h (by simp [ofKind, hk]) (by rw [hk, hp]; rfl)

/-- Section 1.5: the reply of the two requests is all that follows the session. -/
theorem State.mateReply_spec (s : State) (q : Request) : (s.mateReply q).unit = .replying none ∧ s.keepsRest (s.mateReply q)
    ∧ (s.mateReply q).link = s.link.send (q.replyWith .ok [s.mate.plug.code, yesNo s.mate.session])
    ∧ (s.mateReply q).link.currentReply = some (q.replyWith .ok [s.mate.plug.code, yesNo s.mate.session]) :=
  ⟨rfl, s.keepsRest_ok q _, rfl, Link.currentReply_send _ _⟩

/-- With no access waiting, a session closes with TOOL(NONE) alone where that is due. -/
theorem State.closeSession_told_free {s : State} (hu : s.unit = .free) (h : s.mate.session = true) :
    s.link.told s.resolver Resolver.cold s.closeSession.link :=
  (s.closeSession_told h).1 (State.accessReply?_noAccess (fun _ => .inr (fun _ _ hw => nomatch hu.symm.trans hw)) _)

/-- Whether or not the session was open already, an opening leaves the rest, the parameters and the fault records. -/
theorem State.openSession_keeps (s : State) : s.keepsRest s.openSession
    ∧ ∀ l, (s.lane l).keepsParameters (s.openSession.lane l) ∧ (s.openSession.lane l).fault = (s.lane l).fault := by
  cases hs : s.mate.session with
  | true =>
    rw [State.openSession_open hs]
    exact ⟨.refl s, fun l => ⟨⟨rfl, rfl, rfl, rfl⟩, rfl⟩⟩
  | false => exact ⟨(s.openSession_spec hs).rest, (s.openSession_spec hs).parameters⟩

theorem State.closeSession_keeps (s : State) : s.keepsRest s.closeSession
    ∧ ∀ l, (s.lane l).keepsParameters (s.closeSession.lane l) ∧ (s.closeSession.lane l).fault = (s.lane l).fault := by
  cases hs : s.mate.session with
  | true => exact ⟨(s.closeSession_spec hs).rest, (s.closeSession_spec hs).parameters⟩
  | false =>
    rw [State.closeSession_shut hs]
    exact ⟨.refl s, fun l => ⟨⟨rfl, rfl, rfl, rfl⟩, rfl⟩⟩

/-- Settles O60: the session by State.openSession_spec and State.closeSession_spec, then the reply. -/
theorem plugEnableRulesSession : Obligations.PlugEnableRulesSession := by
  unfold Obligations.PlugEnableRulesSession
  intro s q rest hq hp
  obtain ⟨hfree, hrun⟩ := State.queued_free hq
  refine ⟨fun hk => ?_, fun hk => ?_⟩
  · rw [exec_plugEnable hq hp hk]
    refine ⟨fun ha => ?_, fun ha hs => ?_, fun ha => ?_⟩
    · rw [servePlugEnable_detached (s := s.took rest) ha]; rfl
    · rw [servePlugEnable_attached (s := s.took rest) ha, State.openSession_open (s := (s.took rest).setEnable true) hs]
      change Host.Outcome.next (State.ok _ q [s.mate.plug.code, yesNo s.mate.session]) = _
      rw [ha, hs]; rfl
    · rw [servePlugEnable_attached (s := s.took rest) ha]
      generalize hv : (s.took rest).setEnable true = v
      have hmate : v.openSession.mate = { s.mate with enabled := true, session := true } := by rw [← hv]; exact State.openSession_mate _
      obtain ⟨hunit, hrest, hlink, hreply⟩ := v.openSession.mateReply_spec q
      obtain ⟨hkeeps, hparameters⟩ := v.openSession_keeps
      rw [hmate, ha, show [PlugState.attached.code, yesNo true] = ([3, 1] : List Byte) from rfl] at hlink hreply
      subst hv
      refine ⟨_, rfl, hunit, hmate, hreply, hkeeps.trans hrest, hparameters, fun hs l ho => ?_, fun hs he => ?_, fun hs hn => ?_⟩
      · obtain ⟨hstate, hpower, _⟩ := (State.openSession_spec ((s.took rest).setEnable true) hs).settles l ho
        exact ⟨hstate, hpower⟩
      · obtain ⟨hdir, hresolver, htold⟩ := (State.openSession_begins ((s.took rest).setEnable true) hs).1 he
        exact ⟨hdir, hresolver, _, htold, hlink⟩
      · obtain ⟨hresolves, htold⟩ := (State.openSession_begins ((s.took rest).setEnable true) hs).2 hn
        obtain ⟨k, hk, hj⟩ := htold hrun
        exact ⟨hresolves, k, _, hk, hj, hlink⟩
  · rw [exec_plugDisable hq hp hk]
    generalize hv : (s.took rest).setEnable false = v
    have hmate : v.closeSession.mate = { s.mate with enabled := false, session := false } := by rw [← hv]; exact State.closeSession_mate _
    obtain ⟨hunit, hrest, hlink, hreply⟩ := v.closeSession.mateReply_spec q
    obtain ⟨hkeeps, hparameters⟩ := v.closeSession_keeps
    rw [hmate, show yesNo false = 0 from rfl] at hlink hreply
    subst hv
    refine ⟨_, rfl, hunit, hmate, hreply, hkeeps.trans hrest, hparameters, fun hs => ?_, fun hs => ?_⟩
    · rw [State.closeSession_shut (s := (s.took rest).setEnable false) hs]
      change Host.Outcome.next (State.ok _ q [s.mate.plug.code, yesNo s.mate.session]) = _
      rw [hs]; rfl
    · have hc := ((s.took rest).setEnable false).closeSession_spec hs
      obtain ⟨hempty, hcold, hgen⟩ := hc.blocks
      refine ⟨hempty, hcold, hgen, fun l ho => ?_, hc.closesTo, _,
        State.closeSession_told_free (s := (s.took rest).setEnable false) hfree hs, hlink⟩
      obtain ⟨hstate, hpower, _⟩ := hc.off l ho
      exact ⟨hstate, hpower⟩

end Sys2Proof.Machine
end

section
/-! PROOFS. The requests of the tool lanes: the lane-enable mask and the miss limit (R17, R106, R192) and the lane fault record
(R37, R38). -/

namespace Sys2Proof.Machine

/-! ### CONFIGURE while the plug is disabled (R17, R106, R192) -/

/-- R192: a CONFIGURE of four bytes reaches the row of its parameter code. -/
theorem take_configure {s : State} {q : Request} {rest : List Request} {c sel hi lo : Byte} (hq : s.queued q rest)
    (hk : q.kind = 0x03) (hp : q.payload = [c, sel, hi, lo]) (serve : Request → State → State) :
    (Host.Outcome.next (s.take (configureRow c) (configureWith c serve)) : Host.Outcome State Fault Refusal)
      = .next (serve q (s.took rest)) := by
  have hc : at' q.payload 0 = c := by rw [hp]; rfl
  rw [take_next hq (by simp [configureRow, selects, hk, hp, at']) (by rw [hk, hp]; rfl)]
  unfold configureWith
  rw [if_pos hc]

theorem Request.value_of_payload {q : Request} {c sel hi lo : Byte} (hp : q.payload = [c, sel, hi, lo]) :
    q.value = (word16 hi lo).toNat := by
  unfold Request.value
  rw [hp]
  rfl

theorem State.configured_of_payload {q : Request} {c sel hi lo : Byte} (hp : q.payload = [c, sel, hi, lo]) (s : State) :
    s.configured q = s.ok q q.payload := by
  unfold State.configured
  rw [hp]
  rfl

theorem inRange_iff {lo hi v : Nat} : inRange lo hi v = true ↔ lo ≤ v ∧ v ≤ hi := by
  simp [inRange]

/-- R17, R106, R192: a parameter that is stored while the plug is disabled only, after the tests of its selector and its value. -/
theorem whileDisabled_cases {q : Request} {c sel hi lo : Byte} (hp : q.payload = [c, sel, hi, lo]) (s : State) (a b : Nat)
    (store : Nat → State → State) :
    (sel = 0 → a ≤ (word16 hi lo).toNat → (word16 hi lo).toNat ≤ b →
      (s.mate.enabled = false →
        whileDisabled (inRange a b) store q s = (store (word16 hi lo).toNat s).ok q q.payload)
      ∧ (s.mate.enabled = true → whileDisabled (inRange a b) store q s = s.refuse q .notNow))
    ∧ (sel ≠ 0 ∨ (word16 hi lo).toNat < a ∨ b < (word16 hi lo).toNat →
      whileDisabled (inRange a b) store q s = s.refuse q .badArgument) := by
  have hsel : at' q.payload 1 = sel := by rw [hp]; rfl
  unfold whileDisabled
  rw [hsel, Request.value_of_payload hp]
  refine ⟨fun h0 ha hb => ⟨fun he => ?_, fun he => ?_⟩, fun hbad => ?_⟩
  · rw [if_pos ⟨h0, inRange_iff.2 ⟨ha, hb⟩⟩, if_neg (by rw [he]; decide), State.configured_of_payload hp]
  · rw [if_pos ⟨h0, inRange_iff.2 ⟨ha, hb⟩⟩, if_pos he]
  · rw [if_neg]
    rintro ⟨h0, hv⟩
    obtain ⟨ha, hb⟩ := inRange_iff.1 hv
    rcases hbad with hne | hlow | hhigh
    · exact hne h0
    · exact Nat.not_lt.2 ha hlow
    · exact Nat.not_lt.2 hb hhigh

theorem storeMask_lane (v : Nat) (s : State) (l : LaneId) : (storeMask v s).lane l = (s.lane l).enableTo (v.testBit l.val) := by
  fin_cases l <;> rfl

theorem Lane.enableTo_same {n : Lane} {on : Bool} (h : n.enabled = on) : n.enableTo on = n := if_pos h

/-- R17: a lane that takes another mask place moves between OFF and DISABLED. -/
theorem Lane.enableTo_other {n : Lane} {on : Bool} (h : n.enabled ≠ on) :
    (n.enableTo on).enabled = on
      ∧ (n.enabled = true → n.state = .off → (n.enableTo on).state = .disabled)
      ∧ (n.enabled = false → n.state = .disabled → (n.enableTo on).state = .off)
      ∧ n.enableTo on = { n with enabled := (n.enableTo on).enabled, state := (n.enableTo on).state } := by
  unfold Lane.enableTo
  rw [if_neg h]
  refine ⟨rfl, fun he hs => ?_, fun he hs => ?_, rfl⟩
  · have hon : on = false := by rw [he] at h; exact Bool.eq_false_iff.2 (Ne.symm h)
    rw [hon, hs]
  · have hon : on = true := by rw [he] at h; exact Bool.eq_true_of_not_eq_false (Ne.symm h)
    rw [hon, hs]

/-- Settles O21: both parameters by whileDisabled_cases; each lane under a new mask by Lane.enableTo. -/
theorem configureNeedsDisabledPlug : Obligations.ConfigureNeedsDisabledPlug := by
  unfold Obligations.ConfigureNeedsDisabledPlug
  intro s q rest sel hi lo hq hk
  refine ⟨fun hp => ?_, fun hp => ?_⟩
  · have hx : exec .configureLaneEnableMask s = .next (whileDisabled (inRange 0 15) storeMask q (s.took rest)) :=
      take_configure hq hk hp _
    obtain ⟨hgood, hbad⟩ := whileDisabled_cases hp (s.took rest) 0 15 storeMask
    refine ⟨fun h0 h15 he => ?_, fun h0 h15 he => ?_, fun h => hx.trans (congrArg _ (hbad (h.imp_right .inr)))⟩
    · refine ⟨_, hx.trans (congrArg _ ((hgood h0 (Nat.zero_le _) h15).1 he)), rfl, fun l => ?_⟩
      rw [storeMask_lane, State.lane_took]
      exact ⟨Lane.enableTo_same, Lane.enableTo_other⟩
    · exact hx.trans (congrArg _ ((hgood h0 (Nat.zero_le _) h15).2 he))
  · have hx : exec .configureMissLimit s = .next (whileDisabled (inRange 1 15) storeMissLimit q (s.took rest)) :=
      take_configure hq hk hp _
    obtain ⟨hgood, hbad⟩ := whileDisabled_cases hp (s.took rest) 1 15 storeMissLimit
    exact ⟨fun h0 h1 h15 he => hx.trans (congrArg _ ((hgood h0 h1 h15).1 he)),
      fun h0 h1 h15 he => hx.trans (congrArg _ ((hgood h0 h1 h15).2 he)),
      fun h => hx.trans (congrArg _ (hbad (h.imp_right (.imp_left Nat.lt_one_iff.2))))⟩

/-! ### FAULTS (R37, R38) -/

theorem exec_faults {s : State} {q : Request} {rest : List Request} {n c : Byte} (hq : s.queued q rest) (hk : q.kind = 0x10)
    (hp : q.payload = [n, c]) : exec .faults s = .next (serveFaults q (s.took rest)) :=
  take_next hq (by simp [ofKind, hk]) (by rw [hk, hp]; rfl)

/-- R38: a clear flag of 0 or 1 is taken: the reply carries the record as it stood, and the flag 1 empties it. -/
theorem serveFaults_replies {q : Request} {l : LaneId} {c : Byte} (hp : q.payload = [byteOf l.val, c]) (hc : c = 0 ∨ c = 1)
    (s : State) :
    serveFaults q s = (if c = 1 then s.modLane l (fun n => { n with fault := FaultRecord.empty }) else s).ok q
      ((s.lane l).fault.payload l) := by
  have hlane : laneOf (at' q.payload 0) = some l := by rw [hp]; exact laneOf_byteOf l
  have hflag : at' q.payload 1 = c := by rw [hp]; rfl
  have hle : ¬ 1 < c.toNat := by rcases hc with rfl | rfl <;> decide
  unfold serveFaults
  simp only [hlane, hflag]
  rw [if_neg hle]

theorem serveFaults_refuses {q : Request} {n c : Byte} (hp : q.payload = [n, c]) (hbad : 3 < n.toNat ∨ 1 < c.toNat) (s : State) :
    serveFaults q s = s.refuse q .badArgument := by
  have hlane : laneOf (at' q.payload 0) = laneOf n := by rw [hp]; rfl
  have hflag : at' q.payload 1 = c := by rw [hp]; rfl
  unfold serveFaults
  rw [hlane, hflag]
  cases hn : laneOf n with
  | none => rfl
  | some l =>
    have hc : 1 < c.toNat := hbad.resolve_left (fun h => nomatch (laneOf_large n h).symm.trans hn)
    exact if_pos hc

/-- Settles O25: the two cases of serveFaults. -/
theorem faultsReadsAndClears : Obligations.FaultsReadsAndClears := by
  unfold Obligations.FaultsReadsAndClears
  intro s q rest l n c hq hk
  refine ⟨fun hp hc => ?_, fun hp hbad => ?_⟩
  · rw [exec_faults hq hk hp, serveFaults_replies hp hc, State.lane_took]
    rfl
  · rw [exec_faults hq hk hp, serveFaults_refuses hp hbad]

end Sys2Proof.Machine
end

section
/-! PROOFS. The Telegram Engine: the phases of an attempt, the judgement of an answer and the attempts of a directed telegram
(R32 to R35, R198). -/

namespace Sys2Proof.Machine

/-! ### The phases of an attempt (R32, R34, R35) -/

theorem Telegram.phaseAfterSend_eq (t : Telegram) :
    t.phaseAfterSend = if t = .forget then .quiet .sent else if t = .rollcall then .slots else .window := by
  cases t <;> simp [Telegram.phaseAfterSend]

theorem Telegram.noCarrier_directed {t : Telegram} (h : t.directed = true) : t.noCarrier = .noAnswer := by
  cases t with
  | survey p => cases h
  | _ => rfl

theorem Telegram.overrun_directed {t : Telegram} (h : t.directed = true) : t.overrun = .invalid := by
  cases t with
  | survey p => cases h
  | _ => rfl

section
variable {s : State} {l : LaneId} {u : Underway} (hu : (s.lane l).engine = some u)
include hu

theorem exec_telegramSent (hp : u.phase = .sending) :
    exec (.telegramSent l) s = .next (s.setPhase l u u.telegram.phaseAfterSend) := by
  change execTelegramSent l s = _
  simp only [execTelegramSent, hu, hp, if_true]

theorem exec_answerTimeout (hp : u.phase = .window) :
    exec (.answerTimeout l) s = .next (s.setPhase l u (.quiet u.telegram.noCarrier)) := by
  change execAnswerTimeout l s = _
  simp only [execAnswerTimeout, hu, hp, if_true]

theorem exec_carrierBegins (hp : u.phase = .window) : exec (.carrierBegins l) s = .next (s.setPhase l u .receiving) := by
  change execCarrierBegins l s = _
  simp only [execCarrierBegins, hu, hp, if_true]

theorem exec_answerEnd (hp : u.phase = .receiving) (contention : Bool) (bytes : List Byte) :
    exec (.answerEnd l contention bytes) s = .next (s.setPhase l u (.quiet (judgeAnswer u.telegram contention bytes))) := by
  change execAnswerEnd l contention bytes s = _
  simp only [execAnswerEnd, hu, hp, if_true]

theorem exec_carrierLimitExpiry (hp : u.phase = .receiving) :
    exec (.carrierLimitExpiry l) s = .next (s.setPhase l u (.quiet u.telegram.overrun)) := by
  change execCarrierLimitExpiry l s = _
  simp only [execCarrierLimitExpiry, hu, hp, if_true]

theorem exec_rollcallSlotsEnd (hp : u.phase = .slots) (hits : BitVec 30) :
    exec (.rollcallSlotsEnd l hits) s = .next (s.setPhase l u (.quiet (.hits hits))) := by
  change execRollcallSlotsEnd l hits s = _
  simp only [execRollcallSlotsEnd, hu, hp, if_true]

end

/-- Settles O30: each event in the phase that waits for it. -/
theorem enginePhasesFollow : Obligations.EnginePhasesFollow := by
  unfold Obligations.EnginePhasesFollow
  intro s l u contention bytes hits hu
  refine ⟨fun hp => ?_, fun hp => ⟨fun hd => ?_, fun p ht => ?_, exec_carrierBegins hu hp⟩,
    fun hp => ⟨exec_answerEnd hu hp contention bytes, fun hd => ?_, fun p ht => ?_⟩, fun hp => exec_rollcallSlotsEnd hu hp hits⟩
  · rw [exec_telegramSent hu hp, Telegram.phaseAfterSend_eq]; rfl
  · rw [exec_answerTimeout hu hp, Telegram.noCarrier_directed hd]; rfl
  · have hn : u.telegram.noCarrier = .silent := by rw [ht]; rfl
    rw [exec_answerTimeout hu hp, hn]; rfl
  · rw [exec_carrierLimitExpiry hu hp, Telegram.overrun_directed hd]; rfl
  · have hn : u.telegram.overrun = .collided := by rw [ht]; rfl
    rw [exec_carrierLimitExpiry hu hp, hn]; rfl

/-! ### The judgement of an answer (R32, R34, R198) -/

/-- R32: an answer of the form that the telegram asks for, with its CRC-8, is valid. -/
theorem judgeAnswer_of_form {t : Telegram} (h : t.directed = true) {x : Answer} {body : List Byte} (hf : t.answerForm x body) :
    judgeAnswer t false (body ++ [crc8 body]) = .valid x :=
  (judgeAnswer_valid t h false _ x).2 ⟨rfl, body, hf, rfl⟩

theorem judgeAnswer_contention {t : Telegram} (h : t.directed = true) (bytes : List Byte) :
    judgeAnswer t true bytes = .invalid := judgeAnswer_directed t h true bytes

theorem judgeAnswer_unchecked {t : Telegram} (h : t.directed = true) {bytes : List Byte} (hc : answerCheck bytes = false)
    (contention : Bool) : judgeAnswer t contention bytes = .invalid := by
  rw [judgeAnswer_directed t h, hc, Bool.and_false]
  rfl

/-- R34: what is not a clean TAG answer whose tag begins with the digits surveyed is COLLIDED. -/
theorem judgeAnswer_survey_collided {p : Digits} {contention : Bool} {bytes : List Byte}
    (h : ∀ tag, ¬ (contention = false ∧ tagBegins p tag = true ∧ bytes = 0x63 :: (be40 tag ++ [crc8 (0x63 :: be40 tag)]))) :
    judgeAnswer (.survey p) contention bytes = .collided := by
  rcases judgeAnswer_survey p contention bytes with ⟨tag, hc⟩ | hc
  · exact absurd ((judgeAnswer_clean p contention bytes tag).1 hc) (h tag)
  · exact hc

theorem be40_injective {t u : Tag} (h : be40 t = be40 u) : t = u := by
  have hread : ∀ x : Tag, mkTag (at' (be40 x) 0)
      (word32 (at' (be40 x) 1) (at' (be40 x) 2) (at' (be40 x) 3) (at' (be40 x) 4)) = x := mkTag_be40
  rw [← hread t, ← hread u, h]

/-- R34: the TAG answer of one node. -/
theorem judgeAnswer_tag (p : Digits) (tag : Tag) :
    judgeAnswer (.survey p) false (0x63 :: (be40 tag ++ [crc8 (0x63 :: be40 tag)]))
      = if tagBegins p tag then .clean tag else .collided := by
  split
  · rename_i hb
    exact (judgeAnswer_clean p false _ tag).2 ⟨rfl, hb, rfl⟩
  · rename_i hb
    refine judgeAnswer_survey_collided fun u hu => hb ?_
    obtain ⟨_, hbegins, hbytes⟩ := hu
    rw [List.cons.injEq] at hbytes
    have htag : be40 tag = be40 u := List.append_inj_left hbytes.2 rfl
    rw [be40_injective htag]
    exact hbegins

/-- R32: an ACK that carries another address than that of the ASSIGN. -/
theorem judgeAnswer_assign_other (tag : Tag) {a : Nat} {b : Byte} (hb : b ≠ byteOf a) :
    judgeAnswer (.assign tag a) false [0x61, b, crc8 [0x61, b]] = .invalid := by
  have hform : judgeForm (.assign tag a) 0x61 [b] = .invalid := if_neg fun h => hb h.2.2
  have hc : answerCheck ([0x61, b] ++ [crc8 [0x61, b]]) = true := (answerCheck_iff _).2 ⟨_, rfl⟩
  refine (judgeAnswer_directed _ rfl false _).trans ?_
  exact (if_pos hc).trans hform

/-- Settles O31: each closed form by judgeAnswer_valid or judgeAnswer_refused, which say what R32 asks for. -/
theorem answersAreJudged : Obligations.AnswersAreJudged := by
  unfold Obligations.AnswersAreJudged
  intro t bytes
  refine ⟨fun h => judgeAnswer_contention h bytes, fun h hc => judgeAnswer_unchecked h hc false, fun p ht => ?_, fun p ht hc => ?_,
    judgeAnswer_tag, fun a o v => ?_, fun a => ⟨?_, ?_⟩, fun tag a => ?_, fun a o v => ?_, fun a => ?_, fun a code d hd => ?_, fun a o v => ?_,
    fun a => ?_, fun contention h => ⟨judgeAnswer_valid t h contention bytes, judgeAnswer_refused t h contention bytes,
      judgeAnswer_kind t h contention bytes⟩, fun tag a b hb => judgeAnswer_assign_other tag hb, fun p contention ht => ?_⟩
  · subst ht
    exact judgeAnswer_survey_collided (fun tag h => nomatch h.1)
  · subst ht
    refine judgeAnswer_survey_collided (fun tag h => ?_)
    have hcheck : answerCheck bytes = true := (answerCheck_iff bytes).2 ⟨0x63 :: be40 tag, h.2.2⟩
    exact nomatch hc.symm.trans hcheck
  · exact judgeAnswer_of_form (t := .read a o) (x := .value v) (body := 0x66 :: be32 v) rfl rfl
  · exact judgeAnswer_of_form (t := .ping a) (x := .status true) (body := [0x65, 1]) rfl rfl
  · exact judgeAnswer_of_form (t := .ping a) (x := .status false) (body := [0x65, 0]) rfl rfl
  · exact judgeAnswer_of_form (t := .assign tag a) (x := .ack) (body := [0x61, byteOf a]) rfl rfl
  · exact judgeAnswer_of_form (t := .write a o v) (x := .ack) (body := [0x61]) rfl rfl
  · exact judgeAnswer_of_form (t := .clear a) (x := .ack) (body := [0x61]) rfl rfl
  · exact judgeAnswer_of_form (t := .heed a) (x := .cause code d) (body := 0x67 :: code :: byteOf d.length :: d) rfl ⟨hd, rfl⟩
  · exact ⟨(judgeAnswer_refused (.read a o) rfl false _).2 ⟨rfl, .inl ⟨a, o, rfl⟩, rfl⟩,
      (judgeAnswer_refused (.write a o v) rfl false _).2 ⟨rfl, .inr ⟨a, o, v, rfl⟩, rfl⟩⟩
  · rfl
  · subst ht
    exact ⟨judgeAnswer_clean p contention bytes, judgeAnswer_survey p contention bytes⟩

/-! ### The attempts of a directed telegram (R33) -/

/-- R33: where another attempt follows, the telegram is sent again. -/
theorem State.quietWait_again {s : State} {l : LaneId} {u : Underway} {r : AttemptResult} (h : (s.lane l).engine = some u)
    (hp : u.phase = .quiet r) (ha : u.again r = true) :
    s.quietWait l = s.modLane l (fun n =>
      { n with engine := some { telegram := u.telegram, attempt := u.attempt + 1, phase := .sending } }) := by
  unfold State.quietWait
  simp only [h, hp]
  exact if_pos ha

theorem Underway.again_unanswered {u : Underway} {r : AttemptResult} (hd : u.telegram.directed = true)
    (hr : r = .noAnswer ∨ r = .invalid) (ha : u.attempt < 3) : u.again r = true := by
  have hlt : decide (u.attempt < Config.attempts) = true := decide_eq_true ha
  unfold Underway.again
  rw [hd, hlt]
  rcases hr with rfl | rfl <;> rfl

/-- Settles O32: either end of the wait for quiet sends the next attempt. -/
theorem unansweredTelegramIsRetried : Obligations.UnansweredTelegramIsRetried := by
  unfold Obligations.UnansweredTelegramIsRetried
  intro s l u r c hc hu hp hd hr ha
  rw [exec_quietWait hc, State.quietWait_again hu hp (Underway.again_unanswered hd hr ha)]
  rfl

end Sys2Proof.Machine
end

section
/-! PROOFS. The events of a tool lane: the settle and the restart timer (R23, R25, R44), LANE_RESTART (R25, R69) and the
overcurrent trip (R19, R20), with the losses of its entries (R87, R149, R168). -/

namespace Sys2Proof.Machine

/-! ### The settle and the restart timer (R23, R25, R44) -/

/-- R114: on a lane that serves nothing yet, with the Survey Engine's request alone, that request is granted and its telegram is sent. -/
theorem arbitrate_survey_alone {s : State} {l : LaneId} {w : SurveyWork} (hs : (s.lane l).state.serving = false)
    (ha : (s.lane l).arbiter = { Arbiter.cold with standing := { Arbiter.cold.standing with survey := some w } }) :
    s.arbitrate l = s.modLane l (fun n => { n with
      arbiter := { Arbiter.cold with grant := some (.survey w) }
      engine := some { telegram := w.telegram, attempt := 1, phase := .sending } }) := by
  have hreq : s.requestAttention l = s := by
    unfold State.requestAttention
    simp [hs]
  have hnext : (s.lane l).arbiter.grantNext = some (.survey w, { Arbiter.cold with grant := some (.survey w) }) := by rw [ha]; rfl
  unfold State.arbitrate arbiterRounds arbitrateRounds
  simp only [hreq, hnext]
  exact State.modLane_modLane _ _ _ _

theorem exec_settleTimerExpiry {s : State} {l : LaneId} {d : Nat} (h : (s.lane l).settleTimer = some d) :
    exec (.settleTimerExpiry l) s = .next ((s.beginInitialPass l).arbitrate l) := by
  change execSettleTimerExpiry l s = _
  unfold execSettleTimerExpiry
  rw [if_pos (by rw [h]; rfl)]

theorem exec_restartTimerExpiry {s : State} {l : LaneId} {d : Nat} (h : (s.lane l).restartTimer = some d) :
    exec (.restartTimerExpiry l) s = .next (s.modLane l (fun n => n.powerUp (s.timer Config.settleMs))) := by
  change execRestartTimerExpiry l s = _
  unfold execRestartTimerExpiry
  rw [if_pos (by rw [h]; rfl)]

/-- R23, R44: the lane as its initial pass begins, with FORGET requested. -/
theorem State.beginInitialPass_eq (s : State) (l : LaneId) : s.beginInitialPass l = s.modLane l (fun n => { n with
    settleTimer := none, state := .enumerating, survey := { Survey.cold with pass := some .initial, step := some .forget }
    arbiter := { n.arbiter with standing := { n.arbiter.standing with survey := some .forget } } }) := by
  unfold State.beginInitialPass State.requestSurvey
  rw [State.modLane_modLane]

/-- Settles O29: the FORGET of the initial pass is granted at once, no other request being there. -/
theorem laneTimersExpire : Obligations.LaneTimersExpire := by
  unfold Obligations.LaneTimersExpire
  intro s l d
  refine ⟨fun ht ha => ?_, fun ht => exec_restartTimerExpiry ht⟩
  have hlane := (congrArg (State.lane · l) (s.beginInitialPass_eq l)).trans (State.lane_modLane_self _ _ _)
  have hgrant := arbitrate_survey_alone (s := s.beginInitialPass l) (l := l) (w := .forget) (by rw [hlane]; rfl)
    (by rw [hlane]; simp only [ha])
  rw [exec_settleTimerExpiry ht, hgrant, s.beginInitialPass_eq l, State.modLane_modLane]
  rfl

/-! ### LANE_RESTART (R25, R69) -/

theorem exec_laneRestart {s : State} {q : Request} {rest : List Request} {n : Byte} (hq : s.queued q rest) (hk : q.kind = 0x12)
    (hp : q.payload = [n]) : exec .laneRestart s = .next (serveLaneRestart q (s.took rest)) :=
  take_next hq (by simp [ofKind, hk]) (by rw [hk, hp]; rfl)

section
variable {q : Request} {l : LaneId} (hp : q.payload = [byteOf l.val])
include hp

theorem serveLaneRestart_restarts {s : State} (ho : (s.lane l).state ≠ .off) (hd : (s.lane l).state ≠ .disabled) :
    serveLaneRestart q s = (s.restartLane l).laneReply q l := by
  have hlane : laneOf (at' q.payload 0) = some l := by rw [hp]; exact laneOf_byteOf l
  unfold serveLaneRestart
  simp only [hlane]
  cases hs : (s.lane l).state with
  | off => exact absurd hs ho
  | disabled => exact absurd hs hd
  | settling => rfl
  | enumerating => rfl
  | supervising => rfl
  | rescanning => rfl
  | faulted => rfl

theorem serveLaneRestart_refuses {s : State} (h : (s.lane l).state = .off ∨ (s.lane l).state = .disabled) :
    serveLaneRestart q s = s.refuse q .notNow := by
  have hlane : laneOf (at' q.payload 0) = some l := by rw [hp]; exact laneOf_byteOf l
  unfold serveLaneRestart
  rcases h with h | h <;> simp only [hlane, h]

end

theorem serveLaneRestart_unknown {q : Request} {n : Byte} (hp : q.payload = [n]) (hn : 3 < n.toNat) (s : State) :
    serveLaneRestart q s = s.refuse q .badArgument := by
  have hlane : laneOf (at' q.payload 0) = none := by rw [hp]; exact laneOf_large n hn
  unfold serveLaneRestart
  rw [hlane]

/-- R87: after the losses of a lane its entries are LOST, and every other entry, or one LOST already, is as it was. -/
theorem loseAll_toLose {s : State} {l : LaneId} (h : s.directoryOk) :
    (∀ e ∈ s.dir.entries, e.lane ≠ l ∨ e.presence = .lost → e ∈ loseAll s.missLimit (s.toLose l) s.dir.entries)
      ∧ ∀ e ∈ s.dir.entries, e.lane = l → e.presence ≠ .lost →
          e.laneLost s.missLimit ∈ loseAll s.missLimit (s.toLose l) s.dir.entries := by
  refine ⟨fun e he hstays => mem_loseAll_of_ne he (fun f hf hh => ?_), fun e he hl hp => ?_⟩
  · obtain ⟨hmem, hlane, hpresence⟩ := (State.mem_toLose s l f).1 hf
    have heq : f = e := State.entry_unique h hmem he hh
    subst heq
    exact hstays.elim (fun hne => hne hlane) hpresence
  · exact mem_loseAll_of_mem (State.toLose_distinct h) ((State.mem_toLose s l e).2 ⟨he, hl, hp⟩) ⟨e, he, rfl⟩

/-- Settles O27: the restart by State.restartLane_spec and State.restartLane_done, then the reply. -/
theorem laneRestartHoldsLane : Obligations.LaneRestartHoldsLane := by
  unfold Obligations.LaneRestartHoldsLane
  intro s q rest l n hq hk
  refine ⟨fun hp ho hd => ?_, fun hp h => ?_, fun hp hn => ?_⟩
  · obtain ⟨hlane, hrest, hmate, _, hothers, hentries⟩ := (s.took rest).restartLane_spec l
    have hdone := (s.took rest).restartLane_done l
    have hx : exec .laneRestart s = .next (((s.took rest).restartLane l).ok q [byteOf l.val, 2]) := by
      rw [exec_laneRestart hq hk hp, serveLaneRestart_restarts hp (by exact ho) (by exact hd)]
      unfold State.laneReply
      rw [hlane]
      rfl
    refine ⟨_, hx, rfl, Link.currentReply_send _ _, ?_⟩
    simp only [State.lane_ok, State.ok_dir, State.ok_mate, State.ok_resolver]
    rw [hlane, hentries]
    obtain ⟨tools, htell, hlink⟩ := hdone.link
    refine ⟨rfl, rfl, rfl, rfl, rfl, rfl, rfl, rfl, rfl, rfl, rfl, rfl, rfl, rfl, rfl, rfl, ⟨rfl, rfl, rfl, rfl⟩, hothers,
      loseAll_lost (s.took rest) l _, fun h => (loseAll_toLose (s := s.took rest) h).1,
      fun h => (loseAll_toLose (s := s.took rest) h).2, hmate, hrest.trans (State.keepsRest_ok _ _ _), hdone.generation,
      hdone.choice, fun hp hs => ?_, hdone.absorbed, tools, htell, ?_⟩
    · exact State.statusHolds_congr (hdone.status hp hs) rfl rfl rfl rfl (fun _ => rfl)
    · exact congrArg (Link.send · _) hlink
  · rw [exec_laneRestart hq hk hp, serveLaneRestart_refuses hp (by exact h)]
  · rw [exec_laneRestart hq hk hp, serveLaneRestart_unknown hp hn]

/-! ### The overcurrent trip (R19, R20) -/

theorem exec_overcurrentTrip_powered {s : State} {l : LaneId} (h : (s.lane l).power = true) :
    exec (.overcurrentTrip l) s = .next (s.trip l) := by
  change execOvercurrentTrip l s = _
  unfold execOvercurrentTrip
  rw [if_pos h]

theorem exec_overcurrentTrip_off {s : State} {l : LaneId} (h : (s.lane l).power = false) :
    exec (.overcurrentTrip l) s = .next s := by
  change execOvercurrentTrip l s = _
  unfold execOvercurrentTrip
  rw [if_neg (by rw [h]; decide)]

/-- R128: the reply of a trip is that of the access which waits on its lane. -/
theorem State.tripReply?_waits {s : State} {l : LaneId} {kind token : Byte} {r : Run} (hu : s.unit = .accessWait kind token l)
    (hr : (s.lane l).run = some r) :
    s.tripReply? l = some { kind := kind + 0x80, token := token, status := .laneFault, payload := r.payload } := by
  unfold State.tripReply?
  rw [State.accessReply?_waits hu hr]
  exact if_pos rfl

/-- R20, R87: what the acts of a trip of lane `l` make of `s`, before the lane reports that it has finished. -/
structure State.trippedInto (s : State) (l : LaneId) (u : State) : Prop where
  lane : u.lane l = (s.lane l).tripped
  others : ∀ m, m ≠ l → u.lane m = s.lane m
  rest : s.keepsRest u
  mate : u.mate = s.mate
  entries : u.dir.entries = loseAll s.missLimit (s.toLose l) s.dir.entries
  reply : ∀ r, s.tripReply? l = some r → u.unit = .replying none ∧ u.accessTimer = none ∧ u.replied r

theorem State.trip_spec (s : State) (l : LaneId) : ∃ u : State, s.trip l = u.reportFinished l ∧ s.trippedInto l u := by
  refine ⟨_, rfl, ?_⟩
  generalize hv : ({ s.modLane l Lane.tripped with draws := (s.modLane l Lane.tripped).draws + 1 } : State) = v
  have hvl : v.lane l = (s.lane l).tripped := by subst hv; exact State.lane_modLane_self _ _ _
  have hvo : ∀ m, m ≠ l → v.lane m = s.lane m := by subst hv; exact fun m hm => State.lane_modLane_ne s l m _ hm
  have hvr : s.keepsRest v := by subst hv; exact .refl s
  have hvm : v.mate = s.mate := by subst hv; rfl
  have hvd : v.dir = s.dir := by subst hv; rfl
  obtain ⟨hnews, hentries, hothers, hcold, _, hreply⟩ := s.tripSequence_spec l (v, [])
  obtain ⟨hservice, hrun, hengine, harbiter⟩ := hnews.lane l
  have hattention := hcold (by rw [hvl]; rfl)
  refine ⟨?_, fun m hm => (hothers m hm).trans (hvo m hm), hvr.trans hnews.rest, hnews.mate.trans hvm, ?_, hreply⟩
  · unfold Lane.sameButService at hservice
    rw [hservice, hrun, hengine, harbiter, hattention, hvl]
    rfl
  · rw [hentries, hvd, hvr.2.2.1]

/-- R20, R87: after the acts of a trip every entry of its lane is LOST; one that was not LOST before is IDLE. -/
theorem State.trippedInto.lost {s u : State} {l : LaneId} (h : s.trippedInto l u) {e : Entry} (he : e ∈ u.dir.entries)
    (hl : e.lane = l) : e.presence = .lost ∧ (e ∈ s.dir.entries ∨ e.attention = .idle) := by
  rw [h.entries] at he
  refine ⟨loseAll_lost s l _ e he hl, ?_⟩
  rcases loseAll_mem he with ⟨hmem, _⟩ | ⟨f, _, rfl⟩
  · exact .inl hmem
  · exact .inr rfl

/-- R20: the lane of a trip, at rest, through the report that it has finished: its clear list alone may have grown. -/
theorem State.trippedInto.finished {s u : State} {l : LaneId} (h : s.trippedInto l u) :
    (u.reportFinished l).lane l = { (s.lane l).tripped with
        attention := { Attention.cold with clearList := ((u.reportFinished l).lane l).attention.clearList } }
      ∧ ((∀ e ∈ s.dir.entries, e.lane = l → e.presence = .lost → e.attention = .idle) →
          ((u.reportFinished l).lane l).attention = Attention.cold) := by
  have hserving : (u.lane l).state.serving = false := by rw [h.lane]; rfl
  have hcold : (u.lane l).arbiter = Arbiter.cold := by rw [h.lane]; rfl
  have hspec := u.reportFinished_spec l
  obtain ⟨hengine, harbiter, hrun⟩ := hspec.idle l hserving hcold
  obtain ⟨hclears, hkeeps⟩ := u.reportFinished_attention l l hserving hcold
  have hservice := hspec.lane l
  have hattention : (u.lane l).attention = Attention.cold := by rw [h.lane]; rfl
  rw [hattention] at hclears hkeeps
  refine ⟨?_, fun hidle => hkeeps fun e he hl => ?_⟩
  · unfold Lane.sameButService at hservice
    rw [hengine, harbiter, hrun, hclears, h.lane] at hservice
    exact hservice
  · obtain ⟨hlost, hmem | hat⟩ := h.lost he hl
    · rw [hidle e hmem hl hlost]; decide
    · rw [hat]; decide

/-- R150: the report of a lane leaves each entry its lane and its presence. -/
theorem State.reported.entry {s t : State} {l : LaneId} (h : s.reported l t) {e : Entry} (he : e ∈ t.dir.entries) :
    ∃ f ∈ s.dir.entries, e.lane = f.lane ∧ e.presence = f.presence := by
  rcases h.entries with hd | ⟨b, hd⟩
  · exact ⟨e, hd ▸ he, rfl, rfl⟩
  · rw [hd] at he
    obtain ⟨f, hf, rfl⟩ := List.mem_map.1 he
    exact ⟨f, hf, rfl, rfl⟩

/-- Settles O28: the acts of the trip by State.trip_spec and State.trip_done, then the report that the lane has finished. -/
theorem tripFaultsLane : Obligations.TripFaultsLane := by
  unfold Obligations.TripFaultsLane
  intro s l
  refine ⟨exec_overcurrentTrip_off, fun hp => ?_, fun hp hn => ?_⟩
  · obtain ⟨u, ht, hu⟩ := s.trip_spec l
    obtain ⟨hlane, hcold⟩ := hu.finished
    have hspec := u.reportFinished_spec l
    rw [← ht] at hlane hcold hspec
    refine ⟨_, exec_overcurrentTrip_powered hp, ?_⟩
    have hattention : ((s.trip l).lane l).attention
        = { Attention.cold with clearList := ((s.trip l).lane l).attention.clearList } := congrArg Lane.attention hlane
    have hduplicate : ((s.trip l).lane l).duplicateSeen = (s.lane l).duplicateSeen := by rw [hlane]; rfl
    have hparameters : (s.lane l).keepsParameters ((s.trip l).lane l) := by rw [hlane]; exact ⟨rfl, rfl, rfl, rfl⟩
    refine ⟨congrArg Lane.state hlane, congrArg Lane.power hlane, congrArg Lane.fault hlane, congrArg Lane.settleTimer hlane,
      congrArg Lane.rescanTimer hlane, congrArg Lane.pollGapTimer hlane, congrArg Lane.rollcallGapTimer hlane,
      congrArg Lane.engine hlane, congrArg Lane.run hlane, congrArg Lane.survey hlane, congrArg Lane.poller hlane,
      congrArg Lane.arbiter hlane, hduplicate, hspec.finished, congrArg Lane.latn hlane, hattention, hcold, hparameters,
      fun e he hl => ?_, fun m hm => ?_, hspec.mate.trans hu.mate, hu.rest.trans hspec.rest, fun kind token r hw hr => ?_⟩
    · obtain ⟨f, hf, hfl, hfp⟩ := hspec.entry he
      exact hfp.trans (hu.lost hf (hfl.symm.trans hl)).1
    · rw [← hu.others m hm]
      exact ⟨(hspec.lane m).state, (hspec.lane m).standing⟩
    · obtain ⟨hunit, htimer, hreply⟩ := hu.reply _ (State.tripReply?_waits hw hr)
      have hfree : ∀ m, u.noAccess m := fun m => .inr (fun _ _ h => nomatch hunit.symm.trans h)
      obtain ⟨kunit, ktimer, _, kreply⟩ := hspec.access hfree
      exact ⟨kunit.trans hunit, ktimer.trans htimer, (kreply _ hreply).1⟩
  · obtain ⟨u, hfin, hunit, hdone⟩ := s.trip_done l hn
    exact ⟨_, exec_overcurrentTrip_powered hp, u, hfin, hunit, hdone.generation, hdone.choice, hdone.status, hdone.absorbed,
      hdone.link⟩

end Sys2Proof.Machine
end

section
/-! PROOFS. The walk of the Survey Engine: what follows the outcome of its FORGET and of its SURVEYs (R24, R43 to R48, R67). -/

namespace Sys2Proof.Machine

/-! ### The delivery of an outcome (R33, R41) -/

/-- R33: no attempt follows an answer, nor the outcome of a telegram that is not directed. -/
theorem Underway.again_answered {r : AttemptResult} (h : r ≠ .noAnswer) (k : r ≠ .invalid) (u : Underway) : u.again r = false := by
  unfold Underway.again
  simp [h, k]

theorem State.engineFree_lane (s : State) (l : LaneId) : (s.engineFree l).lane l = { s.lane l with engine := none } :=
  State.lane_modLane_self _ _ _

theorem State.engineFree_lane_ne (s : State) {l m : LaneId} (h : m ≠ l) : (s.engineFree l).lane m = s.lane m :=
  State.lane_modLane_ne _ _ _ _ h

/-- R41: what ends a telegram of the Survey Engine goes to the work that it was sent for. -/
theorem State.endsWith.surveys {s : State} {c : Instr} {l : LaneId} {u : Underway} {w : SurveyWork} {r : AttemptResult}
    (h : s.endsWith c l u (.survey w) r) (ha : u.again r = false) :
    s.outcomeGives c l ((s.engineFree l).surveyOutcome l w r.outcome) := by
  have hd : (s.engineFree l).deliver l u.telegram r.outcome = (s.engineFree l).surveyOutcome l w r.outcome := by
    unfold State.deliver
    rw [show ((s.engineFree l).lane l).arbiter.grant = some (.survey w) from h.grant]
  exact hd ▸ h.gives ha

/-! ### The Survey Engine's requests (R41, R43, R44) -/

/-- Two moves of the Survey Engine that agree on its lane are one. -/
theorem State.asks_same {s : State} {l : LaneId} {f g : Survey → Survey} (h : f (s.lane l).survey = g (s.lane l).survey)
    (w : SurveyWork) : s.asks l f w = s.asks l g w :=
  State.modLane_same (by rw [h])

theorem State.modSurvey_asks (s : State) (l : LaneId) (f g : Survey → Survey) (w : SurveyWork) :
    (s.modSurvey l f).asks l g w = s.asks l (fun v => g (f v)) w := by
  unfold State.modSurvey State.asks
  rw [State.modLane_modLane]

theorem State.surveyNext_walk {s : State} {l : LaneId} (h : (s.lane l).survey.step = some .walk) : s.surveyNext l = s.walkNext l := by
  unfold State.surveyNext
  rw [h]

/-- R44: the walk begins with no digit of a tag. -/
theorem State.beginWalk_asks (s : State) (l : LaneId) : s.beginWalk l = s.asks l
    (fun v => { v with step := some .walk, position := none, current := some { digits := [], attempt := 1 } }) (.survey []) := by
  have hw := (State.walkNext_walks (s.modSurvey l (fun v =>
    { v with step := some .walk, position := none, stack := [] :: v.stack })) l).1 [] (s.lane l).survey.stack
      (congrArg Survey.stack (survey_self s l _))
  exact (hw.trans (State.modSurvey_asks s l _ _ _)).trans (State.asks_same rfl _)

theorem State.prefixGone_survey (s : State) (l : LaneId) :
    ((s.prefixGone l).lane l).survey = { (s.lane l).survey with current := none } :=
  survey_self s l (fun v => { v with current := none })

theorem State.splitPrefix_survey (s : State) (l : LaneId) (p : Digits) : ((s.splitPrefix l p).lane l).survey
    = { (s.lane l).survey with stack := children p ++ (s.lane l).survey.stack, current := none } :=
  survey_self s l (fun v => { v with stack := children p ++ v.stack, current := none })

/-- R45, R43: the digits of a SILENT outcome are dropped and the top of the stack follows them. -/
theorem State.prefixGone_walks {s : State} {l : LaneId} {top : Digits} {rest : List Digits}
    (h : (s.lane l).survey.stack = top :: rest) : (s.prefixGone l).walkNext l = s.asks l
      (fun v => { v with current := some { digits := top, attempt := 1 }, stack := rest }) (.survey top) := by
  have hw := (State.walkNext_walks (s.prefixGone l) l).1 top rest ((congrArg Survey.stack (s.prefixGone_survey l)).trans h)
  exact hw.trans (State.modSurvey_asks s l (fun v => { v with current := none }) _ _)

/-- R46: fewer than 40 bits are replaced by their four children, the first of them surveyed next. -/
theorem State.surveyCollided_splits {s : State} {l : LaneId} {p : Digits} {k : Nat} (hs : (s.lane l).survey.step = some .walk)
    (hc : (s.lane l).survey.current = some { digits := p, attempt := k }) (hp : p.length < 20) :
    s.surveyCollided l p = s.asks l (fun v => { v with
      current := some { digits := p ++ [0], attempt := 1 }, stack := [p ++ [1], p ++ [2], p ++ [3]] ++ v.stack })
        (.survey (p ++ [0])) := by
  have hsplit : s.surveyCollided l p = (s.splitPrefix l p).walkNext l := by
    unfold State.surveyCollided
    simp only [hc]
    rw [if_pos hp]
    exact State.surveyNext_walk ((congrArg Survey.step (s.splitPrefix_survey l p)).trans hs)
  have hw := (State.walkNext_walks (s.splitPrefix l p) l).1 (p ++ [0])
    ([p ++ [1], p ++ [2], p ++ [3]] ++ (s.lane l).survey.stack) ((congrArg Survey.stack (s.splitPrefix_survey l p)).trans rfl)
  rw [hsplit, hw]
  exact (State.modSurvey_asks s l (fun v => { v with stack := children p ++ v.stack, current := none }) _ _).trans
    (State.asks_same rfl _)

/-- R47: 40 bits that COLLIDED are surveyed again after attempts 1 and 2. -/
theorem State.surveyCollided_again {s : State} {l : LaneId} {p : Digits} {k : Nat}
    (hc : (s.lane l).survey.current = some { digits := p, attempt := k }) (hp : 20 ≤ p.length) (hk : k < 3) :
    s.surveyCollided l p
      = s.asks l (fun v => { v with current := some { digits := p, attempt := k + 1 } }) (.survey p) := by
  unfold State.surveyCollided
  simp only [hc]
  rw [if_neg (Nat.not_lt.2 hp), if_pos hk]
  exact State.requestSurvey_modSurvey _ _ _ _

/-- R48: after attempt 3 it is a duplicate tag, and the engine goes on. -/
theorem State.surveyCollided_duplicate {s : State} {l : LaneId} {p : Digits} {k : Nat}
    (hc : (s.lane l).survey.current = some { digits := p, attempt := k }) (hp : 20 ≤ p.length) (hk : 3 ≤ k) :
    s.surveyCollided l p = (s.duplicateFound l p).surveyNext l := by
  unfold State.surveyCollided
  simp only [hc]
  rw [if_neg (Nat.not_lt.2 hp), if_neg (Nat.not_lt.2 hk)]

/-! ### A duplicate tag (R37, R48, R171) -/

/-- R48: what a duplicate tag makes of the part. -/
structure State.duplicateInto (s : State) (l : LaneId) (p : Digits) (a : State) : Prop where
  frame : a = { s with lanes := a.lanes, link := a.link, resolver := a.resolver, draws := a.draws }
  others : ∀ m, m ≠ l → a.lane m = s.lane m
  lane : a.lane l = { s.lane l with
    duplicateSeen := true
    fault := { cause := .duplicateTag, addr := none, tag := some (digitsTag p) }
    survey := { (s.lane l).survey with current := none } }
  told : s.statusTold ((s.lane l).duplicateSeen = false) (s.link.post (.lane l (s.lane l).state (some .duplicateTag))) a

/-- A computation of the status touches the Link Unit, the Resolver and the model's own draws alone. -/
theorem State.recompute_frame (s : State) :
    s.recompute = { s with link := s.recompute.link, resolver := s.recompute.resolver, draws := s.recompute.draws } := by
  unfold State.recompute
  split
  · rw [State.recomputeFrom_eq]
  · rfl

theorem State.recompute_unresolved {s : State} (h : s.resolver.phase ≠ .resolved) : s.recompute = s := if_neg h

theorem State.dropCurrent_lane (s : State) (l : LaneId) :
    (s.dropCurrent l).lane l = { s.lane l with survey := { (s.lane l).survey with current := none } }
      ∧ ∀ m, m ≠ l → (s.dropCurrent l).lane m = s.lane m :=
  ⟨State.lane_modLane_self _ _ _, fun _ hm => State.lane_modLane_ne _ _ _ _ hm⟩

theorem State.dropCurrent_statusHolds {s : State} (h : s.statusHolds) (l : LaneId) : (s.dropCurrent l).statusHolds := by
  refine State.statusHolds_congr h rfl rfl rfl rfl fun m => ?_
  obtain ⟨hself, hothers⟩ := s.dropCurrent_lane l
  by_cases hm : m = l
  · rw [hm, hself]
  · rw [hothers m hm]

theorem State.duplicateFound_spec (s : State) (l : LaneId) (p : Digits) : s.duplicateInto l p (s.duplicateFound l p) := by
  have hdef : s.duplicateFound l p = (if (s.lane l).duplicateSeen
      then (s.writeFault l { cause := .duplicateTag, addr := none, tag := some (digitsTag p) }).modLane l
        (fun n => { n with duplicateSeen := true })
      else ((s.writeFault l { cause := .duplicateTag, addr := none, tag := some (digitsTag p) }).modLane l
        (fun n => { n with duplicateSeen := true })).recompute).dropCurrent l := rfl
  rw [hdef]
  generalize ht : (s.writeFault l { cause := .duplicateTag, addr := none, tag := some (digitsTag p) }).modLane l
    (fun n => { n with duplicateSeen := true }) = t
  have hframe : t = { s with lanes := t.lanes, link := t.link } := by subst ht; rfl
  have hresolver : t.resolver = s.resolver := by rw [hframe]
  have hlink : t.link = s.link.post (.lane l (s.lane l).state (some .duplicateTag)) := by
    subst ht
    rw [State.writeFault_faults]
    rfl
  have hlane : t.lane l = { s.lane l with
      duplicateSeen := true, fault := { cause := .duplicateTag, addr := none, tag := some (digitsTag p) } } := by
    subst ht
    rw [State.lane_modLane_self, State.writeFault_faults, State.faults_lane_self]
  have hothers : ∀ m, m ≠ l → t.lane m = s.lane m := by
    subst ht
    intro m hm
    rw [State.lane_modLane_ne _ _ _ _ hm, State.writeFault_faults, State.faults_lane_ne _ _ _ _ hm]
  cases hknown : (s.lane l).duplicateSeen with
  | true =>
    rw [if_pos rfl]
    obtain ⟨dself, dothers⟩ := t.dropCurrent_lane l
    refine ⟨?_, fun m hm => (dothers m hm).trans (hothers m hm), by rw [dself, hlane], fun _ => ⟨hlink, hresolver⟩,
      fun h => nomatch hknown.symm.trans h⟩
    conv_lhs => rw [hframe]
    rw [hframe]
    rfl
  | false =>
    rw [if_neg (by decide)]
    obtain ⟨dself, dothers⟩ := t.recompute.dropCurrent_lane l
    refine ⟨?_, fun m hm => (dothers m hm).trans ((t.lane_recompute m).trans (hothers m hm)),
      by rw [dself, State.lane_recompute, hlane], fun h => ?_, fun _ h => ?_⟩
    · rw [t.recompute_frame, hframe]
      rfl
    · have hp : t.resolver.phase ≠ .resolved := by
        rw [hresolver]
        exact h.resolve_left (fun hn => hn hknown)
      rw [State.recompute_unresolved hp]
      exact ⟨hlink, hresolver⟩
    · have hp : t.resolver.phase = .resolved := by rw [hresolver]; exact h
      have htold := t.recompute_told hp
      have hsame := t.onlyNews_recompute.resolver
      rw [hresolver, hlink] at htold
      rw [hresolver] at hsame
      exact ⟨State.dropCurrent_statusHolds (State.recompute_statusHolds hp) l, htold, hsame⟩

/-! ### The walk -/

/-- R41: an outcome from which the Survey Engine only moves on and asks leaves all else but the work of its lane. -/
theorem State.outcomeGives.asked {s : State} {c : Instr} {l : LaneId} {f : Survey → Survey} {w : SurveyWork}
    (h : s.outcomeGives c l ((s.engineFree l).asks l f w)) :
    ∃ t, exec c s = .next t ∧ t.dir = s.dir ∧ t.mate = s.mate ∧ t.resolver = s.resolver ∧ s.keepsRest t
      ∧ (∀ m, m ≠ l → t.lane m = s.lane m) ∧ (s.lane l).keepsStanding (t.lane l) ∧ (t.lane l).state = (s.lane l).state
      ∧ (t.lane l).survey.current = (f (s.lane l).survey).current ∧ (t.lane l).survey.stack = (f (s.lane l).survey).stack := by
  obtain ⟨t, ht, ⟨hrest, hmate, hdir, hresolver, hothers, hwork, _⟩, _⟩ := h
  have hlane : ((s.engineFree l).asks l f w).lane l = { s.lane l with
      engine := none
      survey := f (s.lane l).survey
      arbiter := { (s.lane l).arbiter with standing := { (s.lane l).arbiter.standing with survey := some w } } } := by
    unfold State.asks
    rw [State.lane_modLane_self, State.engineFree_lane]
  have hkeeps : ∀ m, m ≠ l → ((s.engineFree l).asks l f w).lane m = s.lane m := fun m hm =>
    (State.lane_modLane_ne _ _ _ _ hm).trans (s.engineFree_lane_ne hm)
  rw [hlane] at hwork
  refine ⟨t, ht, hdir, hmate, hresolver, hrest, fun m hm => (hothers m hm).trans (hkeeps m hm), hwork.standing,
    hwork.service.state, congrArg Survey.current hwork.service.survey, congrArg Survey.stack hwork.service.survey⟩

/-- Settles O33: each outcome by the lemma on its part of State.surveyOutcome. -/
theorem walkFollowsOutcome : Obligations.WalkFollowsOutcome := by
  unfold Obligations.WalkFollowsOutcome
  refine ⟨fun s l u c h => ?_, fun s l u p c hc hu hg hs _ => ?_⟩
  · rw [← State.beginWalk_asks]
    exact h.surveys (Underway.again_answered (r := .sent) nofun nofun u)
  have hcollided : u.phase = .quiet .collided → s.outcomeGives c l ((s.engineFree l).surveyCollided l p) := fun hp =>
    State.endsWith.surveys ⟨hc, hu, hp, hg⟩ (Underway.again_answered (r := .collided) nofun nofun u)
  have hlane := s.engineFree_lane l
  have hstep : ((s.engineFree l).lane l).survey.step = some .walk := by rw [hlane]; exact hs
  have hsilent : u.phase = .quiet .silent → s.outcomeGives c l (((s.engineFree l).prefixGone l).walkNext l) := fun hp => by
    have hw : (((s.engineFree l).prefixGone l).lane l).survey.step = some .walk :=
      (congrArg Survey.step ((s.engineFree l).prefixGone_survey l)).trans hstep
    rw [← State.surveyNext_walk hw]
    exact State.endsWith.surveys (w := .survey p) ⟨hc, hu, hp, hg⟩ (Underway.again_answered (r := .silent) nofun nofun u)
  refine ⟨fun hp hcur hlen => ?_, fun top rest hp hstack => ?_, fun hp => ⟨_, State.walkNext_walks _ l, hsilent hp⟩,
    fun k hp hcur hlen => ⟨fun hk => ?_, fun hk => ?_⟩⟩
  · have hgives := hcollided hp
    rw [State.surveyCollided_splits hstep (by rw [hlane]; exact hcur) hlen] at hgives
    exact ⟨hgives, hgives.asked⟩
  · have hgives := hsilent hp
    rw [State.prefixGone_walks (by rw [hlane]; exact hstack)] at hgives
    exact ⟨hgives, hgives.asked⟩
  · have hgives := hcollided hp
    rwa [State.surveyCollided_again (by rw [hlane]; exact hcur) hlen hk] at hgives
  · have hgives := hcollided hp
    rw [State.surveyCollided_duplicate (by rw [hlane]; exact hcur) hlen hk] at hgives
    have hdup := (s.engineFree l).duplicateFound_spec l p
    have hnext : (((s.engineFree l).duplicateFound l p).lane l).survey.step = some .walk := by rw [hdup.lane]; exact hstep
    rw [State.surveyNext_walk hnext] at hgives
    have htold := hdup.told
    rw [hlane] at htold
    refine ⟨_, _, State.walkNext_walks _ l, hgives, hdup.frame, fun m hm => ?_, ?_, digitsTag_begins, htold⟩
    · exact (hdup.others m hm).trans (s.engineFree_lane_ne hm)
    · rw [hdup.lane, hlane]

end Sys2Proof.Machine
end

section
/-! PROOFS. The Attention Service's telegrams: LATNn and the rollcall gap (R16, R133), the hits of a ROLLCALL (R135 to R137), the
outcome of a CLEAR (R103, R137), and the telegram that the service chooses (R132, R138, R139). -/

namespace Sys2Proof.Machine

/-! ### LATNn and the rollcall gap timer (R16, R132, R133) -/

theorem exec_latnChange (l : LaneId) (asserted : Bool) (s : State) :
    exec (.latnChange l asserted) s = .next ((s.modLane l (fun n => { n with latn := asserted && n.power })).arbitrate l) := rfl

theorem exec_rollcallGapTimerExpiry {s : State} {l : LaneId} {d : Nat} (h : (s.lane l).rollcallGapTimer = some d) :
    exec (.rollcallGapTimerExpiry l) s = .next ((s.modLane l (fun n => { n with rollcallGapTimer := none })).arbitrate l) := by
  change execRollcallGapTimerExpiry l s = _
  unfold execRollcallGapTimerExpiry
  rw [if_pos (by rw [h]; rfl)]

theorem LaneState.serving_iff {x : LaneState} : x.serving = true ↔ x = .supervising ∨ x = .rescanning := by
  simp [LaneState.serving]

/-- A change of a lane and the arbiter's decision on it leave all else, and of the lane its work alone is the arbiter's. -/
theorem State.modLane_arbitrate_frame (s : State) (l : LaneId) (f : Lane → Lane) :
    (f (s.lane l)).sameButWork (((s.modLane l f).arbitrate l).lane l)
      ∧ (∀ m, m ≠ l → ((s.modLane l f).arbitrate l).lane m = s.lane m) ∧ ((s.modLane l f).arbitrate l).dir = s.dir
      ∧ ((s.modLane l f).arbitrate l).mate = s.mate ∧ ((s.modLane l f).arbitrate l).resolver = s.resolver
      ∧ s.keepsRest ((s.modLane l f).arbitrate l) := by
  obtain ⟨hrest, hmate, hdir, hresolver, hothers, hwork, _⟩ := (s.modLane l f).arbitrate_ends l
  rw [State.lane_modLane_self] at hwork
  exact ⟨hwork, fun m hm => (hothers m hm).trans (State.lane_modLane_ne _ _ _ _ hm), hdir, hmate, hresolver,
    (s.keepsRest_modLane l f).trans hrest⟩

theorem State.serviceLevel_modLane (s : State) (l : LaneId) (f : Lane → Lane) (h : (f (s.lane l)).attention = (s.lane l).attention) :
    (s.modLane l f).serviceLevel l = s.serviceLevel l := by
  have hhigh : (s.modLane l f).highestPending l = s.highestPending l := rfl
  unfold State.serviceLevel
  rw [hhigh, State.lane_modLane_self, h]

/-- R132, R133: with no CLEAR and no HEED to send, a ROLLCALL that is due is chosen. -/
theorem State.chooseAttention_rollcall {s : State} {l : LaneId} (hc : (s.lane l).attention.clearList = [])
    (hv : s.serviceLevel l = none) (hd : (s.lane l).rollcallDue = true) : s.chooseAttention l = some (.rollcall, none) := by
  unfold State.chooseAttention
  simp only [hc, hv]
  exact if_pos hd

/-- R133: a lane that serves, with no other work, sends the ROLLCALL that a change of its line or of its gap timer makes due. -/
theorem State.rollcall_sent {s : State} {l : LaneId} {f : Lane → Lane}
    (hs : (s.lane l).state = .supervising ∨ (s.lane l).state = .rescanning) (ha : (s.lane l).arbiter = Arbiter.cold)
    (hc : (s.lane l).attention.clearList = []) (hv : s.serviceLevel l = none)
    (hf : f (s.lane l) = { s.lane l with latn := true, rollcallGapTimer := none }) :
    (((s.modLane l f).arbitrate l).lane l).engine = some { telegram := .rollcall, attempt := 1, phase := .sending }
      ∧ (((s.modLane l f).arbitrate l).lane l).arbiter.grant = some .attention := by
  have hlane : (s.modLane l f).lane l = { s.lane l with latn := true, rollcallGapTimer := none } :=
    (State.lane_modLane_self s l f).trans hf
  have hserving : ((s.modLane l f).lane l).state.serving = true := by rw [hlane]; exact LaneState.serving_iff.2 hs
  have hdue : ((s.modLane l f).lane l).rollcallDue = true := by
    unfold Lane.rollcallDue
    rw [hserving, hlane]
    rfl
  have hlevel : (s.modLane l f).serviceLevel l = none := (s.serviceLevel_modLane l f (by rw [hf])).trans hv
  have hchoice := State.chooseAttention_rollcall (by rw [hlane]; exact hc) hlevel hdue
  rw [(arbitrate_alone hserving (by rw [hlane]; exact ha)).1 _ _ hchoice, State.lane_modLane_self]
  exact ⟨rfl, rfl⟩

/-! ### The outcomes of ROLLCALL and CLEAR (R103, R135, R137) -/

/-- R33: what ends a telegram of the Attention Service goes to it. -/
theorem State.endsWith.serves {s : State} {c : Instr} {l : LaneId} {u : Underway} {r : AttemptResult}
    (h : s.endsWith c l u .attention r) (ha : u.again r = false) :
    s.outcomeGives c l ((s.engineFree l).attentionOutcome l u.telegram r.outcome) := by
  have hd : (s.engineFree l).deliver l u.telegram r.outcome = (s.engineFree l).attentionOutcome l u.telegram r.outcome := by
    unfold State.deliver
    rw [show ((s.engineFree l).lane l).arbiter.grant = some .attention from h.grant]
  exact hd ▸ h.gives ha

/-- R33: no attempt follows a valid answer, nor the third attempt. -/
theorem Underway.again_over {u : Underway} {r : AttemptResult}
    (h : (∃ a, r = .valid a) ∨ (r = .noAnswer ∨ r = .invalid) ∧ 3 ≤ u.attempt) : u.again r = false := by
  rcases h with ⟨a, rfl⟩ | ⟨_, hk⟩
  · exact Underway.again_answered (r := .valid a) nofun nofun u
  · have hlt : decide (u.attempt < Config.attempts) = false := decide_eq_false (Nat.not_lt.2 hk)
    unfold Underway.again
    rw [hlt, Bool.and_false]

theorem State.applyAnswer_lanes (s : State) (p : Target) (f : Option Bool) : (s.applyAnswer p f).lanes = s.lanes :=
  (s.onlyNews_applyAnswer p f).lanes

/-- R101: a miss may empty a slot and strike an address off a round; it leaves the clear lists. -/
theorem State.applyMiss_clearList (s : State) (p : Target) (l : LaneId) :
    ((s.applyMiss p).lane l).attention.clearList = (s.lane l).attention.clearList := by
  obtain ⟨_, _, _, _, hsome, hother⟩ := s.applyMiss_takes p
  by_cases hj : ∃ e, s.target? p = some e ∧ e.override = .auto ∧ e.presence ≠ .lost
  · obtain ⟨e, he, hauto, hp⟩ := hj
    obtain ⟨hsuspect, hlost⟩ := hsome e he hauto hp
    rcases Nat.lt_or_ge (e.miss + 1) s.missLimit with hlt | hge
    · have hlanes := (hsuspect hlt).1
      unfold State.lane
      rw [hlanes]
    · obtain ⟨_, hothers, hlane, _⟩ := hlost hge
      by_cases hl : l = e.lane
      · rw [hl, hlane]
        split <;> rfl
      · rw [hothers l hl]
  · rw [hother fun e he => ?_]
    by_contra hn
    rw [not_or, not_not] at hn
    exact hj ⟨e, he, hn.1, hn.2⟩

theorem State.evidence_clearList (s : State) (p : Target) (o : TelegramOutcome) (l : LaneId) :
    ((s.evidence p o).lane l).attention.clearList = (s.lane l).attention.clearList := by
  have hanswer : ((s.applyAnswer p none).lane l).attention.clearList = (s.lane l).attention.clearList := by
    unfold State.lane
    rw [State.applyAnswer_lanes]
  cases o with
  | answered a => exact hanswer
  | refused => exact hanswer
  | noAnswer => exact s.applyMiss_clearList p l
  | silent => rfl
  | clean t => rfl
  | collided => rfl
  | sent => rfl
  | hits h => rfl

section
variable {s : State} {l : LaneId} {i : ClearItem} {rest : List ClearItem} (h : (s.lane l).attention.clearList = i :: rest)
include h

/-- R137: the item of a CLEAR that had no owner leaves the list. -/
theorem State.clearOutcome_stray (hi : i.owner = none) (o : TelegramOutcome) :
    s.clearOutcome l o = s.modLane l (fun n => { n with attention := { n.attention with clearList := rest } }) := by
  have ht : i.target l = none := by unfold ClearItem.target; rw [hi]; rfl
  unfold State.clearOutcome
  simp only [h, ht]
  exact State.modLane_same (by simp only [h, List.drop_succ_cons, List.drop_zero])

/-- R103, R137: a CLEAR is evidence on the entry that its item was added for; then the item leaves the list. -/
theorem State.clearOutcome_owned {k : Nat} {g : Tag} (hi : i.owner = some (k, g)) (o : TelegramOutcome) :
    s.clearOutcome l o = (s.evidence { handle := k, lane := l, addr := i.addr, tag := g } o).modLane l
      (fun n => { n with attention := { n.attention with clearList := rest } }) := by
  have ht : i.target l = some { handle := k, lane := l, addr := i.addr, tag := g } := by unfold ClearItem.target; rw [hi]; rfl
  have hkept := (s.evidence_clearList { handle := k, lane := l, addr := i.addr, tag := g } o l).trans h
  unfold State.clearOutcome
  simp only [h, ht]
  exact State.modLane_same (by simp only [hkept, List.drop_succ_cons, List.drop_zero])

end

/-- R137: an item joins the clear list unless one for its address is there. -/
theorem Attention.addClear_known {a : Attention} {i : ClearItem} (h : ∃ x ∈ a.clearList, x.addr = i.addr) : a.addClear i = a :=
  if_pos (by simpa using h)

theorem Attention.addClear_new {a : Attention} {i : ClearItem} (h : ∀ x ∈ a.clearList, x.addr ≠ i.addr) :
    a.addClear i = { a with clearList := a.clearList ++ [i] } :=
  if_neg (by simpa using h)

/-- R132, R139: on a serving lane whose wire is free, the telegram that the service chooses is sent at once, or nothing is. -/
theorem State.arbitrate_sends {v : State} {l : LaneId} (hd : v.directoryOk)
    (hs : (v.lane l).state = .supervising ∨ (v.lane l).state = .rescanning) (ha : (v.lane l).arbiter = Arbiter.cold) :
    (∀ m h, v.attentionSends l m h → v.arbitrate l = v.modLane l (fun n => { n with
        arbiter := { Arbiter.cold with grant := some .attention }, attention := { n.attention with heed := h }
        engine := some { telegram := m, attempt := 1, phase := .sending } }))
      ∧ ((∀ m h, ¬ v.attentionSends l m h) → v.arbitrate l = v) := by
  obtain ⟨hsome, hnone⟩ := arbitrate_alone (LaneState.serving_iff.2 hs) ha
  refine ⟨fun m h hm => hsome m h ((State.chooseAttention_iff hd l m h).2 hm), fun hno => hnone ?_⟩
  cases hc : v.chooseAttention l with
  | none => rfl
  | some x => exact absurd ((State.chooseAttention_iff hd l x.1 x.2).1 hc) (hno x.1 x.2)

/-- Settles O49: the line and the gap timer by State.rollcall_sent, the hits by State.classifyHit_takes, a CLEAR by
State.clearOutcome_owned, and the choice by State.chooseAttention_iff. -/
theorem rollcallIsSentWhenDue : Obligations.RollcallIsSentWhenDue := by
  unfold Obligations.RollcallIsSentWhenDue
  refine ⟨fun s l asserted => ⟨?_, fun d hd => ?_, fun hs ha hc hv => ⟨fun hp hg => ?_, fun d hl hg => ?_⟩⟩,
    fun s l u h c he ht => ?_, fun s l u r c x i rest he ht hlist hr => ⟨fun hi => ?_, fun k g hi => ?_⟩,
    fun a i => ⟨Attention.addClear_known, Attention.addClear_new⟩,
    fun s l m h hd => State.chooseAttention_iff hd l m h, fun s v l asserted hd hs ha hv => ?_⟩
  · obtain ⟨hwork, hothers, hdir, hmate, hresolver, hrest⟩ :=
      s.modLane_arbitrate_frame l (fun n => { n with latn := asserted && n.power })
    exact ⟨_, exec_latnChange l asserted s, congrArg Lane.latn hwork, hothers, hdir, hmate, hresolver, hrest⟩
  · obtain ⟨hwork, hothers, hdir, hmate, hresolver, hrest⟩ :=
      s.modLane_arbitrate_frame l (fun n => { n with rollcallGapTimer := none })
    exact ⟨_, exec_rollcallGapTimerExpiry hd, congrArg Lane.rollcallGapTimer hwork, hothers, hdir, hmate, hresolver, hrest⟩
  · exact ⟨_, exec_latnChange l true s, State.rollcall_sent hs ha hc hv (by simp only [hp, hg, Bool.and_self])⟩
  · exact ⟨_, exec_rollcallGapTimerExpiry hg, State.rollcall_sent hs ha hc hv (by rw [← hl])⟩
  · refine ⟨fun k v => v.classifyHit l k, fun k v => v.classifyHit_takes l k, ?_⟩
    have hgives := he.serves (Underway.again_answered (r := .hits h) nofun nofun u)
    rw [ht] at hgives
    exact hgives
  · have hgives := he.serves (Underway.again_over hr)
    rw [ht] at hgives
    have hfree : ((s.engineFree l).lane l).attention.clearList = i :: rest := by rw [State.engineFree_lane]; exact hlist
    exact (State.clearOutcome_stray hfree hi r.outcome) ▸ hgives
  · have hgives := he.serves (Underway.again_over hr)
    rw [ht] at hgives
    have hfree : ((s.engineFree l).lane l).attention.clearList = i :: rest := by rw [State.engineFree_lane]; exact hlist
    exact ⟨_, State.evidence_takes _ _ r, (State.clearOutcome_owned hfree hi r.outcome) ▸ hgives⟩
  · have hlane : v.lane l = { s.lane l with latn := asserted && (s.lane l).power } := by rw [hv]; exact State.lane_modLane_self _ _ _
    have hdv : v.directoryOk := by rw [hv]; exact dir_modLane hd l _ (fun _ hn => hn)
    have hx : exec (.latnChange l asserted) s = .next (v.arbitrate l) := by rw [hv]; exact exec_latnChange l asserted s
    obtain ⟨hsends, hstays⟩ := State.arbitrate_sends (l := l) hdv (by rw [hlane]; exact hs) (by rw [hlane]; exact ha)
    exact ⟨fun m h hm => hx.trans (congrArg _ (hsends m h hm)), fun hno => hx.trans (congrArg _ (hstays hno))⟩

end Sys2Proof.Machine
end

section
/-! PROOFS. Survey and naming: the order of the walk (R41, R42) through every step. -/

namespace Sys2Proof.Machine

/-! ### The order of one lane's walk -/

/-- R41: outside a pass the Survey Engine is at rest. -/
theorem Lane.surveyOk.atRest {n : Lane} (h : n.surveyOk) (hs : n.state.surveying = false) :
    n.survey = Survey.cold ∧ n.arbiter.standing.survey = none ∧ Grant.surveyWork? n.arbiter.grant = none := by
  obtain ⟨_, _, _, _, _, hrest, _⟩ := h
  exact hrest hs

/-- The three timers of a lane's states, each in the state it belongs to. -/
theorem Lane.surveyOk.timers {n : Lane} (h : n.surveyOk) : (n.settleTimer.isSome → n.state = .settling)
    ∧ (n.rescanTimer.isSome → n.state = .supervising) ∧ (n.restartTimer.isSome → n.state = .settling ∧ n.settleTimer = none) := by
  obtain ⟨_, _, _, _, _, _, hsettle, hrescan, hrestart⟩ := h
  exact ⟨hsettle, hrescan, hrestart⟩

/-- A lane whose Survey Engine stays at rest is in order with its new state and timers. -/
theorem Lane.surveyOk.keptAtRest {n m : Lane} (h : n.surveyOk) (hs : n.state.surveying = false) (hv : m.survey = n.survey)
    (ha : m.arbiter = n.arbiter) (h1 : m.settleTimer.isSome → m.state = .settling)
    (h2 : m.rescanTimer.isSome → m.state = .supervising)
    (h3 : m.restartTimer.isSome → m.state = .settling ∧ m.settleTimer = none) : m.surveyOk := by
  obtain ⟨hcold, hstanding, hgrant⟩ := h.atRest hs
  exact surveyOk_rest (hv.trans hcold) (by rw [ha]; exact hstanding) (by rw [ha]; exact hgrant) h1 h2 h3

/-- R26: a lane whose work has ended. -/
theorem Lane.quench_surveyOk (n : Lane) (st : LaneState) : (n.quench st).surveyOk := surveyOk_rest rfl rfl rfl nofun nofun nofun

theorem Lane.tripped_surveyOk (n : Lane) : n.tripped.surveyOk := n.quench_surveyOk .faulted

theorem Lane.restarted_surveyOk (n : Lane) (d : Timer) : (n.restarted d).surveyOk :=
  surveyOk_rest rfl rfl rfl nofun nofun (fun _ => ⟨rfl, rfl⟩)

/-- R22, R25: power comes on in a lane that is OFF or in its restart hold. -/
theorem Lane.surveyOk.powerUp {n : Lane} (h : n.surveyOk) (hs : n.state = .off ∨ n.state = .settling) (d : Timer) :
    (n.powerUp d).surveyOk := by
  have hrest : n.state.surveying = false := by rcases hs with hs | hs <;> rw [hs] <;> rfl
  refine h.keptAtRest hrest rfl rfl (fun _ => rfl) (fun hr => ?_) nofun
  have hsup := h.timers.2.1 hr
  rw [hsup] at hs
  exact hs.elim nofun nofun

theorem Lane.surveyOk.opened {n : Lane} (h : n.surveyOk) (d : Timer) : (n.opened d).surveyOk := by
  unfold Lane.opened
  split
  · exact h.powerUp (.inl ‹_›) d
  · exact h

theorem Lane.surveyOk.closed {n : Lane} (h : n.surveyOk) : n.closed.surveyOk := by
  unfold Lane.closed
  split
  · exact h
  · exact n.quench_surveyOk .off

/-- R17: a mask place changes only the states OFF and DISABLED, which no timer runs in. -/
theorem Lane.surveyOk.enableTo {n : Lane} (h : n.surveyOk) (on : Bool) : (n.enableTo on).surveyOk := by
  obtain ⟨h1, h2, h3⟩ := h.timers
  unfold Lane.enableTo
  split
  · exact h
  · cases hs : n.state with
    | off =>
      rw [hs] at h1 h2 h3
      exact h.keptAtRest (by rw [hs]; rfl) rfl rfl (fun x => nomatch h1 x) (fun x => nomatch h2 x) (fun x => nomatch (h3 x).1)
    | disabled =>
      rw [hs] at h1 h2 h3
      exact h.keptAtRest (by rw [hs]; rfl) rfl rfl (fun x => nomatch h1 x) (fun x => nomatch h2 x) (fun x => nomatch (h3 x).1)
    | _ =>
      cases on <;> simp only [← hs]
      all_goals exact h

/-! ### The walk through every command -/

theorem surveyOk_modLane {s : State} (h : s.surveyOk) (l : LaneId) {f : Lane → Lane} (hf : (f (s.lane l)).surveyOk) :
    (s.modLane l f).surveyOk := by
  intro m
  rw [State.lane_modLane]
  split
  · exact hf
  · exact h m

/-- R41: a pass begins on a lane at rest. -/
theorem Surveying.begins {s : State} (h : s.surveyOk) {l : LaneId} (hs : (s.lane l).state.surveying = false) {f : Lane → Lane}
    (hr : (f (s.lane l)).state.surveying = true) (hstack : (f (s.lane l)).survey.stack = [])
    (hcurrent : (f (s.lane l)).survey.current = none) (ha : (f (s.lane l)).arbiter = (s.lane l).arbiter)
    (h1 : (f (s.lane l)).settleTimer = none) (h2 : (f (s.lane l)).rescanTimer = none)
    (h3 : (f (s.lane l)).restartTimer = none) : Surveying l none (s.modLane l f) := by
  obtain ⟨_, hstanding, hgrant⟩ := (h l).atRest hs
  obtain ⟨g1, g2, g3⟩ := goodCold (f (s.lane l)).survey hstack hcurrent
  have hquiet : (f (s.lane l)).arbiter.standing.survey = none := by rw [ha]; exact hstanding
  refine ⟨fun m hm => by rw [State.lane_modLane_ne _ _ _ _ hm]; exact h m, ?_, ?_, fun x => absurd rfl x, ?_, ?_⟩ <;>
    rw [State.lane_modLane_self]
  · refine ⟨g1, g2, g3, (fun w hw => nomatch hquiet.symm.trans hw), nofun, (fun x => nomatch hr.symm.trans x), ?_, ?_, ?_⟩
    · exact fun x => absurd x (by rw [show (f (s.lane l)).free.settleTimer = none from h1]; decide)
    · exact fun x => absurd x (by rw [show (f (s.lane l)).free.rescanTimer = none from h2]; decide)
    · exact fun x => absurd x (by rw [show (f (s.lane l)).free.restartTimer = none from h3]; decide)
  · rw [ha]; exact hgrant
  · exact hquiet
  · exact hr

/-- R23, R44: the initial pass begins with FORGET. -/
theorem surveyOk_beginInitialPass {s : State} {l : LaneId} (ht : (s.lane l).settleTimer.isSome) (h : s.surveyOk) :
    (s.beginInitialPass l).surveyOk := by
  obtain ⟨hsettle, hrescan, hrestart⟩ := (h l).timers
  have hs := hsettle ht
  have hr1 : (s.lane l).rescanTimer = none := by
    rw [← Option.not_isSome_iff_eq_none]
    exact fun x => nomatch hs.symm.trans (hrescan x)
  have hr2 : (s.lane l).restartTimer = none := by
    rw [← Option.not_isSome_iff_eq_none]
    exact fun x => absurd ht (by rw [(hrestart x).2]; decide)
  have hbegins : Surveying l none (s.modLane l (fun n => { n with
      settleTimer := none, state := .enumerating, survey := { Survey.cold with pass := some .initial, step := some .forget } })) :=
    Surveying.begins h (by rw [hs]; rfl) rfl rfl rfl rfl rfl hr1 hr2
  refine (hbegins.req .forget ⟨nofun, fun _ => ?_, nofun⟩).none
  rw [State.lane_modLane_self]
  rfl

/-- R64: a rescan pass begins with its recall step. -/
theorem surveyOk_beginRescan {s : State} {l : LaneId}
    (ht : (s.lane l).state = .supervising ∨ (s.lane l).rescanTimer.isSome) (h : s.surveyOk) : (s.beginRescan l).surveyOk := by
  obtain ⟨hsettle, hrescan, hrestart⟩ := (h l).timers
  have hs : (s.lane l).state = .supervising := ht.elim id hrescan
  have hr1 : (s.lane l).settleTimer = none := by
    rw [← Option.not_isSome_iff_eq_none]
    exact fun x => nomatch hs.symm.trans (hsettle x)
  have hr2 : (s.lane l).restartTimer = none := by
    rw [← Option.not_isSome_iff_eq_none]
    exact fun x => nomatch hs.symm.trans (hrestart x).1
  have hbegins : Surveying l none (s.modLane l (fun n => { n with
      rescanTimer := none, state := .rescanning, survey := { Survey.cold with pass := some .rescan, step := some .recall } })) :=
    Surveying.begins h (by rw [hs]; rfl) rfl rfl rfl rfl hr1 rfl hr2
  refine (hbegins.recallNext ?_).none
  rw [State.lane_modLane_self]
  rfl

theorem surveyOk_storeMask {s : State} (v : Nat) (h : s.surveyOk) : (storeMask v s).surveyOk := by
  intro l
  fin_cases l
  · exact (h 0).enableTo _
  · exact (h 1).enableTo _
  · exact (h 2).enableTo _
  · exact (h 3).enableTo _

/-- The commands outside the Mate Monitor and the resets keep the walk in order. -/
theorem kept_surveyOk : Kept State.surveyOk where
  settled h k := h.calm.surveyOk k
  engine _ l x h := surveyOk_engine h l x
  quiet s l h := survey_quiet s l h
  trip s l _ h := (calm_trip s l).surveyOk (surveyOk_modLane h l (s.lane l).tripped_surveyOk)
  restart s l _ _ h := (calm_restartLane s l).surveyOk (surveyOk_modLane h l ((s.lane l).restarted_surveyOk _))
  settle _ _ ht h := surveyOk_beginInitialPass ht h
  rescan _ _ ht h := surveyOk_beginRescan ht h
  powerUp s l _ ht h := surveyOk_modLane h l ((h l).powerUp (.inr ((h l).timers.2.2 ht).1) _)
  rescanTimer s l _ hs h := by
    obtain ⟨hsettle, _, hrestart⟩ := (h l).timers
    exact surveyOk_modLane h l ((h l).keptAtRest (by rw [hs]; rfl) rfl rfl hsettle (fun _ => hs) hrestart)
  mask _ v _ h := surveyOk_storeMask v h
  missLimit _ _ _ _ _ h := h
  remove _ _ _ _ h := h

theorem State.closeBlocks_lane (s : State) (l : LaneId) : s.closeBlocks.lane l = (s.lane l).closed := Four.get_map _ _ _

theorem State.opening_lane (s : State) (l : LaneId) : s.opening.lane l = (s.lane l).opened (s.timer Config.settleMs) :=
  Four.get_map _ _ _

/-- The commands of the Mate Monitor and the resets keep the walk in order. -/
theorem keptMate_surveyOk : KeptMate State.surveyOk where
  settled h k := h.calm.surveyOk k
  cold s c r l := by
    rw [State.cold_lane]
    exact surveyOk_rest rfl rfl rfl nofun nofun nofun
  mate _ _ _ h := h
  close s h l := by
    rw [State.closeBlocks_lane]
    exact (h l).closed
  opening s _ h l := by
    rw [State.opening_lane]
    exact (h l).opened _
  fault s h l := by
    unfold State.lane
    rw [Four.get_map]
    exact h l

/-! ### The size of a survey stack (R42) -/

/-- R42: strings of 1 to n digits, at most three of each length, are at most 3 n. -/
theorem stack_length_le (n : Nat) (stack : List Digits) (hlen : ∀ p ∈ stack, 1 ≤ p.length ∧ p.length ≤ n)
    (hthree : ∀ k, (stack.filter (fun p => decide (p.length = k))).length ≤ 3) : stack.length ≤ 3 * n := by
  induction n generalizing stack with
  | zero =>
    cases stack with
    | nil => exact Nat.zero_le _
    | cons p ps =>
      obtain ⟨h1, h2⟩ := hlen p (List.mem_cons_self ..)
      omega
  | succ n ih =>
    have hshorter : (stack.filter (fun p => !decide (p.length = n + 1))).length ≤ 3 * n := by
      refine ih _ (fun p hp => ?_) (fun k => ?_)
      · obtain ⟨hmem, hne⟩ := List.mem_filter.1 hp
        obtain ⟨h1, h2⟩ := hlen p hmem
        simp only [Bool.not_eq_true', decide_eq_false_iff_not] at hne
        omega
      · exact (((List.filter_sublist (l := stack)).filter _).length_le).trans (hthree k)
    have hsplit := List.length_eq_length_filter_add (l := stack) (fun p => decide (p.length = n + 1))
    have hlongest := hthree (n + 1)
    omega

theorem stackOk.bounds {stack : List Digits} (h : stackOk stack) : stack.length ≤ 61 ∧ ∀ p ∈ stack, p.length ≤ 20 := by
  obtain ⟨hlen, _, hthree⟩ := h
  have hle := stack_length_le 20 stack hlen hthree
  exact ⟨by omega, fun p hp => (hlen p hp).2⟩

/-- Settles O7: every command keeps the order of the walk, and a stack in order is within its bounds. -/
theorem stepKeepsSurveyBounds : Obligations.StepKeepsSurveyBounds := by
  unfold Obligations.StepKeepsSurveyBounds
  intro s t hs ht
  have h : t.surveyOk := kept_surveyOk.step (fun s hs => keptMate_surveyOk.mates s hs) s t hs ht
  refine ⟨h, fun l => ?_⟩
  obtain ⟨hstack, _⟩ := h l
  exact hstack.bounds

end Sys2Proof.Machine
end

section
/-! PROOFS. Survey and naming: the order of the directory (R72, R73, R79, R80, R101) and of the in-service tables (R142) through
every step. -/

namespace Sys2Proof.Machine

/-! ### The order of the directory through every command -/

/-- Fewer entries and fewer reservations leave the directory in order. -/
theorem State.directoryOk.shrink {s t : State} (h : s.directoryOk) (he : t.dir.entries.Sublist s.dir.entries)
    (hr : ∀ l n, (t.lane l).reservation = some n → (s.lane l).reservation = some n) : t.directoryOk := by
  obtain ⟨hhandles, htags, hrange, hreserved, hdistinct⟩ := h
  refine ⟨hhandles.sublist he, htags.sublist he, fun e x => hrange e (he.subset x), fun l n x => ?_,
    fun l m n k hlm x y => hdistinct l m n k hlm (hr l n x) (hr m k y)⟩
  obtain ⟨h1, h2, hfree⟩ := hreserved l n (hr l n x)
  exact ⟨h1, h2, fun e y => hfree e (he.subset y)⟩

/-- A naming step reserves on the strength of the Survey Engine alone. -/
theorem Lane.reservation_congr {n m : Lane} (h : m.survey = n.survey) : m.reservation = n.reservation := by
  unfold Lane.reservation
  rw [h]

theorem Lane.reservation_cold {n : Lane} (h : n.survey.naming = none) (x : Naming) : n.reservation ≠ some x := by
  unfold Lane.reservation
  rw [h]
  exact nofun

theorem Lane.reservation_closed {n : Lane} {x : Naming} (h : n.closed.reservation = some x) : n.reservation = some x := by
  unfold Lane.closed at h
  split at h
  · exact h
  · exact absurd h (Lane.reservation_cold rfl x)

/-- R51, R52: a lane whose grant is for an ASSIGN is in the ASSIGN stage of a naming step of its pass. -/
theorem State.surveyOk.assigning {s : State} (h : s.surveyOk) (l : LaneId) (w : SurveyWork)
    (hg : (s.lane l).arbiter.grant = some (.survey w)) (t : Tag) (a : Nat) (hw : w = .assign t a) :
    (s.lane l).survey.naming.map (·.stage) = some .assign ∧ (s.lane l).state.surveying = true := by
  have hwork : Grant.surveyWork? (s.lane l).arbiter.grant = some w := by rw [hg]; rfl
  obtain ⟨_, _, _, _, hgrant, hrest, _⟩ := h l
  obtain ⟨⟨_, _, hassign⟩, _⟩ := hgrant w hwork
  refine ⟨hassign t a hw, ?_⟩
  by_contra hs
  obtain ⟨_, _, hnone⟩ := hrest (by simpa using hs)
  rw [hwork] at hnone
  cases hnone

/-- The order of the walk and of the directory: a reservation lives in the naming step of a walk. -/
def State.charted (s : State) : Prop := s.surveyOk ∧ s.directoryOk

theorem directoryOk_quietWait {s : State} (h : s.charted) (l : LaneId) : (s.quietWait l).directoryOk :=
  easy_dir.quietWait (fun _ l _ h => dir_modLane h l _ (fun _ hn => hn)) (fun _ l h => dir_modLane h l _ (fun _ hn => hn)) s l
    (fun _ => h.1.assigning l) h.2

theorem directoryOk_storeMask {s : State} (v : Nat) (h : s.directoryOk) : (storeMask v s).directoryOk := by
  refine h.shrink (.refl _) (fun l n hn => ?_)
  rw [← hn]
  fin_cases l
  all_goals exact Lane.reservation_congr (Lane.enableTo_spec _ _).2.2.1.symm

/-- The commands outside the Mate Monitor and the resets keep the directory in order. -/
theorem kept_charted : Kept State.charted where
  settled h k := ⟨h.calm.surveyOk k.1, h.calm.directoryOk k.2⟩
  engine s l x h := ⟨kept_surveyOk.engine s l x h.1, dir_modLane h.2 l _ (fun _ hn => hn)⟩
  quiet s l h := ⟨kept_surveyOk.quiet s l h.1, directoryOk_quietWait h l⟩
  trip s l hp h := ⟨kept_surveyOk.trip s l hp h.1,
    (calm_trip s l).directoryOk (dir_modLane h.2 l _ (fun n hn => absurd hn (Lane.reservation_cold rfl n)))⟩
  restart s l ho hd h := ⟨kept_surveyOk.restart s l ho hd h.1,
    (calm_restartLane s l).directoryOk (dir_modLane h.2 l _ (fun n hn => absurd hn (Lane.reservation_cold rfl n)))⟩
  settle s l ht h := ⟨kept_surveyOk.settle s l ht h.1,
    easy_dir.req _ l .forget (dir_modLane h.2 l _ (fun n hn => absurd hn (Lane.reservation_cold rfl n)))⟩
  rescan s l ht h := ⟨kept_surveyOk.rescan s l ht h.1,
    easy_dir.recallNext _ l (dir_modLane h.2 l _ (fun n hn => absurd hn (Lane.reservation_cold rfl n)))⟩
  powerUp s l d ht h := ⟨kept_surveyOk.powerUp s l d ht h.1, dir_modLane h.2 l _ (fun _ hn => hn)⟩
  rescanTimer s l d hs h := ⟨kept_surveyOk.rescanTimer s l d hs h.1, dir_modLane h.2 l _ (fun _ hn => hn)⟩
  mask s v he h := ⟨kept_surveyOk.mask s v he h.1, directoryOk_storeMask v h.2⟩
  missLimit _ _ _ _ _ h := h
  remove s e he hp h := ⟨kept_surveyOk.remove s e he hp h.1, h.2.shrink List.filter_sublist (fun _ _ hn => hn)⟩

theorem directoryOk_cold (s : State) (c : Option RestartCause) (r : Baud) : (s.cold c r).directoryOk := by
  have hnone : ∀ l n, ((s.cold c r).lane l).reservation ≠ some n := fun l n =>
    Lane.reservation_cold (by rw [State.cold_lane]; rfl) n
  refine ⟨.nil, .nil, fun e he => ?_, fun l n hn => absurd hn (hnone l n), fun l _ n _ _ hn => absurd hn (hnone l n)⟩
  exact absurd he List.not_mem_nil

theorem directoryOk_closeBlocks {s : State} (h : s.directoryOk) : s.closeBlocks.directoryOk := by
  refine h.shrink ?_ (fun l n hn => ?_)
  · rw [show s.closeBlocks.dir.entries = [] from Directory.emptied_entries _]
    exact List.nil_sublist _
  · rw [State.closeBlocks_lane] at hn
    exact Lane.reservation_closed hn

theorem directoryOk_opening {s : State} (h : s.directoryOk) : s.opening.directoryOk := by
  refine h.shrink (.refl _) (fun l n hn => ?_)
  obtain ⟨_, _, hsurvey, _⟩ := Lane.opened_order (s.lane l) (s.timer Config.settleMs)
  rw [State.opening_lane, Lane.reservation_congr hsurvey] at hn
  exact hn

/-- The commands of the Mate Monitor and the resets keep the directory in order. -/
theorem keptMate_directoryOk : KeptMate State.directoryOk where
  settled h k := h.calm.directoryOk k
  cold := directoryOk_cold
  mate _ _ _ h := h
  close _ := directoryOk_closeBlocks
  opening _ _ := directoryOk_opening
  fault s h := h.shrink (.refl _) (fun l n hn => by
    unfold State.lane at hn
    rw [Four.get_map] at hn
    exact hn)

/-- Two properties of the one state that a command answers. -/
theorem exec_both {c : Instr} {s : State} {P Q : State → Prop} (h : ∃ t, exec c s = .next t ∧ P t)
    (k : ∃ t, exec c s = .next t ∧ Q t) : ∃ t, exec c s = .next t ∧ P t ∧ Q t := by
  obtain ⟨t, ht, hp⟩ := h
  obtain ⟨u, hu, hq⟩ := k
  rw [ht] at hu
  cases hu
  exact ⟨t, ht, hp, hq⟩

/-- R51, R72, R79: every command keeps the walk and the directory in order together. -/
theorem step_charted {s t : State} (h : s.charted) (ht : step s = .next t) : t.charted :=
  kept_charted.step (fun s hs pin level r1 r0 c hc => exec_both (keptMate_surveyOk.mates s hs.1 pin level r1 r0 c hc)
    (keptMate_directoryOk.mates s hs.2 pin level r1 r0 c hc)) s t h ht

/-! ### The bounds of the directory and the in-service tables through every command -/

/-- What the bounds and the tables rest on: the order of the walk, the power law and the order of the directory. -/
def State.sound (s : State) : Prop := s.charted ∧ s.powerLaw ∧ s.orderly

theorem State.sound.served {s : State} (h : s.sound) : s.served := ⟨h.2.1, h.1.2, h.2.2⟩

/-- R106: while the plug is disabled no session is open. -/
theorem State.powerLaw.shut {s : State} (h : s.powerLaw) (he : s.mate.enabled = false) : s.mate.session = false := by
  rw [← Bool.not_eq_true, ((Mate.sessionOk_iff _).1 h.1).1, he]
  exact fun x => nomatch x.2

/-- R64: a rescan pass that begins on a SUPERVISING lane. -/
theorem orderly_beginRescan {s : State} {l : LaneId} (ht : (s.lane l).state = .supervising ∨ (s.lane l).rescanTimer.isSome)
    (h : s.served) : (s.beginRescan l).orderly := by
  obtain ⟨hpower, hdir, horder⟩ := h
  have hs : (s.lane l).state = .supervising := ht.elim id (hpower.lane l).rescan
  have hsettle : (s.lane l).settleTimer.isSome = false := by
    rw [← Bool.not_eq_true]
    exact fun x => nomatch hs.symm.trans ((hpower.lane l).settle x)
  exact (served_survey.recallNext _ l
    ⟨powerLaw_modLane l _ hpower ((hpower.lane l).passBegins (.inr ⟨hs, rfl⟩) rfl hsettle rfl rfl),
      dir_modLane hdir l _ (fun n hn => absurd hn (Lane.reservation_cold rfl n)), horder.rescan l⟩).2.2

/-- The commands outside the Mate Monitor and the resets keep the bounds and the tables. -/
theorem kept_sound : Kept State.sound where
  settled h k := ⟨kept_charted.settled h k.1, kept_powerLaw.settled h k.2.1, h.ordered k.2.2⟩
  engine s l x h := ⟨kept_charted.engine s l x h.1, kept_powerLaw.engine s l x h.2.1, s.ordered_engine l x h.2.2⟩
  quiet s l h := ⟨kept_charted.quiet s l h.1, kept_powerLaw.quiet s l h.2.1, (h.served.quiet h.1.1 l).2.2⟩
  trip s l hp h := ⟨kept_charted.trip s l hp h.1, kept_powerLaw.trip s l hp h.2.1, s.ordered_trip l h.2.2⟩
  restart s l ho hd h :=
    ⟨kept_charted.restart s l ho hd h.1, kept_powerLaw.restart s l ho hd h.2.1, s.ordered_restartLane l h.2.2⟩
  settle s l ht h := ⟨kept_charted.settle s l ht h.1, kept_powerLaw.settle s l ht h.2.1,
    h.2.2.settle l (by rw [(h.2.1.lane l).settle ht]; rfl)⟩
  rescan s l ht h := ⟨kept_charted.rescan s l ht h.1, kept_powerLaw.rescan s l ht h.2.1, orderly_beginRescan ht h.served⟩
  powerUp s l d ht h := ⟨kept_charted.powerUp s l d ht h.1, kept_powerLaw.powerUp s l d ht h.2.1,
    h.2.2.powerUp l (some d) ((h.2.1.lane l).restart ht).1⟩
  rescanTimer s l d hs h := ⟨kept_charted.rescanTimer s l d hs h.1, kept_powerLaw.rescanTimer s l d hs h.2.1,
    s.ordered_rescanTimer l d h.2.2⟩
  mask s v he h := ⟨kept_charted.mask s v he h.1, kept_powerLaw.mask s v he h.2.1, s.ordered_storeMask v h.2.2⟩
  missLimit s v he h1 h15 h := ⟨kept_charted.missLimit s v he h1 h15 h.1, kept_powerLaw.missLimit s v he h1 h15 h.2.1,
    h.2.2.missLimit (h.2.1.shut he) v h1 h15⟩
  remove s e he hp h := ⟨kept_charted.remove s e he hp h.1, kept_powerLaw.remove s e he hp h.2.1, h.2.2.remove he hp⟩

/-- R73, R101, R142: every command keeps the bounds and the tables, with what they rest on. -/
theorem step_sound {s t : State} (h : s.sound) (ht : step s = .next t) : t.sound :=
  kept_sound.step (fun s hs pin level r1 r0 c hc =>
    exec_both (exec_both (keptMate_surveyOk.mates s hs.1.1 pin level r1 r0 c hc)
        (keptMate_directoryOk.mates s hs.1.2 pin level r1 r0 c hc))
      (exec_both (powerLaw_mates s hs.2.1 pin level r1 r0 c hc) (orderly_mate.mates s hs.2.2 pin level r1 r0 c hc))) s t h ht

/-- R73: the addresses of a lane are distinct and lie in 1..30. -/
theorem State.boundsOk.onLane_length {s : State} (h : s.boundsOk) (l : LaneId) : (s.onLane l).length ≤ 30 := by
  obtain ⟨_, _, _, hentry, haddr, _⟩ := h
  have hmem : ∀ e, e ∈ s.onLane l ↔ e ∈ s.dir.entries ∧ e.lane = l := fun e => by
    unfold State.onLane
    rw [List.mem_filter, decide_eq_true_eq]
  have hnodup : ((s.onLane l).map (·.addr)).Nodup := by
    refine List.pairwise_map.2 ((haddr.sublist List.filter_sublist).imp_of_mem (fun ha hb hab => hab ?_))
    exact ((hmem _).1 ha).2.trans ((hmem _).1 hb).2.symm
  have hrange : ((s.onLane l).map (·.addr)).toFinset ⊆ Finset.Icc 1 30 := by
    intro a ha
    obtain ⟨e, he, rfl⟩ := List.mem_map.1 (List.mem_toFinset.1 ha)
    exact Finset.mem_Icc.2 (hentry e ((hmem e).1 he).1).2
  have hcard := Finset.card_le_card hrange
  rwa [List.toFinset_card_of_nodup hnodup, List.length_map, Nat.card_Icc] at hcard

/-- Settles O8: the directory's order with the order of the walk, its bounds and the in-service tables with the power law too. -/
theorem stepKeepsDirectoryOrder : Obligations.StepKeepsDirectoryOrder := by
  unfold Obligations.StepKeepsDirectoryOrder
  refine ⟨fun s t hwalk hdir ht => ?_, fun s t hwalk hpower hdir hbounds hservice ht => ?_⟩
  · obtain ⟨_, h⟩ := step_charted ⟨hwalk, hdir⟩ ht
    exact ⟨h, h.length_le⟩
  · obtain ⟨_, _, h⟩ := step_sound ⟨⟨hwalk, hdir⟩, hpower, hdir.nodup, hbounds, hservice⟩ ht
    exact ⟨h.bounds, h.service, h.bounds.onLane_length⟩

end Sys2Proof.Machine
end

section
/-! PROOFS. The rescan of a lane: the lane parameters of CONFIGURE (R63, R99, R134, R151, R192), and RESCAN and the rescan timer
(R62, R64, R65, R68). -/

namespace Sys2Proof.Machine

/-! ### CONFIGURE of one lane (R192) -/

/-- R192: a parameter of one lane is stored for a selector and a value in their ranges. -/
theorem perLane_stores {q : Request} {c hi lo : Byte} {l : LaneId} (hp : q.payload = [c, byteOf l.val, hi, lo]) {a b : Nat}
    (ha : a ≤ (word16 hi lo).toNat) (hb : (word16 hi lo).toNat ≤ b) (store : LaneId → Nat → State → State) (s : State) :
    perLane (inRange a b) store q s = (store l (word16 hi lo).toNat s).ok q q.payload := by
  have hlane : laneOf (at' q.payload 1) = some l := by rw [hp]; exact laneOf_byteOf l
  unfold perLane
  simp only [hlane, Request.value_of_payload hp]
  rw [if_pos (inRange_iff.2 ⟨ha, hb⟩), State.configured_of_payload hp]

theorem perLane_refuses {q : Request} {c sel hi lo : Byte} (hp : q.payload = [c, sel, hi, lo]) {a b : Nat}
    (hbad : 3 < sel.toNat ∨ (word16 hi lo).toNat < a ∨ b < (word16 hi lo).toNat)
    (store : LaneId → Nat → State → State) (s : State) :
    perLane (inRange a b) store q s = s.refuse q .badArgument := by
  have hlane : laneOf (at' q.payload 1) = laneOf sel := by rw [hp]; rfl
  unfold perLane
  rw [hlane, Request.value_of_payload hp]
  cases hl : laneOf sel with
  | none => rfl
  | some l =>
    have hrange := hbad.resolve_left (fun h => nomatch (laneOf_large sel h).symm.trans hl)
    refine if_neg (fun hv => ?_)
    obtain ⟨ha, hb⟩ := inRange_iff.1 hv
    omega

/-- R63: in SUPERVISING the rescan timer restarts from now, or stops at 0. -/
theorem storeRescanInterval_eq (l : LaneId) (v : Nat) (s : State) : storeRescanInterval l v s = s.setLane l { s.lane l with
    rescanSeconds := v
    rescanTimer := if (s.lane l).state = .supervising then (if v = 0 then none else some (s.now + 1000 * v))
      else (s.lane l).rescanTimer } := by
  unfold storeRescanInterval
  by_cases hs : (s.lane l).state = .supervising
  · simp only [if_pos hs]
    unfold State.rescanDeadline
    rw [State.lane_modLane_self, State.modLane_modLane]
    rfl
  · simp only [if_neg hs]
    rfl

/-- Settles O22: the three rows by perLane_stores and perLane_refuses. -/
theorem configureStoresLaneParameter : Obligations.ConfigureStoresLaneParameter := by
  unfold Obligations.ConfigureStoresLaneParameter
  intro s q rest l sel hi lo hq hk
  have hgap : ∀ {x : Byte}, q.payload = [3, x, hi, lo] →
      exec .configurePollGap s = .next (perLane (inRange 1 255) storePollGap q (s.took rest)) :=
    fun hp => take_configure hq hk hp _
  have hinterval : ∀ {x : Byte}, q.payload = [4, x, hi, lo] →
      exec .configureRescanInterval s = .next (perLane (inRange 0 255) storeRescanInterval q (s.took rest)) :=
    fun hp => take_configure hq hk hp _
  have hrotation : ∀ {x : Byte}, q.payload = [6, x, hi, lo] →
      exec .configureRotation s = .next (perLane (inRange 0 1) storeRotation q (s.took rest)) :=
    fun hp => take_configure hq hk hp _
  refine ⟨fun hp h1 h255 => ?_, fun hp hbad => ?_, fun hp h255 => ?_, fun hp hbad => ?_, fun hp h01 => ?_, fun hp hbad => ?_⟩
  · rw [hgap hp, perLane_stores hp h1 h255]
    rfl
  · rw [hgap hp, perLane_refuses hp (hbad.imp_right (.imp_left Nat.lt_one_iff.2))]
  · rw [hinterval hp, perLane_stores hp (Nat.zero_le _) h255, storeRescanInterval_eq]
    rfl
  · rw [hinterval hp, perLane_refuses hp (hbad.imp_right .inr)]
  · rw [hrotation hp, perLane_stores hp (Nat.zero_le _) (by omega)]
    rfl
  · rw [hrotation hp, perLane_refuses hp (hbad.imp_right .inr)]

/-! ### RESCAN and the rescan timer (R62, R64, R65, R68) -/

/-- R66: the DESCRIBE step asks for one telegram within its pass. -/
theorem State.describeNext_asks (s : State) (l : LaneId) :
    ∃ (f : Survey → Survey) (w : SurveyWork), s.describeNext l = s.asks l f w ∧ ∀ v, (f v).pass = v.pass := by
  unfold State.describeNext
  split
  · exact ⟨_, _, State.requestSurvey_modSurvey _ _ _ _, fun _ => rfl⟩
  · exact ⟨_, _, State.beginWalk_asks _ _, fun _ => rfl⟩

/-- R65: and so does the recall step. -/
theorem State.recallNext_asks (s : State) (l : LaneId) :
    ∃ (f : Survey → Survey) (w : SurveyWork), s.recallNext l = s.asks l f w ∧ ∀ v, (f v).pass = v.pass := by
  unfold State.recallNext
  split
  · exact ⟨_, _, State.requestSurvey_modSurvey _ _ _ _, fun _ => rfl⟩
  · obtain ⟨f, w, h, hpass⟩ := (s.modSurvey l (fun v => { v with step := some .describe, position := none })).describeNext_asks l
    exact ⟨_, w, h.trans (State.modSurvey_asks _ _ _ _ _), fun v => hpass _⟩

/-- R64, R114: what a rescan pass that begins makes of its lane, and that it leaves all else alone. -/
structure State.rescanBegun (s : State) (l : LaneId) (t : State) : Prop where
  state : (t.lane l).state = .rescanning
  timer : (t.lane l).rescanTimer = none
  pass : (t.lane l).survey.pass = some .rescan
  standing : (s.lane l).keepsStanding (t.lane l)
  rest : s.keepsRest t
  dir : t.dir = s.dir
  mate : t.mate = s.mate
  resolver : t.resolver = s.resolver
  others : ∀ m, m ≠ l → t.lane m = s.lane m

theorem State.beginRescan_begun (s : State) (l : LaneId) : s.rescanBegun l ((s.beginRescan l).arbitrate l) := by
  obtain ⟨f, w, hasks, hpass⟩ := (s.modLane l (fun n => { n with
    rescanTimer := none, state := .rescanning
    survey := { Survey.cold with pass := some .rescan, step := some .recall } })).recallNext_asks l
  have hbegin : s.beginRescan l = s.modLane l (fun n => { n with
      rescanTimer := none, state := .rescanning
      survey := f { Survey.cold with pass := some .rescan, step := some .recall }
      arbiter := { n.arbiter with standing := { n.arbiter.standing with survey := some w } } }) :=
    hasks.trans (State.modLane_modLane _ _ _ _)
  rw [hbegin]
  obtain ⟨hwork, hothers, hdir, hmate, hresolver, hrest⟩ := s.modLane_arbitrate_frame l (fun n => { n with
      rescanTimer := none, state := .rescanning
      survey := f { Survey.cold with pass := some .rescan, step := some .recall }
      arbiter := { n.arbiter with standing := { n.arbiter.standing with survey := some w } } })
  exact ⟨hwork.service.state, congrArg Lane.rescanTimer hwork, (congrArg Survey.pass hwork.service.survey).trans (hpass _),
    hwork.standing, hrest, hdir, hmate, hresolver, hothers⟩

theorem exec_rescan {s : State} {q : Request} {rest : List Request} {n : Byte} (hq : s.queued q rest) (hk : q.kind = 0x11)
    (hp : q.payload = [n]) : exec .rescan s = .next (serveRescan q (s.took rest)) :=
  take_next hq (by simp [ofKind, hk]) (by rw [hk, hp]; rfl)

theorem exec_rescanTimerExpiry {s : State} {l : LaneId} {d : Nat} (h : (s.lane l).rescanTimer = some d) :
    exec (.rescanTimerExpiry l) s = .next ((s.beginRescan l).arbitrate l) := by
  change execRescanTimerExpiry l s = _
  unfold execRescanTimerExpiry
  rw [if_pos (by rw [h]; rfl)]

/-- R68: RESCAN of a lane, according to its state. -/
theorem serveRescan_cases {q : Request} {l : LaneId} (hp : q.payload = [byteOf l.val]) (s : State) :
    ((s.lane l).state = .supervising → serveRescan q s = ((s.beginRescan l).arbitrate l).laneReply q l)
    ∧ ((s.lane l).state = .rescanning → serveRescan q s = s.laneReply q l)
    ∧ ((s.lane l).state ≠ .supervising → (s.lane l).state ≠ .rescanning → serveRescan q s = s.refuse q .notNow) := by
  have hlane : laneOf (at' q.payload 0) = some l := by rw [hp]; exact laneOf_byteOf l
  unfold serveRescan
  simp only [hlane]
  refine ⟨fun hs => by rw [hs], fun hs => by rw [hs], fun h1 h2 => ?_⟩
  cases hs : (s.lane l).state with
  | supervising => exact absurd hs h1
  | rescanning => exact absurd hs h2
  | disabled => rfl
  | off => rfl
  | settling => rfl
  | enumerating => rfl
  | faulted => rfl

theorem serveRescan_unknown {q : Request} {n : Byte} (hp : q.payload = [n]) (hn : 3 < n.toNat) (s : State) :
    serveRescan q s = s.refuse q .badArgument := by
  have hlane : laneOf (at' q.payload 0) = none := by rw [hp]; exact laneOf_large n hn
  unfold serveRescan
  rw [hlane]

/-- The reply to a RESCAN that a RESCANNING lane goes on with. -/
theorem State.laneReply_rescanning {s : State} {l : LaneId} (h : (s.lane l).state = .rescanning) (q : Request) :
    s.laneReply q l = s.ok q [byteOf l.val, 5] := by
  unfold State.laneReply
  rw [h]
  rfl

/-- Settles O26: the pass that begins by State.beginRescan_begun and State.beginRescan_rescans. -/
theorem rescanStartsPass : Obligations.RescanStartsPass := by
  unfold Obligations.RescanStartsPass
  refine ⟨fun s q rest l n hq hk => ⟨fun hp hs => ?_, fun hp hs => ?_, fun hp h1 h2 => ?_, fun hp hn => ?_⟩, fun s l d hd => ?_⟩
  · have h := (s.took rest).beginRescan_begun l
    have hx : exec .rescan s = .next ((((s.took rest).beginRescan l).arbitrate l).ok q [byteOf l.val, 5]) := by
      rw [exec_rescan hq hk hp, (serveRescan_cases hp (s.took rest)).1 hs, State.laneReply_rescanning h.state]
    exact ⟨_, hx, rfl, Link.currentReply_send _ _, h.state, h.timer, h.pass, h.standing, h.rest.trans (State.keepsRest_ok _ _ _),
      h.dir, h.mate, h.resolver, h.others, _, (s.took rest).beginRescan_rescans l, rfl⟩
  · rw [exec_rescan hq hk hp, (serveRescan_cases hp (s.took rest)).2.1 hs, State.laneReply_rescanning (s := s.took rest) hs]
  · rw [exec_rescan hq hk hp, (serveRescan_cases hp (s.took rest)).2.2 h1 h2]
  · rw [exec_rescan hq hk hp, serveRescan_unknown hp hn]
  · have h := s.beginRescan_begun l
    exact ⟨_, exec_rescanTimerExpiry hd, h.state, h.timer, h.pass, h.standing, h.rest, h.dir, h.mate, h.resolver, h.others,
      s.beginRescan_rescans l⟩

end Sys2Proof.Machine
end

section
/-! PROOFS. The naming of a node: the decision on a tag (R49 to R51, R55 to R59), and the outcomes of ASSIGN and DESCRIBE (R52 to
R57, R66, R148). -/

namespace Sys2Proof.Machine

/-! ### The naming decision (R50) -/

/-- R50: the decision on a tag that an entry carries. -/
theorem State.decideNaming_known {s : State} {t : Tag} {e : Entry} (h : s.byTag? t = some e) (l : LaneId) :
    s.decideNaming l t = if s.heldElsewhere l e.handle then .duplicate
      else if e.presence = .lost then .reclaim e
      else if e.lane = l then .rejoin e
      else .duplicate := by
  unfold State.decideNaming
  rw [h]

/-- R50: the decision on a tag that no entry carries. -/
theorem State.decideNaming_unknown {s : State} {t : Tag} (h : s.byTag? t = none) (l : LaneId) :
    s.decideNaming l t = if s.newElsewhere l t then .duplicate else .new := by
  unfold State.decideNaming
  rw [h]

/-- All that a naming decision and its places are decided by: the directory and the naming steps. -/
structure State.namesAlike (s t : State) : Prop where
  dir : t.dir = s.dir
  naming : ∀ m, (t.lane m).survey.naming = (s.lane m).survey.naming

theorem State.namesAlike.decideNaming {s v : State} (h : s.namesAlike v) (l : LaneId) (t : Tag) :
    v.decideNaming l t = s.decideNaming l t := by
  unfold State.decideNaming State.byTag? State.heldElsewhere State.newElsewhere
  simp only [h.dir, h.naming]

theorem State.namesAlike.onLane {s v : State} (h : s.namesAlike v) (l : LaneId) : v.onLane l = s.onLane l := by
  unfold State.onLane
  rw [h.dir]

theorem State.namesAlike.reserved {s v : State} (h : s.namesAlike v) : v.reserved = s.reserved := by
  unfold State.reserved
  simp only [h.naming]

theorem State.namesAlike.lowestAddr {s v : State} (h : s.namesAlike v) {l : LaneId} {a : Nat} (ha : s.lowestAddr l a) :
    v.lowestAddr l a := by
  unfold State.lowestAddr State.onLaneAt? at *
  rw [h.dir]
  exact ha

theorem State.namesAlike.lowestHandle {s v : State} (h : s.namesAlike v) {k : Nat} (hk : s.lowestHandle k) :
    v.lowestHandle k := by
  unfold State.lowestHandle State.entry? at *
  rw [h.dir, h.reserved]
  exact hk

/-- R49: the state that a decision is made in names as the one before the outcome did. -/
theorem State.prefixGone_namesAlike (s : State) (l : LaneId) : s.namesAlike ((s.engineFree l).prefixGone l) where
  dir := rfl
  naming m := by
    unfold State.prefixGone
    rw [State.lane_modLane]
    by_cases hm : m = l
    · rw [if_pos hm, State.engineFree_lane, hm]
    · rw [if_neg hm, State.engineFree_lane_ne _ hm]

/-! ### What a decision starts or records (R49, R51, R56 to R59) -/

theorem State.startNaming_starts (s : State) (l : LaneId) (t : Tag) (k : NamingKind) (h a : Nat) :
    s.startNaming l t k h a = s.startsNaming l t k h a := State.requestSurvey_modSurvey _ _ _ _

/-- R58, R59: a naming that is refused is recorded with the tag, and the walk goes on. -/
theorem State.refuseNaming_goes (s : State) (l : LaneId) (t : Tag) (c : FaultCause) :
    (s.faults l { cause := c, addr := none, tag := some t }).goesOn l (s.refuseNaming l t c) := by
  unfold State.refuseNaming
  rw [State.writeFault_faults]
  exact State.surveyNext_goes _ l

section
variable {s : State} {l : LaneId} {t : Tag}

/-- R49: a CLEAN outcome goes the way of its decision. -/
theorem State.surveyClean_rejoin {e : Entry} (h : (s.prefixGone l).decideNaming l t = .rejoin e) :
    s.surveyClean l t = (s.prefixGone l).startsNaming l t .rejoin e.handle e.addr := by
  have hd : (s.dropCurrent l).decideNaming l t = .rejoin e := h
  unfold State.surveyClean
  simp only [hd]
  exact State.startNaming_starts _ _ _ _ _ _

theorem State.surveyClean_reclaim {e : Entry} (h : (s.prefixGone l).decideNaming l t = .reclaim e) :
    s.surveyClean l t = (s.prefixGone l).nameReclaim l t e := by
  have hd : (s.dropCurrent l).decideNaming l t = .reclaim e := h
  unfold State.surveyClean
  simp only [hd]
  rfl

theorem State.surveyClean_duplicate (h : (s.prefixGone l).decideNaming l t = .duplicate) :
    s.surveyClean l t = (s.prefixGone l).refuseNaming l t .duplicateTag := by
  have hd : (s.dropCurrent l).decideNaming l t = .duplicate := h
  unfold State.surveyClean
  simp only [hd]
  rfl

theorem State.surveyClean_new (h : (s.prefixGone l).decideNaming l t = .new) :
    s.surveyClean l t = (s.prefixGone l).nameNew l t := by
  have hd : (s.dropCurrent l).decideNaming l t = .new := h
  unfold State.surveyClean
  simp only [hd]
  rfl

theorem State.laneIsFull_iff : s.laneIsFull l = true ↔ 30 ≤ (s.onLane l).length := decide_eq_true_iff

theorem State.directoryIsFull_iff : s.directoryIsFull = true ↔ 64 ≤ s.dir.entries.length + s.reserved.length := decide_eq_true_iff

/-- R56: an entry is reclaimed on its own lane at its own address. -/
theorem State.nameReclaim_home {e : Entry} (h : e.lane = l) :
    s.nameReclaim l t e = s.startsNaming l t .reclaim e.handle e.addr :=
  (if_pos h).trans (State.startNaming_starts _ _ _ _ _ _)

/-- R57: and from another lane at the lowest free address. -/
theorem State.nameReclaim_away {e : Entry} {a : Nat} (h : e.lane ≠ l) (hroom : (s.onLane l).length < 30) (ha : s.lowestAddr l a) :
    s.nameReclaim l t e = s.startsNaming l t .reclaim e.handle a := by
  unfold State.nameReclaim
  rw [if_neg h, if_neg (by rw [State.laneIsFull_iff]; omega), State.freeAddr_lowest.2 ha]
  exact State.startNaming_starts _ _ _ _ _ _

theorem State.nameReclaim_full {e : Entry} (h : e.lane ≠ l) (hfull : 30 ≤ (s.onLane l).length) :
    s.nameReclaim l t e = s.refuseNaming l t .laneFull := by
  unfold State.nameReclaim
  rw [if_neg h, if_pos (State.laneIsFull_iff.2 hfull)]

theorem State.nameNew_laneFull (hfull : 30 ≤ (s.onLane l).length) : s.nameNew l t = s.refuseNaming l t .laneFull :=
  if_pos (State.laneIsFull_iff.2 hfull)

theorem State.nameNew_directoryFull (hroom : (s.onLane l).length < 30) (hfull : 64 ≤ s.dir.entries.length + s.reserved.length) :
    s.nameNew l t = s.refuseNaming l t .directoryFull := by
  unfold State.nameNew
  rw [if_neg (by rw [State.laneIsFull_iff]; omega), if_pos (State.directoryIsFull_iff.2 hfull)]

/-- R51, R79, R80: a new node is given the lowest free handle and address. -/
theorem State.nameNew_starts {a h : Nat} (hlane : (s.onLane l).length < 30)
    (hdir : s.dir.entries.length + s.reserved.length < 64) (ha : s.lowestAddr l a) (hh : s.lowestHandle h) :
    s.nameNew l t = s.startsNaming l t .new h a := by
  unfold State.nameNew
  rw [if_neg (by rw [State.laneIsFull_iff]; omega), if_neg (by rw [State.directoryIsFull_iff]; omega),
    State.freeAddr_lowest.2 ha, State.freeHandle_lowest.2 hh]
  exact State.startNaming_starts _ _ _ _ _ _

end

/-- Settles O34: the table by State.decideNaming_known and State.decideNaming_unknown, and what follows a CLEAN outcome by the
lemma on its decision. -/
theorem namingIsDecided : Obligations.NamingIsDecided := by
  unfold Obligations.NamingIsDecided
  intro s l t e
  refine ⟨fun he hheld hl hp => ?_, fun he hheld hp => ?_, fun he h => ?_, fun hb hn => ?_, fun hb hn => ?_,
    fun u p c v hends hv => ?_⟩
  · simp [State.decideNaming_known he, hheld, hp, hl]
  · simp [State.decideNaming_known he, hheld, hp]
  · rcases h with ⟨hl, hp⟩ | hheld
    · simp [State.decideNaming_known he, hp, hl]
    · simp [State.decideNaming_known he, hheld]
  · simp [State.decideNaming_unknown hb, hn]
  · simp [State.decideNaming_unknown hb, hn]
  have hgives : s.outcomeGives c l ((s.engineFree l).surveyClean l t) :=
    hends.surveys (Underway.again_answered (r := .clean t) nofun nofun u)
  subst hv
  have halike := s.prefixGone_namesAlike l
  rw [← halike.decideNaming, ← halike.onLane, ← halike.reserved, ← halike.dir]
  refine ⟨fun f hd => State.surveyClean_rejoin hd ▸ hgives, fun f hd => ?_, fun hd => ?_, fun hd => ?_⟩
  · rw [State.surveyClean_reclaim hd] at hgives
    exact ⟨fun hl => State.nameReclaim_home hl ▸ hgives,
      fun a hl hroom ha => State.nameReclaim_away hl hroom (halike.lowestAddr ha) ▸ hgives,
      fun hl hfull => ⟨_, State.refuseNaming_goes _ l t _, State.nameReclaim_full hl hfull ▸ hgives⟩⟩
  · exact ⟨_, State.refuseNaming_goes _ l t _, State.surveyClean_duplicate hd ▸ hgives⟩
  · rw [State.surveyClean_new hd] at hgives
    exact ⟨fun hfull => ⟨_, State.refuseNaming_goes _ l t _, State.nameNew_laneFull hfull ▸ hgives⟩,
      fun hroom hfull => ⟨_, State.refuseNaming_goes _ l t _, State.nameNew_directoryFull hroom hfull ▸ hgives⟩,
      fun a h hlane hdir ha hh =>
        State.nameNew_starts hlane hdir (halike.lowestAddr ha) (halike.lowestHandle hh) ▸ hgives⟩

/-! ### ASSIGN (R52 to R57) -/

section
variable {s : State} {l : LaneId} {n : Naming} (hn : (s.lane l).survey.naming = some n)
include hn

theorem State.surveyOutcome_assigned (t : Tag) (a : Nat) (x : Answer) :
    s.surveyOutcome l (.assign t a) (.answered x) = s.assigned l n := by
  unfold State.surveyOutcome
  simp only [hn]

theorem State.surveyOutcome_unassigned (t : Tag) (a : Nat) : s.surveyOutcome l (.assign t a) .noAnswer = s.assignSilent l n := by
  unfold State.surveyOutcome
  simp only [hn]

end

/-- R52, R54, R61: the creation of an entry, in the terms of the Survey Engine's next request. -/
theorem State.assignedNew_eq (s : State) (l : LaneId) (n : Naming) : s.assignedNew l n
    = ((((s.create (newEntry l n)).asks l (fun v => { v with naming := some { n with stage := .describe } })
      (.describe (newEntry l n).target)).post (.node n.handle .named)).report n.handle n.tag) := by
  rw [← State.requestSurvey_modSurvey]
  rfl

@[simp] theorem State.lane_report (s : State) (h : Nat) (t : Tag) (l : LaneId) : (s.report h t).lane l = s.lane l := rfl

theorem State.asks_lane (s : State) (l : LaneId) (f : Survey → Survey) (w : SurveyWork) : (s.asks l f w).lane l = { s.lane l with
    survey := f (s.lane l).survey
    arbiter := { (s.lane l).arbiter with standing := { (s.lane l).arbiter.standing with survey := some w } } } :=
  State.lane_modLane_self _ _ _

theorem State.asks_lane_ne (s : State) {l m : LaneId} (h : m ≠ l) (f : Survey → Survey) (w : SurveyWork) :
    (s.asks l f w).lane m = s.lane m := State.lane_modLane_ne _ _ _ _ h

theorem State.assignedNew_lane (s : State) (l : LaneId) (n : Naming) : (s.assignedNew l n).lane l = { s.lane l with
    survey := { (s.lane l).survey with naming := some { n with stage := .describe } }
    arbiter := { (s.lane l).arbiter with
      standing := { (s.lane l).arbiter.standing with survey := some (.describe (newEntry l n).target) } } } := by
  rw [State.assignedNew_eq, State.lane_report, State.lane_post, State.asks_lane, State.lane_create]

theorem State.assignedNew_lane_ne (s : State) {l m : LaneId} (n : Naming) (h : m ≠ l) :
    (s.assignedNew l n).lane m = s.lane m := by
  rw [State.assignedNew_eq, State.lane_report, State.lane_post, State.asks_lane_ne _ h, State.lane_create]

theorem insertEntry_mem (e x : Entry) (xs : List Entry) : x ∈ insertEntry e xs ↔ x = e ∨ x ∈ xs := by
  rw [(insertEntry_perm e xs).mem_iff, List.mem_cons]

theorem insertEntry_length (e : Entry) (xs : List Entry) : (insertEntry e xs).length = xs.length + 1 :=
  (insertEntry_perm e xs).length_eq

/-- R55 to R57: what an entry comes back as. -/
def Naming.bringsBack (n : Naming) (l : LaneId) (e : Entry) : Entry :=
  if n.kind = .rejoin then e.rejoined else e.reclaimed l n.addr

theorem Naming.bringsBack_attention (n : Naming) (l : LaneId) (e : Entry) :
    (n.bringsBack l e).attention = e.attention ∨ (n.bringsBack l e).attention = .idle := by
  unfold Naming.bringsBack
  split
  · exact .inr rfl
  · unfold Entry.reclaimed
    simp only
    split
    · exact .inl rfl
    · exact .inr rfl

theorem State.heldEntry?_eq_some {s : State} {n : Naming} {e : Entry} (h : s.entry? n.handle = some e) (ht : e.tag = n.tag) :
    s.heldEntry? n = some e := Option.filter_eq_some_iff.2 ⟨h, decide_eq_true ht⟩

theorem State.heldEntry?_eq_none {s : State} {n : Naming} (h : ∀ e, s.entry? n.handle = some e → e.tag ≠ n.tag) :
    s.heldEntry? n = none := Option.filter_eq_none_iff.2 fun e he ht => h e he (of_decide_eq_true ht)

/-- R55 to R57: the ASSIGN of a REJOIN or RECLAIM is answered while the entry is there. -/
theorem State.assigned_back {s : State} {l : LaneId} {n : Naming} {e : Entry} (hk : n.kind ≠ .new)
    (he : s.heldEntry? n = some e) :
    s.assigned l n = ((s.comeBack e (n.bringsBack l e)).namingGone l).surveyNext l := by
  unfold State.assigned Naming.bringsBack
  cases hkind : n.kind with
  | new => exact absurd hkind hk
  | rejoin => simp only [he]; rfl
  | reclaim => simp only [he]; rfl

/-- R82: and while it is not. -/
theorem State.assigned_gone {s : State} {l : LaneId} {n : Naming} (hk : n.kind ≠ .new) (he : s.heldEntry? n = none) :
    s.assigned l n = (s.namingGone l).surveyNext l := by
  unfold State.assigned
  cases hkind : n.kind with
  | new => exact absurd hkind hk
  | rejoin => simp only [he]; rfl
  | reclaim => simp only [he]; rfl

theorem State.assigned_new {s : State} {l : LaneId} {n : Naming} (hk : n.kind = .new) : s.assigned l n = s.assignedNew l n := by
  unfold State.assigned
  simp only [hk]

/-- R53: an ASSIGN without an answer is recorded, and the naming step ends. -/
theorem State.assignSilent_eq (s : State) (l : LaneId) (n : Naming) : s.assignSilent l n
    = ((s.faults l { cause := .noAnswer, addr := some n.addr, tag := some n.tag }).namingGone l).surveyNext l := by
  unfold State.assignSilent
  rw [State.writeFault_faults]
  rfl

/-- R33: an attempt without a valid answer has the outcome NO_ANSWER. -/
theorem AttemptResult.outcome_noAnswer {r : AttemptResult} (h : r = .noAnswer ∨ r = .invalid) : r.outcome = .noAnswer := by
  rcases h with rfl | rfl <;> rfl

/-! ### DESCRIBE (R54, R66) -/

theorem State.describeOutcome_answered (s : State) (l : LaneId) (p : Target) (d : Descriptor) :
    s.describeOutcome l p (.answered (.descriptor d)) = ((s.storeDescriptor p d).namingGone l).surveyNext l := rfl

theorem State.describeOutcome_noAnswer (s : State) (l : LaneId) (p : Target) : s.describeOutcome l p .noAnswer
    = ((s.faults l { cause := .noAnswer, addr := some p.addr, tag := some p.tag }).namingGone l).surveyNext l := by
  rw [← State.writeFault_faults]
  rfl

/-- R52, R116: an answered ASSIGN of a NEW step creates its entry, and then the grant ends. -/
theorem State.endsWith.creates {s : State} {l : LaneId} {u : Underway} {n : Naming} {a : Answer} {c : Instr}
    (hends : s.endsWith c l u (.survey (.assign n.tag n.addr)) (.valid a)) (hn : (s.lane l).survey.naming = some n)
    (hk : n.kind = .new) : ∃ t, exec c s = .next t ∧ ((s.engineFree l).assignedNew l n).grantEnds l t := by
  have hfree : ((s.engineFree l).lane l).survey.naming = some n := by rw [State.engineFree_lane]; exact hn
  obtain ⟨t, ht, hgrant, _⟩ := hends.surveys (Underway.again_answered (r := .valid a) nofun nofun u)
  rw [show (AttemptResult.valid a).outcome = .answered a from rfl, State.surveyOutcome_assigned hfree,
    State.assigned_new hk] at hgrant
  exact ⟨t, ht, hgrant⟩

/-- Settles O35: a creation by State.assignedNew_eq, a return by State.comeBack_comes, a descriptor by
State.storeDescriptor_takes, and the next step by State.surveyNext_goes. -/
theorem namedNodeIsCreated : Obligations.NamedNodeIsCreated := by
  unfold Obligations.NamedNodeIsCreated
  refine ⟨fun s l u n a c hc hu hp hg hn hk => ?_, fun s l u n c r hends hn => ⟨fun hr _ hlast => ?_, fun a hr hk => ?_⟩,
    fun s l u p c r hends => ⟨fun x hr => ?_, fun hr _ hlast => ?_⟩⟩
  · obtain ⟨t, ht, hrest, hmate, hdir, hresolver, hothers, hwork, hsurveys, _, hquiet⟩ :=
      State.endsWith.creates ⟨hc, hu, hp, hg⟩ hn hk
    have hlane := (s.engineFree l).assignedNew_lane l n
    rw [State.engineFree_lane] at hlane
    have hentries : t.dir.entries = insertEntry (newEntry l n) s.dir.entries := congrArg Directory.entries hdir
    refine ⟨t, ht, ?_, fun e he => ?_, ?_, congrArg Directory.generation hdir, hresolver,
      congrArg Survey.naming (hwork.service.survey.trans (congrArg Lane.survey hlane)), hsurveys _ (by rw [hlane]; rfl), hmate,
      (s.keepsRest_post (.node n.handle .named)).trans hrest, fun m hm => ?_, ?_, fun hrun => ?_⟩
    · rw [hentries, insertEntry_mem]
      exact .inl rfl
    · rw [hentries, insertEntry_mem]
      exact .inr he
    · rw [hentries, insertEntry_length]
    · exact (hothers m hm).trans (((s.engineFree l).assignedNew_lane_ne n hm).trans (s.engineFree_lane_ne hm))
    · refine Lane.keepsStanding.trans ?_ hwork.standing
      rw [hlane]
      exact ⟨⟨rfl, rfl, rfl, rfl⟩, rfl, rfl, rfl, rfl⟩
    · exact (hquiet (.inl (by rw [hlane]; exact hrun))).1
  · have hfree : ((s.engineFree l).lane l).survey.naming = some n := by rw [State.engineFree_lane]; exact hn
    have hgives := hends.surveys (Underway.again_over (.inr ⟨hr, hlast⟩))
    rw [AttemptResult.outcome_noAnswer hr, State.surveyOutcome_unassigned hfree, State.assignSilent_eq] at hgives
    exact ⟨_, State.surveyNext_goes _ l, hgives⟩
  · subst hr
    have hfree : ((s.engineFree l).lane l).survey.naming = some n := by rw [State.engineFree_lane]; exact hn
    have hgives := hends.surveys (Underway.again_answered (r := .valid a) nofun nofun u)
    rw [show (AttemptResult.valid a).outcome = .answered a from rfl, State.surveyOutcome_assigned hfree] at hgives
    refine ⟨fun hgone => ?_, fun e he htag => ?_⟩
    · rw [State.assigned_gone hk (State.heldEntry?_eq_none (s := s.engineFree l) hgone)] at hgives
      exact ⟨_, State.surveyNext_goes _ l, hgives⟩
    · rw [State.assigned_back hk (State.heldEntry?_eq_some (s := s.engineFree l) he htag)] at hgives
      exact ⟨_, _, (s.engineFree l).comeBack_comes e (n.bringsBack l e) (n.bringsBack_attention l e),
        State.surveyNext_goes _ l, hgives⟩
  · subst hr
    have hgives := hends.surveys (Underway.again_answered (r := .valid (.descriptor x)) nofun nofun u)
    exact ⟨_, _, State.storeDescriptor_takes _ p x, State.surveyNext_goes _ l, hgives⟩
  · have hgives := hends.surveys (Underway.again_over (.inr ⟨hr, hlast⟩))
    rw [AttemptResult.outcome_noAnswer hr] at hgives
    exact ⟨_, State.surveyNext_goes _ l, State.describeOutcome_noAnswer _ l p ▸ hgives⟩

end Sys2Proof.Machine
end

section
/-! PROOFS. Presence and reports: the outcome of a poll PING and of a recall PING (R65, R98 to R102, R105), and the node-named
reports that the Resolver takes (R61, R163, R166 to R171). -/

namespace Sys2Proof.Machine

/-! ### The outcome of a PING of the Poller (R98 to R102, R105) -/

/-- R33, R99: what ends a PING of the Poller goes to it. -/
theorem State.endsWith.polls {s : State} {c : Instr} {l : LaneId} {u : Underway} {p : Target} {r : AttemptResult}
    (h : s.endsWith c l u (.poll p) r) (ha : u.again r = false) :
    s.outcomeGives c l ((s.engineFree l).pollOutcome l p r.outcome) := by
  have hd : (s.engineFree l).deliver l u.telegram r.outcome = (s.engineFree l).pollOutcome l p r.outcome := by
    unfold State.deliver
    rw [show ((s.engineFree l).lane l).arbiter.grant = some (.poll p) from h.grant]
  exact hd ▸ h.gives ha

/-- R99: the PING that the Poller waits for is over. -/
def State.pingDone (s : State) (l : LaneId) : State := s.modLane l (fun n => { n with poller := { n.poller with ping := none } })

theorem State.pollOutcome_answered (s : State) (l : LaneId) (p : Target) (f : Bool) :
    s.pollOutcome l p (.answered (.status f)) = ((s.applyAnswer p (some f)).pingDone l).pollNext l := rfl

theorem State.pollOutcome_noAnswer (s : State) (l : LaneId) (p : Target) :
    s.pollOutcome l p .noAnswer = ((s.applyMiss p).pingDone l).pollNext l := rfl

/-- R98, R99: how a round goes on is its lane's alone, and leaves the lane's standing. -/
theorem State.pollNext_frame (s : State) (l : LaneId) :
    ∃ f : Lane → Lane, (s.pingDone l).pollNext l = s.modLane l f ∧ (s.lane l).keepsStanding (f (s.lane l)) := by
  unfold State.pollNext
  split
  · exact ⟨_, State.modLane_modLane _ _ _ _, ⟨rfl, rfl, rfl, rfl⟩, rfl, rfl, rfl, rfl⟩
  · exact ⟨_, State.modLane_modLane _ _ _ _, ⟨rfl, rfl, rfl, rfl⟩, rfl, rfl, rfl, rfl⟩

theorem State.target?_lane {s : State} {p : Target} {e : Entry} (h : s.target? p = some e) : e.lane = p.lane := by
  have hp := List.find?_some h
  simp only [Entry.isTarget, Bool.and_eq_true, decide_eq_true_eq] at hp
  exact hp.1.1.2

/-- R101: one miss of an entry that is judged, and the lanes that it leaves alone. -/
theorem State.applyMiss_counts {s : State} {p : Target} {e : Entry} (he : s.target? p = some e) (ha : e.override = .auto)
    (hp : e.presence ≠ .lost) :
    (s.applyMiss p).dir = (s.update e (if e.miss + 1 < s.missLimit then { e with presence := .suspect, miss := e.miss + 1 }
        else { e with presence := .lost, miss := s.missLimit, attention := .idle })).dir
      ∧ ∀ m, m ≠ p.lane → (s.applyMiss p).lane m = s.lane m := by
  obtain ⟨_, _, _, _, hjudged, _⟩ := s.applyMiss_takes p
  obtain ⟨hsuspect, hlost⟩ := hjudged e he ha hp
  rw [← State.target?_lane he]
  split
  · rename_i hlt
    obtain ⟨hlanes, hdir, _⟩ := hsuspect hlt
    exact ⟨hdir, fun m _ => congrArg (Four.get · m) hlanes⟩
  · rename_i hge
    obtain ⟨hdir, hothers, _⟩ := hlost (Nat.not_lt.1 hge)
    exact ⟨hdir, hothers⟩

/-! ### The outcome of a recall PING (R65) -/

theorem State.recallOutcome_answered (s : State) (l : LaneId) (p : Target) (f : Bool) :
    s.recallOutcome l p (.answered (.status f)) = (s.recallAnswered p f).surveyNext l := rfl

theorem State.recallOutcome_noAnswer (s : State) (l : LaneId) (p : Target) : s.recallOutcome l p .noAnswer = s.surveyNext l := rfl

/-- Settles O40: a miss by State.applyMiss_counts and State.applyMiss_takes, an answer by State.applyAnswer_takes, a recall by
State.recallAnswered_takes, and the next PING by State.pollNext_polls. -/
theorem pollMissIsCounted : Obligations.PollMissIsCounted := by
  unfold Obligations.PollMissIsCounted
  refine ⟨fun s l u p e r c hc hu _ hlast hphase hr hg hl he ha hp => ?_,
    fun s l u p c r hends => ⟨fun f hr => ?_, fun hr _ hlast => ?_⟩,
    fun s l u p c r hends => ⟨fun f hr => ?_, fun hr _ hlast => ?_⟩⟩
  · have hends : s.endsWith c l u (.poll p) r := ⟨hc, hu, hphase, hg⟩
    obtain ⟨t, ht, ⟨hrest, hmate, hdir, _, hothers, hwork, _⟩, _⟩ := hends.polls (Underway.again_over (.inr ⟨hr, hlast.ge⟩))
    rw [AttemptResult.outcome_noAnswer hr, State.pollOutcome_noAnswer] at hrest hmate hdir hothers hwork
    obtain ⟨f, hframe, hstanding⟩ := ((s.engineFree l).applyMiss p).pollNext_frame l
    rw [hframe] at hrest hmate hdir hothers hwork
    obtain ⟨hmiss, hkept⟩ := State.applyMiss_counts (s := s.engineFree l) he ha hp
    have hnews := (s.engineFree l).newsAndRounds_applyMiss p
    have hbefore : (s.lane l).keepsStanding ((s.engineFree l).lane l) := by
      rw [State.engineFree_lane]
      exact ⟨⟨rfl, rfl, rfl, rfl⟩, rfl, rfl, rfl, rfl⟩
    refine ⟨t, ht, hdir.trans hmiss, hmate.trans hnews.mate, ?_, fun m hm => ?_, ?_⟩
    · exact (((s.keepsRest_modLane l _).trans hnews.rest).trans (State.keepsRest_modLane _ l f)).trans hrest
    · rw [hothers m hm, State.lane_modLane_ne _ _ _ _ hm, hkept m (by rw [hl]; exact hm), s.engineFree_lane_ne hm]
    · rw [State.lane_modLane_self] at hwork
      exact ((hbefore.trans (hnews.lane l).1.standing).trans hstanding).trans hwork.standing
  · subst hr
    exact ⟨_, _, State.applyAnswer_takes _ p _, State.pollNext_polls _ l,
      hends.polls (Underway.again_answered (r := .valid (.status f)) nofun nofun u)⟩
  · have hgives := hends.polls (Underway.again_over (.inr ⟨hr, hlast⟩))
    rw [AttemptResult.outcome_noAnswer hr] at hgives
    exact ⟨_, _, State.applyMiss_takes _ p, State.pollNext_polls _ l, hgives⟩
  · subst hr
    exact ⟨_, _, State.recallAnswered_takes _ p f, State.surveyNext_goes _ l,
      hends.surveys (Underway.again_answered (r := .valid (.status f)) nofun nofun u)⟩
  · have hgives := hends.surveys (Underway.again_over (.inr ⟨hr, hlast⟩))
    rw [AttemptResult.outcome_noAnswer hr] at hgives
    exact ⟨_, State.surveyNext_goes _ l, hgives⟩

/-! ### Node-named reports (R61, R163, R169, R170) -/

/-- The oldest report is gone from the queue. -/
def State.reportGone (s : State) (rest : List Report) : State := { s with resolver := { s.resolver with reports := rest } }

theorem exec_nodeNamedReport {s : State} {r : Report} {rest : List Report} (h : s.resolver.reports = r :: rest) :
    exec .nodeNamedReport s = .next ((s.reportGone rest).takeReport r) := by
  change execNodeNamedReport s = _
  unfold execNodeNamedReport
  rw [h]
  rfl

/-- R163: a report made or taken before the initial resolution is absorbed. -/
theorem State.takeReport_absorbed {s : State} {r : Report} (h : r.phase ≠ .resolved ∨ s.resolver.phase ≠ .resolved) :
    s.takeReport r = s := if_neg (fun x => h.elim (· x.1) (· x.2))

section
variable {s : State} {r : Report} (hr : r.phase = .resolved) (hs : s.resolver.phase = .resolved)
include hr hs

/-- R169: the report of an identity tag. -/
theorem State.takeReport_identity (hi : Tag.isIdentity r.tag = true) : s.takeReport r = s.fullResolution :=
  (if_pos ⟨hr, hs⟩).trans (if_pos hi)

/-- R170: the report of any other tag. -/
theorem State.takeReport_incremental (hi : Tag.isIdentity r.tag = false) : s.takeReport r = s.incremental r :=
  (if_pos ⟨hr, hs⟩).trans (if_neg (by rw [hi]; decide))

end

/-- R170: a new entry takes the binding that is chosen for it. -/
theorem State.incremental_binds {s : State} {r : Report} {e : Entry} {b : ManifestBinding × Nat}
    (he : s.entry? r.handle = some e) (ht : e.tag = r.tag) (hb : e.binding = none) (hc : s.incrementalChoice e = some b) :
    s.incremental r = (s.update e (e.bindTo (some (b.1.copyAt b.2)))).recompute := by
  unfold State.incremental
  simp only [he, hc]
  exact if_pos ⟨ht, by rw [hb]; rfl⟩

/-- R170: in every other case nothing is bound. -/
theorem State.incremental_keeps {s : State} {r : Report}
    (h : ∀ e, s.entry? r.handle = some e → e.tag ≠ r.tag ∨ e.binding ≠ none ∨ s.incrementalChoice e = none) :
    s.incremental r = s.recompute := by
  unfold State.incremental
  cases he : s.entry? r.handle with
  | none => rfl
  | some e =>
    simp only
    split
    · rename_i hfits
      have hc := ((h e he).resolve_left (fun x => x hfits.1)).resolve_left (fun x => x (Option.isNone_iff_eq_none.1 hfits.2))
      rw [hc]
    · rfl

/-- R81, R170: a binding that an entry receives counts. -/
theorem Entry.counted_bindTo {e : Entry} (h : e.binding = none) (b : Binding) : e.counted (e.bindTo (some b)) = true := by
  unfold Entry.counted Entry.bindTo
  simp [h]

/-- R166 to R168, R171: a report that is taken has the status computed, on a directory that it may have changed. -/
structure State.statusComputed (s t : State) : Prop where
  reports : t.resolver.reports = s.resolver.reports
  lanes : t.lanes = s.lanes
  mate : t.mate = s.mate
  rest : s.keepsRest t
  applied : t.resolver.applied = s.resolver.applied
  toolId : t.resolver.toolId = s.resolver.toolId
  status : t.statusHolds
  told : s.link.told s.resolver t.resolver t.link

theorem State.recompute_computed {s : State} (h : s.resolver.phase = .resolved) : s.statusComputed s.recompute := by
  have hnews := s.onlyNews_recompute
  obtain ⟨_, _, happlied, htool, _, hreports⟩ := hnews.resolver
  exact ⟨hreports, hnews.lanes, hnews.mate, hnews.rest, happlied, htool, State.recompute_statusHolds h, State.recompute_told h⟩

/-- Settles O56: the three ways of State.takeReport, with State.choice_iff and State.choice_none on the choice of a binding. -/
theorem nodeNamedReportIsTaken : Obligations.NodeNamedReportIsTaken := by
  unfold Obligations.NodeNamedReportIsTaken
  intro s r rest hrep
  have hx := exec_nodeNamedReport hrep
  refine ⟨fun h => ?_, fun e b hr hs he ht hi hb hc => ?_,
    fun e x k hi => ⟨State.choice_iff s e hi x k, State.choice_none s e hi⟩, fun hr hs hi hno => ?_, fun hr hs hi => ?_⟩
  · rw [hx, State.takeReport_absorbed (by exact h)]
    rfl
  · rw [State.takeReport_incremental hr (by exact hs) hi,
      State.incremental_binds (s := s.reportGone rest) he ht hb hc] at hx
    have h := State.recompute_computed (s := (s.reportGone rest).update e (e.bindTo (some (b.1.copyAt b.2)))) hs
    refine ⟨_, hx, h.reports, h.lanes, h.mate, h.rest, h.applied, h.toolId, ?_, ?_, h.status, h.told⟩
    · rw [State.recompute_dir]
      change s.dir.generation + BitVec.ofNat 16 (if e.counted (e.bindTo (some (b.1.copyAt b.2))) then 1 else 0) = _
      rw [Entry.counted_bindTo hb]
      rfl
    · rw [State.recompute_dir]
      rfl
  · rw [State.takeReport_incremental hr (by exact hs) hi, State.incremental_keeps (s := s.reportGone rest) hno] at hx
    have h := State.recompute_computed (s := s.reportGone rest) hs
    exact ⟨_, hx, h.reports, h.lanes, State.recompute_dir _, h.mate, h.rest, h.applied, h.toolId, h.status, h.told⟩
  · rw [State.takeReport_identity hr (by exact hs) hi] at hx
    obtain ⟨hresolves, hmate, hrest, _, htold⟩ := State.fullResolution_into (s := s.reportGone rest) hs
    exact ⟨hx, _, hx, hresolves, hmate, hrest, fun hrun => (htold (fun m => .inl (hrun m))).2⟩

end Sys2Proof.Machine
end

section
/-! PROOFS. Requests that read the Node Directory: LOOKUP (R88, R89) and FIND (R90). -/

namespace Sys2Proof.Machine

/-! ### LOOKUP (R88, R89) -/

theorem exec_lookup {s : State} {q : Request} {rest : List Request} {h : Byte} (hq : s.queued q rest) (hk : q.kind = 0x18)
    (hp : q.payload = [h]) : exec .lookup s = .next (serveLookup q (s.took rest)) :=
  take_next hq (by simp [ofKind, hk]) (by rw [hk, hp]; rfl)

theorem serveLookup_found {q : Request} {h : Byte} (hp : q.payload = [h]) {s : State} {e : Entry} (he : s.entry? h.toNat = some e) :
    serveLookup q s = State.ok { s with draws := s.draws + 1 } q (be16 s.dir.generation ++ e.record s.draws) := by
  have hh : at' q.payload 0 = h := by rw [hp]; rfl
  unfold serveLookup
  rw [hh, he]

theorem serveLookup_absent {q : Request} {h : Byte} (hp : q.payload = [h]) {s : State} (he : s.entry? h.toNat = none) :
    serveLookup q s = s.refuse q .noSuchHandle := by
  have hh : at' q.payload 0 = h := by rw [hp]; rfl
  unfold serveLookup
  rw [hh, he]

/-- The value of bits holds each of them at its place. -/
theorem testBit_bitsValue (bits : List Bool) (i : Nat) : (bitsValue bits).testBit i = bits.getD i false := by
  induction bits generalizing i with
  | nil => simp [bitsValue]
  | cons b bits ih =>
    cases i with
    | zero => cases b <;> simp [bitsValue, Nat.testBit_zero]
    | succ i =>
      have hhalf : bitsValue (b :: bits) / 2 = bitsValue bits := by rw [bitsValue]; split <;> omega
      rw [Nat.testBit_succ, hhalf, ih, List.getD_cons_succ]

theorem flagsByte_getLsbD (bits : List Bool) {i : Nat} (hi : i < 8) : (flagsByte bits).getLsbD i = bits.getD i false := by
  unfold flagsByte byteOf
  rw [BitVec.getLsbD_ofNat, testBit_bitsValue, decide_eq_true hi, Bool.true_and]

/-- R89, section 10.14: the tool ID bytes of an entry's record. -/
def Entry.recordToolId (draw : Nat) (e : Entry) : Word16 :=
  (e.descriptor.map (fun d => d.toolId.getD (Config.absentRecordToolId draw e.tag))).getD 0

/-- Section 10.14: the record of an entry, its bytes 8 and 9 and its tool ID by name. -/
theorem Entry.record_eq (draw : Nat) (e : Entry) : e.record draw
    = [byteOf e.handle, byteOf e.lane.val, byteOf e.addr] ++ be40 e.tag ++ [e.flags8, e.flags9, byteOf e.miss, byteOf e.discarded]
      ++ be16 ((e.descriptor.map (·.maker)).getD 0)
      ++ [(e.descriptor.map (·.revision)).getD 0, byteOf ((e.descriptor.map (·.objectCount)).getD 0)]
      ++ be16 (e.recordToolId draw)
      ++ [byteOf ((e.binding.map (·.index)).getD 0), byteOf ((e.binding.map (fun b => levelCode b.level)).getD 0)]
      ++ byteOf ((e.binding.map (·.role)).getD []).length :: (e.binding.map (·.role)).getD []
      ++ byteOf ((e.descriptor.map (·.label)).getD []).length :: (e.descriptor.map (·.label)).getD [] := by
  unfold Entry.record Entry.recordToolId
  cases e.descriptor <;> simp

/-- Settles O36: the two cases of serveLookup, with Entry.record_eq on the bytes and flagsByte_getLsbD on the flags. -/
theorem lookupReturnsRecord : Obligations.LookupReturnsRecord := by
  unfold Obligations.LookupReturnsRecord
  intro s q rest h hq hk hp
  refine ⟨fun e he => ?_, fun he => ?_, fun draw e => ⟨e.flags8, e.recordToolId draw, e.record_eq draw, ?_⟩⟩
  · rw [exec_lookup hq hk hp, serveLookup_found (s := s.took rest) hp he]
    rfl
  · rw [exec_lookup hq hk hp, serveLookup_absent (s := s.took rest) hp he]
  · have hbit : ∀ i < 8, e.flags8.getLsbD i = _ := fun i hi => flagsByte_getLsbD _ hi
    refine ⟨hbit 0 (by omega), hbit 1 (by omega), hbit 2 (by omega), hbit 3 (by omega), hbit 4 (by omega), hbit 5 (by omega),
      hbit 6 (by omega), hbit 7 (by omega), fun hd => ?_, fun d x hd hx => ?_⟩
    · unfold Entry.recordToolId
      rw [hd]
      rfl
    · unfold Entry.recordToolId
      rw [hd]
      simp [hx]

/-! ### FIND (R90) -/

theorem State.byRole?_spec {s : State} {role : List Byte} {e : Entry} {b : Binding} (h : s.byRole? role = some (e, b)) :
    e ∈ s.dir.entries ∧ e.binding = some b ∧ b.role = role := by
  obtain ⟨f, hf, hx⟩ := List.exists_of_findSome?_eq_some h
  split at hx
  · rename_i c hc
    split at hx
    · rename_i hrole
      cases hx
      exact ⟨hf, hc, hrole⟩
    · cases hx
  · cases hx

theorem State.byRole?_none {s : State} {role : List Byte} (h : ∀ e ∈ s.dir.entries, e.binding.map (·.role) ≠ some role) :
    s.byRole? role = none := by
  refine List.findSome?_eq_none_iff.2 (fun e he => ?_)
  have hne := h e he
  cases hb : e.binding with
  | none => rfl
  | some b =>
    rw [hb] at hne
    exact if_neg (fun hrole => hne (congrArg some hrole))

/-- A role name has a length that a FIND may have. -/
theorem lengthAllowed_find {p : List Byte} (h : roleOk p = true) : lengthAllowed 0x19 p = true := by
  unfold roleOk at h
  exact (Bool.and_eq_true _ _ ▸ h).1

/-- R90, R187: FIND of a role name reaches its row, whatever the row then answers. -/
theorem exec_find {s : State} {q : Request} {rest : List Request} (hq : s.queued q rest) (hk : q.kind = 0x19)
    (hr : roleOk q.payload = true) : exec .find s = .next (serveFind q (s.took rest)) :=
  take_next hq (by simp [ofKind, hk]) (by rw [hk]; exact lengthAllowed_find hr)

/-- R90, R187: any other name is refused, by its length or by its characters. -/
theorem exec_find_refuses {s : State} {q : Request} {rest : List Request} (hq : s.queued q rest) (hk : q.kind = 0x19)
    (hr : roleOk q.payload = false) : exec .find s = .next ((s.took rest).refuse q .badArgument) := by
  have hmine : ofKind 0x19 q = true := by simp [ofKind, hk]
  cases hl : lengthAllowed q.kind q.payload with
  | false => exact congrArg Host.Outcome.next (State.take_refuses hq hmine hl)
  | true =>
    have hserve : serveFind q (s.took rest) = (s.took rest).refuse q .badArgument := if_neg (by rw [hr]; decide)
    exact (take_next hq hmine hl).trans (congrArg _ hserve)

theorem serveFind_role {q : Request} (hr : roleOk q.payload = true) (s : State) :
    (∀ e b, s.byRole? q.payload = some (e, b) →
      serveFind q s = s.ok q [byteOf e.handle, byteOf e.presence.code, byteOf b.index])
    ∧ (s.byRole? q.payload = none → serveFind q s = s.refuse q .noSuchRole) := by
  unfold serveFind
  rw [if_pos hr]
  exact ⟨fun e b h => by rw [h], fun h => by rw [h]⟩

/-- Settles O37: the name by exec_find and exec_find_refuses, the entry by State.byRole?_spec and State.byRole?_none. -/
theorem findReturnsRole : Obligations.FindReturnsRole := by
  unfold Obligations.FindReturnsRole
  intro s q rest hq hk
  refine ⟨fun e b hr hb => ?_, fun hr hno => ?_, exec_find_refuses hq hk⟩
  · obtain ⟨hmem, hbinding, hrole⟩ := State.byRole?_spec hb
    exact ⟨hmem, hbinding, hrole, (exec_find hq hk hr).trans (congrArg _ ((serveFind_role hr (s.took rest)).1 e b hb))⟩
  · exact (exec_find hq hk hr).trans (congrArg _ ((serveFind_role hr (s.took rest)).2 (State.byRole?_none hno)))

end Sys2Proof.Machine
end

section
/-! PROOFS. Requests to the Node Directory that change it: PURGE (R91, R169, R171) and OVERRIDE (R107 to R110); and the full
resolution that RESOLVE asks for (R172). -/

namespace Sys2Proof.Machine

/-! ### PURGE (R91, R169, R171) -/

theorem exec_purge {s : State} {q : Request} {rest : List Request} {h : Byte} (hq : s.queued q rest) (hk : q.kind = 0x1A)
    (hp : q.payload = [h]) : exec .purge s = .next (servePurge q (s.took rest)) :=
  take_next hq (by simp [ofKind, hk]) (by rw [hk, hp]; rfl)

/-- R91: an entry is gone, with its notice. -/
def State.purged (s : State) (e : Entry) : State := (s.remove e.handle).post (.node e.handle .purged)

theorem State.purged_dir (s : State) (e : Entry) : (s.purged e).dir = {
    entries := s.dir.entries.filter (fun x => decide (x.handle ≠ e.handle)), generation := s.dir.generation + 1 } := rfl

theorem State.keepsRest_purged (s : State) (e : Entry) : s.keepsRest (s.purged e) :=
  (s.keepsRest_remove _).trans (State.keepsRest_post _ _)

theorem servePurge_purges {q : Request} {h : Byte} (hp : q.payload = [h]) {s : State} {e : Entry} (he : s.entry? h.toNat = some e)
    (hl : e.presence = .lost) (hh : s.held e.handle = false) :
    servePurge q s = ((s.purged e).afterRemoval e).ok q (byteOf e.handle :: be16 ((s.purged e).afterRemoval e).dir.generation) := by
  have hb : at' q.payload 0 = h := by rw [hp]; rfl
  unfold servePurge
  rw [hb, he]
  simp only
  rw [if_neg (not_not.2 hl), if_neg (by rw [hh]; decide)]
  rfl

theorem servePurge_absent {q : Request} {h : Byte} (hp : q.payload = [h]) {s : State} (he : s.entry? h.toNat = none) :
    servePurge q s = s.refuse q .noSuchHandle := by
  have hb : at' q.payload 0 = h := by rw [hp]; rfl
  unfold servePurge
  rw [hb, he]

theorem servePurge_notNow {q : Request} {h : Byte} (hp : q.payload = [h]) {s : State} {e : Entry} (he : s.entry? h.toNat = some e)
    (hn : e.presence ≠ .lost ∨ s.held e.handle = true) : servePurge q s = s.refuse q .notNow := by
  have hb : at' q.payload 0 = h := by rw [hp]; rfl
  unfold servePurge
  rw [hb, he]
  simp only
  split
  · rfl
  · rename_i hl
    exact if_pos (hn.resolve_left hl)

theorem State.afterRemoval_unbound {e : Entry} (hb : e.binding = none) (s : State) : s.afterRemoval e = s.recompute :=
  if_neg (by rw [hb]; decide)

theorem State.afterRemoval_bound {e : Entry} (hb : e.binding ≠ none) (s : State) : s.afterRemoval e = s.resolveIfResolved :=
  if_pos (Option.isSome_iff_ne_none.2 hb)

/-- R163, R171: in the other phases a recomputation is absorbed. -/
theorem State.recompute_absorbed {s : State} (h : s.resolver.phase ≠ .resolved) : s.recompute = s := if_neg h

theorem State.resolveIfResolved_resolved {s : State} (h : s.resolver.phase = .resolved) : s.resolveIfResolved = s.fullResolution :=
  if_pos h

theorem State.resolveIfResolved_absorbed {s : State} (h : s.resolver.phase ≠ .resolved) : s.resolveIfResolved = s := if_neg h

/-- R86, R165: a resolution removes no entry and gives none another handle. -/
theorem State.resolves.handles {s t : State} (h : s.resolves t) :
    t.dir.entries.map (·.handle) = s.dir.entries.map (·.handle) := by
  obtain ⟨f, hf⟩ := h.entries
  rw [hf, List.map_map]
  rfl

/-- R163, R169: what follows a report of the directory, whatever the phase. -/
structure State.resolvedIfResolved (s t : State) : Prop where
  handles : t.dir.entries.map (·.handle) = s.dir.entries.map (·.handle)
  mate : t.mate = s.mate
  rest : s.keepsRest t
  standing : ∀ l, (s.lane l).keepsStanding (t.lane l)
  resolved : s.resolver.phase = .resolved → s.resolvesTo t
    ∧ ((∀ m, s.noAccess m) → s.link.told s.resolver t.resolver t.link)

theorem State.resolveIfResolved_into (s : State) : s.resolvedIfResolved s.resolveIfResolved := by
  by_cases hr : s.resolver.phase = .resolved
  · rw [State.resolveIfResolved_resolved hr]
    have hspec := s.fullResolution_spec.1
    exact ⟨hspec.handles, hspec.mate, hspec.rest, fun l => (hspec.lane l).standing,
      fun _ => ⟨State.fullResolution_resolvesTo hr, State.fullResolution_told⟩⟩
  · rw [State.resolveIfResolved_absorbed hr]
    exact ⟨rfl, rfl, .refl s, fun _ => .refl _, fun h => absurd h hr⟩

/-- Settles O38: the status after the removal by State.recompute_computed, the resolution by State.resolveIfResolved_into. -/
theorem purgeRemovesLostEntry : Obligations.PurgeRemovesLostEntry := by
  unfold Obligations.PurgeRemovesLostEntry
  intro s q rest h hq hk hp
  rw [exec_purge hq hk hp]
  refine ⟨fun e he hl hh hb => ?_, fun e he hl hh hb => ?_, fun he => ?_, fun e he hn => ?_⟩
  · rw [servePurge_purges (s := s.took rest) hp he hl hh, State.afterRemoval_unbound hb]
    have hnews := ((s.took rest).purged e).onlyNews_recompute
    have hrest := (((s.took rest).keepsRest_purged e).trans hnews.rest).trans (State.keepsRest_ok _ q
      (byteOf e.handle :: be16 (s.dir.generation + 1)))
    rw [State.recompute_dir, State.purged_dir]
    refine ⟨_, rfl, rfl, Link.currentReply_send _ _, State.recompute_dir _, hnews.lanes, hnews.mate, hrest,
      fun hr => ?_, fun hr => ?_⟩
    · have hc := State.recompute_computed (s := (s.took rest).purged e) hr
      exact ⟨State.statusHolds_congr hc.status rfl rfl rfl rfl (fun _ => rfl), hnews.resolver, _, hc.told, rfl⟩
    · rw [State.recompute_absorbed (by exact hr)]
      exact ⟨rfl, rfl⟩
  · rw [servePurge_purges (s := s.took rest) hp he hl hh, State.afterRemoval_bound hb]
    have hafter := ((s.took rest).purged e).resolveIfResolved_into
    refine ⟨_, rfl, rfl, Link.currentReply_send _ _, hafter.handles.trans ?_, hafter.mate,
      (((s.took rest).keepsRest_purged e).trans hafter.rest).trans (State.keepsRest_ok _ _ _), hafter.standing, fun hr => ?_,
      fun hr => ?_⟩
    · rw [State.purged_dir, List.filter_map]
      rfl
    · obtain ⟨hresolves, htold⟩ := hafter.resolved hr
      have hfree : ∀ m, ((s.took rest).purged e).noAccess m :=
        fun m => .inl ((State.queued_free hq).2 m)
      exact ⟨hresolves.congr rfl rfl (fun _ => rfl) rfl rfl rfl rfl rfl rfl, _, htold hfree, rfl⟩
    · rw [State.resolveIfResolved_absorbed (by exact hr)]
      exact ⟨rfl, rfl, rfl, rfl⟩
  · rw [servePurge_absent (s := s.took rest) hp he]
  · rw [servePurge_notNow (s := s.took rest) hp he hn]

/-! ### OVERRIDE (R107 to R110) -/

/-- R107, R187: the row of a mode takes an OVERRIDE to it, and one to a mode that is none of the three (log entry 6). -/
theorem take_override {s : State} {q : Request} {rest : List Request} {h m c : Byte} (hq : s.queued q rest) (hk : q.kind = 0x1B)
    (hp : q.payload = [h, m]) (hm : m = c ∨ 2 < m.toNat) (serve : Request → State → State) :
    (Host.Outcome.next (s.take (overrideRow c) serve) : Host.Outcome State Fault Refusal) = .next (serve q (s.took rest)) := by
  refine take_next hq ?_ (by rw [hk, hp]; rfl)
  have hb : at' q.payload 1 = m := by rw [hp]; rfl
  have hlen : 1 < q.payload.length := by rw [hp]; exact Nat.lt_add_one 1
  unfold overrideRow selects
  rw [hb, decide_eq_true hk, decide_eq_true hlen, Bool.true_and, Bool.true_and, Bool.or_eq_true]
  rcases hm with rfl | hlarge
  · exact .inl (decide_eq_true ⟨hlen, rfl⟩)
  · refine .inr ?_
    have h0 : m ≠ 0 := by rintro rfl; exact absurd hlarge (by decide)
    have h1 : m ≠ 1 := by rintro rfl; exact absurd hlarge (by decide)
    have h2 : m ≠ 2 := by rintro rfl; exact absurd hlarge (by decide)
    simpa using ⟨h0, h1, h2⟩

section
variable {q : Request} {h m : Byte} {mode : Override}

theorem serveOverride_found (hp : q.payload = [h, m]) (hm : m = byteOf mode.code) {s : State} {e : Entry}
    (he : s.entry? h.toNat = some e) (effect : Entry → State → State) :
    serveOverride mode effect q s = (if e.override = mode then s else effect e s).overrideReply q h.toNat := by
  have hb0 : at' q.payload 0 = h := by rw [hp]; rfl
  have hb1 : at' q.payload 1 = byteOf mode.code := by rw [hp]; exact hm
  unfold serveOverride
  rw [hb0, hb1, if_neg (not_not.2 rfl), he]
  simp only
  rw [State.entry?_handle he]

theorem State.overrideReply_found {s : State} {e : Entry} (he : s.entry? h.toNat = some e) (q : Request) :
    s.overrideReply q h.toNat = s.ok q
      ([h, byteOf e.override.code, byteOf e.presence.code, byteOf e.miss] ++ be16 s.dir.generation) := by
  unfold State.overrideReply
  rw [he, byteOf_toNat]

/-- R81, R107: a mode that differs from the one held is set by one update, which counts, and the reply follows. -/
theorem serveOverride_sets (hp : q.payload = [h, m]) (hm : m = byteOf mode.code) {s : State} {e new : Entry}
    {effect : Entry → State → State} (he : s.entry? h.toNat = some e) (hne : e.override ≠ mode)
    (hd : (effect e s).dir = (s.update e new).dir) (hh : new.handle = e.handle) (ho : new.override = mode) :
    serveOverride mode effect q s = (effect e s).ok q
      ([h, byteOf mode.code, byteOf new.presence.code, byteOf new.miss] ++ be16 (s.dir.generation + 1)) := by
  have hcount : e.counted new = true := by
    unfold Entry.counted
    rw [ho, decide_eq_true hne, Bool.or_true]
  have hgen : (effect e s).dir.generation = s.dir.generation + 1 := by
    rw [hd]
    unfold State.update
    rw [hcount]
    rfl
  have hfound : (effect e s).entry? h.toNat = some new := by
    have hx := State.entry?_update he hh
    unfold State.entry? at hx ⊢
    rw [hd]
    exact hx
  rw [serveOverride_found hp hm he, if_neg hne, State.overrideReply_found hfound, hgen, ho]

theorem serveOverride_held (hp : q.payload = [h, m]) (hm : m = byteOf mode.code) {s : State} {e : Entry}
    (he : s.entry? h.toNat = some e) (ho : e.override = mode) (effect : Entry → State → State) :
    serveOverride mode effect q s = s.ok q
      ([h, byteOf mode.code, byteOf e.presence.code, byteOf e.miss] ++ be16 s.dir.generation) := by
  rw [serveOverride_found hp hm he, if_pos ho, State.overrideReply_found he, ho]

theorem serveOverride_absent (hp : q.payload = [h, m]) (hm : m = byteOf mode.code) {s : State} {effect : Entry → State → State}
    (he : s.entry? h.toNat = none) : serveOverride mode effect q s = s.refuse q .noSuchHandle := by
  have hb0 : at' q.payload 0 = h := by rw [hp]; rfl
  have hb1 : at' q.payload 1 = byteOf mode.code := by rw [hp]; exact hm
  unfold serveOverride
  rw [hb0, hb1, if_neg (not_not.2 rfl), he]

theorem serveOverride_unknown (hp : q.payload = [h, m]) (hm : 2 < m.toNat) (s : State) (effect : Entry → State → State) :
    serveOverride mode effect q s = s.refuse q .badArgument := by
  have hb1 : at' q.payload 1 = m := by rw [hp]; rfl
  unfold serveOverride
  rw [hb1, if_pos]
  rintro rfl
  revert hm
  cases mode <;> decide

end

/-- R108: an entry under FORCED_PRESENT. -/
def Entry.presentForced (e : Entry) : Entry := { e with override := .forcedPresent, presence := .present, miss := 0 }

/-- R108: the notice of an entry that becomes PRESENT. -/
def State.tellPresent (s : State) (e : Entry) : State := if e.presence ≠ .present then s.post (.node e.handle .present) else s

theorem overrideToPresent_eq (e : Entry) (s : State) : overrideToPresent e s
    = (((s.update e e.presentForced).leaveRound e).tellPresent e).reportPresence e e.presentForced := rfl

theorem State.tellPresent_onlyNews (s : State) (e : Entry) : s.onlyNews (s.tellPresent e) := by
  unfold State.tellPresent
  split
  · exact s.onlyNews_post _
  · exact .refl s

theorem State.tellPresent_spec (s : State) (e : Entry) : (s.tellPresent e).dir = s.dir ∧ (s.tellPresent e).resolver = s.resolver
    ∧ (s.tellPresent e).link
      = (if e.presence ≠ .present then [Notice.node e.handle .present] else []).foldl Link.post s.link := by
  unfold State.tellPresent
  split <;> exact ⟨rfl, rfl, rfl⟩

/-- R108: what FORCED_PRESENT makes of the part. -/
structure State.forcedPresent (s : State) (e : Entry) (t : State) : Prop where
  dir : t.dir = (s.update e e.presentForced).dir
  others : ∀ l, l ≠ e.lane → t.lane l = s.lane l
  lane : t.lane e.lane = (s.lane e.lane).offRound e.addr
  mate : t.mate = s.mate
  rest : s.keepsRest t
  told : s.statusTold (e.presence ≠ .present) ((if e.presence ≠ .present then [Notice.node e.handle .present] else []).foldl
    Link.post s.link) t

theorem overrideToPresent_forces (s : State) (e : Entry) : s.forcedPresent e (overrideToPresent e s) := by
  rw [overrideToPresent_eq]
  have hround := (s.update e e.presentForced).leaveRound_lane e
  obtain ⟨hdir, hresolver, hlink⟩ := ((s.update e e.presentForced).leaveRound e).tellPresent_spec e
  have hnews := (((s.update e e.presentForced).leaveRound e).tellPresent_onlyNews e).trans
    (State.onlyNews_reportPresence _ e e.presentForced)
  exact ⟨(State.reportPresence_dir _ _ _).trans hdir, fun l hl => (hnews.lane l).trans ((hround l).trans (if_neg hl)),
    (hnews.lane e.lane).trans ((hround e.lane).trans (if_pos rfl)), hnews.mate, hnews.rest,
    State.reportPresence_told hlink hresolver Iff.rfl⟩

/-- R109: an entry under FORCED_ABSENT. -/
def Entry.absentForced (e : Entry) : Entry := { e with override := .forcedAbsent, attention := .idle }

/-- R109: what FORCED_ABSENT makes of the part, but for what its lane then sends. -/
def State.forcedAbsent (s : State) (e : Entry) : State :=
  ((s.update e e.absentForced).leaveRound e).endAttention e .isolated

theorem overrideToAbsent_eq (e : Entry) (s : State) : overrideToAbsent e s = (s.forcedAbsent e).arbitrate e.lane := rfl

theorem State.forcedAbsent_lane (s : State) (e : Entry) :
    (s.forcedAbsent e).lane e.lane = if e.attention = .inService then
        { (s.lane e.lane).offRound e.addr with attention := (s.lane e.lane).attention.release e.handle }
      else (s.lane e.lane).offRound e.addr := by
  unfold State.forcedAbsent State.endAttention
  split
  · rw [State.lane_post, State.lane_modLane_self, State.leaveRound_lane, if_pos rfl]
    rfl
  · rw [State.leaveRound_lane, if_pos rfl]
    rfl

theorem State.forcedAbsent_lane_ne (s : State) (e : Entry) {l : LaneId} (h : l ≠ e.lane) :
    (s.forcedAbsent e).lane l = s.lane l := by
  unfold State.forcedAbsent
  rw [State.endAttention_lane_ne _ _ _ _ h, State.leaveRound_lane, if_neg h]
  rfl

theorem State.forcedAbsent_link (s : State) (e : Entry) : (s.forcedAbsent e).link
    = (if e.attention = .inService then [Notice.attentionEnded e.handle .isolated] else []).foldl Link.post s.link := by
  unfold State.forcedAbsent State.endAttention
  split <;> rfl

theorem State.forcedAbsent_news (s : State) (e : Entry) : s.newsAndRounds (s.forcedAbsent e) :=
  ((s.onlyNews_update _ _).clears.rounds.trans (State.newsAndRounds_leaveRound _ _)).trans
    (State.newsAndClears_endAttention _ _ _).rounds

theorem State.forcedAbsent_dir (s : State) (e : Entry) : (s.forcedAbsent e).dir = (s.update e e.absentForced).dir :=
  State.endAttention_dir _ _ _

/-- R109, R147: an attention that was in service has no slot on the entry's lane. -/
theorem State.forcedAbsent_frees {s : State} {e : Entry} (ha : e.attention = .inService) (v : LevelId) (r : InService)
    (hr : ((s.forcedAbsent e).lane e.lane).attention.slots.get v = some r) : r.handle ≠ e.handle := by
  rw [State.forcedAbsent_lane, if_pos ha] at hr
  exact Attention.release_frees _ _ v r hr

theorem Lane.sameButWork.slots {n m : Lane} (h : n.sameButWork m) : m.attention.slots = n.attention.slots := by
  unfold Lane.sameButWork at h
  rw [h]

/-- R109, R147: what FORCED_ABSENT makes of the part, its lane's arbiter having acted. -/
structure State.isolated (s : State) (e : Entry) (t : State) : Prop where
  dir : t.dir = (s.update e e.absentForced).dir
  frees : e.attention = .inService → ∀ v r, (t.lane e.lane).attention.slots.get v = some r → r.handle ≠ e.handle
  others : ∀ l, l ≠ e.lane → t.lane l = s.lane l
  standing : (s.lane e.lane).keepsStanding (t.lane e.lane)
  lane : (if e.attention = .inService then
      { (s.lane e.lane).offRound e.addr with attention := (s.lane e.lane).attention.release e.handle }
    else (s.lane e.lane).offRound e.addr).sameButWork (t.lane e.lane)
  mate : t.mate = s.mate
  resolver : t.resolver = s.resolver
  rest : s.keepsRest t
  link : s.noAccess e.lane →
    t.link = (if e.attention = .inService then [Notice.attentionEnded e.handle .isolated] else []).foldl Link.post s.link

theorem overrideToAbsent_isolates (s : State) (e : Entry) : s.isolated e (overrideToAbsent e s) := by
  rw [overrideToAbsent_eq]
  have hnews := s.forcedAbsent_news e
  have hwork := sameButWork_arbitrate (s.forcedAbsent e) e.lane e.lane
  obtain ⟨hround, hrun, _⟩ := hnews.lane e.lane
  refine ⟨(State.arbitrate_dir _ _).trans (s.forcedAbsent_dir e), fun ha v r hr => ?_, fun l hl => ?_,
    hround.standing.trans hwork.standing, ?_, (State.arbitrate_mate _ _).trans hnews.mate,
    (State.arbitrate_resolver _ _).trans (State.endAttention_resolver _ _ _), hnews.rest.trans (keepsRest_arbitrate _ _),
    fun hno => ?_⟩
  · exact State.forcedAbsent_frees ha v r (hwork.slots ▸ hr)
  · exact (State.arbitrate_lane_ne _ _ _ hl).trans (State.forcedAbsent_lane_ne _ _ hl)
  · rw [← State.forcedAbsent_lane]
    exact hwork
  · have hstill : (s.forcedAbsent e).noAccess e.lane :=
      hno.imp hrun.trans (fun hw kind token => by rw [hnews.unit]; exact hw kind token)
    exact (sameAccess_arbitrate hstill).1.trans (s.forcedAbsent_link e)

/-- Settles O39: each mode by serveOverride_sets, with overrideToPresent_forces and overrideToAbsent_isolates on what it does. -/
theorem overrideSetsMode : Obligations.OverrideSetsMode := by
  unfold Obligations.OverrideSetsMode
  intro s q rest h m e hq hk hp
  have hauto := fun hm : m = 0 ∨ 2 < m.toNat => take_override hq hk hp hm (serveOverride .auto overrideToAuto)
  have hpresent := fun hm : m = 1 ∨ 2 < m.toNat => take_override hq hk hp hm (serveOverride .forcedPresent overrideToPresent)
  have habsent := fun hm : m = 2 ∨ 2 < m.toNat => take_override hq hk hp hm (serveOverride .forcedAbsent overrideToAbsent)
  refine ⟨fun he hm ho => ?_, fun he hm ho => ?_, fun he hm ho => ?_, fun he hm ho => ?_, fun he hm ho => ?_, fun he hm ho => ?_,
    fun he => ⟨fun hm => ?_, fun hm => ?_, fun hm => ?_⟩, fun hm => ⟨?_, ?_, ?_⟩⟩
  · exact (hauto (.inl hm)).trans (congrArg _ (serveOverride_sets (mode := .auto) (new := { e with override := .auto })
      (s := s.took rest) hp hm he ho rfl rfl rfl))
  · have hforced := overrideToPresent_forces (s.took rest) e
    refine ⟨(overrideToPresent e (s.took rest)).ok q _, (hpresent (.inl hm)).trans (congrArg _ ?_), rfl,
      Link.currentReply_send _ _, hforced.dir, hforced.others, hforced.lane, hforced.mate,
      hforced.rest.trans (State.keepsRest_ok _ _ _),
      overrideToPresent e (s.took rest), rfl, hforced.told⟩
    exact serveOverride_sets (mode := .forcedPresent) (s := s.took rest) hp hm he ho hforced.dir rfl rfl
  · have hforced := overrideToAbsent_isolates (s.took rest) e
    have hlink := hforced.link (State.queued_noAccess hq e.lane)
    refine ⟨(overrideToAbsent e (s.took rest)).ok q _, (habsent (.inl hm)).trans (congrArg _ ?_), rfl,
      Link.currentReply_send _ _, hforced.dir, hforced.frees, hforced.others, hforced.standing, hforced.lane, hforced.mate,
      hforced.resolver, hforced.rest.trans (State.keepsRest_ok _ _ _), congrArg (Link.send · _) hlink⟩
    exact serveOverride_sets (mode := .forcedAbsent) (new := e.absentForced) (s := s.took rest) hp hm he ho hforced.dir rfl rfl
  · exact (hauto (.inl hm)).trans (congrArg _ (serveOverride_held (mode := .auto) (s := s.took rest) hp hm he ho _))
  · exact (hpresent (.inl hm)).trans (congrArg _ (serveOverride_held (mode := .forcedPresent) (s := s.took rest) hp hm he ho _))
  · exact (habsent (.inl hm)).trans (congrArg _ (serveOverride_held (mode := .forcedAbsent) (s := s.took rest) hp hm he ho _))
  · exact (hauto (.inl hm)).trans (congrArg _ (serveOverride_absent (mode := .auto) (s := s.took rest) hp hm he))
  · exact (hpresent (.inl hm)).trans (congrArg _ (serveOverride_absent (mode := .forcedPresent) (s := s.took rest) hp hm he))
  · exact (habsent (.inl hm)).trans (congrArg _ (serveOverride_absent (mode := .forcedAbsent) (s := s.took rest) hp hm he))
  · exact (hauto (.inr hm)).trans (congrArg _ (serveOverride_unknown hp hm _ _))
  · exact (hpresent (.inr hm)).trans (congrArg _ (serveOverride_unknown hp hm _ _))
  · exact (habsent (.inr hm)).trans (congrArg _ (serveOverride_unknown hp hm _ _))

/-! ### RESOLVE (R172) -/

theorem exec_resolve {s : State} {q : Request} {rest : List Request} (hq : s.queued q rest) (hk : q.kind = 0x2D)
    (hp : q.payload = []) : exec .resolve s = .next (serveResolve q (s.took rest)) :=
  take_next hq (by simp [ofKind, hk]) (by rw [hk, hp]; rfl)

theorem State.resolvePayload_eq (s : State) : s.resolvePayload = [s.resolver.status.code,
    (match s.resolver.applied with
      | some i => byteOf i.val
      | none => 0xFF),
    yesNo s.resolver.toolId.isSome]
    ++ be16 (s.resolver.toolId.getD (Config.absentToolId s.draws))
    ++ [byteOf s.resolver.counts.bound, byteOf s.resolver.counts.requiredMissing,
      byteOf s.resolver.counts.optionalMissing, byteOf s.resolver.counts.extras]
    ++ be16 s.dir.generation := by
  unfold State.resolvePayload
  cases s.resolver.applied <;> rfl

theorem serveResolve_resolves {s : State} (hs : s.mate.session = true) (hr : s.resolver.phase = .resolved) (q : Request) :
    serveResolve q s
      = State.ok { s.fullResolution with draws := s.fullResolution.draws + 1 } q s.fullResolution.resolvePayload :=
  if_pos ⟨hs, hr⟩

theorem serveResolve_notNow {s : State} (h : s.mate.session = false ∨ s.resolver.phase ≠ .resolved) (q : Request) :
    serveResolve q s = s.refuse q .notNow := by
  refine if_neg (fun hx => ?_)
  obtain ⟨hs, hr⟩ := hx
  rcases h with hn | hn
  · rw [hn] at hs
    cases hs
  · exact hn hr

/-- Settles O55: the resolution by State.fullResolution_into, the bytes of the reply by State.resolvePayload_eq. -/
theorem resolveRunsResolution : Obligations.ResolveRunsResolution := by
  unfold Obligations.ResolveRunsResolution
  intro s q rest hq hk hp
  rw [exec_resolve hq hk hp]
  refine ⟨fun h => by rw [serveResolve_notNow (s := s.took rest) h], fun hs hr => ?_⟩
  rw [serveResolve_resolves (s := s.took rest) hs hr, State.resolvePayload_eq]
  obtain ⟨hresolves, hmate, hrest, hlane, htold⟩ := State.fullResolution_into (s := s.took rest) hr
  obtain ⟨_, hlink⟩ := htold (State.queued_noAccess hq)
  generalize (s.took rest).fullResolution = t at *
  refine ⟨_, rfl, hresolves.congr rfl rfl (fun _ => rfl) rfl rfl rfl rfl rfl rfl, rfl, hmate, ?_,
    ⟨t.link, t.draws, hlink, rfl⟩, fun l => ⟨(hlane l).standing, (hlane l).state⟩⟩
  exact hrest.trans (State.keepsRest_ok _ q _)

end Sys2Proof.Machine
end

section
/-! PROOFS. What an act of one lane keeps, the end of a grant among them (R116). -/

namespace Sys2Proof.Machine

/-- What an act of lane `l` keeps that leaves the directory alone: the rest of the part and the other lanes. -/
structure State.laneActs (l : LaneId) (s t : State) : Prop where
  rest : s.keepsRest t
  mate : t.mate = s.mate
  dir : t.dir = s.dir
  resolver : t.resolver = s.resolver
  others : ∀ m, m ≠ l → t.lane m = s.lane m

theorem State.laneActs.trans {l : LaneId} {s t u : State} (h : s.laneActs l t) (k : t.laneActs l u) : s.laneActs l u :=
  ⟨h.rest.trans k.rest, k.mate.trans h.mate, k.dir.trans h.dir, k.resolver.trans h.resolver,
    fun m hm => (k.others m hm).trans (h.others m hm)⟩

theorem State.laneActs_modLane (s : State) (l : LaneId) (f : Lane → Lane) : s.laneActs l (s.modLane l f) :=
  ⟨s.keepsRest_modLane l f, rfl, rfl, rfl, fun _ hm => State.lane_modLane_ne _ _ _ _ hm⟩

theorem State.laneActs_post (s : State) (l : LaneId) (n : Notice) : s.laneActs l (s.post n) :=
  ⟨s.keepsRest_post n, rfl, rfl, rfl, fun _ _ => rfl⟩

theorem State.grantEnds.laneActs {l : LaneId} {s t : State} (h : s.grantEnds l t) : s.laneActs l t := by
  obtain ⟨hrest, hmate, hdir, hresolver, hothers, _⟩ := h
  exact ⟨hrest, hmate, hdir, hresolver, hothers⟩

/-- R116: where no access runs on the lane, the end of a grant posts nothing. -/
theorem State.grantEnds.link {l : LaneId} {s t : State} (h : s.grantEnds l t) (hn : s.noAccess l) : t.link = s.link := by
  obtain ⟨_, _, _, _, _, _, _, _, hquiet⟩ := h
  exact (hquiet hn).1

theorem State.grantEnds.work {l : LaneId} {s t : State} (h : s.grantEnds l t) : (s.lane l).sameButWork (t.lane l) := by
  obtain ⟨_, _, _, _, _, hwork, _⟩ := h
  exact hwork

end Sys2Proof.Machine
end

section
/-! PROOFS. The Presence Poller's round: the expiry of the poll gap timer (R97 to R99). -/

namespace Sys2Proof.Machine

theorem exec_pollGapTimerExpiry {s : State} {l : LaneId} {d : Nat} (h : (s.lane l).pollGapTimer = some d) :
    exec (.pollGapTimerExpiry l) s = .next ((s.pollRound l).arbitrate l) := by
  change execPollGapTimerExpiry l s = _
  unfold execPollGapTimerExpiry
  rw [if_pos (by rw [h]; rfl)]

/-- R98, R114: no request of the Poller is lost when the arbiter acts, and no PING that is being sent. -/
theorem arbitrate_polls {s : State} {l : LaneId} {p : Target} (h : (s.lane l).polls p) : ((s.arbitrate l).lane l).polls p := by
  rcases h with hstands | ⟨hgrant, hengine⟩
  · exact (arbitrate_serves s l).2 p hstands
  · obtain ⟨hkept, hheld⟩ := arbitrate_held hgrant
    exact .inr ⟨hheld, hkept.trans hengine⟩

/-- Settles O41: the round begins by State.pollRound_begins, and the arbiter then leaves all of its lane but the work. -/
theorem pollGapStartsRound : Obligations.PollGapStartsRound := by
  unfold Obligations.PollGapStartsRound
  intro s l d hd
  obtain ⟨n, hround, ⟨hempty, hfirst⟩, hn⟩ := s.pollRound_begins l
  obtain ⟨hwork, hothers, hdir, hmate, hresolver, hrest⟩ := s.modLane_arbitrate_frame l (fun _ => n)
  have hpolls : ∀ p, n.polls p → (((s.modLane l (fun _ => n)).arbitrate l).lane l).polls p := fun p hp =>
    arbitrate_polls (by rw [State.lane_modLane_self]; exact hp)
  have hstanding : (s.lane l).keepsStanding n := by
    rw [hn]
    exact ⟨⟨rfl, rfl, rfl, rfl⟩, rfl, rfl, rfl, rfl⟩
  have hpoller := congrArg Lane.poller hwork
  have htimer := congrArg Lane.pollGapTimer hwork
  have hgap : n.pollGapMs = (s.lane l).pollGapMs := by rw [hn]
  have hstate : n.state = (s.lane l).state := by rw [hn]
  refine ⟨_, (exec_pollGapTimerExpiry hd).trans (by rw [hround]), hdir, hmate, hresolver, hrest, hstanding.trans hwork.standing,
    (congrArg Lane.state hwork).trans hstate, hothers, fun hnone => ?_, fun a rest hsome => ?_⟩
  · obtain ⟨hrests, hstarts⟩ := hempty hnone
    exact ⟨hpoller.trans hrests, htimer.trans (hgap ▸ hstarts)⟩
  · obtain ⟨hphase, hset, hposition, hstops, e, he, _, _, hping, hasks⟩ := hfirst a rest hsome
    rw [hpoller]
    exact ⟨hphase, hset, hposition, htimer.trans hstops, e, he, hping, hpolls _ hasks⟩

end Sys2Proof.Machine
end

section
/-! PROOFS. The outcomes of an object access (R103, R121 to R125, R127). -/

namespace Sys2Proof.Machine

/-! ### The end of an access (R125) -/

/-- R125: the access that the Request Unit waits on has ended on lane `l` with its reply; the rest is as before. -/
structure State.accessAnswered (l : LaneId) (r : Reply) (s t : State) : Prop where
  acts : s.laneActs l t
  unit : t.unit = .replying none
  timer : t.accessTimer = none
  run : (t.lane l).run = none
  reply : t.link.currentReply = some r

theorem State.accessAnswered.after {l : LaneId} {p : Reply} {s u t : State} (h : u.accessAnswered l p t) (k : s.laneActs l u) :
    s.accessAnswered l p t :=
  ⟨k.trans h.acts, h.unit, h.timer, h.run, h.reply⟩

/-- R116: once a lane has no run, the end of its grant leaves the reply as it is. -/
theorem State.accessAnswered.endGrant {l : LaneId} {p : Reply} {s t : State} (h : s.accessAnswered l p t) :
    s.accessAnswered l p (t.endGrant l) := by
  obtain ⟨_, _, _, _, _, _, hquiet⟩ := t.endGrant_spec l
  obtain ⟨hlink, hunit, htimer, hrun⟩ := hquiet (.inl h.run)
  exact ⟨h.acts.trans (t.endGrant_ends l).laneActs, hunit.trans h.unit, htimer.trans h.timer, hrun.trans h.run,
    (congrArg Link.currentReply hlink).trans h.reply⟩

/-- R125: the access that the Request Unit waits on ends. -/
theorem State.endAccess_answered {s : State} {l : LaneId} {kind token : Byte} {r : Run} (hu : s.unit = .accessWait kind token l)
    (hr : (s.lane l).run = some r) (st : Status) :
    s.accessAnswered l { kind := kind + 0x80, token := token, status := st, payload := r.payload } (s.endAccess l st) := by
  have hended : s.endAccess l st = ({ s.modLane l (fun n => { n with run := none }) with accessTimer := none } : State).replyThen
      { kind := kind + 0x80, token := token, status := st, payload := r.payload } none := by
    unfold State.endAccess
    simp only [hu, hr, if_true]
  obtain ⟨hmate, hdir, _, hresolver, _, _, _, _, _, _, _, hothers⟩ := sameOutside_endAccess l s st
  refine ⟨⟨keepsRest_endAccess s l st, hmate, hdir, hresolver, hothers⟩, ?_, ?_, ?_, ?_⟩ <;> rw [hended]
  · rfl
  · rfl
  · exact congrArg Lane.run (State.lane_modLane_self s l (fun n => { n with run := none }))
  · exact State.currentReply_replyThen _ _ _

/-! ### The run after an answer (R121 to R124) -/

/-- R124: an answer fits a run: a READ has a value, a WRITE an acknowledgement. -/
def Run.fits (r : Run) (y : Answer) : Prop := (r.kind = .read ∧ (∃ v, y = .value v)) ∨ (∃ w, r.kind = .write w) ∧ y = .ack

theorem Run.after.advances {r r' : Run} {y : Answer} (h : r.after y r') (hf : r.fits y) : r' = r.advance y := by
  obtain ⟨hread, hwrite⟩ := h
  rcases hf with ⟨hk, v, rfl⟩ | ⟨⟨w, hk⟩, rfl⟩
  · rw [hread v hk rfl]
    unfold Run.advance
    simp only [hk]
  · rw [hwrite w hk rfl]
    unfold Run.advance
    simp only [hk]

/-- R124: an answer changes the completed count and the values alone. -/
theorem Run.advance_keeps (r : Run) (y : Answer) : (r.advance y).count = r.count ∧ (r.advance y).block = r.block := by
  unfold Run.advance
  split <;> exact ⟨rfl, rfl⟩

/-- R120: lane `l` with the run as it now stands. -/
def State.holding (s : State) (l : LaneId) (r : Run) : State := s.modLane l (fun n => { n with run := some r })

theorem State.holding_lane (s : State) (l : LaneId) (r : Run) : (s.holding l r).lane l = { s.lane l with run := some r } :=
  State.lane_modLane_self _ _ _

section
variable {s : State} {l : LaneId} {r : Run}

theorem State.continueRun_last (h : r.count ≤ r.completed) : s.continueRun l r = (s.holding l r).endAccess l .ok := if_pos h

theorem State.continueRun_single (h : r.completed < r.count) (hb : r.block = false) :
    s.continueRun l r = (s.holding l r).requestAccess l false :=
  (if_neg (Nat.not_le.2 h)).trans (if_pos (by rw [hb]; rfl))

theorem State.continueRun_block (h : r.completed < r.count) (hb : r.block = true) (hs : s.holdsRun r) :
    s.continueRun l r = (s.holding l r).startTelegram l r.telegram :=
  (if_neg (Nat.not_le.2 h)).trans ((if_neg (by rw [hb]; decide)).trans
    (if_pos (((s.holding l r).runStands_iff r).2 hs)))

theorem State.continueRun_gone (h : r.completed < r.count) (hb : r.block = true) (hs : ¬ s.holdsRun r) :
    s.continueRun l r = (s.holding l r).endAccess l .nodeLost :=
  (if_neg (Nat.not_le.2 h)).trans ((if_neg (by rw [hb]; decide)).trans
    (if_neg (fun hx => hs (((s.holding l r).runStands_iff r).1 hx))))

/-- R122: a BLOCK run keeps its grant and sends its next telegram. -/
theorem State.continueRun_block_endGrant (h : r.completed < r.count) (hb : r.block = true) (hs : s.holdsRun r) :
    (s.continueRun l r).endGrant l = s.modLane l (fun n =>
      { n with run := some r, engine := some { telegram := r.telegram, attempt := 1, phase := .sending } }) := by
  have hsent : s.continueRun l r = s.modLane l (fun n =>
      { n with run := some r, engine := some { telegram := r.telegram, attempt := 1, phase := .sending } }) := by
    rw [State.continueRun_block h hb hs]
    exact State.modLane_modLane _ _ _ _
  rw [hsent]
  exact if_neg (by rw [State.lane_modLane_self]; exact Bool.false_ne_true)

/-- R121: a SINGLE run asks for its next telegram; the request stands or is granted, and the access goes on. -/
theorem State.continueRun_single_endGrant (he : (s.lane l).engine = none) (h : r.completed < r.count) (hb : r.block = false)
    (hs : s.holdsRun r) :
    s.laneActs l ((s.continueRun l r).endGrant l) ∧ ((s.continueRun l r).endGrant l).unit = s.unit
      ∧ ((s.continueRun l r).endGrant l).accessTimer = s.accessTimer ∧ ((s.continueRun l r).endGrant l).link = s.link
      ∧ (((s.continueRun l r).endGrant l).lane l).run = some r
      ∧ (((s.continueRun l r).endGrant l).lane l).accesses false r := by
  generalize hd : s.continueRun l r = d
  have hasks : d = s.modLane l (fun n => { n with
      run := some r, arbiter := { n.arbiter with standing := { n.arbiter.standing with access := some false } } }) := by
    rw [← hd, State.continueRun_single h hb]
    exact State.modLane_modLane _ _ _ _
  have hended : d.endGrant l = (d.releaseGrant l).arbitrate l :=
    if_pos (by rw [hasks, State.lane_modLane_self]; exact Option.isNone_iff_eq_none.2 he)
  have hfree : (d.releaseGrant l).lane l = { s.lane l with
      run := some r
      arbiter := { (s.lane l).arbiter with
        grant := none, standing := { (s.lane l).arbiter.standing with access := some false } } } := by
    rw [hasks]
    unfold State.releaseGrant
    rw [State.lane_modLane_self, State.lane_modLane_self]
  have hacts : s.laneActs l d := by
    rw [hasks]
    exact s.laneActs_modLane l _
  have hstands : (d.releaseGrant l).runStands r = true := by
    rw [State.runStands_iff, hasks]
    exact hs
  obtain ⟨hlink, hunit, htimer, hrun⟩ := sameAccess_arbitrate_holds (s := d.releaseGrant l) (l := l) (by
    intro x hx
    rw [hfree] at hx
    cases hx
    exact hstands)
  have haccesses := arbitrate_access (d.releaseGrant l) l false r (by rw [hfree]) (by rw [hfree]) hstands
  refine ⟨hacts.trans (d.endGrant_ends l).laneActs, ?_⟩
  rw [hended]
  refine ⟨hunit.trans ?_, htimer.trans ?_, hlink.trans ?_, hrun.trans (by rw [hfree]), haccesses.imp id ?_⟩
  · rw [hasks]; rfl
  · rw [hasks]; rfl
  · rw [hasks]; rfl
  · exact fun ⟨hgrant, hengine⟩ => ⟨hgrant, _, r.telegram_asked, hengine⟩

end

/-! ### The outcome of a telegram of a run (R103, R124, R127) -/

section
variable {s : State} {l : LaneId} {r : Run} (hr : (s.lane l).run = some r)
include hr

theorem State.accessOutcome_answered (ha : r.abandoned = false) (y : Answer) :
    s.accessOutcome l (.answered y) = (s.applyAnswer r.target none).continueRun l (r.advance y) := by
  unfold State.accessOutcome
  simp only [hr, ha]
  rfl

theorem State.accessOutcome_refused (ha : r.abandoned = false) :
    s.accessOutcome l .refused = (s.evidence r.target .refused).endAccess l .nodeRefused := by
  unfold State.accessOutcome
  simp only [hr, ha]
  rfl

theorem State.accessOutcome_noAnswer (ha : r.abandoned = false) :
    s.accessOutcome l .noAnswer = (s.evidence r.target .noAnswer).endAccess l .noAnswer := by
  unfold State.accessOutcome
  simp only [hr, ha]
  rfl

/-- R127: of an abandoned run only the evidence is left. -/
theorem State.accessOutcome_abandoned (ha : r.abandoned = true) (o : TelegramOutcome) :
    s.accessOutcome l o = (s.evidence r.target o).modLane l (fun n => { n with run := none }) := by
  unfold State.accessOutcome
  simp only [hr, ha, if_true]

end

/-- R33: what ends an object telegram goes to the run. -/
theorem State.endsWith.deliversAccess {s : State} {c : Instr} {l : LaneId} {u : Underway} {b : Bool} {x : AttemptResult}
    (h : s.endsWith c l u (.access b) x) :
    (s.engineFree l).deliver l u.telegram x.outcome = (s.engineFree l).accessOutcome l x.outcome := by
  unfold State.deliver
  rw [show ((s.engineFree l).lane l).arbiter.grant = some (.access b) from h.grant]

theorem State.endsWith.accesses {s : State} {c : Instr} {l : LaneId} {u : Underway} {b : Bool} {x : AttemptResult}
    (h : s.endsWith c l u (.access b) x) (ha : u.again x = false) :
    exec c s = .next (((s.engineFree l).accessOutcome l x.outcome).endGrant l)
      ∧ s.outcomeGives c l ((s.engineFree l).accessOutcome l x.outcome) := by
  have hgives := h.gives ha
  have ⟨hc, hu, hp, _⟩ := h
  refine ⟨?_, h.deliversAccess ▸ hgives⟩
  rw [exec_quietWait hc, State.quietWait_delivers hu hp ha]
  exact congrArg (fun d => Host.Outcome.next (State.endGrant d l)) h.deliversAccess

/-- R33: no attempt follows an outcome of an object telegram that ends it. -/
theorem Underway.again_ended {u : Underway} {x : AttemptResult}
    (h : (∃ y, x = .valid y) ∨ x = .refused ∨ (x = .noAnswer ∨ x = .invalid) ∧ 3 ≤ u.attempt) : u.again x = false := by
  rcases h with hy | rfl | hn
  · exact Underway.again_over (.inl hy)
  · exact Underway.again_answered (r := .refused) nofun nofun u
  · exact Underway.again_over (.inr hn)

section
variable {s : State} {l : LaneId} {u : Underway} {b : Bool} {r : Run} {kind token : Byte} {x : AttemptResult} {c : Instr}
  (hends : s.endsWith c l u (.access b) x) (hu : s.unit = .accessWait kind token l) (hr : (s.lane l).run = some r)
  (ha : r.abandoned = false)
include hends hu hr ha

/-- R103, R124: REFUSED and NO_ANSWER are evidence, and end the run with what has been read. -/
theorem State.endsWith.failsAccess (hx : x = .refused ∨ (x = .noAnswer ∨ x = .invalid) ∧ 3 ≤ u.attempt) :
    ∃ t, exec c s = .next t ∧ State.accessAnswered l {
        kind := kind + 0x80, token := token, status := if x = .refused then .nodeRefused else .noAnswer, payload := r.payload }
      ((s.engineFree l).evidence r.target x.outcome) t := by
  have hfree : ((s.engineFree l).lane l).run = some r := by rw [State.engineFree_lane]; exact hr
  have hnews := (s.engineFree l).newsAndRounds_evidence r.target x.outcome
  have hunit : ((s.engineFree l).evidence r.target x.outcome).unit = .accessWait kind token l := hnews.unit.trans hu
  have hrun : (((s.engineFree l).evidence r.target x.outcome).lane l).run = some r := (hnews.lane l).2.1.trans hfree
  have hended : (s.engineFree l).accessOutcome l x.outcome = ((s.engineFree l).evidence r.target x.outcome).endAccess l
      (if x = .refused then .nodeRefused else .noAnswer) := by
    rcases hx with rfl | ⟨rfl | rfl, _⟩
    · exact State.accessOutcome_refused hfree ha
    · exact State.accessOutcome_noAnswer hfree ha
    · exact State.accessOutcome_noAnswer hfree ha
  exact ⟨_, (hends.accesses (Underway.again_ended (.inr hx))).1.trans (by rw [hended]),
    (State.endAccess_answered hunit hrun _).endGrant⟩

end

section
variable {s : State} {l : LaneId} {u : Underway} {b : Bool} {r : Run} {y : Answer} {c : Instr}
  (hends : s.endsWith c l u (.access b) (.valid y)) (hr : (s.lane l).run = some r) (ha : r.abandoned = false)
include hends hr ha

/-- R124: a valid answer is evidence, and the run goes on with its object completed. -/
theorem State.endsWith.goesOn : exec c s
    = .next ((((s.engineFree l).applyAnswer r.target none).continueRun l (r.advance y)).endGrant l) := by
  have hfree : ((s.engineFree l).lane l).run = some r := by rw [State.engineFree_lane]; exact hr
  refine (hends.accesses (Underway.again_ended (.inl ⟨y, rfl⟩))).1.trans ?_
  exact congrArg (fun d => Host.Outcome.next (State.endGrant d l)) (State.accessOutcome_answered hfree ha y)

/-- R121, R123, R125: the last object ends the run with OK, and a BLOCK run whose entry is gone or LOST ends with NODE_LOST. -/
theorem State.endsWith.answersAccess {kind token : Byte} (hu : s.unit = .accessWait kind token l) {st : Status}
    (hst : ((s.engineFree l).applyAnswer r.target none).continueRun l (r.advance y)
      = (((s.engineFree l).applyAnswer r.target none).holding l (r.advance y)).endAccess l st) :
    ∃ t, exec c s = .next t ∧ State.accessAnswered l {
        kind := kind + 0x80, token := token, status := st, payload := (r.advance y).payload }
      ((s.engineFree l).applyAnswer r.target none) t := by
  have hnews := (s.engineFree l).onlyNews_applyAnswer r.target none
  have hunit : (((s.engineFree l).applyAnswer r.target none).holding l (r.advance y)).unit = .accessWait kind token l :=
    hnews.unit.trans hu
  have hdone := State.endAccess_answered hunit (by rw [State.holding_lane]) st
  exact ⟨_, (hends.goesOn hr ha).trans (by rw [hst]), (hdone.after (State.laneActs_modLane _ l _)).endGrant⟩

end

/-- What stands once an access has ended after evidence. -/
theorem State.accessAnswered.ends {s a t : State} {l : LaneId} {p : Reply} (h : a.accessAnswered l p t)
    (hnews : (s.engineFree l).newsAndRounds a) : t.unit = .replying none ∧ t.accessTimer = none ∧ (t.lane l).run = none
      ∧ t.mate = s.mate ∧ s.keepsRest t ∧ t.link.currentReply = some p :=
  ⟨h.unit, h.timer, h.run, h.acts.mate.trans hnews.mate, ((s.keepsRest_modLane l _).trans hnews.rest).trans h.acts.rest, h.reply⟩

/-- The end of an access, after an answer, leaves the other lanes. -/
theorem State.accessAnswered.others {s a t : State} {l : LaneId} {p : Reply} (h : a.accessAnswered l p t)
    (hnews : (s.engineFree l).onlyNews a) (m : LaneId) (hm : m ≠ l) : t.lane m = s.lane m :=
  (h.acts.others m hm).trans ((hnews.lane m).trans (s.engineFree_lane_ne hm))

/-! ### A PING between two telegrams of a run (R123) -/

/-- R123: what the grant after a PING makes of the access that is first in turn, from `d` to `t`. -/
theorem State.accessMet.grants {d t : State} {l : LaneId} {b : Bool} {r : Run} {kind token : Byte} (h : d.accessMet l t)
    (hb : (d.lane l).arbiter.standing.access = some b) (hu : d.unit = .accessWait kind token l) (hr : (d.lane l).run = some r)
    (hfirst : d.accessFirst l) :
    (d.holdsRun r → (t.lane l).run = some r ∧ t.unit = d.unit ∧ t.accessTimer = d.accessTimer ∧ t.link = d.link
        ∧ (t.lane l).arbiter.grant = some (.access b)
        ∧ ∃ m, r.asksFor m ∧ (t.lane l).engine = some { telegram := m, attempt := 1, phase := .sending })
      ∧ (¬ d.holdsRun r → (t.lane l).run = none ∧ t.unit = .replying none ∧ t.accessTimer = none
        ∧ (∀ x, (t.lane l).arbiter.grant ≠ some (.access x))
        ∧ t.link = d.link.send { kind := kind + 0x80, token := token, status := .nodeLost, payload := r.payload }) := by
  obtain ⟨_, hgranted, hturn⟩ := h b r kind token hb hu hr
  exact hgranted (hturn hfirst)

/-- R99 to R101: the outcome of a PING is an answer or a miss of its entry, and then the round goes on. -/
theorem State.pollOutcome_takes (s : State) (l : LaneId) (p : Target) {x : AttemptResult}
    (hx : (∃ f, x = .valid (.status f)) ∨ x = .noAnswer ∨ x = .invalid) :
    ∃ a, ((∃ f, x = .valid (.status f) ∧ s.takesAnswer p (some f) a) ∨ (x = .noAnswer ∨ x = .invalid) ∧ s.takesMiss p a)
      ∧ (a.pingDone l).pollsOn l (s.pollOutcome l p x.outcome) := by
  rcases hx with ⟨f, rfl⟩ | hn
  · exact ⟨_, .inl ⟨f, rfl, s.applyAnswer_takes p _⟩, State.pollNext_polls _ l⟩
  · rw [AttemptResult.outcome_noAnswer hn]
    exact ⟨_, .inr ⟨hn, s.applyMiss_takes p⟩, State.pollNext_polls _ l⟩

/-- Settles O45: the ends of a run by State.endsWith.failsAccess and State.endsWith.answersAccess, its next telegram by
State.continueRun_single_endGrant and State.continueRun_block_endGrant, and its turn after a PING by State.accessMet.grants. -/
theorem accessOutcomeEndsRun : Obligations.AccessOutcomeEndsRun := by
  unfold Obligations.AccessOutcomeEndsRun
  refine ⟨fun s l u b r kind token x c hc heng hphase hgrant hu hr ha hk _ hlast => ?_,
    fun s l u b r kind token x c hends hu hr ha => ⟨fun hx => ?_, fun y r' hx hafter hfits => ?_⟩,
    fun s l u b r x c hends hr ha hx => ?_, fun s l u p b r kind token x c hends hu hr hb hx => ?_⟩
  · have hends : s.endsWith c l u (.access b) x := ⟨hc, heng, hphase, hgrant⟩
    refine ⟨fun v hx hcount => ?_, fun hx => ?_, fun hx => ?_⟩
    · subst hx
      have hadvance : r.advance (.value v) = { r with completed := r.completed + 1, values := r.values ++ [v] } := by
        unfold Run.advance
        simp only [hk]
      obtain ⟨t, ht, hdone⟩ := hends.answersAccess hr ha hu (State.continueRun_last (by rw [hadvance]; exact hcount.ge))
      rw [hadvance] at hdone
      exact ⟨t, ht, hdone.ends ((s.engineFree l).onlyNews_applyAnswer r.target none).clears.rounds⟩
    · obtain ⟨t, ht, hdone⟩ := hends.failsAccess hu hr ha (.inl hx)
      rw [if_pos hx] at hdone
      exact ⟨t, ht, hdone.ends ((s.engineFree l).newsAndRounds_evidence r.target x.outcome)⟩
    · obtain ⟨t, ht, hdone⟩ := hends.failsAccess hu hr ha (.inr ⟨hx, hlast.ge⟩)
      rw [if_neg (by rcases hx with rfl | rfl <;> nofun)] at hdone
      exact ⟨t, ht, hdone.ends ((s.engineFree l).newsAndRounds_evidence r.target x.outcome)⟩
  · obtain ⟨t, ht, hdone⟩ := hends.failsAccess hu hr ha (hx.imp id fun ⟨hn, _, hlast⟩ => ⟨hn, hlast⟩)
    obtain ⟨hunit, htimer, hrun, hmate, hrest, hreply⟩ :=
      hdone.ends ((s.engineFree l).newsAndRounds_evidence r.target x.outcome)
    exact ⟨_, t, State.evidence_takes _ r.target x, ht, hunit, htimer, hrun, hdone.acts.dir, hmate, hrest, hdone.acts.others, hreply⟩
  · subst hx
    obtain rfl := hafter.advances hfits
    obtain ⟨hcount, hblock⟩ := r.advance_keeps y
    have hnews := (s.engineFree l).onlyNews_applyAnswer r.target none
    refine ⟨_, State.applyAnswer_takes _ r.target none, fun hlast => ?_, fun hlt hb hs => ?_, fun hlt hb hs => ?_,
      fun hlt hb hs => ?_⟩
    · obtain ⟨t, ht, hdone⟩ := hends.answersAccess hr ha hu (State.continueRun_last (hcount ▸ hlast))
      obtain ⟨hunit, htimer, hrun, hmate, hrest, hreply⟩ := hdone.ends hnews.clears.rounds
      exact ⟨t, ht, hunit, htimer, hrun, hdone.acts.dir, hmate, hrest, hdone.others hnews, hreply⟩
    · have hengine : (((s.engineFree l).applyAnswer r.target none).lane l).engine = none := by
        rw [hnews.lane, State.engineFree_lane]
      obtain ⟨hacts, hunit, htimer, hlink, hrun, haccesses⟩ :=
        State.continueRun_single_endGrant hengine (hcount ▸ hlt) (hblock.trans hb) hs
      exact ⟨_, hends.goesOn hr ha, hunit.trans hnews.unit, htimer.trans hnews.accessTimer, hrun, hacts.dir, hlink,
        hacts.mate.trans hnews.mate, ((s.keepsRest_modLane l _).trans hnews.rest).trans hacts.rest,
        fun m hm => (hacts.others m hm).trans ((hnews.lane m).trans (s.engineFree_lane_ne hm)), haccesses⟩
    · refine ⟨_, (r.advance y).telegram_asked, (hends.goesOn hr ha).trans ?_⟩
      rw [State.continueRun_block_endGrant (hcount ▸ hlt) (hblock.trans hb) hs]
    · obtain ⟨t, ht, hdone⟩ := hends.answersAccess hr ha hu (State.continueRun_gone (hcount ▸ hlt) (hblock.trans hb) hs)
      obtain ⟨hunit, htimer, hrun, hmate, hrest, hreply⟩ := hdone.ends hnews.clears.rounds
      exact ⟨t, ht, hunit, htimer, hrun, hdone.acts.dir, hmate, hrest, hreply⟩
  · have hfree : ((s.engineFree l).lane l).run = some r := by rw [State.engineFree_lane]; exact hr
    have hover : u.again x = false := Underway.again_ended (hx.imp_right (·.imp_right fun ⟨hn, _, hlast⟩ => ⟨hn, hlast⟩))
    obtain ⟨_, hgives⟩ := hends.accesses hover
    exact ⟨_, State.evidence_takes _ r.target x, State.accessOutcome_abandoned hfree ha x.outcome ▸ hgives⟩
  · have hover : u.again x = false := Underway.again_over (hx.imp (fun ⟨f, hf⟩ => ⟨_, hf⟩) fun ⟨hn, _, hlast⟩ => ⟨hn, hlast⟩)
    obtain ⟨t, ht, hgrant, hmet⟩ := hends.polls hover
    obtain ⟨a, htakes, hpolls⟩ := (s.engineFree l).pollOutcome_takes l p (hx.imp_right And.left)
    obtain ⟨hengine, hrun, hstands, hunit, htimer⟩ := (s.engineFree l).pollOutcome_kept l p x.outcome
    rw [State.engineFree_lane] at hengine hrun hstands
    obtain ⟨haccess, _⟩ := hmet hengine
    have hturn := haccess.grants (hstands.trans hb) (hunit.trans hu) (hrun.trans hr)
    refine ⟨a, _, t, htakes, hpolls, ht, hgrant, fun hfirst hs => ?_, fun hfirst => (hturn hfirst).2⟩
    obtain ⟨hkept, hwaits, hruns, hlink, hsent⟩ := (hturn hfirst).1 hs
    exact ⟨hkept, hwaits.trans hunit, hruns.trans htimer, hlink, hsent⟩

end Sys2Proof.Machine
end

section
/-! PROOFS. The outcome of a HEED (R103, R140, R141, R145). -/

namespace Sys2Proof.Machine

/-! ### The entry of a heed (R140, R141) -/

theorem State.heeded?_iff {s : State} {h : Heed} {e : Entry} : s.heeded? h = some e ↔ s.heeds h e := by
  refine ⟨fun hx => ⟨State.heeded?_target hx, ?_⟩, fun ⟨htarget, hpending⟩ => ?_⟩
  · obtain ⟨_, hpending, _⟩ := State.heeded?_pending hx
    exact hpending
  · unfold State.heeded?
    rw [htarget]
    exact if_pos hpending

theorem State.heeded?_none {s : State} {h : Heed} (hno : ∀ e, ¬ s.heeds h e) : s.heeded? h = none :=
  Option.eq_none_iff_forall_ne_some.2 fun e he => hno e (State.heeded?_iff.1 he)

/-! ### The outcome of a HEED, case by case (R140, R141, R145) -/

section
variable {s : State} {h : Heed} {e : Entry}

theorem State.post_heedGone (s : State) (l : LaneId) (n : Notice) : (s.post n).heedGone l = (s.heedGone l).post n := rfl

/-- R140: an answer with a cause puts the entry in service. -/
theorem State.heedCause_enters (l : LaneId) (cause : Byte) (data : List Byte) (he : (s.applyAnswer h.target none).heeds h e) :
    (s.heedCause l h cause data).heedGone l = (s.applyAnswer h.target none).entersService l h e cause data := by
  unfold State.heedCause
  simp only [State.heeded?_iff.2 he]
  rw [State.post_heedGone]
  unfold State.heedGone
  rw [State.modLane_modLane]
  rfl

theorem State.heedCause_gone (l : LaneId) (cause : Byte) (data : List Byte)
    (hno : ∀ e, ¬ (s.applyAnswer h.target none).heeds h e) : s.heedCause l h cause data = s.applyAnswer h.target none := by
  unfold State.heedCause
  simp only [State.heeded?_none hno]

/-- R141: an answer with cause 0x00 makes the entry IDLE. -/
theorem State.heedNothing_idles (l : LaneId) (he : (s.applyAnswer h.target none).heeds h e) :
    (s.heedNothing l h).heedGone l = (s.applyAnswer h.target none).heedsNothing l h e := by
  unfold State.heedNothing
  simp only [State.heeded?_iff.2 he]
  exact State.modLane_modLane _ l _ _

theorem State.heedNothing_gone (l : LaneId) (hno : ∀ e, ¬ (s.applyAnswer h.target none).heeds h e) :
    s.heedNothing l h = s.applyAnswer h.target none := by
  unfold State.heedNothing
  simp only [State.heeded?_none hno]

/-- R141: without an answer a PENDING entry becomes IDLE before the miss. -/
theorem State.heedSilent_idles (he : s.heeds h e) :
    s.heedSilent h = (s.update e { e with attention := .idle }).applyMiss h.target := by
  unfold State.heedSilent
  simp only [State.heeded?_iff.2 he]

theorem State.heedSilent_gone (hno : ∀ e, ¬ s.heeds h e) : s.heedSilent h = s.applyMiss h.target := by
  unfold State.heedSilent
  simp only [State.heeded?_none hno]

end

section
variable {s : State} {l : LaneId} {h : Heed} (hh : (s.lane l).attention.heed = some h)
include hh

theorem State.heedOutcome_cause {cause : Byte} (hc : cause ≠ 0) (data : List Byte) :
    s.heedOutcome l (.answered (.cause cause data)) = (s.heedCause l h cause data).heedGone l := by
  unfold State.heedOutcome
  simp only [hh, if_neg hc]
  rfl

theorem State.heedOutcome_nothing (data : List Byte) :
    s.heedOutcome l (.answered (.cause 0 data)) = (s.heedNothing l h).heedGone l := by
  unfold State.heedOutcome
  simp only [hh, if_true]
  rfl

theorem State.heedOutcome_noAnswer : s.heedOutcome l .noAnswer = (s.heedSilent h).heedGone l := by
  unfold State.heedOutcome
  simp only [hh]
  rfl

end

section
variable {s : State} {l : LaneId} {u : Underway} {r : AttemptResult} {c : Instr} {h : Heed} {a : Nat}

/-- R33: what ends a HEED goes to the Attention Service, which has the heed in flight. -/
theorem State.endsWith.heeds (hends : s.endsWith c l u .attention r) (hu : u.telegram = .heed a) (hagain : u.again r = false) :
    s.outcomeGives c l ((s.engineFree l).heedOutcome l r.outcome) := by
  have hgives := hends.serves hagain
  rw [hu] at hgives
  exact hgives

variable (hh : (s.lane l).attention.heed = some h)
include hh

theorem State.engineFree_heed : ((s.engineFree l).lane l).attention.heed = some h := by
  rw [State.engineFree_lane]
  exact hh

/-- R103, R140: a HEED answered with a cause is evidence first, and then the entry that is still PENDING enters service. -/
theorem State.endsWith.heedsCause {cause : Byte} {data : List Byte}
    (hends : s.endsWith c l u .attention (.valid (.cause cause data))) (hu : u.telegram = .heed a) (hc : cause ≠ 0) :
    (∀ e, ((s.engineFree l).applyAnswer h.target none).heeds h e →
        s.outcomeGives c l (((s.engineFree l).applyAnswer h.target none).entersService l h e cause data))
      ∧ ((∀ e, ¬ ((s.engineFree l).applyAnswer h.target none).heeds h e) →
        s.outcomeGives c l (((s.engineFree l).applyAnswer h.target none).heedGone l)) := by
  have hgives := hends.heeds hu (Underway.again_over (.inl ⟨_, rfl⟩))
  rw [show (AttemptResult.valid (.cause cause data)).outcome = .answered (.cause cause data) from rfl,
    State.heedOutcome_cause (State.engineFree_heed hh) hc] at hgives
  exact ⟨fun e he => State.heedCause_enters l cause data he ▸ hgives, fun hno => State.heedCause_gone l cause data hno ▸ hgives⟩

/-- R103, R141: a HEED answered with cause 0x00 is evidence first, and then the entry that is still PENDING becomes IDLE. -/
theorem State.endsWith.heedsZero {data : List Byte} (hends : s.endsWith c l u .attention (.valid (.cause 0 data)))
    (hu : u.telegram = .heed a) :
    (∀ e, ((s.engineFree l).applyAnswer h.target none).heeds h e →
        s.outcomeGives c l (((s.engineFree l).applyAnswer h.target none).heedsNothing l h e))
      ∧ ((∀ e, ¬ ((s.engineFree l).applyAnswer h.target none).heeds h e) →
        s.outcomeGives c l (((s.engineFree l).applyAnswer h.target none).heedGone l)) := by
  have hgives := hends.heeds hu (Underway.again_over (.inl ⟨_, rfl⟩))
  rw [show (AttemptResult.valid (.cause 0 data)).outcome = .answered (.cause 0 data) from rfl,
    State.heedOutcome_nothing (State.engineFree_heed hh)] at hgives
  exact ⟨fun e he => State.heedNothing_idles l he ▸ hgives, fun hno => State.heedNothing_gone l hno ▸ hgives⟩

/-- R141: of a HEED without an answer the PENDING entry becomes IDLE, and the miss follows. -/
theorem State.endsWith.heedsSilence (hends : s.endsWith c l u .attention r) (hu : u.telegram = .heed a)
    (hr : r = .noAnswer ∨ r = .invalid) (hlast : 3 ≤ u.attempt) :
    (∀ e, s.heeds h e →
        s.outcomeGives c l ((((s.engineFree l).update e { e with attention := .idle }).applyMiss h.target).heedGone l))
      ∧ ((∀ e, ¬ s.heeds h e) → s.outcomeGives c l (((s.engineFree l).applyMiss h.target).heedGone l)) := by
  have hgives := hends.heeds hu (Underway.again_over (.inr ⟨hr, hlast⟩))
  rw [AttemptResult.outcome_noAnswer hr, State.heedOutcome_noAnswer (State.engineFree_heed hh)] at hgives
  exact ⟨fun e he => State.heedSilent_idles (s := s.engineFree l) he ▸ hgives,
    fun hno => State.heedSilent_gone (s := s.engineFree l) hno ▸ hgives⟩

end

/-! ### A HEED of an entry that is PRESENT (R100, R140, R141) -/

/-- An update of an entry with itself, before another update of it, leaves no trace. -/
theorem State.update_self_update (s : State) (e f : Entry) : (s.update e e).update e f = s.update e f := by
  have hcounted : e.counted e = false := by simp [Entry.counted]
  have hentries : (s.dir.entries.map (fun x => if x.handle = e.handle then e else x)).map
        (fun x => if x.handle = e.handle then f else x)
      = s.dir.entries.map (fun x => if x.handle = e.handle then f else x) := by
    rw [List.map_map]
    refine List.map_congr_left fun x _ => ?_
    simp only [Function.comp_apply]
    by_cases hx : x.handle = e.handle <;> simp [hx]
  unfold State.update Directory.advance
  simp only [hcounted, hentries, Bool.false_eq_true, if_false, BitVec.add_zero]

/-- R82: an entry that an update names still matches after an update with itself. -/
theorem State.target?_update_self {s : State} {p : Target} {e : Entry} (he : s.target? p = some e) :
    (s.update e e).target? p = some e := by
  have hself : e.isTarget p = true := by
    have hfound := List.find?_some he
    exact hfound
  have hhandle : ∀ {x : Entry}, x.isTarget p = true → x.handle = p.handle := by
    intro x hx
    simp only [Entry.isTarget, Bool.and_eq_true, decide_eq_true_eq] at hx
    exact hx.1.1.1
  change (s.dir.entries.map (fun x => if x.handle = e.handle then e else x)).find? (fun x => x.isTarget p) = some e
  rw [List.find?_map]
  cases hf : s.dir.entries.find? ((fun x => x.isTarget p) ∘ fun x => if x.handle = e.handle then e else x) with
  | none =>
    refine absurd hself ?_
    have hnone := List.find?_eq_none.1 hf e (List.mem_of_find?_eq_some he)
    rwa [Function.comp_apply, if_pos rfl] at hnone
  | some x =>
    have hx := List.find?_some hf
    rw [Function.comp_apply] at hx
    rw [Option.map_some]
    split
    · rfl
    · rename_i hne
      rw [if_neg hne] at hx
      exact absurd ((hhandle hx).trans (hhandle hself).symm) hne

/-- R100: an answer of a node whose entry is PRESENT with no miss changes nothing but, at most, updates the entry with itself. -/
theorem State.applyAnswer_present {s : State} {p : Target} {e : Entry} (he : s.target? p = some e) (hp : e.presence = .present)
    (hm : e.miss = 0) : s.applyAnswer p none = s ∨ s.applyAnswer p none = s.update e e := by
  have hsame : e.answered none = e := by
    unfold Entry.answered Entry.withFault
    rw [← hp, ← hm]
    rfl
  unfold State.applyAnswer
  simp only [he]
  split
  · refine .inr ?_
    unfold State.postFault State.reportPresence
    rw [hsame]
    simp [hp]
  · exact .inl rfl

/-- What the evidence of a HEED leaves of the part where the entry was PRESENT already. -/
structure State.heedsPresent (s : State) (h : Heed) (e : Entry) (a : State) : Prop where
  heeds : a.heeds h e
  update : ∀ f, (a.update e f).dir = (s.update e f).dir
  news : s.onlyNews a
  link : a.link = s.link
  resolver : a.resolver = s.resolver

theorem State.applyAnswer_heedsPresent {s : State} {h : Heed} {e : Entry} (he : s.heeds h e) (hp : e.presence = .present)
    (hm : e.miss = 0) : s.heedsPresent h e (s.applyAnswer h.target none) := by
  obtain ⟨htarget, hpending⟩ := he
  rcases State.applyAnswer_present htarget hp hm with ha | ha
  · rw [ha]
    exact ⟨⟨htarget, hpending⟩, fun _ => rfl, .refl s, rfl, rfl⟩
  · rw [ha]
    exact ⟨⟨State.target?_update_self htarget, hpending⟩, fun f => congrArg State.dir (s.update_self_update e f),
      s.onlyNews_update e e, rfl, rfl⟩

theorem State.entersService_acts (a : State) (l : LaneId) (h : Heed) (e : Entry) (cause : Byte) (data : List Byte) :
    (a.update e { e with attention := .inService }).laneActs l (a.entersService l h e cause data) :=
  (State.laneActs_modLane _ l _).trans (State.laneActs_post _ l (.attention e.handle h.level cause data))

theorem State.heedsNothing_acts (a : State) (l : LaneId) (h : Heed) (e : Entry) :
    (a.update e { e with attention := .idle }).laneActs l (a.heedsNothing l h e) := State.laneActs_modLane _ l _

/-- What stands after a HEED of an entry that was PRESENT has made it `f` in a state `d`, and the grant has ended. -/
theorem State.heedsPresent.ends {s a d t : State} {l : LaneId} {h : Heed} {e f : Entry} (ha : (s.engineFree l).heedsPresent h e a)
    (hd : (a.update e f).laneActs l d) (ht : d.grantEnds l t) :
    t.mate = s.mate ∧ t.resolver = s.resolver ∧ s.keepsRest t ∧ (∀ m, m ≠ l → t.lane m = s.lane m)
      ∧ t.dir = (s.update e f).dir := by
  have hacts := hd.trans ht.laneActs
  refine ⟨hacts.mate.trans ha.news.mate, hacts.resolver.trans ha.resolver, ?_, fun m hm => ?_, hacts.dir.trans (ha.update f)⟩
  · exact ((s.keepsRest_modLane l _).trans ha.news.rest).trans hacts.rest
  · exact (hacts.others m hm).trans ((ha.news.lane m).trans (s.engineFree_lane_ne hm))

theorem State.lane_relinked (s : State) (k : Link) (l : LaneId) : ({ s with link := k } : State).lane l = s.lane l := rfl

theorem State.entersService_lane (a : State) (l : LaneId) (h : Heed) (e : Entry) (cause : Byte) (data : List Byte) :
    (a.entersService l h e cause data).lane l = { a.lane l with
      attention := { (a.lane l).attention with
        heed := none
        lastServed := (a.lane l).attention.lastServed.set h.level (some e.handle)
        slots := (a.lane l).attention.slots.set h.level (some {
          handle := e.handle, deadline := if a.attnTimeout = 0 then none else some (a.now + 1000 * a.attnTimeout) }) } } :=
  (State.lane_relinked _ _ l).trans (State.lane_modLane_self (a.update e { e with attention := .inService }) l _)

theorem State.heedsNothing_lane (a : State) (l : LaneId) (h : Heed) (e : Entry) :
    (a.heedsNothing l h e).lane l = { a.lane l with
      attention := { (a.lane l).attention with
        heed := none, lastServed := (a.lane l).attention.lastServed.set h.level (some e.handle) } } :=
  State.lane_modLane_self (a.update e { e with attention := .idle }) l _

theorem Three.get_set_self {α : Type} (f : Three α) (v : LevelId) (x : α) : (f.set v x).get v = x :=
  (Three.get_set f v v x).trans (if_pos rfl)

/-- Settles O50: an answer by State.endsWith.heedsCause and State.endsWith.heedsZero, no answer by
State.endsWith.heedsSilence; where the entry was PRESENT, by State.heedsPresent.ends. -/
theorem heedEntersService : Obligations.HeedEntersService := by
  unfold Obligations.HeedEntersService
  refine ⟨fun s l u r c h hends hu hh => ⟨fun cause data hr => ?_, fun hr hlast => ⟨fun e he => ?_, fun hno => ?_⟩⟩,
    fun s l u h e cause data c hc heng hu hphase hgrant hh htarget hpending hp hm => ?_⟩
  · subst hr
    refine ⟨_, State.applyAnswer_takes _ _ _, fun e he hc => (hends.heedsCause hh hu hc).1 e he, fun e he hc => ?_, fun hno => ?_⟩
    · subst hc
      exact (hends.heedsZero hh hu).1 e he
    · by_cases hc : cause = 0
      · subst hc
        exact (hends.heedsZero hh hu).2 hno
      · exact (hends.heedsCause hh hu hc).2 hno
  · exact ⟨_, State.applyMiss_takes _ _, (hends.heedsSilence hh hu hr hlast).1 e he⟩
  · exact ⟨_, State.applyMiss_takes _ _, (hends.heedsSilence hh hu hr hlast).2 hno⟩
  · have hends : s.endsWith c l u .attention (.valid (.cause cause data)) := ⟨hc, heng, hphase, hgrant⟩
    have ha := State.applyAnswer_heedsPresent (s := s.engineFree l) ⟨htarget, hpending⟩ hp hm
    have hlane := (ha.news.lane l).trans (s.engineFree_lane l)
    obtain ⟨_, _, _, htimeout, _, hnow, _⟩ := ha.news.rest
    by_cases hzero : cause = 0
    · subst hzero
      obtain ⟨t, ht, hgrant, _⟩ := (hends.heedsZero hh hu).1 e ha.heeds
      obtain ⟨hmate, hresolver, hrest, hothers, hdir⟩ := ha.ends (State.heedsNothing_acts _ l h e) hgrant
      have hwork := hgrant.work
      rw [State.heedsNothing_lane, hlane] at hwork
      refine ⟨t, ht, hmate, hresolver, hrest, hothers, ?_, fun hx => absurd rfl hx, fun _ => ⟨hdir, ?_, fun hrun => ?_⟩⟩
      · exact (congrArg (·.attention.lastServed.get h.level) hwork).trans (Three.get_set_self _ _ _)
      · exact congrArg (·.attention.slots) hwork
      · exact (hgrant.link (.inl (by rw [State.heedsNothing_lane, hlane]; exact hrun))).trans ha.link
    · obtain ⟨t, ht, hgrant, _⟩ := (hends.heedsCause hh hu hzero).1 e ha.heeds
      obtain ⟨hmate, hresolver, hrest, hothers, hdir⟩ := ha.ends (State.entersService_acts _ l h e cause data) hgrant
      have hwork := hgrant.work
      rw [State.entersService_lane, hlane, htimeout, hnow] at hwork
      refine ⟨t, ht, hmate, hresolver, hrest, hothers, ?_, fun _ => ⟨hdir, ?_, fun hrun => ?_⟩, fun hx => absurd hx hzero⟩
      · exact (congrArg (·.attention.lastServed.get h.level) hwork).trans (Three.get_set_self _ _ _)
      · exact (congrArg (·.attention.slots.get h.level) hwork).trans (Three.get_set_self _ _ _)
      · refine (hgrant.link (.inl (by rw [State.entersService_lane, hlane]; exact hrun))).trans ?_
        exact congrArg (Link.post · (.attention e.handle h.level cause data)) ha.link

end Sys2Proof.Machine
end

section
/-! PROOFS. The grant decision and the passed-over counts of a Lane Arbiter (R113 to R115). -/

namespace Sys2Proof.Machine

/-! ### One decision (R114) -/

/-- The requestors in priority order. -/
def Requestor.all : List Requestor := [.attention, .access, .survey, .poll]

/-- The standing requests keep the order of priority. -/
theorem Standing.list_eq_filter (q : Standing) : q.list = Requestor.all.filter (fun r => decide (r ∈ q.list)) := by
  obtain ⟨attention, access, survey, poll⟩ := q
  unfold Standing.list Requestor.all
  cases attention <;> cases access <;> cases survey <;> cases poll <;> rfl

theorem Standing.list_nodup (q : Standing) : q.list.Nodup := by
  rw [q.list_eq_filter]
  exact List.Nodup.filter _ (by decide)

/-- A grant takes its own request out of those that stand, and leaves their order. -/
theorem Standing.serve_erases {q p : Standing} {r : Requestor} {g : Grant} (h : q.serve r = some (g, p)) :
    p.list = q.list.erase r := by
  have hmem : ∀ x, decide (x ∈ p.list) = (decide (x ≠ r) && decide (x ∈ q.list)) := fun x => by
    rw [← Bool.decide_and, decide_eq_decide, Standing.serve_list h, and_comm]
  calc p.list = Requestor.all.filter (fun x => decide (x ≠ r) && decide (x ∈ q.list)) := by
        rw [p.list_eq_filter]; simp only [hmem]
    _ = q.list.filter (fun x => decide (x ≠ r)) := by rw [← List.filter_filter, ← q.list_eq_filter]
    _ = q.list.erase r := by
        rw [q.list_nodup.erase_eq_filter]
        exact List.filter_congr fun x _ => by rw [Bool.eq_iff_iff, decide_eq_true_iff, bne_iff_ne]

theorem Standing.serve_requestor {q p : Standing} {r : Requestor} {g : Grant} (h : q.serve r = some (g, p)) : g.requestor = r := by
  cases r with
  | attention =>
    simp only [Standing.serve] at h
    split at h
    · cases h; rfl
    · cases h
  | _ =>
    obtain ⟨_, _, h⟩ := Option.map_eq_some_iff.1 h
    cases h; rfl

theorem Arbiter.grantNext_eq {a : Arbiter} {r : Requestor} {g : Grant} {q : Standing} (hg : a.grant = none)
    (hp : a.pick = some r) (hs : a.standing.serve r = some (g, q)) :
    a.grantNext = some (g, { grant := some g, standing := q, passed := a.count r }) := by
  unfold Arbiter.grantNext
  simp only [hg, hp, hs]

theorem Arbiter.count_of (a : Arbiter) (r x : Requestor) :
    (a.count r).of x = if x = r then 0 else if x ∈ a.standing.list then a.passed.of x + 1 else a.passed.of x := by
  have hof : (a.count r).of x
      = if x = r then 0 else if a.standing.list.contains x then a.passed.of x + 1 else a.passed.of x := by
    cases x <;> rfl
  simpa only [List.contains_iff_mem] using hof

/-- R114: while a standing requestor is due, the first due one is picked. -/
theorem Arbiter.pick_of_due {a : Arbiter} {r : Requestor} (h : a.pick = some r) (hd : ∃ x ∈ a.standing.list, 8 ≤ a.passed.of x) :
    a.standing.list.find? (fun x => decide (8 ≤ a.passed.of x)) = some r := by
  obtain ⟨x, hx, hdue⟩ := hd
  unfold Arbiter.pick at h
  split at h
  · cases h; assumption
  · rename_i hnone
    exact absurd (decide_eq_true hdue) (List.find?_eq_none.1 hnone x hx)

/-- R114: with no standing requestor due, the first standing one is picked. -/
theorem Arbiter.pick_of_none_due {a : Arbiter} {r : Requestor} (h : a.pick = some r)
    (hd : ∀ x ∈ a.standing.list, a.passed.of x < 8) : a.standing.list.head? = some r := by
  unfold Arbiter.pick at h
  split at h
  · rename_i x hx
    have hdue := List.find?_some hx
    rw [decide_eq_true_iff] at hdue
    exact absurd (hd x (List.mem_of_find?_eq_some hx)) (Nat.not_lt.2 hdue)
  · exact h

/-! ### The counts through every command (R113, R115) -/

theorem countsOk_modLane {s : State} (h : s.countsOk) (l : LaneId) {f : Lane → Lane} (hf : (f (s.lane l)).arbiter.countsOk) :
    (s.modLane l f).countsOk := by
  intro m
  rw [State.lane_modLane]
  split
  · exact hf
  · exact h m

/-- What leaves the arbiters alone. -/
theorem State.countsOk.keptBy {s t : State} (h : s.countsOk) (ha : ∀ l, (t.lane l).arbiter = (s.lane l).arbiter) : t.countsOk := by
  intro l
  rw [ha l]
  exact h l

theorem countsOk_requestSurvey {s : State} (h : s.countsOk) (l : LaneId) (w : SurveyWork) : (s.requestSurvey l w).countsOk := by
  refine countsOk_modLane h l ((h l).asks rfl fun r hr => ?_)
  rw [Standing.mem_list] at hr ⊢
  cases r
  case survey => rfl
  all_goals exact hr

/-- The Survey Engine touches the arbiter of its lane by its requests alone. -/
theorem surveyKeeps_countsOk : SurveyKeeps False State.countsOk where
  settled h k := h.calm.countsOk k
  surv _ l _ _ _ h := countsOk_modLane h l (h l)
  req _ l w h := countsOk_requestSurvey h l w
  done _ l _ _ _ _ _ _ _ _ ha _ h := countsOk_modLane h l (by rw [ha]; exact h l)
  startOld s l _ _ _ _ _ _ h := countsOk_requestSurvey (s := s.modSurvey l _) (countsOk_modLane h l (h l)) l _
  startNew s l _ _ _ _ _ _ _ h := countsOk_requestSurvey (s := s.modSurvey l _) (countsOk_modLane h l (h l)) l _
  named s l n _ _ _ h := countsOk_modLane (s := s.create (newEntry l n)) h l (h l)
  back _ _ _ _ _ _ _ _ he hn h := (calm_comeBack_held he hn).countsOk h

theorem Lane.closed_countsOk {n : Lane} (h : n.arbiter.countsOk) : n.closed.arbiter.countsOk := by
  unfold Lane.closed
  split
  · exact h
  · exact Arbiter.countsOk_cold

theorem storeMask_arbiter (v : Nat) (s : State) (l : LaneId) : ((storeMask v s).lane l).arbiter = (s.lane l).arbiter := by
  fin_cases l
  all_goals exact (Lane.enableTo_spec _ _).2.1

/-- The commands outside the Mate Monitor and the resets keep the counts in order. -/
theorem kept_countsOk : Kept State.countsOk where
  settled h k := h.calm.countsOk k
  engine _ l _ h := countsOk_modLane h l (h l)
  quiet s l h := surveyKeeps_countsOk.quietWait (fun _ l _ h => countsOk_modLane h l (h l))
    (fun _ l h => countsOk_modLane h l (h l)) s l nofun h
  trip s l _ h := (calm_trip s l).countsOk (countsOk_modLane h l Arbiter.countsOk_cold)
  restart s l _ _ h := (calm_restartLane s l).countsOk (countsOk_modLane h l Arbiter.countsOk_cold)
  settle _ l _ h := countsOk_requestSurvey (countsOk_modLane h l (h l)) l .forget
  rescan _ l _ h := surveyKeeps_countsOk.recallNext _ l (countsOk_modLane h l (h l))
  powerUp _ l _ _ h := countsOk_modLane h l (h l)
  rescanTimer _ l _ _ h := countsOk_modLane h l (h l)
  mask s v _ h := h.keptBy (storeMask_arbiter v s)
  missLimit _ _ _ _ _ h := h
  remove _ _ _ _ h := h

/-- The commands of the Mate Monitor and the resets keep the counts in order. -/
theorem keptMate_countsOk : KeptMate State.countsOk where
  settled h k := h.calm.countsOk k
  cold s c r l := by
    rw [State.cold_lane]
    exact Arbiter.countsOk_cold
  mate _ _ _ h := h
  close s h l := by
    rw [State.closeBlocks_lane]
    exact Lane.closed_countsOk (h l)
  opening s _ h := h.keptBy fun l => by
    rw [State.opening_lane]
    exact (Lane.opened_order _ _).2.1
  fault s h := h.keptBy fun l => by
    unfold State.lane
    rw [Four.get_map]

/-- Settles O42: a decision by Arbiter.pick_of_due, Arbiter.pick_of_none_due and Arbiter.count_of, the bounds by kept_countsOk
and keptMate_countsOk. -/
theorem grantFollowsPriority : Obligations.GrantFollowsPriority := by
  unfold Obligations.GrantFollowsPriority
  refine ⟨fun a hfree hstands => ?_, fun s t hs ht => ?_, fun a b g hnext => ?_⟩
  · cases hnext : a.grantNext with
    | none => exact absurd (Arbiter.grantNext_none hfree hnext) hstands
    | some x => exact ⟨x.1, x.2, rfl⟩
  · have h : t.countsOk := kept_countsOk.step (fun s hs => keptMate_countsOk.mates s hs) s t hs ht
    exact ⟨h, fun l => (h l).bounds⟩
  · obtain ⟨hfree, hgrant, _⟩ := Arbiter.grantNext_survey hnext
    obtain ⟨_, r, hpick, hserve⟩ := Arbiter.grantNext_serves hnext
    have hpassed : b.passed = a.count r := by
      have hsome := (Arbiter.grantNext_eq hfree hpick hserve).symm.trans hnext
      exact (congrArg Arbiter.passed (Prod.ext_iff.1 (Option.some.inj hsome)).2).symm
    refine ⟨hfree, hgrant, r, Standing.serve_requestor hserve, Arbiter.pick_mem hpick, Arbiter.pick_of_due hpick,
      Arbiter.pick_of_none_due hpick, Standing.serve_erases hserve, ?_, fun x hx => ?_⟩
    · rw [hpassed, Arbiter.count_of, if_pos rfl]
    · rw [hpassed, Arbiter.count_of, if_neg hx]

end Sys2Proof.Machine
end

section
/-! PROOFS. The start of an object access: its checks (R118, R119), its run (R120 to R122). -/

namespace Sys2Proof.Machine

/-! ### The checks of the directory (R119) -/

theorem State.accessCheck_noSuchHandle {s : State} {k : Nat} (he : s.entry? k = none) (f n : Nat) (w : Bool) :
    s.accessCheck k f n w = .error .noSuchHandle := by
  simp [State.accessCheck, he]

section
variable {s : State} {k : Nat} {e : Entry} (he : s.entry? k = some e)
include he

theorem State.accessCheck_notNow (hs : (s.lane e.lane).state.serving = false) (f n : Nat) (w : Bool) :
    s.accessCheck k f n w = .error .notNow := by
  simp [State.accessCheck, he, hs]

variable (hs : (s.lane e.lane).state.serving = true)
include hs

theorem State.accessCheck_isolated (ho : e.override = .forcedAbsent) (f n : Nat) (w : Bool) :
    s.accessCheck k f n w = .error .isolated := by
  simp [State.accessCheck, he, hs, ho]

variable (ho : e.override ≠ .forcedAbsent)
include ho

theorem State.accessCheck_nodeLost (hp : e.presence = .lost) (f n : Nat) (w : Bool) :
    s.accessCheck k f n w = .error .nodeLost := by
  simp [State.accessCheck, he, hs, ho, hp]

variable (hp : e.presence ≠ .lost)
include hp

theorem State.accessCheck_noDescriptor (hd : e.descriptor = none) (f n : Nat) (w : Bool) :
    s.accessCheck k f n w = .error .noDescriptor := by
  simp [State.accessCheck, he, hs, ho, hp, hd]

variable {d : Descriptor} (hd : e.descriptor = some d) {f n : Nat}
include hd

theorem State.accessCheck_outOfRange (hn : d.objectCount < f + n) (w : Bool) :
    s.accessCheck k f n w = .error .outOfRange := by
  simp [State.accessCheck, he, hs, ho, hp, hd, hn]

variable (hn : f + n ≤ d.objectCount)
include hn

theorem State.accessCheck_denied (hb : e.binding.map (·.access) ≠ some .rw) : s.accessCheck k f n true = .error .denied := by
  simp [State.accessCheck, he, hs, ho, hp, hd, Nat.not_lt.2 hn, Entry.writable, hb]

theorem State.accessCheck_passes {w : Bool} (hb : w = false ∨ e.binding.map (·.access) = some .rw) :
    s.accessCheck k f n w = .ok e := by
  rcases hb with rfl | hb
  · simp [State.accessCheck, he, hs, ho, hp, hd, Nat.not_lt.2 hn]
  · simp [State.accessCheck, he, hs, ho, hp, hd, Nat.not_lt.2 hn, Entry.writable, hb]

end

/-- R119: the entry that passes the checks is that of the handle, and is not LOST. -/
theorem State.accessCheck_ok {s : State} {k f n : Nat} {w : Bool} {e : Entry} (h : s.accessCheck k f n w = .ok e) :
    s.entry? k = some e ∧ e.presence ≠ .lost := by
  unfold State.accessCheck at h
  repeat' split at h
  -- every branch but the last one answers an error
  all_goals cases h
  exact ⟨by assumption, by assumption⟩

/-! ### The two requests (R118 to R120) -/

theorem readFormOk_iff (h first count mode : Byte) :
    readFormOk [h, first, count, mode] = true ↔ 1 ≤ count.toNat ∧ count.toNat ≤ 16 ∧ mode.toNat ≤ 1 := by
  simp [readFormOk, at', and_assoc]

section
variable {s : State} {q : Request} {rest : List Request} {h first : Byte}

theorem exec_readObjects {count mode : Byte} (hq : s.queued q rest) (hk : q.kind = 0x20) (hp : q.payload = [h, first, count, mode]) :
    exec .readObjects s = .next (serveReadObjects q (s.took rest)) :=
  take_next hq (by simp [ofKind, hk]) (by rw [hk, hp]; rfl)

theorem exec_writeObject {v0 v1 v2 v3 : Byte} (hq : s.queued q rest) (hk : q.kind = 0x21)
    (hp : q.payload = [h, first, v0, v1, v2, v3]) : exec .writeObject s = .next (serveWriteObject q (s.took rest)) :=
  take_next hq (by simp [ofKind, hk]) (by rw [hk, hp]; rfl)

theorem serveReadObjects_badForm {count mode : Byte} (hp : q.payload = [h, first, count, mode])
    (hbad : count = 0 ∨ 16 < count.toNat ∨ 1 < mode.toNat) : serveReadObjects q s = s.refuse q .badArgument := by
  have hform : ¬ readFormOk q.payload = true := by
    rw [hp, readFormOk_iff]
    rintro ⟨h1, h16, hm⟩
    rcases hbad with rfl | hbad | hbad
    · exact absurd h1 (by decide)
    · omega
    · omega
  exact if_neg hform

theorem serveReadObjects_refuses {count mode : Byte} {st : Status} (hp : q.payload = [h, first, count, mode])
    (hform : 1 ≤ count.toNat ∧ count.toNat ≤ 16 ∧ mode.toNat ≤ 1)
    (hc : s.accessCheck h.toNat first.toNat count.toNat false = .error st) : serveReadObjects q s = s.refuse q st := by
  unfold serveReadObjects
  rw [hp, if_pos ((readFormOk_iff ..).2 hform)]
  simp only [at', List.getD_cons_zero, List.getD_cons_succ, hc]

theorem serveReadObjects_starts {count mode : Byte} {e : Entry} (hp : q.payload = [h, first, count, mode])
    (hform : 1 ≤ count.toNat ∧ count.toNat ≤ 16 ∧ mode.toNat ≤ 1)
    (hc : s.accessCheck h.toNat first.toNat count.toNat false = .ok e) :
    serveReadObjects q s = s.startAccess q e (e.runOf .read (decide (mode = 1)) first.toNat count.toNat) := by
  unfold serveReadObjects
  rw [hp, if_pos ((readFormOk_iff ..).2 hform)]
  simp only [at', List.getD_cons_zero, List.getD_cons_succ, hc]

theorem serveWriteObject_refuses {v0 v1 v2 v3 : Byte} {st : Status} (hp : q.payload = [h, first, v0, v1, v2, v3])
    (hc : s.accessCheck h.toNat first.toNat 1 true = .error st) : serveWriteObject q s = s.refuse q st := by
  unfold serveWriteObject
  rw [hp]
  simp only [at', List.getD_cons_zero, List.getD_cons_succ, hc]

theorem serveWriteObject_starts {v0 v1 v2 v3 : Byte} {e : Entry} (hp : q.payload = [h, first, v0, v1, v2, v3])
    (hc : s.accessCheck h.toNat first.toNat 1 true = .ok e) :
    serveWriteObject q s = s.startAccess q e (e.runOf (.write (word32 v0 v1 v2 v3)) false first.toNat 1) := by
  unfold serveWriteObject
  rw [hp]
  simp only [at', List.getD_cons_zero, List.getD_cons_succ, hc]

end

/-- Settles O43: the form by serveReadObjects_badForm, then one lemma on State.accessCheck for each test of R119. -/
theorem accessIsCheckedInOrder : Obligations.AccessIsCheckedInOrder := by
  unfold Obligations.AccessIsCheckedInOrder
  refine fun s q rest h first count mode st hq => ⟨fun hk hp => ⟨fun hbad => ?_, fun h1 h16 hm hc => ?_⟩,
    fun v0 v1 v2 v3 hk hp hc => ?_, fun k f n w => ⟨fun he => State.accessCheck_noSuchHandle he f n w, fun e he => ?_⟩⟩
  · rw [exec_readObjects hq hk hp, serveReadObjects_badForm hp hbad]
  · rw [exec_readObjects hq hk hp, serveReadObjects_refuses (s := s.took rest) hp ⟨h1, h16, hm⟩ hc]
  · rw [exec_writeObject hq hk hp, serveWriteObject_refuses (s := s.took rest) hp hc]
  · refine ⟨fun hnot hnor => ?_, fun hserves => ?_⟩
    · refine State.accessCheck_notNow he (Bool.eq_false_iff.2 fun hserving => ?_) f n w
      exact (LaneState.serving_iff.1 hserving).elim hnot hnor
    · have hs := LaneState.serving_iff.2 hserves
      refine ⟨fun ho => State.accessCheck_isolated he hs ho f n w, fun ho hl => State.accessCheck_nodeLost he hs ho hl f n w,
        fun ho hl hd => State.accessCheck_noDescriptor he hs ho hl hd f n w, fun d ho hl hd => ⟨fun hn => ?_, fun hn hw hb => ?_,
          fun hn hb => State.accessCheck_passes he hs ho hl hd hn hb⟩⟩
      · exact State.accessCheck_outOfRange he hs ho hl hd hn w
      · subst hw
        exact State.accessCheck_denied he hs ho hl hd hn hb

/-! ### The start of the run (R120 to R122) -/

/-- The entry of a handle is found by its own target. -/
theorem State.target?_of_entry? {s : State} {k : Nat} {e : Entry} (he : s.entry? k = some e) : s.target? e.target = some e := by
  have hk := State.entry?_handle he
  have hself : e.isTarget e.target = true := by simp [Entry.isTarget, Entry.target]
  obtain ⟨_, before, after, hsplit, hbefore⟩ := List.find?_eq_some_iff_append.1 he
  refine List.find?_eq_some_iff_append.2 ⟨hself, before, after, hsplit, fun x hx => ?_⟩
  have hne : x.handle ≠ k := by simpa using hbefore x hx
  simp [Entry.isTarget, Entry.target, hk, hne]

/-- R120: the access of request `q` has begun on lane `l` with its run; the rest is as before. -/
structure State.accessBegins (q : Request) (l : LaneId) (r : Run) (s t : State) : Prop where
  unit : t.unit = .accessWait q.kind q.token l
  timer : t.accessTimer = some (s.now + 250)
  run : (t.lane l).run = some r
  accesses : (t.lane l).accesses r.block r
  link : t.link = s.link
  acts : s.laneActs l t

/-- R120: an access that passes its checks begins. -/
theorem State.startAccess_begins {s : State} {k f n : Nat} {w : Bool} {e : Entry} (hc : s.accessCheck k f n w = .ok e)
    (q : Request) {r : Run} (hr : r.target = e.target) : s.accessBegins q e.lane r (s.startAccess q e r) := by
  obtain ⟨he, hpresent⟩ := State.accessCheck_ok hc
  obtain ⟨hunit, htimer, hrun, haccesses, hdir, hlink, hrest, hmate, hresolver, hothers⟩ :=
    s.startAccess_starts q e r hr (State.target?_of_entry? he) hpresent
  exact ⟨hunit, htimer, hrun, haccesses, hlink, hrest, hmate, hdir, hresolver, hothers⟩

theorem State.accessBegins.holds {s t : State} {q : Request} {l : LaneId} {r : Run} (h : s.accessBegins q l r t) (x : Run)
    (hx : (t.lane l).run = some x) : (t.lane l).accesses r.block x := by
  rw [h.run] at hx
  cases hx
  exact h.accesses

/-- Settles O44: each request starts its run by State.startAccess_begins. -/
theorem accessStartsRun : Obligations.AccessStartsRun := by
  unfold Obligations.AccessStartsRun
  refine fun s q rest h first count mode e hq => ⟨fun hk hp h1 h16 hm hc => ?_, fun v0 v1 v2 v3 hk hp hc => ?_⟩
  · have hbegins := State.startAccess_begins (s := s.took rest) hc q (r := e.runOf .read (decide (mode = 1)) first.toNat count.toNat) rfl
    refine ⟨_, (exec_readObjects hq hk hp).trans ?_, hk ▸ hbegins.unit, hbegins.timer, hbegins.run, hbegins.holds,
      hbegins.acts.dir, hbegins.link, hbegins.acts.rest, hbegins.acts.mate, hbegins.acts.resolver, hbegins.acts.others⟩
    rw [serveReadObjects_starts (s := s.took rest) hp ⟨h1, h16, hm⟩ hc]
  · have hbegins := State.startAccess_begins (s := s.took rest) hc q
      (r := e.runOf (.write (word32 v0 v1 v2 v3)) false first.toNat 1) rfl
    refine ⟨_, (exec_writeObject hq hk hp).trans ?_, hk ▸ hbegins.unit, hbegins.timer, hbegins.run, hbegins.holds,
      hbegins.acts.dir, hbegins.link, hbegins.acts.rest, hbegins.acts.mate, hbegins.acts.resolver, hbegins.acts.others⟩
    rw [serveWriteObject_starts (s := s.took rest) hp hc]

end Sys2Proof.Machine
end

section
/-! PROOFS. The access timer (R113, R127). -/

namespace Sys2Proof.Machine

/-! ### The run that is abandoned (R127) -/

section
variable {n : Lane}

/-- R127: a telegram under way goes on, for an abandoned run. -/
theorem Lane.abandonRun_underWay {b : Bool} (he : n.engine.isSome = true) (hg : n.arbiter.grant = some (.access b)) :
    n.abandonRun = { n with run := n.run.map (fun r => { r with abandoned := true }) } :=
  if_pos (by simp [Lane.accessUnderWay, he, hg])

/-- R113, R127: without a grant the run is over and its request is withdrawn. -/
theorem Lane.abandonRun_waiting (hg : ∀ b, n.arbiter.grant ≠ some (.access b)) :
    n.abandonRun.run = none ∧ n.abandonRun.arbiter.standing.access = none
      ∧ (n.arbiter.standing.access ≠ none → n.abandonRun.arbiter.passed.access = 0) := by
  have hidle : ¬ n.accessUnderWay = true := by
    unfold Lane.accessUnderWay
    split
    · rename_i b hb
      exact absurd hb (hg b)
    · simp
  unfold Lane.abandonRun
  rw [if_neg hidle]
  exact ⟨rfl, rfl, fun hstands => by rw [if_pos (Option.isSome_iff_ne_none.2 hstands)]⟩

end

theorem Lane.abandonRun_standing (n : Lane) : n.keepsStanding n.abandonRun := by
  unfold Lane.abandonRun
  split <;> exact ⟨⟨rfl, rfl, rfl, rfl⟩, rfl, rfl, rfl, rfl⟩

/-! ### The expiry (R127) -/

/-- R127: the access on lane `l` is over and its reply is built, before the arbiter acts. -/
def State.accessCut (s : State) (l : LaneId) (r : Reply) : State := (s.modLane l Lane.abandonRun).sendAccessReply r

theorem State.accessCut_lane (s : State) (l : LaneId) (r : Reply) : (s.accessCut l r).lane l = (s.lane l).abandonRun :=
  State.lane_modLane_self s l _

theorem State.accessCut_acts (s : State) (l : LaneId) (r : Reply) : s.laneActs l (s.accessCut l r) :=
  (s.laneActs_modLane l Lane.abandonRun).trans
    ⟨State.keepsRest_replyThen { s.modLane l Lane.abandonRun with accessTimer := none } r none, rfl, rfl, rfl, fun _ _ => rfl⟩

/-- So the arbiter can end no access. -/
theorem State.accessCut_noAccess (s : State) (l : LaneId) (r : Reply) : (s.accessCut l r).noAccess l := .inr fun _ _ => nofun

theorem exec_accessTimerExpiry {s : State} {l : LaneId} {kind token : Byte} {r : Run} {d : Nat} (ht : s.accessTimer = some d)
    (hu : s.unit = .accessWait kind token l) (hr : (s.lane l).run = some r) :
    exec .accessTimerExpiry s = .next ((s.accessCut l {
      kind := kind + 0x80, token := token, status := .timeout, payload := r.payload }).arbitrate l) := by
  change execAccessTimerExpiry s = _
  unfold execAccessTimerExpiry State.accessReply?
  simp only [ht, hu, hr, Option.isSome_some, if_true]
  rfl

/-- Settles O46: the run by Lane.abandonRun_underWay and Lane.abandonRun_waiting, which the arbiter then leaves as it is. -/
theorem accessTimerEndsAccess : Obligations.AccessTimerEndsAccess := by
  unfold Obligations.AccessTimerEndsAccess
  intro s l kind token r d ht hu hr
  have hexec := exec_accessTimerExpiry ht hu hr
  generalize ({ kind := kind + 0x80, token := token, status := .timeout, payload := r.payload } : Reply) = reply at hexec ⊢
  have hlane := s.accessCut_lane l reply
  have hends := (s.accessCut l reply).arbitrate_ends l
  have hacts := (s.accessCut_acts l reply).trans hends.laneActs
  obtain ⟨hlink, hunit, htimer, hrun⟩ := sameAccess_arbitrate (s.accessCut_noAccess l reply)
  have hstanding := hends.work.standing
  rw [hlane] at hrun hstanding
  refine ⟨_, hexec, hunit, htimer, hacts.dir, ?_, hacts.mate, hacts.resolver, hacts.rest, hacts.others,
    (s.lane l).abandonRun_standing.trans hstanding, fun b he hg => ?_, fun hg => ?_⟩
  · rw [hlink]
    exact State.currentReply_replyThen _ reply none
  · have hgoes := Lane.abandonRun_underWay he hg
    rw [hgoes] at hlane hrun
    obtain ⟨hengine, hgrant⟩ := arbitrate_held (s := s.accessCut l reply) (l := l) (g := .access b) (by rw [hlane]; exact hg)
    exact ⟨hrun.trans (by rw [hr]; rfl), hengine.trans (by rw [hlane]), hgrant⟩
  · obtain ⟨hover, hwithdrawn, hzero⟩ := Lane.abandonRun_waiting hg
    obtain ⟨hnone, hcount⟩ := arbitrate_access_none (s := s.accessCut l reply) (l := l) (by rw [hlane]; exact hwithdrawn)
    exact ⟨hrun.trans hover, hnone, fun hstands => (hcount.trans (by rw [hlane])).trans (hzero hstands)⟩

end Sys2Proof.Machine
end

section
/-! PROOFS. The parameters of the whole part that are stored at any time: the attention timeout and the notice mask (R145, R190,
R192). -/

namespace Sys2Proof.Machine

section
variable {q : Request} {c sel hi lo : Byte}

/-! ### The attention timeout (R145) -/

/-- R192: a parameter of the whole part is stored for the selector 0 and a value in its range. -/
theorem wholePart_stores (hp : q.payload = [c, sel, hi, lo]) (h0 : sel = 0) {a b : Nat} (ha : a ≤ (word16 hi lo).toNat)
    (hb : (word16 hi lo).toNat ≤ b) (store : Nat → State → State) (s : State) :
    wholePart (inRange a b) store q s = (store (word16 hi lo).toNat s).ok q q.payload := by
  have hsel : at' q.payload 1 = sel := by rw [hp]; rfl
  unfold wholePart
  rw [hsel, Request.value_of_payload hp, if_pos ⟨h0, inRange_iff.2 ⟨ha, hb⟩⟩, State.configured_of_payload hp]

theorem wholePart_refuses (hp : q.payload = [c, sel, hi, lo]) {a b : Nat}
    (hbad : sel ≠ 0 ∨ (word16 hi lo).toNat < a ∨ b < (word16 hi lo).toNat) (store : Nat → State → State) (s : State) :
    wholePart (inRange a b) store q s = s.refuse q .badArgument := by
  have hsel : at' q.payload 1 = sel := by rw [hp]; rfl
  unfold wholePart
  rw [hsel, Request.value_of_payload hp]
  refine if_neg (fun hgood => ?_)
  obtain ⟨h0, hv⟩ := hgood
  obtain ⟨ha, hb⟩ := inRange_iff.1 hv
  have hrange := hbad.resolve_left (not_not.2 h0)
  omega

/-! ### The notice mask (R190) -/

/-- R190: the mask with the place that a notice code names set. -/
def NoticeMask.withKind (m : NoticeMask) (code : Byte) (on : Bool) : NoticeMask where
  plug := if code = 0xC1 then on else m.plug
  tool := if code = 0xC2 then on else m.tool
  node := if code = 0xC3 then on else m.node
  attention := if code = 0xC4 then on else m.attention
  attentionEnded := if code = 0xC5 then on else m.attentionEnded
  lane := if code = 0xC6 then on else m.lane

/-- R190: the codes 0xC1 to 0xC6 name the six places of the mask. -/
theorem NoticeMask.setKind_named (m : NoticeMask) {code : Byte} (h1 : 0xC1 ≤ code.toNat) (h6 : code.toNat ≤ 0xC6) (on : Bool) :
    m.setKind code on = some (m.withKind code on) := by
  have hcode : code = 0xC1 ∨ code = 0xC2 ∨ code = 0xC3 ∨ code = 0xC4 ∨ code = 0xC5 ∨ code = 0xC6 := by bv_omega
  rcases hcode with rfl | rfl | rfl | rfl | rfl | rfl <;> rfl

theorem NoticeMask.setKind_unnamed (m : NoticeMask) {code : Byte} (h : code.toNat < 0xC1 ∨ 0xC6 < code.toNat) (on : Bool) :
    m.setKind code on = none := by
  have hne : ∀ {b : Byte}, 0xC1 ≤ b.toNat ∧ b.toNat ≤ 0xC6 → code ≠ b := by
    rintro b hb rfl
    omega
  unfold NoticeMask.setKind
  rw [if_neg (hne (by decide)), if_neg (hne (by decide)), if_neg (hne (by decide)), if_neg (hne (by decide)),
    if_neg (hne (by decide)), if_neg (hne (by decide))]

/-- R190, R192: the mask takes the value 0 or 1 for the notice code in the selector. -/
theorem serveNoticeMask_stores (hp : q.payload = [c, sel, hi, lo]) (hv : (word16 hi lo).toNat ≤ 1) (h1 : 0xC1 ≤ sel.toNat)
    (h6 : sel.toNat ≤ 0xC6) (s : State) :
    serveNoticeMask q s = State.ok { s with link := { s.link with
      mask := s.link.mask.withKind sel (decide ((word16 hi lo).toNat = 1)) } } q q.payload := by
  have hsel : at' q.payload 1 = sel := by rw [hp]; rfl
  unfold serveNoticeMask
  simp only [hsel, Request.value_of_payload hp, NoticeMask.setKind_named _ h1 h6]
  rw [if_pos (inRange_iff.2 ⟨Nat.zero_le _, hv⟩), State.configured_of_payload hp]

theorem serveNoticeMask_refuses (hp : q.payload = [c, sel, hi, lo])
    (hbad : 1 < (word16 hi lo).toNat ∨ sel.toNat < 0xC1 ∨ 0xC6 < sel.toNat) (s : State) :
    serveNoticeMask q s = s.refuse q .badArgument := by
  have hsel : at' q.payload 1 = sel := by rw [hp]; rfl
  unfold serveNoticeMask
  rw [hsel, Request.value_of_payload hp]
  rcases hbad with hlarge | hunnamed
  · split
    · rfl
    · refine if_neg (fun hv => ?_)
      obtain ⟨_, hle⟩ := inRange_iff.1 hv
      omega
  · rw [NoticeMask.setKind_unnamed _ hunnamed]

end

/-- Settles O23: the timeout by wholePart_stores and wholePart_refuses, the mask by serveNoticeMask_stores and
serveNoticeMask_refuses. -/
theorem configureTimeoutAndNoticeMask : Obligations.ConfigureTimeoutAndNoticeMask := by
  unfold Obligations.ConfigureTimeoutAndNoticeMask
  refine fun s q rest sel hi lo hq hk => ⟨fun hp => ?_, fun hp => ?_⟩
  · have hexec : exec .configureAttentionTimeout s = .next (wholePart (inRange 0 255) storeAttnTimeout q (s.took rest)) :=
      take_configure hq hk hp _
    exact ⟨fun h0 h255 => hexec.trans (congrArg _ (wholePart_stores hp h0 (Nat.zero_le _) h255 storeAttnTimeout _)),
      fun hbad => hexec.trans (congrArg _ (wholePart_refuses hp (hbad.imp_right .inr) _ _))⟩
  · have hexec : exec .configureNoticeMask s = .next (serveNoticeMask q (s.took rest)) := take_configure hq hk hp _
    exact ⟨fun hv h1 h6 => ⟨_, hexec.trans (congrArg _ (serveNoticeMask_stores hp hv h1 h6 (s.took rest))),
        rfl, rfl, rfl, rfl, rfl, rfl⟩,
      fun hbad => hexec.trans (congrArg _ (serveNoticeMask_refuses hp hbad _))⟩

end Sys2Proof.Machine
end

section
/-! PROOFS. The ends of an attention by the host and by its deadline (R143, R144), and the attention mask (R146). -/

namespace Sys2Proof.Machine

/-! ### What the ends share (R137, R143, R144, R146) -/

/-- R81: an update that counts nothing leaves the generation. -/
theorem State.update_generation {s : State} {old new : Entry} (h : old.counted new = false) :
    (s.update old new).dir.generation = s.dir.generation := by
  simp [State.update, Directory.advance, h]

theorem State.laneActs_addClear (s : State) (e : Entry) : s.laneActs e.lane (s.addClear e) := State.laneActs_modLane _ _ _

theorem State.laneActs.arbitrate {l : LaneId} {s t : State} (h : s.laneActs l t) : s.laneActs l (t.arbitrate l) :=
  h.trans (t.arbitrate_ends l).laneActs

theorem State.laneActs.post {l : LaneId} {s t : State} (h : s.laneActs l t) (n : Notice) : s.laneActs l (t.post n) :=
  h.trans (t.laneActs_post l n)

/-- The arbiter leaves the slots and the clear list of its lane alone. -/
theorem State.arbitrate_attention (s : State) (l : LaneId) :
    ((s.arbitrate l).lane l).attention.slots = (s.lane l).attention.slots
      ∧ ((s.arbitrate l).lane l).attention.clearList = (s.lane l).attention.clearList := by
  have hwork := sameButWork_arbitrate s l l
  exact ⟨hwork.slots, congrArg (fun n => n.attention.clearList) hwork⟩

/-! ### The end of a service (R143, R144) -/

theorem Attention.slotOf_holds {a : Attention} {h : Nat} {v : LevelId} (hv : a.slotOf h = some v) :
    ∃ r, a.slots.get v = some r ∧ r.handle = h := by
  have hfound := List.find?_some hv
  exact Option.map_eq_some_iff.1 (of_decide_eq_true hfound)

/-- R143, R144: the slot that held the handle is empty. -/
theorem Attention.release_empties {a : Attention} {v : LevelId} {r : InService} (hr : a.slots.get v = some r) :
    (a.release r.handle).slots.get v = none := by
  refine Option.eq_none_iff_forall_ne_some.2 (fun x hx => ?_)
  obtain ⟨hget, hne⟩ := (Attention.release_get _ _ _ _).1 hx
  rw [hr] at hget
  cases hget
  exact hne rfl

theorem State.finishAttention_lane (s : State) (e : Entry) : (s.finishAttention e).lane e.lane = { s.lane e.lane with
    attention := ((s.lane e.lane).attention.release e.handle).addClear { addr := e.addr, owner := some (e.handle, e.tag) } } := by
  unfold State.finishAttention State.addClear
  rw [State.lane_modLane_self, State.lane_modLane_self]
  rfl

theorem State.finishAttention_acts (s : State) (e : Entry) :
    (s.update e { e with attention := .idle }).laneActs e.lane (s.finishAttention e) :=
  (State.laneActs_modLane _ _ _).trans (State.laneActs_addClear _ e)

/-- R143, R144: the service of entry `e`, whose record was in slot `v`, has ended in `t`. -/
structure State.serviceEnds (s : State) (e : Entry) (v : LevelId) (t : State) : Prop where
  acts : (s.update e { e with attention := .idle }).laneActs e.lane t
  empty : (t.lane e.lane).attention.slots.get v = none
  clears : ∃ i ∈ (t.lane e.lane).attention.clearList, i.addr = e.addr

theorem State.finishAttention_ends {s : State} {e : Entry} {v : LevelId} {r : InService}
    (hr : (s.lane e.lane).attention.slots.get v = some r) (hh : r.handle = e.handle) : s.serviceEnds e v (s.finishAttention e) := by
  refine ⟨s.finishAttention_acts e, ?_, State.addClear_has _ e⟩
  rw [State.finishAttention_lane, Attention.addClear_eq, ← hh]
  exact Attention.release_empties hr

section
variable {s t : State} {e : Entry} {v : LevelId}

theorem State.serviceEnds.post (h : s.serviceEnds e v t) (n : Notice) : s.serviceEnds e v (t.post n) :=
  ⟨h.acts.post n, h.empty, h.clears⟩

theorem State.serviceEnds.arbitrate (h : s.serviceEnds e v t) : s.serviceEnds e v (t.arbitrate e.lane) := by
  obtain ⟨hslots, hlist⟩ := t.arbitrate_attention e.lane
  exact ⟨h.acts.arbitrate, by rw [hslots]; exact h.empty, by rw [hlist]; exact h.clears⟩

end

/-! ### ATTN_DONE (R143) -/

theorem exec_attnDone {s : State} {q : Request} {rest : List Request} {h : Byte} (hq : s.queued q rest) (hk : q.kind = 0x24)
    (hp : q.payload = [h]) : exec .attnDone s = .next (serveAttnDone q (s.took rest)) :=
  take_next hq (by simp [ofKind, hk]) (by rw [hk, hp]; rfl)

section
variable {s : State} {q : Request} {h : Byte} {e : Entry}

theorem serveAttnDone_ends (hp : q.payload = [h]) (he : s.entry? h.toNat = some e) (ha : e.attention = .inService) {v : LevelId}
    (hv : (s.lane e.lane).attention.slotOf e.handle = some v) :
    serveAttnDone q s = ((s.finishAttention e).arbitrate e.lane).ok q [h, byteOf v.val] := by
  have hb : at' q.payload 0 = h := by rw [hp]; rfl
  unfold serveAttnDone
  simp only [hb, he, ha, hv, if_true]
  rw [State.entry?_handle he, byteOf_toNat]

theorem serveAttnDone_notInService (hp : q.payload = [h]) (he : s.entry? h.toNat = some e) (ha : e.attention ≠ .inService) :
    serveAttnDone q s = s.refuse q .notInService := by
  have hb : at' q.payload 0 = h := by rw [hp]; rfl
  unfold serveAttnDone
  simp only [hb, he]
  rw [if_neg ha]

theorem serveAttnDone_absent (hp : q.payload = [h]) (he : s.entry? h.toNat = none) :
    serveAttnDone q s = s.refuse q .noSuchHandle := by
  have hb : at' q.payload 0 = h := by rw [hp]; rfl
  unfold serveAttnDone
  rw [hb, he]

end

/-! ### The deadline (R144) -/

/-- R144: the deadline of a record that is held ends the service with its notice. -/
theorem exec_attentionDeadlineExpiry {s : State} {l : LaneId} {v : LevelId} {r : InService} {e : Entry} {d : Nat}
    (hr : (s.lane l).attention.slots.get v = some r) (hd : r.deadline = some d) (he : s.entry? r.handle = some e) :
    exec (.attentionDeadlineExpiry l v) s
      = .next (((s.finishAttention e).post (.attentionEnded e.handle .expired)).arbitrate l) := by
  change execAttentionDeadlineExpiry l v s = _
  unfold execAttentionDeadlineExpiry State.expireSlot
  simp only [hr, hd, he, Option.isSome_some, if_true]

/-- Settles O47: both ends by State.finishAttention_ends, and the arbiter posts nothing where no access runs. -/
theorem serviceEndsByHostOrDeadline : Obligations.ServiceEndsByHostOrDeadline := by
  unfold Obligations.ServiceEndsByHostOrDeadline
  refine ⟨fun s q rest h hq hk hp => ⟨fun e v he ha hv => ?_, fun e he ha => ?_, fun he => ?_⟩, ?_⟩
  · obtain ⟨r, hr, hh⟩ := Attention.slotOf_holds hv
    have hends := (State.finishAttention_ends (s := s.took rest) hr hh).arbitrate
    refine ⟨_, (exec_attnDone hq hk hp).trans (congrArg _ (serveAttnDone_ends (s := s.took rest) hp he ha hv)), rfl,
      Link.currentReply_send _ _, hends.acts.dir, ?_, hends.empty, hends.clears, hends.acts.others, hends.acts.mate,
      hends.acts.resolver, hends.acts.rest.trans (State.keepsRest_ok _ _ _)⟩
    exact (congrArg Directory.generation hends.acts.dir).trans (State.update_generation (by simp [Entry.counted]))
  · rw [exec_attnDone hq hk hp, serveAttnDone_notInService (s := s.took rest) hp he ha]
  · rw [exec_attnDone hq hk hp, serveAttnDone_absent (s := s.took rest) hp he]
  · rintro s l v r e d hr hd he rfl
    have hends := ((State.finishAttention_ends hr (State.entry?_handle he).symm).post (.attentionEnded e.handle .expired)).arbitrate
    refine ⟨_, exec_attentionDeadlineExpiry hr hd he, hends.acts.dir, hends.empty, hends.clears, fun hrun => ?_,
      hends.acts.others, hends.acts.mate, hends.acts.resolver, hends.acts.rest⟩
    have hno : ((s.finishAttention e).post (.attentionEnded e.handle .expired)).noAccess e.lane := by
      refine .inl ?_
      rw [State.lane_post, State.finishAttention_lane]
      exact hrun
    exact (sameAccess_arbitrate hno).1

/-! ### ATTN_MASK (R146) -/

theorem exec_attnMask {s : State} {q : Request} {rest : List Request} {h c : Byte} (hq : s.queued q rest) (hk : q.kind = 0x25)
    (hp : q.payload = [h, c]) : exec .attnMask s = .next (serveAttnMask q (s.took rest)) :=
  take_next hq (by simp [ofKind, hk]) (by rw [hk, hp]; rfl)

section
variable {s : State} {q : Request} {h c : Byte} {e : Entry}

theorem Entry.maskTo_pending (ha : e.attention = .pending) : e.maskTo true = { e with masked := true, attention := .idle } := by
  unfold Entry.maskTo
  rw [if_pos ⟨rfl, ha⟩]

theorem Entry.maskTo_other {on : Bool} (h : on = false ∨ e.attention ≠ .pending) : e.maskTo on = { e with masked := on } := by
  have hkept : ¬ (on = true ∧ e.attention = .pending) := by
    rintro ⟨rfl, ha⟩
    exact h.elim nofun (· ha)
  unfold Entry.maskTo
  rw [if_neg hkept]

/-- R146: with the mask on, a PENDING entry becomes IDLE and a CLEAR for it is added. -/
theorem serveAttnMask_drops (hp : q.payload = [h, 1]) (he : s.entry? h.toNat = some e) (ha : e.attention = .pending) :
    serveAttnMask q s
      = (((s.update e { e with masked := true, attention := .idle }).addClear e).arbitrate e.lane).ok q [h, 1, 0] := by
  have hb0 : at' q.payload 0 = h := by rw [hp]; rfl
  have hb1 : at' q.payload 1 = 1 := by rw [hp]; rfl
  unfold serveAttnMask
  rw [hb0, hb1, if_neg (by decide), he]
  simp only [decide_true, ha, Bool.and_self, if_true, Entry.maskTo_pending ha]
  rw [State.entry?_handle he, byteOf_toNat]
  rfl

/-- R146: with the mask off, or an entry that is not PENDING, the mask alone is set. -/
theorem serveAttnMask_sets (hp : q.payload = [h, c]) (he : s.entry? h.toNat = some e) (hc : c = 0 ∨ c = 1 ∧ e.attention ≠ .pending) :
    serveAttnMask q s
      = ((s.update e { e with masked := decide (c = 1) }).arbitrate e.lane).ok q [h, c, byteOf e.attention.code] := by
  have hb0 : at' q.payload 0 = h := by rw [hp]; rfl
  have hb1 : at' q.payload 1 = c := by rw [hp]; rfl
  have hle : ¬ 1 < c.toNat := by rcases hc with rfl | ⟨rfl, _⟩ <;> decide
  have hkept : decide (c = 1) = false ∨ e.attention ≠ .pending := hc.imp (fun h0 => by rw [h0]; rfl) And.right
  have hset : ¬ (decide (c = 1) && decide (e.attention = .pending)) = true := by
    rcases hkept with hoff | hne
    · rw [hoff, Bool.false_and]
      exact Bool.false_ne_true
    · rw [decide_eq_false hne, Bool.and_false]
      exact Bool.false_ne_true
  have hcode : yesNo (decide (c = 1)) = c := by rcases hc with rfl | ⟨rfl, _⟩ <;> rfl
  unfold serveAttnMask
  rw [hb0, hb1, if_neg hle, he]
  simp only [if_neg hset, Entry.maskTo_other hkept, hcode]
  rw [State.entry?_handle he, byteOf_toNat]

theorem serveAttnMask_absent (hp : q.payload = [h, c]) (hc : c = 0 ∨ c = 1) (he : s.entry? h.toNat = none) :
    serveAttnMask q s = s.refuse q .noSuchHandle := by
  have hb0 : at' q.payload 0 = h := by rw [hp]; rfl
  have hb1 : at' q.payload 1 = c := by rw [hp]; rfl
  have hle : ¬ 1 < c.toNat := by rcases hc with rfl | rfl <;> decide
  unfold serveAttnMask
  rw [hb0, hb1, if_neg hle, he]

theorem serveAttnMask_unknown (hp : q.payload = [h, c]) (hc : 1 < c.toNat) (s : State) :
    serveAttnMask q s = s.refuse q .badArgument := by
  have hb1 : at' q.payload 1 = c := by rw [hp]; rfl
  unfold serveAttnMask
  rw [hb1, if_pos hc]

end

/-- Settles O48: the four outcomes by serveAttnMask_drops, serveAttnMask_sets, serveAttnMask_absent and serveAttnMask_unknown; the
arbiter keeps the clear list that State.addClear_has speaks of. -/
theorem attnMaskSetsMask : Obligations.AttnMaskSetsMask := by
  unfold Obligations.AttnMaskSetsMask
  refine fun s q rest h c hq hk hp => ⟨fun e he hc ha => ?_, fun e he hc => ?_, fun hc he => ?_, fun hc => ?_⟩
  · subst hc
    have hacts := (((s.took rest).update e { e with masked := true, attention := .idle }).laneActs_addClear e).arbitrate
    have hclears := ((s.took rest).update e { e with masked := true, attention := .idle }).addClear_has e
    rw [← (State.arbitrate_attention _ e.lane).2] at hclears
    exact ⟨_, (exec_attnMask hq hk hp).trans (congrArg _ (serveAttnMask_drops (s := s.took rest) hp he ha)), rfl,
      Link.currentReply_send _ _, hacts.dir, hclears, hacts.mate, hacts.resolver, hacts.rest.trans (State.keepsRest_ok _ _ _),
      hacts.others⟩
  · have hacts := (((s.took rest).update e { e with masked := decide (c = 1) }).arbitrate_ends e.lane).laneActs
    exact ⟨_, (exec_attnMask hq hk hp).trans (congrArg _ (serveAttnMask_sets (s := s.took rest) hp he hc)), rfl,
      Link.currentReply_send _ _, hacts.dir, hacts.mate, hacts.resolver, hacts.rest.trans (State.keepsRest_ok _ _ _),
      hacts.others⟩
  · rw [exec_attnMask hq hk hp, serveAttnMask_absent (s := s.took rest) hp hc he]
  · rw [exec_attnMask hq hk hp, serveAttnMask_unknown hp hc]

end Sys2Proof.Machine
end

section
/-! PROOFS. The requests of the Manifest Store: MANIFEST_BEGIN, MANIFEST_ENTRY, MANIFEST_END (R155 to R157), MANIFEST_ERASE (R158)
and MANIFEST_READ (R159). -/

namespace Sys2Proof.Machine

/-! ### MANIFEST_BEGIN (R155) -/

theorem exec_manifestBegin {s : State} {q : Request} {rest : List Request} {b hi lo n : Byte} (hq : s.queued q rest)
    (hk : q.kind = 0x28) (hp : q.payload = [b, hi, lo, n]) :
    exec .manifestBegin s = .next (serveManifestBegin q (s.took rest)) :=
  take_next hq (by simp [ofKind, hk]) (by rw [hk, hp]; rfl)

theorem Store.holdsElsewhere_iff (st : Store) (i : Fin 8) (t : Word16) :
    st.holdsElsewhere i t = true ↔ ∃ j : Fin 8, j ≠ i ∧ (st.slots[j]).map (·.toolId) = some t := by
  simp [Store.holdsElsewhere]

section
variable {q : Request} {b hi lo n : Byte} {i : Fin 8}

theorem serveManifestBegin_outOfRange (hp : q.payload = [b, hi, lo, n]) (hbad : 7 < b.toNat ∨ n = 0 ∨ 24 < n.toNat) (s : State) :
    serveManifestBegin q s = s.refuse q .badArgument := by
  have hslot : at' q.payload 0 = b := by rw [hp]; rfl
  have hcount : at' q.payload 3 = n := by rw [hp]; rfl
  unfold serveManifestBegin
  simp only [hslot, hcount]
  cases hb : slotOf b with
  | none => rfl
  | some i =>
    have hn : n = 0 ∨ 24 < n.toNat := hbad.resolve_left (fun h => nomatch (slotOf_large b h).symm.trans hb)
    refine if_neg (fun hrange => ?_)
    obtain ⟨h1, h24⟩ := hrange
    rcases hn with rfl | hlarge
    · exact absurd h1 (by decide)
    · omega

/-- R155: with the slot and the count in their ranges, the tool ID of another slot decides. -/
theorem serveManifestBegin_inRange (hp : q.payload = [byteOf i.val, hi, lo, n]) (h1 : 1 ≤ n.toNat) (h24 : n.toNat ≤ 24) (s : State) :
    serveManifestBegin q s = if s.store.holdsElsewhere i (word16 hi lo) then s.refuse q .noSlot
      else State.ok { s with
        store := { s.store with load := some { slot := i, toolId := word16 hi lo, count := n.toNat, received := [] } } } q
        [byteOf i.val, hi, lo, n] := by
  have hslot : slotOf (at' q.payload 0) = some i := by rw [hp]; exact slotOf_byteOf i
  have htool : word16 (at' q.payload 1) (at' q.payload 2) = word16 hi lo := by rw [hp]; rfl
  have hcount : at' q.payload 3 = n := by rw [hp]; rfl
  unfold serveManifestBegin
  simp only [hslot, htool, hcount]
  rw [if_pos ⟨h1, h24⟩, be16_word16, byteOf_toNat]
  rfl

end

/-- Settles O51: the ranges by serveManifestBegin_outOfRange, the tool ID by serveManifestBegin_inRange. -/
theorem manifestBeginOpensLoad : Obligations.ManifestBeginOpensLoad := by
  unfold Obligations.ManifestBeginOpensLoad
  refine fun s q rest b hi lo n i hq hk => ⟨fun hp hbad => ?_, fun hp h1 h24 => ⟨fun hheld => ?_, fun hfree => ?_⟩⟩
  · rw [exec_manifestBegin hq hk hp, serveManifestBegin_outOfRange hp hbad]
  · have hheld' : (s.took rest).store.holdsElsewhere i (word16 hi lo) = true := (Store.holdsElsewhere_iff _ _ _).2 hheld
    rw [exec_manifestBegin hq hk hp, serveManifestBegin_inRange hp h1 h24, if_pos hheld']
  · have hfree' : ¬ (s.took rest).store.holdsElsewhere i (word16 hi lo) = true := fun h => by
      obtain ⟨j, hj, htool⟩ := (Store.holdsElsewhere_iff _ _ _).1 h
      exact hfree j hj htool
    rw [exec_manifestBegin hq hk hp, serveManifestBegin_inRange hp h1 h24, if_neg hfree']
    rfl

/-! ### The binding of a MANIFEST_ENTRY (R156) -/

theorem readLaneByte_spec {c : Byte} {l : Option LaneId} (h : readLaneByte c = some l) :
    (c.toNat ≤ 3 ∨ c = 0xFF) ∧ l.map (·.val) = if c = 0xFF then none else some c.toNat := by
  unfold readLaneByte at h
  split at h
  · next hlt =>
    have hne : c ≠ 0xFF := by rintro rfl; exact absurd hlt (by decide)
    cases h
    exact ⟨.inl (by omega), (if_neg hne).symm⟩
  · split at h
    · next hany =>
      cases h
      exact ⟨.inr hany, (if_pos hany).symm⟩
    · cases h

theorem readLaneByte_inRange {c : Byte} (h : c.toNat ≤ 3 ∨ c = 0xFF) : ∃ l, readLaneByte c = some l := by
  rcases h with hlane | rfl
  · exact ⟨_, dif_pos (by omega)⟩
  · exact ⟨none, rfl⟩

theorem readLevelByte_spec {c : Byte} {v : Option LevelId} (h : readLevelByte c = some v) :
    c.toNat ≤ 3 ∧ v.map (·.val) = if c = 3 then none else some c.toNat := by
  unfold readLevelByte at h
  split at h
  · next hlt =>
    have hne : c ≠ 3 := by rintro rfl; exact absurd hlt (by decide)
    cases h
    exact ⟨by omega, (if_neg hne).symm⟩
  · split at h
    · next hoff =>
      cases h
      exact ⟨by rw [hoff]; decide, (if_pos hoff).symm⟩
    · cases h

theorem readLevelByte_inRange {c : Byte} (h : c.toNat ≤ 3) : ∃ v, readLevelByte c = some v := by
  have hcases : c.toNat < 3 ∨ c = 3 := by bv_omega
  rcases hcases with hlevel | rfl
  · exact ⟨_, dif_pos hlevel⟩
  · exact ⟨none, rfl⟩

/-- R154: a role name is 1 to 12 printable characters. -/
theorem roleOk_iff (r : List Byte) :
    roleOk r = true ↔ 1 ≤ r.length ∧ r.length ≤ 12 ∧ ∀ c ∈ r, 0x20 ≤ c.toNat ∧ c.toNat ≤ 0x7E := by
  simp [roleOk, printable, and_assoc]

/-- Section 10.14: a binding has the fields that a binding record gives. -/
def ManifestBinding.readFrom (b : ManifestBinding) (p : List Byte) : Prop :=
  b.role = p.drop 10 ∧ b.cls = at' p 2
    ∧ b.lane.map (·.val) = (if at' p 1 = 0xFF then none else some (at' p 1).toNat)
    ∧ b.level.map (·.val) = (if at' p 4 = 3 then none else some (at' p 4).toNat)
    ∧ b.required = (at' p 3).getLsbD 1 ∧ (b.access = .rw ↔ (at' p 3).getLsbD 2 = true)
    ∧ b.serial = (if (at' p 3).getLsbD 0 then some (word32 (at' p 5) (at' p 6) (at' p 7) (at' p 8)) else none)

/-- R156: only a record with its fields in their ranges is read, and each field is read from its place. -/
theorem readBinding_spec {p : List Byte} {b : ManifestBinding} (h : readBinding p = some b) : bindingFits p ∧ b.readFrom p := by
  unfold readBinding at h
  split at h
  · next lane level hlane hlevel =>
    obtain ⟨hlaneFits, hlaneRead⟩ := readLaneByte_spec hlane
    obtain ⟨hlevelFits, hlevelRead⟩ := readLevelByte_spec hlevel
    simp only [] at h
    split at h
    · next hfields =>
      obtain ⟨hrole, hcls, hflags, hserial⟩ := hfields
      obtain ⟨hmin, hmax, hchars⟩ := (roleOk_iff _).1 hrole
      have habsent : (at' p 3).getLsbD 0 = false → word32 (at' p 5) (at' p 6) (at' p 7) (at' p 8) = 0 :=
        fun hoff => hserial.resolve_left (by rw [hoff]; exact Bool.false_ne_true)
      cases h
      refine ⟨⟨hmin, hmax, hchars, hlaneFits, hcls, hlevelFits, hflags, habsent⟩, rfl, rfl, hlaneRead, hlevelRead, rfl, ?_, rfl⟩
      cases (at' p 3).getLsbD 2 <;> simp
    · cases h
  · cases h

/-- R156: a record with its fields in their ranges is read. -/
theorem readBinding_of_fits {p : List Byte} (h : bindingFits p) : ∃ b, readBinding p = some b := by
  obtain ⟨hmin, hmax, hchars, hlaneFits, hcls, hlevelFits, hflags, habsent⟩ := h
  obtain ⟨lane, hlane⟩ := readLaneByte_inRange hlaneFits
  obtain ⟨level, hlevel⟩ := readLevelByte_inRange hlevelFits
  have hserial : (at' p 3).getLsbD 0 = true ∨ word32 (at' p 5) (at' p 6) (at' p 7) (at' p 8) = 0 :=
    (Bool.eq_false_or_eq_true _).imp_right habsent
  unfold readBinding
  simp only [hlane, hlevel]
  exact ⟨_, if_pos ⟨(roleOk_iff _).2 ⟨hmin, hmax, hchars⟩, hcls, hflags, hserial⟩⟩

/-! ### MANIFEST_ENTRY (R156) -/

theorem exec_manifestEntry {s : State} {q : Request} {rest : List Request} (hq : s.queued q rest) (hk : q.kind = 0x29)
    (hl : lengthAllowed 0x29 q.payload = true) : exec .manifestEntry s = .next (serveManifestEntry q (s.took rest)) :=
  take_next hq (by simp [ofKind, hk]) (by rw [hk]; exact hl)

section
variable {q : Request} {s : State} {d : Load}

theorem serveManifestEntry_noLoad (h : s.store.load = none) : serveManifestEntry q s = s.refuse q .notLoading := by
  unfold serveManifestEntry
  rw [h]

theorem serveManifestEntry_outOfSequence (h : s.store.load = some d)
    (hbad : (at' q.payload 0).toNat ≠ d.received.length ∨ d.count ≤ d.received.length) :
    serveManifestEntry q s = s.refuse q .sequence := by
  unfold serveManifestEntry
  rw [h]
  refine if_neg (fun hnext => ?_)
  obtain ⟨hindex, hroom⟩ := hnext
  exact hbad.elim (· hindex) (by omega)

/-- R156: under the expected index, the fields of the record decide. -/
theorem serveManifestEntry_expected (h : s.store.load = some d) (hindex : (at' q.payload 0).toNat = d.received.length)
    (hroom : d.received.length < d.count) :
    (readBinding q.payload = none → serveManifestEntry q s = s.refuse q .badArgument)
    ∧ ∀ b, readBinding q.payload = some b →
        serveManifestEntry q s = State.ok { s with store := { s.store with load := some { d with received := d.received ++ [b] } } } q
          [byteOf (d.received.length + 1)] := by
  unfold serveManifestEntry
  rw [h]
  simp only [if_pos (And.intro hindex hroom)]
  exact ⟨fun hb => by rw [hb], fun b hb => by simp only [hb, List.length_append, List.length_singleton]⟩

end

/-- Settles O52: the checks by the three cases of serveManifestEntry, the fields by readBinding_spec and readBinding_of_fits. -/
theorem manifestEntryAddsBinding : Obligations.ManifestEntryAddsBinding := by
  unfold Obligations.ManifestEntryAddsBinding
  intro s q rest hq hk hl
  rw [exec_manifestEntry hq hk hl]
  refine ⟨fun hnone => ?_, fun d hd => ⟨fun hbad => ?_, fun hindex hroom => ?_⟩⟩
  · rw [serveManifestEntry_noLoad (s := s.took rest) hnone]
  · rw [serveManifestEntry_outOfSequence (s := s.took rest) hd hbad]
  · obtain ⟨hunread, hread⟩ := serveManifestEntry_expected (s := s.took rest) hd hindex hroom
    refine ⟨fun hunfit => congrArg _ (hunread ?_), fun hfits => ?_⟩
    · exact Option.eq_none_iff_forall_ne_some.2 (fun b hb => hunfit (readBinding_spec hb).1)
    · obtain ⟨b, hb⟩ := readBinding_of_fits hfits
      exact ⟨b, congrArg _ (hread b hb), (readBinding_spec hb).2⟩

/-! ### MANIFEST_END (R157) -/

theorem exec_manifestEnd {s : State} {q : Request} {rest : List Request} (hq : s.queued q rest) (hk : q.kind = 0x2A)
    (hp : q.payload = []) : exec .manifestEnd s = .next (serveManifestEnd q (s.took rest)) :=
  take_next hq (by simp [ofKind, hk]) (by rw [hk, hp]; rfl)

/-- R157: the tool or the applied slot of a resolved session is concerned by the commit. -/
theorem State.commitResolves_iff (s : State) (d : Load) : s.commitResolves d = true ↔ s.resolver.phase = .resolved
    ∧ (s.resolver.toolId = some d.toolId ∨ d.toolId = 0 ∨ s.resolver.applied = some d.slot) := by
  simp [State.commitResolves, or_assoc]

section
variable {q : Request} {s : State} {d : Load}

theorem serveManifestEnd_noLoad (h : s.store.load = none) : serveManifestEnd q s = s.refuse q .notLoading := by
  unfold serveManifestEnd
  rw [h]

theorem serveManifestEnd_incomplete (h : s.store.load = some d) (hfew : d.received.length < d.count) :
    serveManifestEnd q s = s.refuse q .incomplete := by
  unfold serveManifestEnd
  rw [h]
  exact if_pos hfew

/-- R157: a load that holds its count of bindings is discarded for a repeated role name, and committed otherwise. -/
theorem serveManifestEnd_complete (h : s.store.load = some d) (hfull : d.count ≤ d.received.length) :
    (¬ (d.received.map (·.role)).Nodup →
      serveManifestEnd q s = State.refuse { s with store := { s.store with load := none } } q .duplicateRole)
    ∧ ((d.received.map (·.role)).Nodup →
      serveManifestEnd q s = State.ok (if s.commitResolves d then State.fullResolution { s with store := s.store.commit d }
        else { s with store := s.store.commit d }) q (byteOf d.slot.val :: be16 d.toolId)) := by
  unfold serveManifestEnd
  rw [h]
  simp only [if_neg (Nat.not_lt.2 hfull)]
  refine ⟨fun hrepeat => if_pos ?_, fun hdistinct => if_neg ?_⟩
  · simp [Load.repeats, hrepeat]
  · simp [Load.repeats, hdistinct]

end

/-! ### MANIFEST_ERASE (R158) -/

theorem exec_manifestErase {s : State} {q : Request} {rest : List Request} {b : Byte} (hq : s.queued q rest) (hk : q.kind = 0x2B)
    (hp : q.payload = [b]) : exec .manifestErase s = .next (serveManifestErase q (s.took rest)) :=
  take_next hq (by simp [ofKind, hk]) (by rw [hk, hp]; rfl)

/-- R158: the slot becomes empty, and the applied slot of a resolved session is resolved anew. -/
theorem serveManifestErase_empties {q : Request} {i : Fin 8} (hp : q.payload = [byteOf i.val]) (s : State) :
    (s.resolver.phase = .resolved ∧ s.resolver.applied = some i → serveManifestErase q s
      = (State.fullResolution { s with store := { s.store with slots := s.store.slots.set i none } }).ok q [byteOf i.val])
    ∧ (¬ (s.resolver.phase = .resolved ∧ s.resolver.applied = some i) → serveManifestErase q s
      = State.ok { s with store := { s.store with slots := s.store.slots.set i none } } q [byteOf i.val]) := by
  have hslot : slotOf (at' q.payload 0) = some i := by rw [hp]; exact slotOf_byteOf i
  unfold serveManifestErase
  simp only [hslot]
  exact ⟨fun happlied => by rw [if_pos happlied], fun hother => by rw [if_neg hother]⟩

theorem serveManifestErase_outOfRange {q : Request} {b : Byte} (hp : q.payload = [b]) (hb : 7 < b.toNat) (s : State) :
    serveManifestErase q s = s.refuse q .badArgument := by
  have hslot : slotOf (at' q.payload 0) = none := by rw [hp]; exact slotOf_large b hb
  unfold serveManifestErase
  rw [hslot]

/-- Settles O53: the cases of serveManifestEnd and serveManifestErase, with State.commitResolves_iff on the full resolution. -/
theorem manifestIsCommittedOrErased : Obligations.ManifestIsCommittedOrErased := by
  unfold Obligations.ManifestIsCommittedOrErased
  refine ⟨fun s q rest hq hk hp => ?_, fun s q rest b i hq hk => ⟨fun hp => ?_, fun hp hb => ?_⟩⟩
  · rw [exec_manifestEnd hq hk hp]
    refine ⟨fun hnone => ?_, fun d hd => ⟨fun hfew => ?_, fun hfull hrepeat => ?_, fun hfull hdistinct => ?_⟩⟩
    · rw [serveManifestEnd_noLoad (s := s.took rest) hnone]
    · rw [serveManifestEnd_incomplete (s := s.took rest) hd hfew]
    · exact congrArg _ ((serveManifestEnd_complete (s := s.took rest) hd hfull).1 hrepeat)
    · have hresolves := (s.took rest).commitResolves_iff d
      rw [(serveManifestEnd_complete (s := s.took rest) hd hfull).2 hdistinct]
      refine ⟨_, rfl, fun hphase hconcerned => ?_, fun hother => ?_⟩
      · rw [if_pos (hresolves.2 ⟨hphase, hconcerned⟩)]
        rfl
      · rw [if_neg (fun h => ?_)]
        · rfl
        · obtain ⟨hphase, hconcerned⟩ := hresolves.1 h
          obtain ⟨htool, hanonymous, happlied⟩ := hother.resolve_left (not_not.2 hphase)
          exact hconcerned.elim htool (·.elim hanonymous happlied)
  · rw [exec_manifestErase hq hk hp]
    obtain ⟨hresolves, hempties⟩ := serveManifestErase_empties hp (s.took rest)
    exact ⟨_, rfl, fun hphase happlied => congrArg _ (hresolves ⟨hphase, happlied⟩),
      fun hother => congrArg _ (hempties (not_and_or.2 hother))⟩
  · rw [exec_manifestErase hq hk hp, serveManifestErase_outOfRange hp hb]

/-! ### MANIFEST_READ (R159) -/

theorem exec_manifestRead {s : State} {q : Request} {rest : List Request} {b k : Byte} (hq : s.queued q rest) (hk : q.kind = 0x2C)
    (hp : q.payload = [b, k]) : exec .manifestRead s = .next (serveManifestRead q (s.took rest)) :=
  take_next hq (by simp [ofKind, hk]) (by rw [hk, hp]; rfl)

section
variable {q : Request} {b k : Byte} {i : Fin 8}

theorem serveManifestRead_outOfRange (hp : q.payload = [b, k]) (hbad : 7 < b.toNat ∨ 23 < k.toNat) (s : State) :
    serveManifestRead q s = s.refuse q .badArgument := by
  have hslot : at' q.payload 0 = b := by rw [hp]; rfl
  have hindex : at' q.payload 1 = k := by rw [hp]; rfl
  unfold serveManifestRead
  simp only [hslot, hindex]
  cases hb : slotOf b with
  | none => rfl
  | some i => exact if_pos (hbad.resolve_left (fun h => nomatch (slotOf_large b h).symm.trans hb))

/-- R159: with the slot and the index in their ranges, the manifest of the slot decides. -/
theorem serveManifestRead_inRange (hp : q.payload = [byteOf i.val, k]) (hk : k.toNat ≤ 23) (s : State) :
    (s.store.slots[i] = none → serveManifestRead q s = s.refuse q .outOfRange)
    ∧ ∀ m, s.store.slots[i] = some m →
      (m.bindings[k.toNat]? = none → serveManifestRead q s = s.refuse q .outOfRange)
      ∧ ∀ x, m.bindings[k.toNat]? = some x →
        serveManifestRead q s = s.ok q (be16 m.toolId ++ (byteOf m.bindings.length :: x.record k.toNat)) := by
  have hslot : slotOf (at' q.payload 0) = some i := by rw [hp]; exact slotOf_byteOf i
  have hindex : at' q.payload 1 = k := by rw [hp]; rfl
  unfold serveManifestRead
  simp only [hslot, hindex, if_neg (Nat.not_lt.2 hk)]
  exact ⟨fun hempty => by rw [hempty],
    fun m hm => ⟨fun hpast => by simp only [hm, hpast], fun x hx => by simp only [hm, hx]⟩⟩

end

/-- Settles O54: the ranges by serveManifestRead_outOfRange, the slot and the index by serveManifestRead_inRange; the
record carries the index byte itself by byteOf_toNat. -/
theorem manifestReadReturnsBinding : Obligations.ManifestReadReturnsBinding := by
  unfold Obligations.ManifestReadReturnsBinding
  refine fun s q rest b k i hq hkind => ⟨fun hp hbad => ?_, fun hp hk => ?_⟩
  · rw [exec_manifestRead hq hkind hp, serveManifestRead_outOfRange hp hbad]
  · rw [exec_manifestRead hq hkind hp]
    obtain ⟨hempty, hheld⟩ := serveManifestRead_inRange hp hk (s.took rest)
    refine ⟨fun hnone => congrArg _ (hempty hnone), fun m hm => ⟨fun hpast => ?_, fun x hx => ?_⟩⟩
    · exact congrArg _ ((hheld m hm).1 (List.getElem?_eq_none hpast))
    · rw [(hheld m hm).2 x hx]
      unfold ManifestBinding.record
      rw [byteOf_toNat]
      cases x.lane <;> rfl

end Sys2Proof.Machine
end

section
/-! PROOFS. The requests of the Snapshot Buffer: SNAPSHOT (R174, R175), SNAPSHOT_PAGE (R176, R177) and SNAPSHOT_RELEASE (R178). -/

namespace Sys2Proof.Machine

section
variable {s : State} {q : Request} {rest : List Request}

theorem exec_snapshot (hq : s.queued q rest) (hk : q.kind = 0x30) (hp : q.payload = []) :
    exec .snapshot s = .next (serveSnapshot q (s.took rest)) :=
  take_next hq (by simp [ofKind, hk]) (by rw [hk, hp]; rfl)

theorem exec_snapshotPage {k : Byte} (hq : s.queued q rest) (hk : q.kind = 0x31) (hp : q.payload = [k]) :
    exec .snapshotPage s = .next (serveSnapshotPage q (s.took rest)) :=
  take_next hq (by simp [ofKind, hk]) (by rw [hk, hp]; rfl)

theorem exec_snapshotRelease (hq : s.queued q rest) (hk : q.kind = 0x32) (hp : q.payload = []) :
    exec .snapshotRelease s = .next (serveSnapshotRelease q (s.took rest)) :=
  take_next hq (by simp [ofKind, hk]) (by rw [hk, hp]; rfl)

end

section
variable {s : State} {q : Request} {sn : Snapshot}

/-! ### SNAPSHOT (R174, R175) -/

theorem serveSnapshot_held (h : s.snap = some sn) :
    serveSnapshot q s = s.answer q .latchedAlready (be16 sn.generation ++ [byteOf sn.copy.length]) := by
  unfold serveSnapshot
  rw [h]

theorem serveSnapshot_empty (h : s.snap = none) (hempty : s.dir.entries = []) :
    serveSnapshot q s = s.ok q (be16 s.dir.generation ++ [0, 0]) := by
  unfold serveSnapshot
  rw [h]
  exact if_pos (List.isEmpty_iff.2 hempty)

/-- R174, R175: the latch takes the draw that fixes the free bytes of its records (log entry 9). -/
theorem serveSnapshot_latches (h : s.snap = none) (hentries : s.dir.entries ≠ []) :
    serveSnapshot q s = State.ok { s with snap := some s.latch, draws := s.draws + 1 } q
      (be16 s.dir.generation ++ [byteOf s.dir.entries.length, byteOf (pageCount s.dir.entries.length)]) := by
  unfold serveSnapshot
  rw [h]
  exact if_neg (mt List.isEmpty_iff.1 hentries)

/-! ### SNAPSHOT_PAGE (R176, R177) -/

theorem serveSnapshotPage_notLatched (h : s.snap = none) : serveSnapshotPage q s = s.refuse q .notLatched := by
  unfold serveSnapshotPage
  rw [h]

/-- R177: a page of the snapshot is returned and marked, and an index past the last page is refused. -/
theorem serveSnapshotPage_latched {k : Byte} (h : s.snap = some sn) (hp : q.payload = [k]) :
    (sn.marks.length ≤ k.toNat → serveSnapshotPage q s = s.refuse q .badArgument)
    ∧ (k.toNat < sn.marks.length →
      serveSnapshotPage q s = State.ok { s with snap := sn.afterPage k.toNat } q (sn.page k.toNat)) := by
  have hindex : at' q.payload 0 = k := by rw [hp]; rfl
  unfold serveSnapshotPage
  rw [h, hindex]
  exact ⟨fun hpast => if_neg (Nat.not_lt.2 hpast), fun hpage => if_pos hpage⟩

/-- R176: the header of a page carries the index byte of the request itself. -/
theorem Snapshot.page_toNat (sn : Snapshot) (k : Byte) :
    sn.page k.toNat = [k, byteOf sn.marks.length] ++ be16 sn.generation
      ++ [byteOf ((sn.copy.drop (4 * k.toNat)).take 4).length]
      ++ (((sn.copy.drop (4 * k.toNat)).take 4).map (Entry.record sn.draw)).flatten := by
  unfold Snapshot.page
  rw [byteOf_toNat]

/-! ### SNAPSHOT_RELEASE (R178) -/

theorem serveSnapshotRelease_notLatched (h : s.snap = none) : serveSnapshotRelease q s = s.refuse q .notLatched := by
  unfold serveSnapshotRelease
  rw [h]

theorem serveSnapshotRelease_releases (h : s.snap = some sn) :
    serveSnapshotRelease q s = State.ok { s with snap := none } q (be16 sn.generation) := by
  unfold serveSnapshotRelease
  rw [h]

end

/-- Settles O57: the cases of serveSnapshot, serveSnapshotPage and serveSnapshotRelease on the state without the request,
with Snapshot.page_toNat on the bytes of a page. -/
theorem snapshotIsLatchedReadReleased : Obligations.SnapshotIsLatchedReadReleased := by
  unfold Obligations.SnapshotIsLatchedReadReleased
  refine fun s q rest hq => ⟨fun hk hp => ?_, fun k hk hp => ?_, fun hk hp => ?_⟩
  · rw [exec_snapshot hq hk hp]
    exact ⟨fun sn hheld => congrArg _ (serveSnapshot_held (s := s.took rest) hheld),
      fun hnone hempty => congrArg _ (serveSnapshot_empty (s := s.took rest) hnone hempty),
      fun hnone hentries => congrArg _ (serveSnapshot_latches (s := s.took rest) hnone hentries)⟩
  · rw [exec_snapshotPage hq hk hp]
    refine ⟨fun hnone => congrArg _ (serveSnapshotPage_notLatched (s := s.took rest) hnone), fun sn hheld => ?_⟩
    obtain ⟨hpast, hpage⟩ := serveSnapshotPage_latched (s := s.took rest) hheld hp
    refine ⟨fun hlarge => congrArg _ (hpast hlarge), fun hsmall => ?_⟩
    rw [hpage hsmall, Snapshot.page_toNat]
    rfl
  · rw [exec_snapshotRelease hq hk hp]
    exact ⟨fun hnone => congrArg _ (serveSnapshotRelease_notLatched (s := s.took rest) hnone),
      fun sn hheld => congrArg _ (serveSnapshotRelease_releases (s := s.took rest) hheld)⟩

end Sys2Proof.Machine
end

section
/-! PROOFS. The queue bounds (R186, R190) through every step. -/

namespace Sys2Proof.Machine

/-- The commands outside the Mate Monitor and the resets keep the queue bounds: what they add to the two queues is calm. -/
theorem kept_queuesFit : Kept State.queuesFit where
  settled h k := h.calm.queuesFit k
  engine _ _ _ h := h
  quiet s l h := easy_queues.quietWait (fun _ _ _ h => h) (fun _ _ h => h) s l nofun h
  trip s l _ h := (calm_trip s l).queuesFit h
  restart s l _ _ h := (calm_restartLane s l).queuesFit h
  settle _ _ _ h := h
  rescan _ l _ h := easy_queues.recallNext _ l h
  powerUp _ _ _ _ h := h
  rescanTimer _ _ _ _ h := h
  mask _ _ _ h := h
  missLimit _ _ _ _ _ h := h
  remove _ _ _ _ h := h

/-- R194: a cold reset empties both queues; the Mate Monitor's own acts leave them alone. -/
theorem keptMate_queuesFit : KeptMate State.queuesFit where
  settled h k := h.calm.queuesFit k
  cold _ _ _ := ⟨Nat.zero_le _, Nat.zero_le _⟩
  mate _ _ _ h := h
  close _ h := h
  opening _ _ h := h
  fault _ h := h

/-- Settles O5: every command keeps the queue bounds, by kept_queuesFit and keptMate_queuesFit. -/
theorem stepKeepsQueueBounds : Obligations.StepKeepsQueueBounds := by
  unfold Obligations.StepKeepsQueueBounds
  exact kept_queuesFit.step (fun s hs => keptMate_queuesFit.mates s hs)

end Sys2Proof.Machine
end

section
/-! PROOFS. The receiver of the Link Unit: its bytes, its gap timer and the judgement of a whole frame (R183 to R186, R194). -/

namespace Sys2Proof.Machine

section
variable {k : Link} {d : Timer}

/-! ### The judgement of a frame (R183, R186) -/

/-- R183, R186: what the Link Unit makes of the bytes from KIND through PAYLOAD that follow a good LEN, and of CHECK. -/
def Link.judged (k : Link) (body : List Byte) (c1 c2 : Byte) : Link :=
  if word16 c1 c2 ≠ crc16 (byteOf body.length :: body) then k.discard .check
  else if k.requests.length < Config.requestPlaces then
    k.accept { kind := at' body 0, token := at' body 1, payload := body.drop 2 }
  else k.discard .overrun

/-- Byte `i` after the first of a list is byte `i` of its tail. -/
theorem at'_cons (b : Byte) (p : List Byte) (i : Nat) : at' (b :: p) (i + 1) = at' p i := rfl

theorem at'_append_left {p : List Byte} {i : Nat} (h : i < p.length) (r : List Byte) : at' (p ++ r) i = at' p i := by
  unfold at'
  exact List.getD_append _ _ _ _ h

theorem at'_append_right (p r : List Byte) (i : Nat) : at' (p ++ r) (p.length + i) = at' r i := by
  unfold at'
  rw [List.getD_append_right _ _ _ _ (Nat.le_add_right _ _), Nat.add_sub_cancel_left]

/-- R183: a good LEN fits its byte. -/
theorem byteOf_goodLength {n : Nat} (h250 : n ≤ 250) : (byteOf n).toNat = n := byteOf_small (by omega)

/-- R183: LEN counts the bytes from KIND through PAYLOAD, so CHECK is the two bytes after them. -/
theorem Link.judge_eq_judged (k : Link) {body : List Byte} (h2 : 2 ≤ body.length) (h250 : body.length ≤ 250) (c1 c2 : Byte) :
    k.judge (byteOf body.length :: (body ++ [c1, c2])) = k.judged body c1 c2 := by
  have hlen : (at' (byteOf body.length :: (body ++ [c1, c2])) 0).toNat = body.length := byteOf_goodLength h250
  have hchecked : (byteOf body.length :: (body ++ [c1, c2])).take (body.length + 1) = byteOf body.length :: body := by simp
  have hc1 : at' (body ++ [c1, c2]) body.length = c1 := at'_append_right body [c1, c2] 0
  have hc2 : at' (body ++ [c1, c2]) (body.length + 1) = c2 := at'_append_right body [c1, c2] 1
  have hkind : at' (body ++ [c1, c2]) 0 = at' body 0 := at'_append_left (by omega) _
  have htoken : at' (body ++ [c1, c2]) 1 = at' body 1 := at'_append_left (by omega) _
  unfold Link.judge Link.judged
  simp only [hlen, hchecked, at'_cons, hc1, hc2, hkind, htoken, ne_eq, ite_not]
  rfl

/-! ### A byte inside a frame (R184) -/

theorem Link.byte_noise (h : k.receiver = .hunting) {b : Byte} (hb : b ≠ 0xE7) : k.byte b d = k := by
  unfold Link.byte
  rw [h]
  exact if_neg hb

theorem Link.byte_start (h : k.receiver = .hunting) : k.byte 0xE7 d = { k with receiver := .inFrame [], gapTimer := d } := by
  unfold Link.byte
  rw [h]
  exact if_pos rfl

theorem Link.byte_inFrame {got : List Byte} (h : k.receiver = .inFrame got) (b : Byte) : k.byte b d = k.inside (got ++ [b]) d := by
  unfold Link.byte
  rw [h]

/-- R184: a LEN below 2 or above 250 ends the frame. -/
theorem Link.inside_badLength {n : Byte} (h : n.toNat < 2 ∨ 250 < n.toNat) (xs : List Byte) :
    k.inside (n :: xs) d = k.discard .length := by
  unfold Link.inside
  exact if_pos h

/-- R184: under a good LEN the frame is whole when LEN bytes and CHECK have come after it. -/
theorem Link.inside_goodLength {n : Byte} (h2 : 2 ≤ n.toNat) (h250 : n.toNat ≤ 250) (xs : List Byte) : k.inside (n :: xs) d
    = if xs.length + 1 = n.toNat + 3 then k.judge (n :: xs) else { k with receiver := .inFrame (n :: xs), gapTimer := d } := by
  have hgood : ¬ (n.toNat < 2 ∨ 250 < n.toNat) := by omega
  unfold Link.inside
  exact if_neg hgood

theorem Link.inside_more {n : Byte} {xs : List Byte} (h2 : 2 ≤ n.toNat) (h250 : n.toNat ≤ 250) (hlen : xs.length < n.toNat + 2) :
    k.inside (n :: xs) d = { k with receiver := .inFrame (n :: xs), gapTimer := d } := by
  rw [Link.inside_goodLength h2 h250, if_neg (by omega)]

theorem Link.inside_last {n : Byte} {xs : List Byte} (h2 : 2 ≤ n.toNat) (h250 : n.toNat ≤ 250) (hlen : xs.length = n.toNat + 2) :
    k.inside (n :: xs) d = k.judge (n :: xs) := by
  rw [Link.inside_goodLength h2 h250, if_pos (by omega)]

/-- R184: the byte that completes CHECK has the frame judged (log entry 18). -/
theorem Link.byte_last {body : List Byte} {c1 : Byte} (h2 : 2 ≤ body.length) (h250 : body.length ≤ 250)
    (h : k.receiver = .inFrame (byteOf body.length :: (body ++ [c1]))) (c2 : Byte) : k.byte c2 d = k.judged body c1 c2 := by
  have hn : (byteOf body.length).toNat = body.length := byteOf_goodLength h250
  have hframe : (byteOf body.length :: (body ++ [c1])) ++ [c2] = byteOf body.length :: (body ++ [c1, c2]) := by simp
  have hlen : (body ++ [c1, c2]).length = (byteOf body.length).toNat + 2 := by rw [hn, List.length_append]; rfl
  rw [Link.byte_inFrame h, hframe, Link.inside_last (by omega) (by omega) hlen, k.judge_eq_judged h2 h250]

/-! ### The bytes of a whole frame (R184) -/

/-- R184: bytes that do not complete the frame are kept, and each starts the gap timer again. -/
theorem Link.bytes_more {n : Byte} (h2 : 2 ≤ n.toNat) (h250 : n.toNat ≤ 250) (bs xs : List Byte)
    (hlen : xs.length + bs.length < n.toNat + 2) :
    bs.foldl (fun k b => k.byte b d) { k with receiver := .inFrame (n :: xs), gapTimer := d }
      = { k with receiver := .inFrame (n :: (xs ++ bs)), gapTimer := d } := by
  induction bs generalizing xs with
  | nil => rw [List.append_nil]; rfl
  | cons b bs ih =>
    have hshort : (xs ++ [b]).length + bs.length < n.toNat + 2 := by
      rw [List.length_cons] at hlen
      rw [List.length_append, List.length_singleton]
      omega
    have hbyte : Link.byte { k with receiver := .inFrame (n :: xs), gapTimer := d } b d
        = { k with receiver := .inFrame (n :: (xs ++ [b])), gapTimer := d } :=
      (Link.byte_inFrame rfl b).trans (Link.inside_more (xs := xs ++ [b]) h2 h250 (by omega))
    rw [List.foldl_cons, hbyte, ih _ hshort, List.append_assoc, List.singleton_append]

/-- R183, R184: a whole frame with a good LEN, from a receiver that hunts. -/
theorem Link.bytes_frame (h : k.receiver = .hunting) {body : List Byte} (h2 : 2 ≤ body.length) (h250 : body.length ≤ 250)
    (c1 c2 : Byte) :
    (0xE7 :: byteOf body.length :: (body ++ [c1, c2])).foldl (fun k b => k.byte b d) k = k.judged body c1 c2 := by
  have hn : (byteOf body.length).toNat = body.length := byteOf_goodLength h250
  have hlen : Link.byte { k with receiver := .inFrame [], gapTimer := d } (byteOf body.length) d
      = { k with receiver := .inFrame [byteOf body.length], gapTimer := d } :=
    (Link.byte_inFrame rfl _).trans (Link.inside_more (xs := []) (by omega) (by omega) (Nat.zero_lt_succ _))
  have hbody : (body ++ [c1]).foldl (fun k b => k.byte b d) { k with receiver := .inFrame [byteOf body.length], gapTimer := d }
      = { k with receiver := .inFrame (byteOf body.length :: (body ++ [c1])), gapTimer := d } := by
    refine Link.bytes_more (by omega) (by omega) (body ++ [c1]) [] ?_
    rw [List.length_append, List.length_singleton, List.length_nil]
    omega
  have hsplit : body ++ [c1, c2] = (body ++ [c1]) ++ [c2] := by simp
  rw [hsplit, List.foldl_cons, List.foldl_cons, Link.byte_start h, hlen, List.foldl_append, hbody]
  exact Link.byte_last (k := { k with receiver := .inFrame (byteOf body.length :: (body ++ [c1])), gapTimer := d }) h2 h250 rfl c2

end

/-! ### The receiver's commands (R184, R194) -/

theorem exec_byteReceived_held {s : State} (h : s.hold ≠ none) (b : Byte) : exec (.byteReceived b) s = .next s :=
  congrArg Host.Outcome.next (if_pos (Option.isSome_iff_ne_none.2 h))

theorem State.receive_awake {s : State} (h : s.hold = none) (bs : List Byte) :
    s.receive bs = { s with link := bs.foldl (fun k b => k.byte b (some (s.now + 5))) s.link } :=
  if_neg (by rw [h]; decide)

theorem exec_receiveFrame_awake {s : State} (h : s.hold = none) (bs : List Byte) : exec (.receiveFrame bs) s
    = .next { s with link := bs.foldl (fun k b => k.byte b (some (s.now + 5))) s.link } :=
  congrArg Host.Outcome.next (State.receive_awake h bs)

theorem exec_byteReceived_awake {s : State} (h : s.hold = none) (b : Byte) :
    exec (.byteReceived b) s = .next { s with link := s.link.byte b (some (s.now + 5)) } :=
  congrArg Host.Outcome.next (State.receive_awake h [b])

/-- What one byte makes of the link is what it makes of the part. -/
theorem exec_byteReceived_of {s : State} (h : s.hold = none) {b : Byte} {k : Link} (hk : s.link.byte b (some (s.now + 5)) = k) :
    exec (.byteReceived b) s = .next { s with link := k } := by
  rw [exec_byteReceived_awake h, hk]

theorem exec_gapTimerExpiry {s : State} (h : s.link.gapTimer ≠ none) :
    exec .gapTimerExpiry s = .next { s with link := s.link.discard .gap } :=
  congrArg Host.Outcome.next (if_pos (Option.isSome_iff_ne_none.2 h))

/-- Settles O12: the bytes of the frame one after the other, by Link.bytes_frame. -/
theorem framesAreJudged : Obligations.FramesAreJudged := by
  unfold Obligations.FramesAreJudged
  intro s body c1 c2 hhold hhunt h2 h250
  rw [exec_receiveFrame_awake hhold, Link.bytes_frame hhunt h2 h250]
  rfl

/-- Settles O13: the cases of Link.byte and of Link.inside, with Link.byte_last on the byte that ends a frame. -/
theorem receiverTakesBytes : Obligations.ReceiverTakesBytes := by
  unfold Obligations.ReceiverTakesBytes
  refine fun s b got => ⟨fun hhold => exec_byteReceived_held hhold b, fun hhold hhunt hb => ?_, fun hhold hhunt hb => ?_,
    fun hhold hin hbad => ?_, fun hhold hin h2 h250 => ?_, fun hhold hin hgot h2 h250 hlen => ?_,
    fun body c1 hhold h2 h250 hin => ?_, exec_gapTimerExpiry⟩
  · exact exec_byteReceived_of hhold (Link.byte_noise hhunt hb)
  · rw [hb]
    exact exec_byteReceived_of hhold (Link.byte_start hhunt)
  · exact exec_byteReceived_of hhold ((Link.byte_inFrame hin b).trans (Link.inside_badLength hbad []))
  · exact exec_byteReceived_of hhold ((Link.byte_inFrame hin b).trans (Link.inside_more h2 h250 (Nat.zero_lt_succ _)))
  · obtain ⟨n, xs, rfl⟩ := List.exists_cons_of_ne_nil hgot
    have hmore : (xs ++ [b]).length < n.toNat + 2 := by
      rw [List.length_append]
      exact Nat.lt_of_succ_lt_succ hlen
    exact exec_byteReceived_of hhold ((Link.byte_inFrame hin b).trans (Link.inside_more h2 h250 hmore))
  · exact exec_byteReceived_of hhold (Link.byte_last h2 h250 hin b)

end Sys2Proof.Machine
end

section
/-! PROOFS. The transmitter of the Link Unit: TXD's choice of its next frame (R189), the reply that is built and the notice that is
posted (R183, R190). -/

namespace Sys2Proof.Machine

section
variable {k : Link}

/-! ### The choice of the next frame (R189) -/

theorem Link.begin_nothing (hr : k.reply = none) (hn : k.notices = []) : k.begin = k := by
  unfold Link.begin
  rw [hr, hn]
  cases k.tx <;> rfl

/-- R189: the reply goes out when no notice recorded ahead of it remains. -/
theorem Link.begin_reply {w : WaitingReply} (ht : k.tx = none) (hr : k.reply = some w) (h : k.notices = [] ∨ w.ahead = 0) :
    k.begin = { k with reply := none, tx := some (.reply w.reply) } := by
  unfold Link.begin
  rw [ht, hr]
  cases hn : k.notices with
  | nil => rfl
  | cons n ns =>
    have hahead : w.ahead = 0 := h.resolve_left (by rw [hn]; exact List.cons_ne_nil n ns)
    exact if_pos hahead

/-- R189: a notice recorded ahead of the reply goes out before it. -/
theorem Link.begin_ahead {w : WaitingReply} {n : Notice} {ns : List Notice} (ht : k.tx = none) (hr : k.reply = some w)
    (hn : k.notices = n :: ns) (h : w.ahead ≠ 0) :
    k.begin = { k with notices := ns, tx := some (.notice n), reply := some { w with ahead := w.ahead - 1 } } := by
  unfold Link.begin
  rw [ht, hr, hn]
  exact if_neg h

/-! ### The end of a frame (R187, R189) -/

theorem exec_transmitFrameEnd_notice {s : State} {n : Notice} (h : s.link.tx = some (.notice n)) (rate1 rate0 : Bool) :
    exec (.transmitFrameEnd rate1 rate0) s = .next { s with link := Link.begin { s.link with tx := none } } := by
  change execTransmitFrameEnd rate1 rate0 s = _
  unfold execTransmitFrameEnd
  rw [h]
  rfl

theorem State.replySent_plain {s : State} (h : s.unit = .replying none) (rate1 rate0 : Bool) :
    s.replySent rate1 rate0 = { s with unit := .free, link := s.link.begin } := by
  unfold State.replySent
  rw [h]
  rfl

/-- R187, R189: at a frame boundary that no reset follows, TXD takes its next frame, and a reply sent frees the Request Unit. -/
theorem exec_transmitFrameEnd_begins {s : State} {f : Outgoing} (htx : s.link.tx = some f)
    (hf : (∃ n, f = .notice n) ∨ (∃ r, f = .reply r) ∧ s.unit = .replying none) (rate1 rate0 : Bool) :
    ∃ u, exec (.transmitFrameEnd rate1 rate0) s = .next { s with unit := u, link := Link.begin { s.link with tx := none } }
      ∧ ((∃ n, f = .notice n) → u = s.unit) ∧ ((∃ r, f = .reply r) → u = .free) := by
  rcases hf with ⟨n, rfl⟩ | ⟨⟨r, rfl⟩, hu⟩
  · exact ⟨s.unit, exec_transmitFrameEnd_notice htx rate1 rate0, fun _ => rfl, nofun⟩
  · refine ⟨.free, ?_, nofun, fun _ => rfl⟩
    rw [exec_transmitFrameEnd_reply htx, State.replySent_plain (by exact hu)]

/-- Settles O14: the four cases of Link.begin on the link whose TXD is free. -/
theorem transmitterChoosesNextFrame : Obligations.TransmitterChoosesNextFrame := by
  unfold Obligations.TransmitterChoosesNextFrame
  intro s f rate1 rate0 htx hf
  obtain ⟨u, hexec, hnotice, hreply⟩ := exec_transmitFrameEnd_begins htx hf rate1 rate0
  exact ⟨_, hexec, rfl, hnotice, hreply, Link.begin_nothing (k := { s.link with tx := none }),
    fun n ns => Link.begin_head (k := { s.link with tx := none }) rfl,
    fun w => Link.begin_reply (k := { s.link with tx := none }) rfl,
    fun w n ns => Link.begin_ahead (k := { s.link with tx := none }) rfl⟩

/-! ### The reply that is built (R183, R189) -/

/-- R189: behind a frame on TXD a reply stands with the number of notices ahead of it. -/
theorem Link.send_waits {f : Outgoing} (h : k.tx = some f) (r : Reply) :
    k.send r = { k with reply := some { reply := r, ahead := k.notices.length } } :=
  Link.begin_busy (Option.isSome_of_eq_some h)

/-- On an idle TXD with no notice ahead a reply goes out at once (log entry 4). -/
theorem Link.send_begins (ht : k.tx = none) (hn : k.notices = []) (r : Reply) :
    k.send r = { k with reply := none, tx := some (.reply r) } :=
  Link.begin_reply (k := { k with reply := some { reply := r, ahead := k.notices.length } }) ht rfl (.inl hn)

/-! ### The notice that is posted (R190) -/

theorem Link.post_masked {n : Notice} (hm : k.mask.passes n = false) : k.post n = k :=
  if_neg (by rw [hm]; exact Bool.false_ne_true)

theorem Link.post_joins {n : Notice} {f : Outgoing} (hm : k.mask.passes n = true) (hl : k.notices.length < Config.noticePlaces)
    (ht : k.tx = some f) : k.post n = { k with notices := k.notices ++ [n] } :=
  (Link.post_room hm hl).trans (Link.begin_busy (Option.isSome_of_eq_some ht))

/-- A notice that finds TXD idle and its queue empty begins at once (log entry 4). -/
theorem Link.post_begins {n : Notice} (hm : k.mask.passes n = true) (ht : k.tx = none) (hr : k.reply = none)
    (hn : k.notices = []) : k.post n = { k with tx := some (.notice n) } := by
  rw [Link.post_room hm (by rw [hn]; decide), Link.begin_head (k := { k with notices := k.notices ++ [n] }) ht hr (by rw [hn]; rfl),
    ← hn]

/-- A notice that finds TXD idle behind others has the head of the queue begin (log entry 4). -/
theorem Link.post_behind {n x : Notice} {xs : List Notice} (hm : k.mask.passes n = true) (ht : k.tx = none) (hr : k.reply = none)
    (hn : k.notices = x :: xs) (hl : xs.length < 15) : k.post n = { k with notices := xs ++ [n], tx := some (.notice x) } := by
  rw [Link.post_room hm (by rw [hn]; exact Nat.succ_lt_succ hl)]
  exact Link.begin_head (k := { k with notices := k.notices ++ [n] }) ht hr (by rw [hn]; rfl)

end

/-- Settles O17: Link.send on a busy and on an idle TXD, and the cases of Link.post. -/
theorem replyIsBuilt : Obligations.ReplyIsBuilt := by
  unfold Obligations.ReplyIsBuilt
  refine ⟨fun s q st p => ⟨rfl, Link.currentReply_send _ _, fun f hf => Link.send_waits hf _, fun ht hn => Link.send_begins ht hn _⟩,
    fun k n => ⟨Link.post_masked, Link.post_full, fun f hm hl ht => Link.post_joins hm hl ht,
      fun hm ht hr => ⟨Link.post_begins hm ht hr, fun x xs => Link.post_behind hm ht hr⟩⟩,
    fun m => ⟨fun _ => rfl, fun _ => rfl, fun _ _ _ _ _ => rfl, fun _ _ => rfl, fun _ _ _ _ => rfl, fun _ _ => rfl, fun _ _ _ => rfl⟩⟩

end Sys2Proof.Machine
end

section
/-! PROOFS. The requests of the link chapter: what a row refuses (R187, R188, R192), STATUS (R191), IDENT (R195) and RESET (R193). -/

namespace Sys2Proof.Machine

/-! ### The rows of requests (R187, log entry 6) -/

/-- The codes of the rows that share a kind. -/
def codesOf (k : Byte) : List Byte :=
  requestRows.filterMap (fun row => if row.2.1 = k then row.2.2.map (·.2) else none)

/-- How a row takes its requests: one that has its kind alone takes each request of that kind; one that shares it takes those that
`selects` gives it, refuses a code that is not its own, and is served no payload that is too short to hold the code. -/
def rowTakes : Instr × Byte × Option (Nat × Byte) → Prop
  | (c, k, none) => ∃ serve, ∀ s, exec c s = .next (s.take (ofKind k) serve)
  | (c, k, some (i, b)) => ∃ serve, (∀ s, exec c s = .next (s.take (selects k i (codesOf k) b) serve))
      ∧ (∀ q s, at' q.payload i ≠ b → serve q s = s.refuse q .badArgument)
      ∧ ∀ p, lengthAllowed k p = true → i < p.length

theorem configureRow_takes {c : Instr} {b : Byte} {serve : Request → State → State}
    (h : ∀ s, exec c s = .next (s.take (configureRow b) (configureWith b serve))) : rowTakes (c, 0x03, some (0, b)) := by
  refine ⟨_, h, fun q s hne => if_neg hne, fun p hp => ?_⟩
  have hlen : p.length = 4 := of_decide_eq_true hp
  omega

theorem resetRow_takes {c : Instr} {b : Byte} {kind : ResetKind}
    (h : ∀ s, exec c s = .next (s.take (resetRow b) (serveReset b kind))) : rowTakes (c, 0x04, some (0, b)) := by
  refine ⟨_, h, fun q s hne => if_neg hne, fun p hp => ?_⟩
  have hlen : p.length = 1 := of_decide_eq_true hp
  omega

theorem overrideRow_takes {c : Instr} {mode : Override} {effect : Entry → State → State}
    (h : ∀ s, exec c s = .next (s.take (overrideRow (byteOf mode.code)) (serveOverride mode effect))) :
    rowTakes (c, 0x1B, some (1, byteOf mode.code)) := by
  refine ⟨_, h, fun q s hne => if_pos hne, fun p hp => ?_⟩
  have hlen : p.length = 2 := of_decide_eq_true hp
  omega

/-- Every row of requests takes its requests so. -/
theorem requestRows_take : ∀ row ∈ requestRows, rowTakes row := by
  simp only [requestRows, List.forall_mem_cons]
  exact ⟨⟨_, fun _ => rfl⟩, ⟨_, fun _ => rfl⟩,
    configureRow_takes fun _ => rfl, configureRow_takes fun _ => rfl, configureRow_takes fun _ => rfl,
    configureRow_takes fun _ => rfl, configureRow_takes fun _ => rfl, configureRow_takes fun _ => rfl,
    configureRow_takes fun _ => rfl,
    resetRow_takes fun _ => rfl, resetRow_takes fun _ => rfl,
    ⟨_, fun _ => rfl⟩, ⟨_, fun _ => rfl⟩, ⟨_, fun _ => rfl⟩, ⟨_, fun _ => rfl⟩, ⟨_, fun _ => rfl⟩, ⟨_, fun _ => rfl⟩,
    ⟨_, fun _ => rfl⟩, ⟨_, fun _ => rfl⟩,
    overrideRow_takes (mode := .auto) fun _ => rfl, overrideRow_takes (mode := .forcedPresent) fun _ => rfl,
    overrideRow_takes (mode := .forcedAbsent) fun _ => rfl,
    ⟨_, fun _ => rfl⟩, ⟨_, fun _ => rfl⟩, ⟨_, fun _ => rfl⟩, ⟨_, fun _ => rfl⟩, ⟨_, fun _ => rfl⟩, ⟨_, fun _ => rfl⟩,
    ⟨_, fun _ => rfl⟩, ⟨_, fun _ => rfl⟩, ⟨_, fun _ => rfl⟩, ⟨_, fun _ => rfl⟩, ⟨_, fun _ => rfl⟩, ⟨_, fun _ => rfl⟩,
    ⟨_, fun _ => rfl⟩, nofun⟩

/-- Commands listed with a byte are rows, if each entry of the list is one. -/
theorem mem_requestRows {rows : List (Instr × Byte)} {c : Instr} {x : Byte} (f : Byte → Byte × Option (Nat × Byte))
    (hrows : ∀ y ∈ rows, (y.1, f y.2) ∈ requestRows) (h : (c, x) ∈ rows) : (c, f x) ∈ requestRows := hrows _ h

/-! ### What a row refuses (R187, R188, R192) -/

section
variable {s : State} {q : Request} {rest : List Request} {c : Instr} {k : Byte}

/-- R187, step 2: a row that has its kind alone refuses a payload of the wrong length. -/
theorem ownRow_refuses (hrow : (c, k, none) ∈ requestRows) (hq : s.queued q rest) (hk : q.kind = k)
    (hlen : lengthAllowed k q.payload = false) : exec c s = .next ((s.took rest).refuse q .badArgument) := by
  obtain ⟨serve, hexec⟩ := requestRows_take _ hrow
  rw [hexec, State.take_refuses hq (decide_eq_true hk) (by rw [hk]; exact hlen)]

theorem at'_eq_of_getElem? {p : List Byte} {i : Nat} {x : Byte} (h : p[i]? = some x) : at' p i = x := by
  unfold at'
  rw [List.getD_eq_getElem?_getD, h]
  rfl

/-- A row selects a request that carries its code. -/
theorem selects_own {i : Nat} {b : Byte} {codes : List Byte} (hk : q.kind = k) (h : q.payload[i]? = some b) :
    selects k i codes b q = true := by
  obtain ⟨hi, _⟩ := List.getElem?_eq_some_iff.1 h
  unfold selects
  rw [decide_eq_true hk, decide_eq_true ⟨hi, at'_eq_of_getElem? h⟩]
  rfl

/-- A row selects a request that carries the code of none of the rows of its kind (log entry 6). -/
theorem selects_stray {i : Nat} {b : Byte} {codes : List Byte} (hk : q.kind = k) (h : ∀ x, q.payload[i]? = some x → x ∉ codes) :
    selects k i codes b q = true := by
  unfold selects
  rw [decide_eq_true hk, Bool.true_and, Bool.or_eq_true, Bool.not_eq_true', Bool.and_eq_false_iff]
  cases hx : q.payload[i]? with
  | none => exact .inr (.inl (decide_eq_false (Nat.not_lt.2 (List.getElem?_eq_none_iff.1 hx))))
  | some x =>
    rw [at'_eq_of_getElem? hx]
    exact .inr (.inr (by simpa using h x hx))

theorem mem_codesOf {i : Nat} {b : Byte} (hrow : (c, k, some (i, b)) ∈ requestRows) : b ∈ codesOf k :=
  List.mem_filterMap.2 ⟨_, hrow, if_pos rfl⟩

/-- R187, R192: a row that shares its kind refuses a payload of the wrong length with its own code, and one with the code of no
row. -/
theorem sharedRow_refuses {i : Nat} {b : Byte} (hrow : (c, k, some (i, b)) ∈ requestRows) (hq : s.queued q rest) (hk : q.kind = k)
    (hbad : (q.payload[i]? = some b ∧ lengthAllowed k q.payload = false) ∨ ∀ x, q.payload[i]? = some x → x ∉ codesOf k) :
    exec c s = .next ((s.took rest).refuse q .badArgument) := by
  obtain ⟨serve, hexec, hother, hlong⟩ := requestRows_take _ hrow
  have hmine : selects k i (codesOf k) b q = true := hbad.elim (fun h => selects_own hk h.1) (selects_stray hk)
  rw [hexec]
  cases hlen : lengthAllowed k q.payload with
  | false => rw [State.take_refuses hq hmine (by rw [hk]; exact hlen)]
  | true =>
    have hi := hlong _ hlen
    have hstray := hbad.resolve_left (fun h => nomatch hlen.symm.trans h.2) _ (List.getElem?_eq_getElem hi)
    have hcode : at' q.payload i ≠ b := by
      rw [at'_eq_of_getElem? (List.getElem?_eq_getElem hi)]
      exact fun h => hstray (h ▸ mem_codesOf hrow)
    rw [State.take_serves hq hmine (by rw [hk]; exact hlen), hother _ _ hcode]

theorem codesOf_configure {x : Byte} (h : x = 0 ∨ 7 < x.toNat) : x ∉ codesOf 0x03 := by
  have hcodes : ∀ b ∈ codesOf 0x03, b ≠ 0 ∧ b.toNat ≤ 7 := by decide
  intro hx
  obtain ⟨h0, h7⟩ := hcodes x hx
  exact h.elim h0 (Nat.not_lt.2 h7)

theorem codesOf_reset {x : Byte} (h : x ≠ 1 ∧ x ≠ 2) : x ∉ codesOf 0x04 := by
  have hcodes : ∀ b ∈ codesOf 0x04, b = 1 ∨ b = 2 := by decide
  exact fun hx => (hcodes x hx).elim h.1 h.2

theorem codesOf_override {x : Byte} (h : 2 < x.toNat) : x ∉ codesOf 0x1B := by
  have hcodes : ∀ b ∈ codesOf 0x1B, b.toNat ≤ 2 := by decide
  exact fun hx => Nat.not_lt.2 (hcodes x hx) h

/-! ### UNKNOWN_KIND (R187) -/

/-- R187, step 1: the row of UNKNOWN_KIND takes a request whose kind is none of section 10.11. -/
theorem exec_unknownKind (hq : s.queued q rest) (hk : q.kind ∉ requestKinds) :
    exec .unknownKind s = .next ((s.took rest).replyThen q.unknownReply none) := by
  obtain ⟨htake, hhead⟩ := hq
  change execUnknownKind s = _
  unfold execUnknownKind
  rw [if_pos htake, hhead]
  exact congrArg Host.Outcome.next (if_neg (by simpa using hk))

end

/-- Settles O18: exec_unknownKind, ownRow_refuses for the kinds of one row, and sharedRow_refuses for CONFIGURE, RESET and
OVERRIDE. -/
theorem unfitRequestsAreRefused : Obligations.UnfitRequestsAreRefused := by
  unfold Obligations.UnfitRequestsAreRefused
  refine fun s q rest hq => ⟨exec_unknownKind hq, fun c k hk hlen hrow => ?_, fun c b hk hrow hbad => ?_, fun c b hk hrow hbad => ?_,
    fun c b hk hrow hbad => ?_⟩
  · exact ownRow_refuses (mem_requestRows (fun k => (k, none)) (by decide) hrow) hq hk hlen
  · rw [List.head?_eq_getElem?] at hbad
    exact sharedRow_refuses (mem_requestRows (fun b => (0x03, some (0, b))) (by decide) hrow) hq hk
      (hbad.imp (.imp_right decide_eq_false) (fun h x hx => codesOf_configure (h x hx)))
  · rw [List.head?_eq_getElem?] at hbad
    exact sharedRow_refuses (mem_requestRows (fun b => (0x04, some (0, b))) (by decide) hrow) hq hk
      (hbad.imp (.imp_right decide_eq_false) (fun h x hx => codesOf_reset (h x hx)))
  · exact sharedRow_refuses (mem_requestRows (fun b => (0x1B, some (1, b))) (by decide) hrow) hq hk
      (hbad.imp (.imp_right decide_eq_false) (fun h x hx => codesOf_override (h x hx)))

section
variable {s : State} {q : Request} {rest : List Request}

/-! ### STATUS (R191) -/

theorem exec_status {c : Byte} (hq : s.queued q rest) (hk : q.kind = 0x01) (hp : q.payload = [c]) :
    exec .status s = .next (serveStatus q (s.took rest)) :=
  take_next hq (by simp [ofKind, hk]) (by rw [hk, hp]; rfl)

/-- R191: a clear flag of 0 or 1 is taken: the reply carries the state as it stood, and the flag 1 clears NOTICES_LOST and the link
fault record. -/
theorem serveStatus_reports {c : Byte} (hp : q.payload = [c]) (hc : c = 0 ∨ c = 1) (s : State) : serveStatus q s
    = State.ok { s with draws := s.draws + 1, link := if c = 1 then s.link.clearFaults else s.link } q s.statusPayload := by
  have hflag : at' q.payload 0 = c := by rw [hp]; rfl
  unfold serveStatus
  rw [hflag]
  rcases hc with rfl | rfl <;> rfl

theorem serveStatus_refuses {c : Byte} (hp : q.payload = [c]) (h0 : c ≠ 0) (h1 : c ≠ 1) (s : State) :
    serveStatus q s = s.refuse q .badArgument := by
  have hflag : at' q.payload 0 = c := by rw [hp]; rfl
  have hlarge : 1 < c.toNat := by bv_omega
  unfold serveStatus
  rw [hflag]
  exact if_pos hlarge

/-- R197: the slot of the applied manifest, or 0xFF. -/
theorem optionalByte_slot (slot : Option (Fin 8)) : optionalByte (slot.map (·.val)) = match slot with
    | some i => byteOf i.val
    | none => 0xFF := by
  cases slot <;> rfl

/-! ### IDENT (R195) -/

theorem exec_ident (hq : s.queued q rest) (hk : q.kind = 0x02) (hp : q.payload = []) :
    exec .ident s = .next ((s.took rest).ok q identPayload) :=
  take_next hq (by simp [ofKind, hk]) (by rw [hk, hp]; rfl)

/-! ### RESET (R193) -/

/-- R193: the row of a kind of reset answers it OK, and the reset waits for the reply. -/
theorem serveReset_answers {c : Byte} (hp : q.payload = [c]) (kind : ResetKind) (s : State) :
    serveReset c kind q s = s.replyThen (q.replyWith .ok [c]) (some kind) :=
  if_pos (by rw [hp]; rfl)

theorem take_reset {c : Byte} (hq : s.queued q rest) (hk : q.kind = 0x04) (hp : q.payload = [c])
    (serve : Request → State → State) :
    (Host.Outcome.next (s.take (resetRow c) serve) : Host.Outcome State Fault Refusal) = .next (serve q (s.took rest)) :=
  take_next hq (selects_own hk (by rw [hp]; rfl)) (by rw [hk, hp]; rfl)

end

/-- Settles O19: serveStatus_reports on the state without the request, and serveStatus_refuses. -/
theorem statusReports : Obligations.StatusReports := by
  unfold Obligations.StatusReports
  intro s q rest c hq hk hp
  rw [exec_status hq hk hp]
  refine ⟨fun hc => ?_, fun h0 h1 => congrArg _ (serveStatus_refuses hp h0 h1 _)⟩
  rw [serveStatus_reports hp hc]
  unfold State.statusPayload
  rw [optionalByte_slot]
  rfl

/-- Settles O20: exec_ident, and ownRow_refuses on a payload that is not empty. -/
theorem identReportsPart : Obligations.IdentReportsPart := by
  unfold Obligations.IdentReportsPart
  exact fun s q rest hq hk => ⟨exec_ident hq hk, fun hp =>
    ownRow_refuses (by decide) hq hk (decide_eq_false (mt List.length_eq_zero_iff.1 hp))⟩

/-- Settles O24: the row of the kind by serveReset_answers, and either row on another kind by sharedRow_refuses. -/
theorem resetIsAnsweredFirst : Obligations.ResetIsAnsweredFirst := by
  unfold Obligations.ResetIsAnsweredFirst
  refine fun s q rest k hq hk hp => ⟨?_, ?_, fun h1 h2 => ?_⟩
  · rintro rfl
    exact (take_reset hq hk hp _).trans (congrArg _ (serveReset_answers hp .soft _))
  · rintro rfl
    exact (take_reset hq hk hp _).trans (congrArg _ (serveReset_answers hp .full _))
  · have hstray : ∀ x, q.payload[0]? = some x → x ∉ codesOf 0x04 := by
      intro x hx
      rw [hp] at hx
      cases hx
      exact codesOf_reset ⟨h1, h2⟩
    exact ⟨sharedRow_refuses (b := 1) (by decide) hq hk (.inr hstray), sharedRow_refuses (b := 2) (by decide) hq hk (.inr hstray)⟩

end Sys2Proof.Machine
end

section
/-! PROOFS. The step and the queue of commands, and the commands that come out of their turn (R187, log entries 1 and 3). -/

namespace Sys2Proof.Machine

/-! ### The step and the queue of commands (log entry 3) -/

theorem step_of_pending {s : State} {c : Instr} {rest : List Instr} (h : s.pending = c :: rest) :
    step s = exec c { s with pending := rest } := by
  unfold step
  rw [h]

theorem step_of_empty {s : State} (h : s.pending = []) : step s = .next { s with now := s.now + 1 } := by
  unfold step
  rw [h]

/-- Settles O1: step_of_pending on the state with the command put at the front. -/
theorem stepRunsQueueHead : Obligations.StepRunsQueueHead := by
  unfold Obligations.StepRunsQueueHead
  exact fun c s => step_of_pending (s := { s with pending := c :: s.pending }) rfl

/-- Settles O2: step_of_empty. -/
theorem emptyQueueTicks : Obligations.EmptyQueueTicks := by
  unfold Obligations.EmptyQueueTicks
  exact fun s => step_of_empty

/-! ### Requests that a row cannot take (R187, log entry 1) -/

/-- The codes of a kind hold the code of every row of that kind, so `selects_row` speaks of a row that selects by them. -/
theorem selects_codesOf {k : Byte} {i : Nat} {b : Byte} {q : Request} (h : selects k i (codesOf k) b q = true) :
    q.kind = k ∧ ∀ j c, (some (i, b) : Option (Nat × Byte)) = some (j, c) → ∀ x, q.payload[j]? = some x → x ≠ c →
      ∀ d, (d, k, some (j, x)) ∉ requestRows := by
  refine selects_row (List.all_eq_true.2 fun row hrow => ?_) q h
  obtain ⟨d, kind, code⟩ := row
  by_cases hkind : kind = k
  · cases code with
    | none => simp
    | some y =>
      have hmem : y.2 ∈ codesOf k := mem_codesOf (hkind ▸ hrow)
      simp [hmem]
  · simp [hkind]

/-- The row of a request that it cannot take leaves the state as it is. -/
theorem exec_cannotTake {c : Instr} {s : State} (h : Instr.cannotTake c s) : exec c s = .next s := by
  obtain ⟨k, code, hrow, hnot⟩ := h
  have htakes := requestRows_take _ hrow
  cases code with
  | none =>
    obtain ⟨serve, hexec⟩ := htakes
    rw [hexec]
    exact State.take_stays (code := none) _ _ (fun q hq => ⟨of_decide_eq_true hq, fun _ _ h => nomatch h⟩) hnot
  | some code =>
    obtain ⟨i, b⟩ := code
    obtain ⟨serve, hexec, _⟩ := htakes
    rw [hexec]
    exact State.take_stays _ _ (fun q hq => selects_codesOf hq) hnot

/-- The row of UNKNOWN_KIND leaves a request of a known kind to the rows of that kind. -/
theorem exec_unknownKind_stays {s : State} (h : s.canTake = false ∨ s.link.requests = [] ∨
    ∃ q rest, s.link.requests = q :: rest ∧ q.kind ∈ requestKinds) : exec .unknownKind s = .next s := by
  change execUnknownKind s = _
  unfold execUnknownKind
  obtain hbusy | hempty | ⟨q, rest, hhead, hkind⟩ := h
  · rw [if_neg (by rw [hbusy]; exact Bool.false_ne_true)]
  · rw [hempty, ite_self]
  · rw [hhead]
    simp [hkind]

/-! ### Events that the part does not wait for (log entry 1) -/

/-- The expiry of a timer that is stopped leaves the state as it is. -/
theorem expiry_of_stopped {timer : Timer} (h : timer = none) (t s : State) :
    (Host.Outcome.next (if timer.isSome then t else s) : Host.Outcome State Fault Refusal) = .next s := by
  rw [h]
  rfl

/-- What an event makes of the part that the engine of a lane takes in the phase `p` alone (R32). -/
def State.onPhase (s : State) (l : LaneId) (p : EnginePhase) (act : Underway → State) : State :=
  match (s.lane l).engine with
  | some u => if u.phase = p then act u else s
  | none => s

theorem State.onPhase_stays {s : State} {l : LaneId} {p : EnginePhase} (act : Underway → State)
    (h : ∀ u, (s.lane l).engine = some u → u.phase ≠ p) : s.onPhase l p act = s := by
  unfold State.onPhase
  split
  next u hu => exact if_neg (h u hu)
  next => rfl

theorem exec_telegramSent_onPhase (l : LaneId) (s : State) : exec (.telegramSent l) s
    = .next (s.onPhase l .sending fun u => s.setPhase l u u.telegram.phaseAfterSend) := rfl

theorem exec_answerTimeout_onPhase (l : LaneId) (s : State) : exec (.answerTimeout l) s
    = .next (s.onPhase l .window fun u => s.setPhase l u (.quiet u.telegram.noCarrier)) := rfl

theorem exec_carrierBegins_onPhase (l : LaneId) (s : State) : exec (.carrierBegins l) s
    = .next (s.onPhase l .window fun u => s.setPhase l u .receiving) := rfl

theorem exec_answerEnd_onPhase (l : LaneId) (contention : Bool) (bytes : List Byte) (s : State) :
    exec (.answerEnd l contention bytes) s
      = .next (s.onPhase l .receiving fun u => s.setPhase l u (.quiet (judgeAnswer u.telegram contention bytes))) := rfl

theorem exec_carrierLimitExpiry_onPhase (l : LaneId) (s : State) : exec (.carrierLimitExpiry l) s
    = .next (s.onPhase l .receiving fun u => s.setPhase l u (.quiet u.telegram.overrun)) := rfl

theorem exec_rollcallSlotsEnd_onPhase (l : LaneId) (hits : BitVec 30) (s : State) : exec (.rollcallSlotsEnd l hits) s
    = .next (s.onPhase l .slots fun u => s.setPhase l u (.quiet (.hits hits))) := rfl

/-- An engine that does not wait for quiet takes no end of that wait. -/
theorem State.quietWait_stays {s : State} {l : LaneId} (h : ∀ u r, (s.lane l).engine = some u → u.phase ≠ .quiet r) :
    s.quietWait l = s := by
  unfold State.quietWait
  split
  next u hu =>
    split
    next r hr => exact absurd hr (h u r hu)
    all_goals rfl
  next => rfl

/-- The deadline of a slot that is empty, or that runs none, leaves the state as it is. -/
theorem exec_attentionDeadlineExpiry_stays {s : State} {l : LaneId} {v : LevelId}
    (h : ∀ r, (s.lane l).attention.slots.get v = some r → r.deadline = none) :
    exec (.attentionDeadlineExpiry l v) s = .next s := by
  change execAttentionDeadlineExpiry l v s = _
  unfold execAttentionDeadlineExpiry
  split
  next r hr => exact expiry_of_stopped (h r hr) _ _
  next => rfl

theorem exec_transmitFrameEnd_idle {s : State} (h : s.link.tx = none) (rate1 rate0 : Bool) :
    exec (.transmitFrameEnd rate1 rate0) s = .next s := by
  change execTransmitFrameEnd rate1 rate0 s = _
  unfold execTransmitFrameEnd
  rw [h]

theorem exec_resetRelease_unheld {s : State} (h : s.hold = none) (rate1 rate0 : Bool) :
    exec (.resetRelease rate1 rate0) s = .next s := by
  change execResetRelease rate1 rate0 s = _
  unfold execResetRelease
  rw [h]

theorem exec_nodeNamedReport_none {s : State} (h : s.resolver.reports = []) : exec .nodeNamedReport s = .next s := by
  change execNodeNamedReport s = _
  unfold execNodeNamedReport
  rw [h]

/-! ### Every command (log entry 1) -/

/-- No meaning ends in a fault or a refusal. -/
theorem exec_answers_next (c : Instr) (s : State) : ∃ t, exec c s = .next t := by
  cases c <;> exact ⟨_, rfl⟩

theorem exec_outOfTurn {c : Instr} {s : State} (h : Instr.outOfTurn c s) : exec c s = .next s := by
  obtain hrow | hevent := h
  · exact exec_cannotTake hrow
  cases c with
  | unknownKind => exact exec_unknownKind_stays hevent
  | debounceExpiry => exact expiry_of_stopped hevent _ _
  | partialExpiry => exact expiry_of_stopped hevent _ _
  | gapTimerExpiry => exact expiry_of_stopped hevent _ _
  | accessTimerExpiry => exact expiry_of_stopped hevent _ _
  | settleTimerExpiry l => exact expiry_of_stopped hevent _ _
  | restartTimerExpiry l => exact expiry_of_stopped hevent _ _
  | rescanTimerExpiry l => exact expiry_of_stopped hevent _ _
  | pollGapTimerExpiry l => exact expiry_of_stopped hevent _ _
  | rollcallGapTimerExpiry l => exact expiry_of_stopped hevent _ _
  | attentionDeadlineExpiry l v => exact exec_attentionDeadlineExpiry_stays hevent
  | telegramSent l => rw [exec_telegramSent_onPhase, State.onPhase_stays _ hevent]
  | answerTimeout l => rw [exec_answerTimeout_onPhase, State.onPhase_stays _ hevent]
  | carrierBegins l => rw [exec_carrierBegins_onPhase, State.onPhase_stays _ hevent]
  | answerEnd l contention bytes => rw [exec_answerEnd_onPhase, State.onPhase_stays _ hevent]
  | carrierLimitExpiry l => rw [exec_carrierLimitExpiry_onPhase, State.onPhase_stays _ hevent]
  | rollcallSlotsEnd l hits => rw [exec_rollcallSlotsEnd_onPhase, State.onPhase_stays _ hevent]
  | quietWaitEnd l => rw [exec_quietWait (.inl rfl), State.quietWait_stays hevent]
  | quietWaitLimitExpiry l => rw [exec_quietWait (.inr rfl), State.quietWait_stays hevent]
  | overcurrentTrip l => exact exec_overcurrentTrip_off hevent
  | transmitFrameEnd rate1 rate0 => exact exec_transmitFrameEnd_idle hevent rate1 rate0
  | resetRelease rate1 rate0 => exact exec_resetRelease_unheld hevent rate1 rate0
  | nodeNamedReport => exact exec_nodeNamedReport_none hevent
  | _ => exact False.elim hevent

/-- Settles O3: exec_answers_next and exec_outOfTurn. -/
theorem everyCommandAnswersNext : Obligations.EveryCommandAnswersNext := by
  unfold Obligations.EveryCommandAnswersNext
  exact fun c s => ⟨exec_answers_next c s, exec_outOfTurn⟩

end Sys2Proof.Machine
end
